-- ==== Sys2Proof/Word.lean ====
section
/-! DEFINITION. The word types of the block (spec/00_scope.md R10, R11). -/

namespace Sys2Proof

/-- One byte of host memory or of a frame. -/
abbrev Byte := BitVec 8

/-- A 16-bit quantity: a descriptor length, an EEPROM word, a host-operation word. -/
abbrev Half := BitVec 16

/-- A 32-bit device register cell, physical address or virtual address (R10, R9 `PHYS_BITS`). -/
abbrev Word := BitVec 32

/-- `bit(i)` of R12: the 32-bit value `1 << i`. -/
def bit (i : Nat) : Word := 1#32 <<< i

end Sys2Proof
end

