-- ==== Sys2Proof/Syntax.lean ====
section
/-! DEFINITION. The whole syntax: one constructor of `Instr` for each row of spec/opcode_table.json. -/

namespace Sys2Proof

/-- The registers of spec/10_state.md R33, in the order of its table. -/
inductive Reg where
  | ctrl | status | eerd | icr | ims
  | imc | rctl | tctl | rdbal | rdbah
  | rdlen | rdh | rdt | tdbal | tdbah
  | tdlen | tdh | tdt | ral0 | rah0
deriving DecidableEq, Repr, Inhabited

/-- The control groups of R71: DeviceControl, ReceiveControl, TransmitControl, InterruptEnable, InterruptDisable. -/
inductive Group where
  | dc | rc | tc | ie | id
deriving DecidableEq, Repr, Inhabited

/-- The two descriptor rings. -/
inductive Ring where
  | tx | rx
deriving DecidableEq, Repr, Inhabited

/-- The instructions: 40 MMIO requests (spec/40_mmio_registers.md) and 47 host operations (30_encoding.md R145).
Operand forms are those of 30_encoding.md R146: `mode`, `size`, `fraction` and `value` are unbounded integers, an `index`
and a `len` are numbers the operation checks. -/
inductive Instr where
  /-- `mmio.r CTRL`, R201. -/
  | mmioRCtrl
  /-- `mmio.w CTRL`, R202. -/
  | mmioWCtrl (data : Word)
  /-- `mmio.r STATUS`, R203. -/
  | mmioRStatus
  /-- `mmio.w STATUS`, R204. -/
  | mmioWStatus (data : Word)
  /-- `mmio.r EERD`, R205. -/
  | mmioREerd
  /-- `mmio.w EERD`, R206. -/
  | mmioWEerd (data : Word)
  /-- `mmio.r ICR`, R207. -/
  | mmioRIcr
  /-- `mmio.w ICR`, R208. -/
  | mmioWIcr (data : Word)
  /-- `mmio.r IMS`, R209. -/
  | mmioRIms
  /-- `mmio.w IMS`, R210. -/
  | mmioWIms (data : Word)
  /-- `mmio.r IMC`, R211. -/
  | mmioRImc
  /-- `mmio.w IMC`, R212. -/
  | mmioWImc (data : Word)
  /-- `mmio.r RCTL`, R213. -/
  | mmioRRctl
  /-- `mmio.w RCTL`, R214. -/
  | mmioWRctl (data : Word)
  /-- `mmio.r TCTL`, R215. -/
  | mmioRTctl
  /-- `mmio.w TCTL`, R216. -/
  | mmioWTctl (data : Word)
  /-- `mmio.r RDBAL`, R217. -/
  | mmioRRdbal
  /-- `mmio.w RDBAL`, R218. -/
  | mmioWRdbal (data : Word)
  /-- `mmio.r RDBAH`, R219. -/
  | mmioRRdbah
  /-- `mmio.w RDBAH`, R220. -/
  | mmioWRdbah (data : Word)
  /-- `mmio.r RDLEN`, R221. -/
  | mmioRRdlen
  /-- `mmio.w RDLEN`, R222. -/
  | mmioWRdlen (data : Word)
  /-- `mmio.r RDH`, R223. -/
  | mmioRRdh
  /-- `mmio.w RDH`, R224. -/
  | mmioWRdh (data : Word)
  /-- `mmio.r RDT`, R225. -/
  | mmioRRdt
  /-- `mmio.w RDT`, R226. -/
  | mmioWRdt (data : Word)
  /-- `mmio.r TDBAL`, R227. -/
  | mmioRTdbal
  /-- `mmio.w TDBAL`, R228. -/
  | mmioWTdbal (data : Word)
  /-- `mmio.r TDBAH`, R229. -/
  | mmioRTdbah
  /-- `mmio.w TDBAH`, R230. -/
  | mmioWTdbah (data : Word)
  /-- `mmio.r TDLEN`, R231. -/
  | mmioRTdlen
  /-- `mmio.w TDLEN`, R232. -/
  | mmioWTdlen (data : Word)
  /-- `mmio.r TDH`, R233. -/
  | mmioRTdh
  /-- `mmio.w TDH`, R234. -/
  | mmioWTdh (data : Word)
  /-- `mmio.r TDT`, R235. -/
  | mmioRTdt
  /-- `mmio.w TDT`, R236. -/
  | mmioWTdt (data : Word)
  /-- `mmio.r RAL0`, R237. -/
  | mmioRRal0
  /-- `mmio.w RAL0`, R238. -/
  | mmioWRal0 (data : Word)
  /-- `mmio.r RAH0`, R239. -/
  | mmioRRah0
  /-- `mmio.w RAH0`, R240. -/
  | mmioWRah0 (data : Word)
  /-- `reg.set`, R260. -/
  | regSet (reg : Reg) (values mask : Word)
  /-- `reg.decide`, R261. -/
  | regDecide (reg : Reg) (values : Word) (enable : Bool)
  /-- `reg.confirm`, R262. -/
  | regConfirm (reg : Reg)
  /-- `reg.readdirect`, R264. -/
  | regReaddirect (reg : Reg)
  /-- `dc.setlinkup`, R268. -/
  | dcSetlinkup (on : Bool)
  /-- `dc.autospeed`, R269. -/
  | dcAutospeed (on : Bool)
  /-- `rc.enable`, R270. -/
  | rcEnable (on : Bool)
  /-- `rc.loopback`, R271. -/
  | rcLoopback (mode : Int)
  /-- `rc.bufsize`, R272. -/
  | rcBufsize (size : Int)
  /-- `rc.minthreshold`, R273. -/
  | rcMinthreshold (fraction : Int)
  /-- `rc.broadcast`, R274. -/
  | rcBroadcast (on : Bool)
  /-- `tc.enable`, R275. -/
  | tcEnable (on : Bool)
  /-- `tc.padshort`, R276. -/
  | tcPadshort (on : Bool)
  /-- `tc.collthresh`, R277. -/
  | tcCollthresh (value : Int)
  /-- `tc.colldist`, R278. -/
  | tcColldist (value : Int)
  /-- `ie.enable`, R279. -/
  | ieEnable (causes : Word)
  /-- `id.disable`, R280. -/
  | idDisable (causes : Word)
  /-- `grp.manage`, R281. -/
  | grpManage (group : Group)
  /-- `ic.readclear`, R301. -/
  | icReadclear
  /-- `ic.linkchanged`, R302. -/
  | icLinkchanged
  /-- `ic.overrun`, R303. -/
  | icOverrun
  /-- `ic.minthreshold`, R304. -/
  | icMinthreshold
  /-- `ic.rxtimer`, R305. -/
  | icRxtimer
  /-- `ic.mdiodone`, R306. -/
  | icMdiodone
  /-- `ic.unhandled`, R307. -/
  | icUnhandled
  /-- `txd.writeaddress`, R321. -/
  | txdWriteaddress (index : Nat) (pa : Word)
  /-- `txd.writelength`, R322. -/
  | txdWritelength (index len : Nat)
  /-- `txd.writecommand`, R323. -/
  | txdWritecommand (index : Nat)
  /-- `txd.isdone`, R324. -/
  | txdIsdone (index : Nat)
  /-- `rxd.writeaddress`, R325. -/
  | rxdWriteaddress (index : Nat) (pa : Word)
  /-- `rxd.getpacketaddress`, R326. -/
  | rxdGetpacketaddress (index : Nat)
  /-- `rxd.readlength`, R327. -/
  | rxdReadlength (index : Nat)
  /-- `rxd.iseop`, R328. -/
  | rxdIseop (index : Nat)
  /-- `rxd.clearstatus`, R329. -/
  | rxdClearstatus (index : Nat)
  /-- `rxd.haserrors`, R330. -/
  | rxdHaserrors (index : Nat)
  /-- `rxd.done`, R331. -/
  | rxdDone (index : Nat)
  /-- `ring.current`, R333. -/
  | ringCurrent (ring : Ring)
  /-- `ring.setnext`, R334. -/
  | ringSetnext (ring : Ring)
  /-- `hwring.init`, R340. -/
  | hwringInit (ring : Ring)
  /-- `hwring.movetail`, R343. -/
  | hwringMovetail (ring : Ring)
  /-- `tx.send`, R350. -/
  | txSend (pa : Word) (len : Nat)
  /-- `rx.poll`, R355. -/
  | rxPoll
  /-- `core.initialize`, R381. -/
  | coreInitialize
  /-- `core.loadmac`, R384. -/
  | coreLoadmac
  /-- `core.trigger`, R387. -/
  | coreTrigger (frame : Word)
  /-- `core.hasdata`, R389. -/
  | coreHasdata
  /-- `core.parse`, R390. -/
  | coreParse
deriving DecidableEq, Repr, Inhabited

end Sys2Proof
end

