-- ==== Sys2Proof/Config.lean ====
section
/-! DEFINITION. The launch parameters (spec/00_scope.md R9), the interface of the environment, and the free values. -/

namespace Sys2Proof

/-- `P_VARIANT` (R2). -/
inductive Variant where
  | e1000Base | i82540em | i82541ip
deriving DecidableEq, Repr, Inhabited

/-- The two EERD bit layouts (10_state.md R38). -/
inductive EerdLayout where
  | l540 | l541
deriving DecidableEq, Repr, Inhabited

/-- `P_EERD_LAYOUT(v)` (R9): `L540` for E1000_BASE and I82540EM, `L541` for I82541IP. -/
def Variant.eerdLayout : Variant → EerdLayout
  | .e1000Base | .i82540em => .l540
  | .i82541ip => .l541

/-- `P_MAC_SOURCE` (R9). -/
inductive MacSource where
  | eeprom | mmio
deriving DecidableEq, Repr, Inhabited

/-- `P_TX_NOLINK` (R9): what TXE does while the link is down. -/
inductive NoLink where
  | stall | discard
deriving DecidableEq, Repr, Inhabited

/-- The features of `P_FEATURES` (R9): every setter of 41_register_mapper.md, and the control groups (R281). -/
inductive Feature where
  | setLinkUp | autoSpeed
  | rcEnable | loopback | bufSize | minThreshold | broadcast
  | tcEnable | padShort | collThresh | collDist
  | ieEnable | idDisable
  | group (g : Group)
deriving DecidableEq, Repr, Inhabited

/-- A register offset table: the byte offset of each register of 10_state.md R33 (R9: `P_OFFSETS(v)` of the selected variant). -/
structure Offsets where
  ctrl   : Nat
  status : Nat
  eerd   : Nat
  icr    : Nat
  ims    : Nat
  imc    : Nat
  rctl   : Nat
  tctl   : Nat
  rdbal  : Nat
  rdbah  : Nat
  rdlen  : Nat
  rdh    : Nat
  rdt    : Nat
  tdbal  : Nat
  tdbah  : Nat
  tdlen  : Nat
  tdh    : Nat
  tdt    : Nat
  ral0   : Nat
  rah0   : Nat
deriving DecidableEq, Repr, Inhabited

/-- The offsets of a table, in the order of R33. -/
def Offsets.list (o : Offsets) : List Nat :=
  [o.ctrl, o.status, o.eerd, o.icr, o.ims, o.imc, o.rctl, o.tctl, o.rdbal, o.rdbah, o.rdlen, o.rdh, o.rdt, o.tdbal, o.tdbah,
   o.tdlen, o.tdh, o.tdt, o.ral0, o.rah0]

/-- A table that a request can address: 17-bit offsets (20_memory.md R100), aligned (R107), one for each register (30_encoding.md
R141). The spec states no constraint on `P_OFFSETS` of its own (log entry 5). -/
def Offsets.wf (o : Offsets) : Bool := o.list.all (fun k => k % 4 == 0 && k < 2 ^ 17) && decide o.list.Nodup

/-- A range of virtual addresses and where it starts in physical memory (20_memory.md R102). -/
structure Mapping where
  va  : Word
  pa  : Word
  len : Nat
deriving DecidableEq, Repr, Inhabited

/-- The parameters R9 leaves to the launch, for the selected variant. No step changes them (log entry 5). `translation`
is the launch's `phys`, the function that 20_memory.md R102 gives at launch: the ranges the memory service translates (log entry
12). -/
structure Params where
  variant     : Variant
  offsets     : Offsets
  features    : List Feature
  macSource   : MacSource
  nTx         : Nat
  nRx         : Nat
  qCap        : Nat
  rxFifoCap   : Nat
  txNoLink    : NoLink
  nodeDir     : String
  eeprom      : List Half
  translation : List Mapping
deriving DecidableEq, Repr, Inhabited

/-- The constraints R9 puts on the parameters, with the EEPROM size of 20_memory.md R100. -/
def Params.wf (p : Params) : Bool :=
  p.nTx % 8 == 0 && 8 ≤ p.nTx && p.nTx ≤ 65528 &&
  p.nRx % 8 == 0 && 8 ≤ p.nRx && p.nRx ≤ 65528 &&
  1 ≤ p.qCap && 1 ≤ p.rxFifoCap && 3 ≤ p.eeprom.length &&
  p.eeprom.length ≤ (match p.variant.eerdLayout with | .l540 => 256 | .l541 => 16384)

/-- The agents of 10_state.md R30. -/
inductive Agent where
  | host | isr | bh | dispatch | txe | rxmac | rxe | eec | env
deriving DecidableEq, Repr, Inhabited

/-- The three agents that issue operations (60_exceptions.md R470). -/
inductive HostAgent where
  | host | isr | bh
deriving DecidableEq, Repr, Inhabited

/-- The agent of R30 that a host agent is. -/
def HostAgent.toAgent : HostAgent → Agent
  | .host => .host
  | .isr => .isr
  | .bh => .bh

/-- The collision outcome of R413. -/
inductive Collision where
  | none | ec | lc
deriving DecidableEq, Repr, Inhabited

/-- What an agent issues: a bus request that moves `width` bits (30_encoding.md R140: the request word, and the data word
of a write, each least significant byte first), or a host operation (R145: the 16-bit word and its operands). -/
inductive Request where
  | mmio (width : Nat) (bytes : List Byte)
  | host (bytes : List Byte)
deriving DecidableEq, Repr, Inhabited

/-- ENV's answer to one external service call (45_core.md R380): `Ok` or `Fail`, the addresses `mapIO` and `allocPinned`
return, and the first bytes of what an allocation holds (log entry 14). -/
structure Reply where
  ok       : Bool
  va       : Word
  pa       : Word
  contents : List Byte
deriving DecidableEq, Repr, Inhabited

/-- A host access to memory: bytes read, or bytes stored. -/
inductive Access where
  | load (n : Nat)
  | store (bytes : List Byte)
deriving DecidableEq, Repr, Inhabited

/-- One turn: which agent moves next, and what the environment draws for that move (log entry 2). -/
inductive Turn where
  /-- A host agent issues a request; `reply` answers a service call of that step. -/
  | issue (agent : HostAgent) (request : Request) (reply : Reply)
  /-- A host agent takes the next step of its operation in progress. -/
  | resume (agent : HostAgent) (reply : Reply)
  /-- DISPATCH delivers the interrupt (60_exceptions.md R462). -/
  | dispatch (frame : Word)
  /-- TXE processes a descriptor, with the collision outcome ENV draws (46_dma_sequencer.md R412, R413). -/
  | txe (outcome : Collision)
  /-- ENV offers RXMAC a frame (R73, R418). -/
  | rxmac (frame : List Byte) (crcOk : Bool) (err : Byte)
  /-- RXE writes the head frame of the FIFO (R421). -/
  | rxe
  /-- EEC completes an EEPROM read (R431). -/
  | eec
  /-- ENV flips the cable (R76, R432). -/
  | cable
  /-- Code that a host agent runs outside the driver accesses a virtual address: the mapped MMIO window or memory (20_memory.md
  R103; log entry 15). -/
  | access (agent : HostAgent) (va : Word) (access : Access)
  /-- Such code stores bytes at a physical address (log entry 15). -/
  | store (agent : HostAgent) (addr : Word) (bytes : List Byte)
deriving DecidableEq, Repr, Inhabited

namespace Config

/-- `PAGE_SIZE` (R9). -/
def pageSize : Nat := 4096

/-- `RXBUF_SIZE` (R9). -/
def rxbufSize : Nat := 2048

/-- `BAR0_SIZE` (R9). -/
def bar0Size : Nat := 0x20000

/-- `RX_MIN_LEN` (R9). -/
def rxMinLen : Nat := 64

/-- `RX_ERROR_MASK` (R9). -/
def rxErrorMask : Byte := 0x86#8

/-- `TX_CMD` (R9). -/
def txCmd : Byte := 0x2B#8

/-- `TX_MAX_LEN` (R9). -/
def txMaxLen : Nat := 16288

/-- Every setter and every group: the default of `P_FEATURES` (R9). -/
def allFeatures : List Feature :=
  [.setLinkUp, .autoSpeed, .rcEnable, .loopback, .bufSize, .minThreshold, .broadcast, .tcEnable, .padShort, .collThresh,
   .collDist, .ieEnable, .idDisable, .group .dc, .group .rc, .group .tc, .group .ie, .group .id]

/-- The default table of 10_state.md R33, the same for every variant (R9). -/
def offsets : Offsets :=
  { ctrl := 0x00000, status := 0x00008, eerd := 0x00014, icr := 0x000C0, ims := 0x000D0,
    imc := 0x000D8, rctl := 0x00100, tctl := 0x00400, rdbal := 0x02800, rdbah := 0x02804,
    rdlen := 0x02808, rdh := 0x02810, rdt := 0x02818, tdbal := 0x03800, tdbah := 0x03804,
    tdlen := 0x03808, tdh := 0x03810, tdt := 0x03818, ral0 := 0x05400, rah0 := 0x05404 }

/-- DESIGN CHOICE (log entry 5): the parameters of `State.reset`, those of fixture F0 of 95_test_vectors.md; `P_NODE_DIR`
has no value there, and `translation` is one range that holds every allocation of the fixture. -/
def launch : Params :=
  { variant := .i82540em, offsets := offsets, features := allFeatures, macSource := .eeprom, nTx := 8, nRx := 8, qCap := 4,
    rxFifoCap := 2, txNoLink := .stall, nodeDir := "/", eeprom := [0x5452#16, 0x1200#16, 0x5634#16],
    translation := [⟨0xC0000000#32, 0#32, 0x40000000⟩] }

/-- A 32-bit draw (70_reset_and_hazards.md R511), free: the `n`-th draw of a run (log entry 4). -/
opaque draw32 : Nat → BitVec 32

/-- A 16-bit draw (R511), free (log entry 4). -/
opaque draw16 : Nat → BitVec 16

/-- The turn taken where the script is empty, free (log entry 2). -/
opaque nextTurn : Nat → Turn

/-- `phys` outside the launch's translation, free (log entry 12). -/
opaque physElsewhere : BitVec 32 → BitVec 32

/-- The MAC-address string of the filesystem node (10_state.md R68): its format is unspecified, so the text is free
(log entry 23). -/
opaque macText : List (BitVec 8) → String

/-- Whether RXMAC takes a looped-back frame of fewer than 18 bytes, which R418 does not cover: free (log entry 16). -/
opaque runtLoopTaken : Nat → Bool

end Config

end Sys2Proof
end

