-- ==== Sys2Proof/WellFormed.lean ====
section
/-! DEFINITION. Well-formed instructions: the operands that the model's operand encoding can carry (log entry 8). -/

namespace Sys2Proof

/-- A descriptor index or a length that fits its 32-bit operand. -/
def fitsNat (n : Nat) : Bool := n < 2 ^ 32

/-- An integer operand that fits its 64-bit two's-complement field. -/
def fitsInt (v : Int) : Bool := -2 ^ 63 ≤ v && v < 2 ^ 63

/-- Every operand of the instruction has an encoding. The spec bounds none of these operands further: an index, a length
or an integer outside its domain is the operation's own check (30_encoding.md R146). -/
def Instr.wf : Instr → Bool
  | .rcLoopback mode => fitsInt mode
  | .rcBufsize size => fitsInt size
  | .rcMinthreshold fraction => fitsInt fraction
  | .tcCollthresh value => fitsInt value
  | .tcColldist value => fitsInt value
  | .txdWriteaddress index _ => fitsNat index
  | .txdWritelength index len => fitsNat index && fitsNat len
  | .txdWritecommand index => fitsNat index
  | .txdIsdone index => fitsNat index
  | .rxdWriteaddress index _ => fitsNat index
  | .rxdGetpacketaddress index => fitsNat index
  | .rxdReadlength index => fitsNat index
  | .rxdIseop index => fitsNat index
  | .rxdClearstatus index => fitsNat index
  | .rxdHaserrors index => fitsNat index
  | .rxdDone index => fitsNat index
  | .txSend _ len => fitsNat len
  | .mmioRCtrl | .mmioWCtrl _ | .mmioRStatus | .mmioWStatus _ | .mmioREerd
  | .mmioWEerd _ | .mmioRIcr | .mmioWIcr _ | .mmioRIms | .mmioWIms _
  | .mmioRImc | .mmioWImc _ | .mmioRRctl | .mmioWRctl _ | .mmioRTctl
  | .mmioWTctl _ | .mmioRRdbal | .mmioWRdbal _ | .mmioRRdbah | .mmioWRdbah _
  | .mmioRRdlen | .mmioWRdlen _ | .mmioRRdh | .mmioWRdh _ | .mmioRRdt
  | .mmioWRdt _ | .mmioRTdbal | .mmioWTdbal _ | .mmioRTdbah | .mmioWTdbah _
  | .mmioRTdlen | .mmioWTdlen _ | .mmioRTdh | .mmioWTdh _ | .mmioRTdt
  | .mmioWTdt _ | .mmioRRal0 | .mmioWRal0 _ | .mmioRRah0 | .mmioWRah0 _
  | .regSet _ _ _ | .regDecide _ _ _ | .regConfirm _ | .regReaddirect _ | .dcSetlinkup _
  | .dcAutospeed _ | .rcEnable _ | .rcBroadcast _ | .tcEnable _ | .tcPadshort _
  | .ieEnable _ | .idDisable _ | .grpManage _ | .icReadclear | .icLinkchanged
  | .icOverrun | .icMinthreshold | .icRxtimer | .icMdiodone | .icUnhandled
  | .ringCurrent _ | .ringSetnext _ | .hwringInit _ | .hwringMovetail _ | .rxPoll
  | .coreInitialize | .coreLoadmac | .coreTrigger _ | .coreHasdata | .coreParse => true

end Sys2Proof
end

