-- ==== Sys2Proof/Decode.lean ====
section
/-! DEFINITION. Decoding and encoding of requests (spec/30_encoding.md R140 to R147). The decoder is total on any bytes and
rejects by name. The encoder is written from the same tables. -/

namespace Sys2Proof

/-! ### Bytes, least significant first (spec/20_memory.md R104) -/

/-- The low `n` bytes of a number, least significant first. -/
def bytesOfNat : Nat → Nat → List Byte
  | 0, _ => []
  | n + 1, v => BitVec.ofNat 8 v :: bytesOfNat n (v / 256)

/-- The number that bytes spell, least significant first. -/
def natOfBytes : List Byte → Nat
  | [] => 0
  | b :: bs => b.toNat + 256 * natOfBytes bs

/-- The 4 bytes of a 32-bit word. -/
def wordBytes (w : Word) : List Byte := bytesOfNat 4 w.toNat

/-- The 2 bytes of a 16-bit word. -/
def halfBytes (h : Half) : List Byte := bytesOfNat 2 h.toNat

/-- The first `n` bytes as a number, and the bytes after them; none where fewer than `n` remain. -/
def takeNat : Nat → List Byte → Option (Nat × List Byte)
  | 0, bs => some (0, bs)
  | _ + 1, [] => none
  | n + 1, b :: bs =>
    match takeNat n bs with
    | some (v, rest) => some (b.toNat + 256 * v, rest)
    | none => none

/-! ### MMIO requests (R140 to R144) -/

/-- Every register, in the order of 10_state.md R33. -/
def Reg.all : List Reg :=
  [.ctrl, .status, .eerd, .icr, .ims, .imc, .rctl, .tctl, .rdbal, .rdbah, .rdlen, .rdh, .rdt, .tdbal, .tdbah, .tdlen,
   .tdh, .tdt, .ral0, .rah0]

/-- The offset that a table gives a register (10_state.md R33). -/
def pOffsets (o : Offsets) : Reg → Nat
  | .ctrl => o.ctrl
  | .status => o.status
  | .eerd => o.eerd
  | .icr => o.icr
  | .ims => o.ims
  | .imc => o.imc
  | .rctl => o.rctl
  | .tctl => o.tctl
  | .rdbal => o.rdbal
  | .rdbah => o.rdbah
  | .rdlen => o.rdlen
  | .rdh => o.rdh
  | .rdt => o.rdt
  | .tdbal => o.tdbal
  | .tdbah => o.tdbah
  | .tdlen => o.tdlen
  | .tdh => o.tdh
  | .tdt => o.tdt
  | .ral0 => o.ral0
  | .rah0 => o.rah0

/-- The register whose offset is `off` (R141). -/
def regAtOffset (o : Offsets) (off : Nat) : Option Reg := Reg.all.find? (fun r => pOffsets o r == off)

/-- Why bytes spell no instruction: the reasons of R144 and R147. -/
inductive DecodeError where
  /-- The request moves other than 32 bits (R144). -/
  | width
  /-- `A ≠ 0`: the offset is not a multiple of 4 (R144). -/
  | misaligned
  /-- `Z ≠ 0`, or no register of the table at this offset (R144). -/
  | unmodelledOffset
  /-- The word is not in the table of R145, or its operands are no operands of R146 (R147). -/
  | noSuchOperation
deriving DecidableEq, Repr, Inhabited

/-- The read request of a register (R142). -/
def readInstr : Reg → Instr
  | .ctrl => .mmioRCtrl
  | .status => .mmioRStatus
  | .eerd => .mmioREerd
  | .icr => .mmioRIcr
  | .ims => .mmioRIms
  | .imc => .mmioRImc
  | .rctl => .mmioRRctl
  | .tctl => .mmioRTctl
  | .rdbal => .mmioRRdbal
  | .rdbah => .mmioRRdbah
  | .rdlen => .mmioRRdlen
  | .rdh => .mmioRRdh
  | .rdt => .mmioRRdt
  | .tdbal => .mmioRTdbal
  | .tdbah => .mmioRTdbah
  | .tdlen => .mmioRTdlen
  | .tdh => .mmioRTdh
  | .tdt => .mmioRTdt
  | .ral0 => .mmioRRal0
  | .rah0 => .mmioRRah0

/-- The write request of a register (R142). -/
def writeInstr : Reg → Word → Instr
  | .ctrl, data => .mmioWCtrl data
  | .status, data => .mmioWStatus data
  | .eerd, data => .mmioWEerd data
  | .icr, data => .mmioWIcr data
  | .ims, data => .mmioWIms data
  | .imc, data => .mmioWImc data
  | .rctl, data => .mmioWRctl data
  | .tctl, data => .mmioWTctl data
  | .rdbal, data => .mmioWRdbal data
  | .rdbah, data => .mmioWRdbah data
  | .rdlen, data => .mmioWRdlen data
  | .rdh, data => .mmioWRdh data
  | .rdt, data => .mmioWRdt data
  | .tdbal, data => .mmioWTdbal data
  | .tdbah, data => .mmioWTdbah data
  | .tdlen, data => .mmioWTdlen data
  | .tdh, data => .mmioWTdh data
  | .tdt, data => .mmioWTdt data
  | .ral0, data => .mmioWRal0 data
  | .rah0, data => .mmioWRah0 data

/-- The direction bit `W` of a request word (R140). -/
def isWrite (w : Nat) : Bool := w / 2 ^ 31 % 2 == 1

/-- Decode a request word with its bytes behind it: alignment, then offset (R144), then the register (R141). A write takes
the next 32 bits as its data. -/
def decodeRequestWord (o : Offsets) (w : Nat) (rest : List Byte) : Except DecodeError Instr :=
  if w % 4 ≠ 0 then .error .misaligned
  else if w / 2 ^ 17 % 2 ^ 14 ≠ 0 then .error .unmodelledOffset
  else
    match regAtOffset o (w % 2 ^ 17) with
    | none => .error .unmodelledOffset
    | some r =>
      if isWrite w then
        match takeNat 4 rest with
        | some (data, _) => .ok (writeInstr r (BitVec.ofNat 32 data))
        | none => .error .width
      else .ok (readInstr r)

/-- Decode a bus request. The width is checked first (R144); a request whose word or whose data is cut short moves fewer
than 32 bits (log entry 9). -/
def decodeMmio (o : Offsets) (width : Nat) (bytes : List Byte) : Except DecodeError Instr :=
  if width ≠ 32 then .error .width
  else
    match takeNat 4 bytes with
    | none => .error .width
    | some (w, rest) => if isWrite w && rest.length < 4 then .error .width else decodeRequestWord o w rest

/-! ### Host operations (R145, R146) -/

/-- The operations of the table of R145. -/
inductive HostOp where
  | regSet
  | regDecide
  | regConfirm
  | regReaddirect
  | dcSetlinkup
  | dcAutospeed
  | rcEnable
  | rcLoopback
  | rcBufsize
  | rcMinthreshold
  | rcBroadcast
  | tcEnable
  | tcPadshort
  | tcCollthresh
  | tcColldist
  | ieEnable
  | idDisable
  | grpManage
  | icReadclear
  | icLinkchanged
  | icOverrun
  | icMinthreshold
  | icRxtimer
  | icMdiodone
  | icUnhandled
  | txdWriteaddress
  | txdWritelength
  | txdWritecommand
  | txdIsdone
  | rxdWriteaddress
  | rxdGetpacketaddress
  | rxdReadlength
  | rxdIseop
  | rxdClearstatus
  | rxdHaserrors
  | rxdDone
  | ringCurrent
  | ringSetnext
  | hwringInit
  | hwringMovetail
  | txSend
  | rxPoll
  | coreInitialize
  | coreLoadmac
  | coreTrigger
  | coreHasdata
  | coreParse
deriving DecidableEq, Repr, Inhabited

/-- Every operation of R145, in table order. -/
def HostOp.all : List HostOp :=
  [.regSet, .regDecide, .regConfirm, .regReaddirect, .dcSetlinkup, .dcAutospeed,
   .rcEnable, .rcLoopback, .rcBufsize, .rcMinthreshold, .rcBroadcast, .tcEnable,
   .tcPadshort, .tcCollthresh, .tcColldist, .ieEnable, .idDisable, .grpManage,
   .icReadclear, .icLinkchanged, .icOverrun, .icMinthreshold, .icRxtimer, .icMdiodone,
   .icUnhandled, .txdWriteaddress, .txdWritelength, .txdWritecommand, .txdIsdone, .rxdWriteaddress,
   .rxdGetpacketaddress, .rxdReadlength, .rxdIseop, .rxdClearstatus, .rxdHaserrors, .rxdDone,
   .ringCurrent, .ringSetnext, .hwringInit, .hwringMovetail, .txSend, .rxPoll,
   .coreInitialize, .coreLoadmac, .coreTrigger, .coreHasdata, .coreParse]

/-- The 16-bit word of an operation (R145): group in bits 15:8, operation in bits 7:0. -/
def HostOp.word : HostOp → Nat
  | .regSet => 0x0101
  | .regDecide => 0x0102
  | .regConfirm => 0x0103
  | .regReaddirect => 0x0104
  | .dcSetlinkup => 0x0211
  | .dcAutospeed => 0x0212
  | .rcEnable => 0x0221
  | .rcLoopback => 0x0222
  | .rcBufsize => 0x0223
  | .rcMinthreshold => 0x0224
  | .rcBroadcast => 0x0225
  | .tcEnable => 0x0231
  | .tcPadshort => 0x0232
  | .tcCollthresh => 0x0233
  | .tcColldist => 0x0234
  | .ieEnable => 0x0241
  | .idDisable => 0x0251
  | .grpManage => 0x0201
  | .icReadclear => 0x0301
  | .icLinkchanged => 0x0302
  | .icOverrun => 0x0303
  | .icMinthreshold => 0x0304
  | .icRxtimer => 0x0305
  | .icMdiodone => 0x0306
  | .icUnhandled => 0x0307
  | .txdWriteaddress => 0x0401
  | .txdWritelength => 0x0402
  | .txdWritecommand => 0x0403
  | .txdIsdone => 0x0404
  | .rxdWriteaddress => 0x0411
  | .rxdGetpacketaddress => 0x0412
  | .rxdReadlength => 0x0413
  | .rxdIseop => 0x0414
  | .rxdClearstatus => 0x0415
  | .rxdHaserrors => 0x0416
  | .rxdDone => 0x0417
  | .ringCurrent => 0x0501
  | .ringSetnext => 0x0502
  | .hwringInit => 0x0511
  | .hwringMovetail => 0x0512
  | .txSend => 0x0601
  | .rxPoll => 0x0602
  | .coreInitialize => 0x0701
  | .coreLoadmac => 0x0702
  | .coreTrigger => 0x0703
  | .coreHasdata => 0x0704
  | .coreParse => 0x0705

/-- The operation a word spells; none where R145 has no row for it (R147). -/
def hostOpOfWord (w : Nat) : Option HostOp := HostOp.all.find? (fun o => o.word == w)

/-! Operands. R146 gives their forms; their bytes are the model's (log entry 8): a register, group or ring is one byte, its
place in its list; a Boolean one byte, 0 or 1; a 32-bit value, an index or a length 4 bytes; an integer 8 bytes in two's
complement. -/

/-- A register operand: its place in `Reg.all`. -/
def takeReg (bs : List Byte) : Option (Reg × List Byte) :=
  match bs with
  | b :: rest => (Reg.all[b.toNat]?).map (fun r => (r, rest))
  | [] => none

/-- The groups in the order of R145. -/
def Group.all : List Group := [.dc, .rc, .tc, .ie, .id]

/-- A group operand. -/
def takeGroup (bs : List Byte) : Option (Group × List Byte) :=
  match bs with
  | b :: rest => (Group.all[b.toNat]?).map (fun g => (g, rest))
  | [] => none

/-- The rings in the order of R145. -/
def Ring.all : List Ring := [.tx, .rx]

/-- A ring operand. -/
def takeRing (bs : List Byte) : Option (Ring × List Byte) :=
  match bs with
  | b :: rest => (Ring.all[b.toNat]?).map (fun t => (t, rest))
  | [] => none

/-- A Boolean operand. -/
def takeBool (bs : List Byte) : Option (Bool × List Byte) :=
  match bs with
  | b :: rest => if b = 0#8 then some (false, rest) else if b = 1#8 then some (true, rest) else none
  | [] => none

/-- A 32-bit operand. -/
def takeWord (bs : List Byte) : Option (Word × List Byte) :=
  (takeNat 4 bs).map (fun p => (BitVec.ofNat 32 p.1, p.2))

/-- An index or length operand. -/
def takeCount (bs : List Byte) : Option (Nat × List Byte) := takeNat 4 bs

/-- An integer operand. -/
def takeInt (bs : List Byte) : Option (Int × List Byte) :=
  (takeNat 8 bs).map (fun p => ((BitVec.ofNat 64 p.1).toInt, p.2))

/-- Instructions of one operand. -/
def decode1 {α : Type} (take : List Byte → Option (α × List Byte)) (mk : α → Instr) (bs : List Byte) : Option Instr :=
  (take bs).map (fun p => mk p.1)

/-- Instructions of two operands. -/
def decode2 {α β : Type} (takeA : List Byte → Option (α × List Byte)) (takeB : List Byte → Option (β × List Byte))
    (mk : α → β → Instr) (bs : List Byte) : Option Instr :=
  match takeA bs with
  | some (a, rest) => decode1 takeB (mk a) rest
  | none => none

/-- Instructions of three operands. -/
def decode3 {α β γ : Type} (takeA : List Byte → Option (α × List Byte)) (takeB : List Byte → Option (β × List Byte))
    (takeC : List Byte → Option (γ × List Byte)) (mk : α → β → γ → Instr) (bs : List Byte) : Option Instr :=
  match takeA bs with
  | some (a, rest) => decode2 takeB takeC (mk a) rest
  | none => none

/-- The operands of an operation (R145, R146). The frame of `core.trigger`, to which R146 gives no form, is a 32-bit operand:
the operation is none where its 4 bytes are missing (DESIGN CHOICE, log entry 8). -/
def decodeOperands : HostOp → List Byte → Option Instr
  | .regSet => decode3 takeReg takeWord takeWord .regSet
  | .regDecide => decode3 takeReg takeWord takeBool .regDecide
  | .regConfirm => decode1 takeReg .regConfirm
  | .regReaddirect => decode1 takeReg .regReaddirect
  | .dcSetlinkup => decode1 takeBool .dcSetlinkup
  | .dcAutospeed => decode1 takeBool .dcAutospeed
  | .rcEnable => decode1 takeBool .rcEnable
  | .rcLoopback => decode1 takeInt .rcLoopback
  | .rcBufsize => decode1 takeInt .rcBufsize
  | .rcMinthreshold => decode1 takeInt .rcMinthreshold
  | .rcBroadcast => decode1 takeBool .rcBroadcast
  | .tcEnable => decode1 takeBool .tcEnable
  | .tcPadshort => decode1 takeBool .tcPadshort
  | .tcCollthresh => decode1 takeInt .tcCollthresh
  | .tcColldist => decode1 takeInt .tcColldist
  | .ieEnable => decode1 takeWord .ieEnable
  | .idDisable => decode1 takeWord .idDisable
  | .grpManage => decode1 takeGroup .grpManage
  | .icReadclear => fun _ => some .icReadclear
  | .icLinkchanged => fun _ => some .icLinkchanged
  | .icOverrun => fun _ => some .icOverrun
  | .icMinthreshold => fun _ => some .icMinthreshold
  | .icRxtimer => fun _ => some .icRxtimer
  | .icMdiodone => fun _ => some .icMdiodone
  | .icUnhandled => fun _ => some .icUnhandled
  | .txdWriteaddress => decode2 takeCount takeWord .txdWriteaddress
  | .txdWritelength => decode2 takeCount takeCount .txdWritelength
  | .txdWritecommand => decode1 takeCount .txdWritecommand
  | .txdIsdone => decode1 takeCount .txdIsdone
  | .rxdWriteaddress => decode2 takeCount takeWord .rxdWriteaddress
  | .rxdGetpacketaddress => decode1 takeCount .rxdGetpacketaddress
  | .rxdReadlength => decode1 takeCount .rxdReadlength
  | .rxdIseop => decode1 takeCount .rxdIseop
  | .rxdClearstatus => decode1 takeCount .rxdClearstatus
  | .rxdHaserrors => decode1 takeCount .rxdHaserrors
  | .rxdDone => decode1 takeCount .rxdDone
  | .ringCurrent => decode1 takeRing .ringCurrent
  | .ringSetnext => decode1 takeRing .ringSetnext
  | .hwringInit => decode1 takeRing .hwringInit
  | .hwringMovetail => decode1 takeRing .hwringMovetail
  | .txSend => decode2 takeWord takeCount .txSend
  | .rxPoll => fun _ => some .rxPoll
  | .coreInitialize => fun _ => some .coreInitialize
  | .coreLoadmac => fun _ => some .coreLoadmac
  | .coreTrigger => decode1 takeWord .coreTrigger
  | .coreHasdata => fun _ => some .coreHasdata
  | .coreParse => fun _ => some .coreParse

/-- Decode a host operation: its 16-bit word (R145), then its operands. -/
def decodeHost (bytes : List Byte) : Except DecodeError Instr :=
  match takeNat 2 bytes with
  | none => .error .noSuchOperation
  | some (w, rest) =>
    match hostOpOfWord w with
    | none => .error .noSuchOperation
    | some o =>
      match decodeOperands o rest with
      | some instr => .ok instr
      | none => .error .noSuchOperation

/-- Decode a request, with the offset table of the selected variant. -/
def decode (o : Offsets) : Request → Except DecodeError Instr
  | .mmio width bytes => decodeMmio o width bytes
  | .host bytes => decodeHost bytes

/-! ### The encoder -/

/-- The request word of a register: `W` in bit 31, the byte offset in bits 16:0 (R140). -/
def requestWord (o : Offsets) (write : Bool) (r : Reg) : Nat := (if write then 2 ^ 31 else 0) + pOffsets o r

/-- A read request. -/
def encodeRead (o : Offsets) (r : Reg) : Request := .mmio 32 (bytesOfNat 4 (requestWord o false r))

/-- A write request: the request word, then the data word. -/
def encodeWrite (o : Offsets) (r : Reg) (data : Word) : Request :=
  .mmio 32 (bytesOfNat 4 (requestWord o true r) ++ wordBytes data)

/-- A host operation with its operand bytes. -/
def encodeHost (o : HostOp) (operands : List Byte) : Request := .host (bytesOfNat 2 o.word ++ operands)

/-- The byte of a register operand. -/
def regByte (r : Reg) : List Byte := [BitVec.ofNat 8 (Reg.all.idxOf r)]

/-- The byte of a group operand. -/
def groupByte (g : Group) : List Byte := [BitVec.ofNat 8 (Group.all.idxOf g)]

/-- The byte of a ring operand. -/
def ringByte (t : Ring) : List Byte := [BitVec.ofNat 8 (Ring.all.idxOf t)]

/-- The byte of a Boolean operand. -/
def boolByte (b : Bool) : List Byte := [if b then 1#8 else 0#8]

/-- The bytes of an index or length operand. -/
def countBytes (n : Nat) : List Byte := bytesOfNat 4 n

/-- The bytes of an integer operand. -/
def intBytes (v : Int) : List Byte := bytesOfNat 8 (BitVec.ofInt 64 v).toNat

/-- The request of an instruction, with the offset table of the selected variant. -/
def encode (o : Offsets) : Instr → Request
  | .mmioRCtrl => encodeRead o .ctrl
  | .mmioWCtrl data => encodeWrite o .ctrl data
  | .mmioRStatus => encodeRead o .status
  | .mmioWStatus data => encodeWrite o .status data
  | .mmioREerd => encodeRead o .eerd
  | .mmioWEerd data => encodeWrite o .eerd data
  | .mmioRIcr => encodeRead o .icr
  | .mmioWIcr data => encodeWrite o .icr data
  | .mmioRIms => encodeRead o .ims
  | .mmioWIms data => encodeWrite o .ims data
  | .mmioRImc => encodeRead o .imc
  | .mmioWImc data => encodeWrite o .imc data
  | .mmioRRctl => encodeRead o .rctl
  | .mmioWRctl data => encodeWrite o .rctl data
  | .mmioRTctl => encodeRead o .tctl
  | .mmioWTctl data => encodeWrite o .tctl data
  | .mmioRRdbal => encodeRead o .rdbal
  | .mmioWRdbal data => encodeWrite o .rdbal data
  | .mmioRRdbah => encodeRead o .rdbah
  | .mmioWRdbah data => encodeWrite o .rdbah data
  | .mmioRRdlen => encodeRead o .rdlen
  | .mmioWRdlen data => encodeWrite o .rdlen data
  | .mmioRRdh => encodeRead o .rdh
  | .mmioWRdh data => encodeWrite o .rdh data
  | .mmioRRdt => encodeRead o .rdt
  | .mmioWRdt data => encodeWrite o .rdt data
  | .mmioRTdbal => encodeRead o .tdbal
  | .mmioWTdbal data => encodeWrite o .tdbal data
  | .mmioRTdbah => encodeRead o .tdbah
  | .mmioWTdbah data => encodeWrite o .tdbah data
  | .mmioRTdlen => encodeRead o .tdlen
  | .mmioWTdlen data => encodeWrite o .tdlen data
  | .mmioRTdh => encodeRead o .tdh
  | .mmioWTdh data => encodeWrite o .tdh data
  | .mmioRTdt => encodeRead o .tdt
  | .mmioWTdt data => encodeWrite o .tdt data
  | .mmioRRal0 => encodeRead o .ral0
  | .mmioWRal0 data => encodeWrite o .ral0 data
  | .mmioRRah0 => encodeRead o .rah0
  | .mmioWRah0 data => encodeWrite o .rah0 data
  | .regSet reg values mask => encodeHost .regSet (regByte reg ++ wordBytes values ++ wordBytes mask)
  | .regDecide reg values enable => encodeHost .regDecide (regByte reg ++ wordBytes values ++ boolByte enable)
  | .regConfirm reg => encodeHost .regConfirm (regByte reg)
  | .regReaddirect reg => encodeHost .regReaddirect (regByte reg)
  | .dcSetlinkup on => encodeHost .dcSetlinkup (boolByte on)
  | .dcAutospeed on => encodeHost .dcAutospeed (boolByte on)
  | .rcEnable on => encodeHost .rcEnable (boolByte on)
  | .rcLoopback mode => encodeHost .rcLoopback (intBytes mode)
  | .rcBufsize size => encodeHost .rcBufsize (intBytes size)
  | .rcMinthreshold fraction => encodeHost .rcMinthreshold (intBytes fraction)
  | .rcBroadcast on => encodeHost .rcBroadcast (boolByte on)
  | .tcEnable on => encodeHost .tcEnable (boolByte on)
  | .tcPadshort on => encodeHost .tcPadshort (boolByte on)
  | .tcCollthresh value => encodeHost .tcCollthresh (intBytes value)
  | .tcColldist value => encodeHost .tcColldist (intBytes value)
  | .ieEnable causes => encodeHost .ieEnable (wordBytes causes)
  | .idDisable causes => encodeHost .idDisable (wordBytes causes)
  | .grpManage group => encodeHost .grpManage (groupByte group)
  | .icReadclear => encodeHost .icReadclear []
  | .icLinkchanged => encodeHost .icLinkchanged []
  | .icOverrun => encodeHost .icOverrun []
  | .icMinthreshold => encodeHost .icMinthreshold []
  | .icRxtimer => encodeHost .icRxtimer []
  | .icMdiodone => encodeHost .icMdiodone []
  | .icUnhandled => encodeHost .icUnhandled []
  | .txdWriteaddress index pa => encodeHost .txdWriteaddress (countBytes index ++ wordBytes pa)
  | .txdWritelength index len => encodeHost .txdWritelength (countBytes index ++ countBytes len)
  | .txdWritecommand index => encodeHost .txdWritecommand (countBytes index)
  | .txdIsdone index => encodeHost .txdIsdone (countBytes index)
  | .rxdWriteaddress index pa => encodeHost .rxdWriteaddress (countBytes index ++ wordBytes pa)
  | .rxdGetpacketaddress index => encodeHost .rxdGetpacketaddress (countBytes index)
  | .rxdReadlength index => encodeHost .rxdReadlength (countBytes index)
  | .rxdIseop index => encodeHost .rxdIseop (countBytes index)
  | .rxdClearstatus index => encodeHost .rxdClearstatus (countBytes index)
  | .rxdHaserrors index => encodeHost .rxdHaserrors (countBytes index)
  | .rxdDone index => encodeHost .rxdDone (countBytes index)
  | .ringCurrent ring => encodeHost .ringCurrent (ringByte ring)
  | .ringSetnext ring => encodeHost .ringSetnext (ringByte ring)
  | .hwringInit ring => encodeHost .hwringInit (ringByte ring)
  | .hwringMovetail ring => encodeHost .hwringMovetail (ringByte ring)
  | .txSend pa len => encodeHost .txSend (wordBytes pa ++ countBytes len)
  | .rxPoll => encodeHost .rxPoll []
  | .coreInitialize => encodeHost .coreInitialize []
  | .coreLoadmac => encodeHost .coreLoadmac []
  | .coreTrigger frame => encodeHost .coreTrigger (wordBytes frame)
  | .coreHasdata => encodeHost .coreHasdata []
  | .coreParse => encodeHost .coreParse []

/-! ### The host's word interface -/

/-- Bytes enough for the longest instruction (11 bytes). -/
def requestBytes : Nat := 16

/-- The request that a table row's bits spell: a 16-bit row is a host operation (R145), a longer one a bus request of 32
bits (R140); every bit above `nbits` is 0. -/
def requestOfWord (nbits w : Nat) : Request :=
  let bytes := bytesOfNat requestBytes (w % 2 ^ nbits)
  if nbits ≤ 16 then .host bytes else .mmio 32 bytes

/-- The instruction the decoder reads from an instruction whose bits are `w`, with the offset table of 10_state.md R33, whose
words the opcode table lists (30_encoding.md R142). -/
def decodeTableWord (nbits w : Nat) : Option Instr :=
  match decode Config.offsets (requestOfWord nbits w) with
  | .ok instr => some instr
  | .error _ => none

end Sys2Proof
end

