-- ==== Sys2Proof/Machine/State.lean ====
section
/-! DEFINITION. The state of the block, all of it plain data (spec/10_state.md), the reasons a step can stop, and reset. -/

namespace Sys2Proof.Machine

/-! ### Outcomes -/

/-- The fault codes of 60_exceptions.md R451, in the order of its table (0x20 to 0x30). -/
inductive FaultCode where
  | unmodelledOffset | misaligned | width | ringRegRange | dmaWild | descFormat | txLength | sendNotOwned | descRace
  | regRace | initOrder | ringReprogram | reservedValue | index | eerdBusy | sendReentered | context
deriving DecidableEq, Repr, Inhabited

/-- What raising a fault records (R451): code, agent, rule number and detail. -/
structure FaultRecord where
  code   : FaultCode
  agent  : Agent
  rule   : Nat
  detail : Nat
deriving DecidableEq, Repr, Inhabited

/-- Why a step answers no next state. -/
inductive Fault where
  /-- Raised by `step` alone, in the fault state: a fault has been recorded and no agent takes another step (R451). Safe:
  the machine the spec describes stops there too. -/
  | stopped (first : FaultRecord)
deriving DecidableEq, Repr, Inhabited

/-- Why an instruction has no meaning. -/
inductive Refusal where
  /-- Raised by `exec` for a row without a meaning. Every row has one, so nothing raises it. Safe. -/
  | notModelled (mnemonic : String)
deriving DecidableEq, Repr, Inhabited

/-- The errors a host operation returns (R450). -/
inductive Err where
  | config | unsupported | initFailed
deriving DecidableEq, Repr, Inhabited

/-- What an operation or request returned to its issuer. -/
inductive Ret where
  /-- Nothing has been issued yet. -/
  | idle
  /-- The operation is in progress. -/
  | pending
  /-- It returned and gives no value. -/
  | unit
  /-- It returned `Ok`. -/
  | ok
  /-- It returned `Err(e)` (R450). -/
  | err (e : Err)
  /-- It was refused (R452). -/
  | refused
  | word (v : Word)
  | half (v : Half)
  | bool (b : Bool)
  | index (n : Nat)
  /-- The bytes that a load outside the driver's operations answers (20_memory.md R103, R104). -/
  | bytes (bs : List Byte)
deriving DecidableEq, Repr, Inhabited

/-! ### Groups of state -/

/-- One value for each host agent. -/
structure ByAgent (α : Type) where
  host : α
  isr  : α
  bh   : α
deriving DecidableEq, Repr, Inhabited

/-- One value for each register of R33. -/
structure PerReg (α : Type) where
  ctrl   : α
  status : α
  eerd   : α
  icr    : α
  ims    : α
  imc    : α
  rctl   : α
  tctl   : α
  rdbal  : α
  rdbah  : α
  rdlen  : α
  rdh    : α
  rdt    : α
  tdbal  : α
  tdbah  : α
  tdlen  : α
  tdh    : α
  tdt    : α
  ral0   : α
  rah0   : α
deriving DecidableEq, Repr, Inhabited

/-- The stored device registers (R35 to R48). STATUS (R37), EERD (R51) and IMC (R41) have no word of their own. -/
structure DevRegs where
  ctrl  : Word
  icr   : Word
  ims   : Word
  rctl  : Word
  tctl  : Word
  rdbal : Word
  rdbah : Word
  rdlen : Word
  rdh   : Word
  rdt   : Word
  tdbal : Word
  tdbah : Word
  tdlen : Word
  tdh   : Word
  tdt   : Word
  ral0  : Word
  rah0  : Word
deriving DecidableEq, Repr, Inhabited

/-- A received frame in the FIFO (R50). -/
structure RxFrame where
  bytes : List Byte
  err   : Byte
deriving DecidableEq, Repr, Inhabited

/-- The EEPROM read engine (R51). -/
structure Eeprom where
  busy : Bool
  addr : BitVec 14
  data : Half
  done : Bool
deriving DecidableEq, Repr, Inhabited

/-- What a DMA region was registered for (R53). -/
inductive RegionUse where
  | pinned | sendBuffer
deriving DecidableEq, Repr, Inhabited

/-- A DMA region `[base, base + len)` (R53). -/
structure Region where
  base : Nat
  len  : Nat
  use  : RegionUse
deriving DecidableEq, Repr, Inhabited

/-- The virtual and physical address of a receive slot (R55). -/
structure Slot where
  virt : Word
  phys : Word
deriving DecidableEq, Repr, Inhabited

/-- `icState` (R61). -/
inductive IcState where
  | idle | handling
deriving DecidableEq, Repr, Inhabited

/-- A queue entry (R63). -/
structure QEntry where
  ptr : Word
  len : Half
deriving DecidableEq, Repr, Inhabited

/-- A receive event handed to the event bus (R66). -/
structure Event where
  packetBytes : List Byte
  length      : Half
deriving DecidableEq, Repr, Inhabited

/-- The kinds of the driver log (R72). -/
inductive LogKind where
  | unhandled | overrun | dropRunt | dropNotEop | dropErrors | dropQueueFull
deriving DecidableEq, Repr, Inhabited

/-- A log record (R72). -/
structure LogRecord where
  kind  : LogKind
  value : Nat
deriving DecidableEq, Repr, Inhabited

/-- The events of the trace (60_exceptions.md R453), in the order of its table (0x10 to 0x16). -/
inductive TraceCode where
  | dropRunt | dropNotEop | dropErrors | dropQueueFull | rxOverrun | unhandledCause | txCollisionAsSuccess
deriving DecidableEq, Repr, Inhabited

/-- An event of the trace with its value. -/
structure TraceEvent where
  code  : TraceCode
  value : Nat
deriving DecidableEq, Repr, Inhabited

/-- The read-only filesystem node with the MAC-address string (R68). -/
structure MacNode where
  dir  : String
  text : String
deriving DecidableEq, Repr, Inhabited

/-- The driver's host-side state (R56 to R68, R72). -/
structure Driver where
  initStep        : Nat
  initFailed      : Bool
  registered      : Bool
  irqAllowed      : Bool
  handlerAssigned : Bool
  base            : Word
  mac             : List Byte
  txVirt          : Word
  txPhys          : Word
  rxVirt          : Word
  rxPhys          : Word
  slots           : List Slot
  snap            : Word
  icState         : IcState
  txCur           : Nat
  txTail          : Nat
  rxCur           : Nat
  rxTail          : Nat
  queue           : List QEntry
  overrunCount    : Nat
  dropRunt        : Nat
  dropNotEop      : Nat
  dropErrors      : Nat
  dropQueueFull   : Nat
  isrActive       : Bool
  published       : List Event
  txBusy          : Bool
  macNode         : Option MacNode
  log             : List LogRecord
deriving DecidableEq, Repr, Inhabited

/-- A Register object (R60). `inConfirm` is kept for each agent (log entry 13). -/
structure RegObj where
  onMask    : Word
  offMask   : Word
  inConfirm : ByAgent Bool
  stagedBy  : Option HostAgent
deriving DecidableEq, Repr, Inhabited

/-! ### Operations in progress (R464, 00_scope.md R14; log entry 3) -/

/-- A control-group setter with its argument (41_register_mapper.md R268 to R280). -/
inductive Setting where
  | linkUp (b : Bool) | autoSpeed (b : Bool)
  | rcEnable (b : Bool) | loopback (m : Int) | bufSize (v : Int) | minThreshold (f : Int) | broadcast (b : Bool)
  | tcEnable (b : Bool) | padShort (b : Bool) | collThresh (v : Int) | collDist (v : Int)
  | ieEnable (causes : Word) | idDisable (causes : Word)
deriving DecidableEq, Repr, Inhabited

/-- What an allocation of `initialize` step 4 is for (45_core.md R381). -/
inductive AllocFor where
  | txBlock | rxBlock | slot
deriving DecidableEq, Repr, Inhabited

/-- What a host agent still has to do. The first group are atomic steps; the second are local continuations, which take no
step of their own and run in the step before them. -/
inductive Micro where
  /-- `confirm` step 1 (R262). -/
  | confirmRead (r : Reg)
  /-- `confirm` step 2 (R262). -/
  | confirmWrite (r : Reg) (live : Word)
  /-- `tx.send` steps 2 and 4 (44_ring_operations.md R350). -/
  | txAddr (c : Nat) (pa : Word)
  | txLen (c len : Nat)
  | txCmd (c : Nat)
  | txPoll (c : Nat) (pa : Word) (len : Nat)
  /-- Descriptor writes of `hwring.init RX` (43_descriptors.md R342). -/
  | rxAddr (i : Nat)
  | rxClear (i : Nat)
  /-- The accesses of one turn of `rx.poll`'s loop (R355). -/
  | pollDone (k : Nat)
  | pollLen (k c : Nat)
  | pollEop (k c : Nat) (ptr : Word) (len : Half)
  | pollErrors (k c : Nat) (ptr : Word) (len : Half)
  | pollPush (k c : Nat) (ptr : Word) (len : Half)
  | pollClear (k c : Nat)
  /-- The external service calls of `initialize` (45_core.md R380, R381). -/
  | callBusMaster
  | callMapIo
  | callAlloc (what : AllocFor)
  | callRegister
  | callAllow
  | callAssign
  | callCreateDirectory
  | callAddNode
  /-- The first step of `core.loadmac`, as step 9 of `initialize` (R384). -/
  | loadMac
  /-- One poll of the EEPROM ready bit for word `k` (R385). -/
  | macPoll (k : Nat) (words : List Half)
  /-- The second read of `macFromMmio` (R386). -/
  | macHigh (lo : Word)
  /-- `ic.readclear` and `ic.done` inside `trigger` and `initialize` (42_interrupt_cause.md R301, R309). -/
  | icReadClear
  | icDone
  /-- The three steps of `core.parse` (45_core.md R390). -/
  | parsePop
  | parseCopy (ptr : Word) (len : Half)
  | parsePublish (bytes : List Byte) (len : Half)
  /-- `writereg R, v` up to its first step (30_encoding.md R160). -/
  | writeReg (r : Reg) (v : Word)
  /-- `hwring.movetail` up to its first step, and its end (R343). -/
  | moveTail (t : Ring)
  | tailEnd (t : Ring) (tail : Nat)
  /-- `hwring.init TX` up to its first step; `hwring.init RX` from descriptor `i` up to its next step; and the end of
  `hwring.init` (R341, R342). -/
  | txInit
  | rxInitFrom (i : Nat)
  | ringInitEnd (t : Ring)
  /-- Configuration lines of `initialize` step 8 (45_core.md R383). -/
  | setting (st : Setting)
  | manage (g : Group)
  /-- The allocation loop of `initialize` step 4 from slot `i`, and steps 5 and 6 (R381). -/
  | slotsFrom (i : Nat)
  | createObjects
  /-- `initStep <- k` (R381). -/
  | initDone (k : Nat)
  /-- Word `k` of `macFromEeprom` up to its first step (R385). -/
  | macStart (k : Nat) (words : List Half)
  /-- Steps 2, 3, 4, 5 and the return of `trigger` (R387). -/
  | trigLink
  | trigOverrun
  | trigReceive
  | trigUnhandled
  | trigReturn
  /-- The head of `rx.poll`'s loop (R355). -/
  | pollFrom (k : Nat)
deriving DecidableEq, Repr, Inhabited

/-- A host agent: its operation in progress, and what its last request or operation returned. -/
structure AgentState where
  work : List Micro
  ret  : Ret
deriving DecidableEq, Repr, Inhabited

/-- Host physical memory (R53): the bytes that differ from what an unlisted address reads as, addresses strictly rising. -/
abbrev Memory := List Host.Cell

/-- The whole machine. -/
structure State where
  /-- The launch parameters (R9); no step changes them. -/
  params    : Params
  regs      : DevRegs
  busMaster : Bool
  rxFifo    : List RxFrame
  ee        : Eeprom
  luPrev    : Bool
  faults    : List FaultRecord
  mem       : Memory
  dma       : List Region
  /-- The ranges `allocPinned` handed out (45_core.md R380). -/
  maps      : List Mapping
  drv       : Driver
  mapper    : PerReg RegObj
  cable     : Bool
  wireOut   : List (List Byte)
  trace     : List TraceEvent
  agents    : ByAgent AgentState
  /-- The model's own: the agent whose step is being taken. -/
  cur       : HostAgent
  /-- The model's own: ENV's answer to the service call of the step being taken. -/
  reply     : Reply
  /-- The model's own: how many values have been drawn. -/
  draws     : Nat
  /-- The model's own: how many turns were taken from the free value. -/
  turns     : Nat
  /-- The model's own: the turns to come, and what the environment draws for them. -/
  script    : List Turn
deriving DecidableEq, Repr, Inhabited

/-! ### Reset -/

/-- The values that R77 leaves to a draw at power-on. -/
structure PowerOn where
  ctrl  : Word
  tctl  : Word
  rdbal : Word
  rdbah : Word
  tdbal : Word
  tdbah : Word
  cable : Bool
  mac   : List Byte
deriving DecidableEq, Repr, Inhabited

/-- The empty Register object (R60). -/
def RegObj.empty : RegObj := { onMask := 0#32, offMask := 0#32, inConfirm := ⟨false, false, false⟩, stagedBy := none }

/-- The same value for every register. -/
def PerReg.const {α : Type} (x : α) : PerReg α := ⟨x, x, x, x, x, x, x, x, x, x, x, x, x, x, x, x, x, x, x, x⟩

/-- An agent with no operation in progress. -/
def AgentState.idle : AgentState := { work := [], ret := .idle }

/-- Word `k` of the EEPROM, or `free` where the EEPROM has no such word (R431, R48). -/
def eepromWord (p : Params) (k : Nat) (free : Half) : Half := p.eeprom.getD k free

/-- RAL0 at reset (R48): EEPROM words 1 and 0. -/
def resetRal0 (p : Params) (free : Half) : Word := eepromWord p 1 free ++ eepromWord p 0 free

/-- RAH0 at reset (R48): AV, and EEPROM word 2. -/
def resetRah0 (p : Params) (free : Half) : Word := bit 31 ||| (eepromWord p 2 free).setWidth 32

/-- The registers after a reset (R35 to R48): the fields whose reset value is a draw come from `d`. -/
def DevRegs.afterReset (p : Params) (free : Half) (d : PowerOn) : DevRegs :=
  { ctrl := d.ctrl &&& ~~~(bit 26), icr := 0#32, ims := 0#32, rctl := 0#32, tctl := d.tctl &&& ~~~(bit 1),
    rdbal := d.rdbal &&& 0xFFFFFFF0#32, rdbah := d.rdbah, rdlen := 0#32, rdh := 0#32, rdt := 0#32,
    tdbal := d.tdbal &&& 0xFFFFFFF0#32, tdbah := d.tdbah, tdlen := 0#32, tdh := 0#32, tdt := 0#32,
    ral0 := resetRal0 p free, rah0 := resetRah0 p free }

/-- The driver before `initialize` (R56 to R68). -/
def Driver.initial (mac : List Byte) : Driver :=
  { initStep := 0, initFailed := false, registered := false, irqAllowed := false, handlerAssigned := false,
    base := 0#32, mac := mac, txVirt := 0#32, txPhys := 0#32, rxVirt := 0#32, rxPhys := 0#32, slots := [],
    snap := 0#32, icState := .idle, txCur := 0, txTail := 0, rxCur := 0, rxTail := 0, queue := [], overrunCount := 0,
    dropRunt := 0, dropNotEop := 0, dropErrors := 0, dropQueueFull := 0, isrActive := false, published := [],
    txBusy := false, macNode := none, log := [] }

/-- The state after power-on (R77, 70_reset_and_hazards.md R490), for any launch parameters and any draws. -/
def State.powerOn (p : Params) (free : Half) (d : PowerOn) : State :=
  { params := p, regs := DevRegs.afterReset p free d, busMaster := false, rxFifo := [],
    ee := { busy := false, addr := 0#14, data := 0#16, done := false },
    luPrev := d.cable && (d.ctrl &&& ~~~(bit 26)).getLsbD 6, faults := [], mem := [], dma := [], maps := [],
    drv := Driver.initial d.mac, mapper := PerReg.const RegObj.empty, cable := d.cable, wireOut := [], trace := [],
    agents := ⟨AgentState.idle, AgentState.idle, AgentState.idle⟩, cur := .host,
    reply := { ok := true, va := 0#32, pa := 0#32, contents := [] }, draws := 0, turns := 0, script := [] }

/-- DESIGN CHOICE (log entry 6): the draws of `State.reset`, those of fixture F0 (95_test_vectors.md) where it names one. -/
def PowerOn.zero : PowerOn :=
  { ctrl := 0#32, tctl := 0#32, rdbal := 0#32, rdbah := 0#32, tdbal := 0#32, tdbah := 0#32, cable := true,
    mac := [0#8, 0#8, 0#8, 0#8, 0#8, 0#8] }

/-- The machine right after power-on reset (R77, R490), with the parameters and draws of log entries 5 and 6. -/
def State.reset : State := State.powerOn Config.launch 0#16 PowerOn.zero

end Sys2Proof.Machine
end

