-- ==== Sys2Proof/Machine/Ops.lean ====
section
/-! DEFINITION. The named operations over memory, rings, faults and agents that every meaning is made of. -/

namespace Sys2Proof.Machine

/-! ### One value for each agent or register -/

/-- The value of an agent. -/
def ByAgent.get {α : Type} (p : ByAgent α) : HostAgent → α
  | .host => p.host
  | .isr => p.isr
  | .bh => p.bh

/-- Replace the value of an agent. -/
def ByAgent.set {α : Type} (p : ByAgent α) (a : HostAgent) (x : α) : ByAgent α :=
  match a with
  | .host => { p with host := x }
  | .isr => { p with isr := x }
  | .bh => { p with bh := x }

/-- The value of a register. -/
def PerReg.get {α : Type} (p : PerReg α) (r : Reg) : α :=
  match r with
  | .ctrl => p.ctrl
  | .status => p.status
  | .eerd => p.eerd
  | .icr => p.icr
  | .ims => p.ims
  | .imc => p.imc
  | .rctl => p.rctl
  | .tctl => p.tctl
  | .rdbal => p.rdbal
  | .rdbah => p.rdbah
  | .rdlen => p.rdlen
  | .rdh => p.rdh
  | .rdt => p.rdt
  | .tdbal => p.tdbal
  | .tdbah => p.tdbah
  | .tdlen => p.tdlen
  | .tdh => p.tdh
  | .tdt => p.tdt
  | .ral0 => p.ral0
  | .rah0 => p.rah0

/-- Replace the value of a register. -/
def PerReg.set {α : Type} (p : PerReg α) (r : Reg) (x : α) : PerReg α :=
  match r with
  | .ctrl => { p with ctrl := x }
  | .status => { p with status := x }
  | .eerd => { p with eerd := x }
  | .icr => { p with icr := x }
  | .ims => { p with ims := x }
  | .imc => { p with imc := x }
  | .rctl => { p with rctl := x }
  | .tctl => { p with tctl := x }
  | .rdbal => { p with rdbal := x }
  | .rdbah => { p with rdbah := x }
  | .rdlen => { p with rdlen := x }
  | .rdh => { p with rdh := x }
  | .rdt => { p with rdt := x }
  | .tdbal => { p with tdbal := x }
  | .tdbah => { p with tdbah := x }
  | .tdlen => { p with tdlen := x }
  | .tdh => { p with tdh := x }
  | .tdt => { p with tdt := x }
  | .ral0 => { p with ral0 := x }
  | .rah0 => { p with rah0 := x }

/-! ### Codes (60_exceptions.md R450, R451, R453) -/

/-- The number of a fault code (R451). -/
def FaultCode.num : FaultCode → Nat
  | .unmodelledOffset => 0x20
  | .misaligned => 0x21
  | .width => 0x22
  | .ringRegRange => 0x23
  | .dmaWild => 0x24
  | .descFormat => 0x25
  | .txLength => 0x26
  | .sendNotOwned => 0x27
  | .descRace => 0x28
  | .regRace => 0x29
  | .initOrder => 0x2A
  | .ringReprogram => 0x2B
  | .reservedValue => 0x2C
  | .index => 0x2D
  | .eerdBusy => 0x2E
  | .sendReentered => 0x2F
  | .context => 0x30

/-- The number of an error (R450). -/
def Err.num : Err → Nat
  | .config => 1
  | .unsupported => 2
  | .initFailed => 3

/-- The number of a trace event (R453). -/
def TraceCode.num : TraceCode → Nat
  | .dropRunt => 0x10
  | .dropNotEop => 0x11
  | .dropErrors => 0x12
  | .dropQueueFull => 0x13
  | .rxOverrun => 0x14
  | .unhandledCause => 0x15
  | .txCollisionAsSuccess => 0x16

/-! ### Host physical memory (20_memory.md R100, R104) -/

/-- DESIGN CHOICE (log entry 7): what an unlisted address reads as. -/
def Memory.unlisted : Byte := 0#8

/-- The byte at an address. -/
def Memory.readByte : Memory → Nat → Byte
  | [], _ => Memory.unlisted
  | (a, b) :: m, x => if a = x then b else Memory.readByte m x

/-- Store one byte; storing what an unlisted address reads as removes the entry. -/
def Memory.writeByte : Memory → Nat → Byte → Memory
  | [], x, v => if v = Memory.unlisted then [] else [(x, v)]
  | (a, b) :: m, x, v =>
    if x < a then (if v = Memory.unlisted then (a, b) :: m else (x, v) :: (a, b) :: m)
    else if x = a then (if v = Memory.unlisted then m else (x, v) :: m)
    else (a, b) :: Memory.writeByte m x v

/-- The size of host physical memory (R100: `PHYS_BITS` = 32). -/
def physSize : Nat := 2 ^ 32

/-- The `n` bytes from address `a`; addresses are 32 bits wide (R100; log entry 11). -/
def Memory.readBytes (m : Memory) (a : Nat) : Nat → List Byte
  | 0 => []
  | n + 1 => m.readByte (a % physSize) :: Memory.readBytes m (a + 1) n

/-- Store bytes from address `a` on, first byte first (R104). -/
def Memory.writeBytes (m : Memory) (a : Nat) : List Byte → Memory
  | [] => m
  | b :: bs => Memory.writeBytes (m.writeByte (a % physSize) b) (a + 1) bs

/-- The canonical form: addresses strictly rising and below 2^32, and no entry equal to what an unlisted address reads as. -/
def Memory.wf : Memory → Bool
  | [] => true
  | (a, b) :: m => b != Memory.unlisted && a < physSize && (match m with | [] => true | (a2, _) :: _ => a < a2) && Memory.wf m

/-- Store bytes from a physical address on. -/
def State.putBytes (s : State) (addr : Nat) (bs : List Byte) : State := { s with mem := s.mem.writeBytes addr bs }

/-- The first range of the launch's translation that meets the virtual range `[va, va + n)`. -/
def State.rangeAt (s : State) (va n : Nat) : Option Mapping :=
  s.params.translation.find? fun m => m.va.toNat < va + n && va < m.va.toNat + m.len

/-- `phys(va)` (R102), a fixed function: the launch's translation of the address; outside its ranges a free function of it (log
entry 12). -/
def State.phys (s : State) (va : Word) : Nat :=
  match s.rangeAt va.toNat 1 with
  | some m => m.pa.toNat + (va.toNat - m.va.toNat)
  | none => (Config.physElsewhere va).toNat

/-- `phys` is defined on the whole of `[va, va + n)` and takes it to `[pa, pa + n)` in order (R102). -/
def State.translates (s : State) (va pa : Word) (n : Nat) : Bool :=
  match s.rangeAt va.toNat n with
  | some m =>
    m.va.toNat ≤ va.toNat && va.toNat + n ≤ m.va.toNat + m.len && pa.toNat == m.pa.toNat + (va.toNat - m.va.toNat)
  | none => false

/-! ### Cyclic intervals and ring registers (00_scope.md R12, 10_state.md R45 to R47) -/

/-- `count(a, b, N) = (b − a) mod N` (R12). DESIGN CHOICE (log entry 32): R12 gives no value where `N` is 0, and the model takes
0; an index at or above `N` is taken modulo `N`. -/
def count (a b n : Nat) : Nat := if n = 0 then 0 else (b % n + n - a % n) % n

/-- `i ∈ cyc(a, b, N)` (R12). Empty where `N` is 0; where `a` or `b` is at or above `N` it is the interval between their
remainders (log entry 32). -/
def inCyc (i a b n : Nat) : Bool := i < n && count a i n < count a b n

/-- The device's ring size `Ndev` (R46). -/
def State.ndev (s : State) : Ring → Nat
  | .tx => s.regs.tdlen.toNat / 16
  | .rx => s.regs.rdlen.toNat / 16

/-- The head register of a ring (R47). -/
def State.head (s : State) : Ring → Nat
  | .tx => s.regs.tdh.toNat
  | .rx => s.regs.rdh.toNat

/-- The tail register of a ring (R47). -/
def State.tail (s : State) : Ring → Nat
  | .tx => s.regs.tdt.toNat
  | .rx => s.regs.rdt.toNat

/-- The ring base `BASE = reg[xDBAH] ++ (reg[xDBAL] & 0xFFFFFFF0)` (R45). -/
def State.ringBase (s : State) : Ring → Nat
  | .tx => s.regs.tdbah.toNat * 2 ^ 32 + (s.regs.tdbal &&& 0xFFFFFFF0#32).toNat
  | .rx => s.regs.rdbah.toNat * 2 ^ 32 + (s.regs.rdbal &&& 0xFFFFFFF0#32).toNat

/-- Hardware owns descriptor `i` exactly when it lies in `cyc(HEAD, TAIL, Ndev)` (43_descriptors.md R332). -/
def State.hwOwned (s : State) (t : Ring) (i : Nat) : Bool := inCyc i (s.head t) (s.tail t) (s.ndev t)

/-- The driver's ring size (R9). -/
def State.ringSize (s : State) : Ring → Nat
  | .tx => s.params.nTx
  | .rx => s.params.nRx

/-- The physical address of the driver's descriptor block (10_state.md R54). -/
def State.ringPhys (s : State) : Ring → Nat
  | .tx => s.drv.txPhys.toNat
  | .rx => s.drv.rxPhys.toNat

/-- A byte of host memory lies in a descriptor that hardware owns (20_memory.md R119): descriptor `i` of a ring is the 16 bytes
at the device's ring base, and from step 4 of `initialize` on those of the driver's block, which are the same bytes unless a raw
write moves the base (log entry 26). -/
def State.inOwnedDescriptor (s : State) (x : Nat) : Bool :=
  [Ring.tx, .rx].any fun t =>
    let i := (x + physSize - s.ringPhys t) % physSize / 16
    (s.ringBase t ≤ x && s.hwOwned t ((x - s.ringBase t) / 16)) ||
      (4 ≤ s.drv.initStep && i < s.ringSize t && s.hwOwned t i)

/-- A host write of `n` bytes meets a descriptor that hardware owns. -/
def State.meetsOwned (s : State) (addr n : Nat) : Bool :=
  (List.range n).any fun k => s.inOwnedDescriptor ((addr + k) % physSize)

/-! ### Results, faults and agents -/

/-- What a piece of a step does: a state, or a fault raised in a state. -/
inductive Flow where
  | ok (s : State)
  | raised (s : State) (f : FaultRecord)

/-- Go on unless a fault was raised. -/
def Flow.andThen (x : Flow) (f : State → Flow) : Flow :=
  match x with
  | .ok s => f s
  | .raised s r => .raised s r

/-- TAKING A FAULT (60_exceptions.md R451): record it; the set is never cleared, and from then on no agent takes a step (log
entry 1). -/
def State.raise (s : State) (f : FaultRecord) : State := { s with faults := s.faults ++ [f] }

/-- The state a piece of a step leaves. -/
def Flow.state : Flow → State
  | .ok s => s
  | .raised s f => s.raise f

/-- The outcome of a step: a fault is a next state, the fault state (log entry 1). -/
def Flow.out (x : Flow) : Host.Outcome State Fault Refusal := .next x.state

/-- One host `MemWrite` (R119), by an accessor or by address: `F_DESC_RACE`, and no effect, where a byte of it lies in a descriptor
that hardware owns. The detail is the address of its first byte (log entry 18). -/
def hostWrite (a : HostAgent) (addr : Nat) (bs : List Byte) (s : State) : Flow :=
  if s.meetsOwned addr bs.length then .raised s ⟨.descRace, a.toAgent, 119, addr % physSize⟩ else .ok (s.putBytes addr bs)

/-- What an agent still has to do. -/
def State.work (s : State) (a : HostAgent) : List Micro := (s.agents.get a).work

/-- Replace what an agent still has to do. -/
def State.setWork (s : State) (a : HostAgent) (w : List Micro) : State :=
  { s with agents := s.agents.set a { s.agents.get a with work := w } }

/-- What an agent's last request or operation returned. -/
def State.ret (s : State) (a : HostAgent) : Ret := (s.agents.get a).ret

/-- An operation returns a value to its issuer (40_mmio_registers.md R200). -/
def State.setRet (s : State) (a : HostAgent) (r : Ret) : State :=
  { s with agents := s.agents.set a { s.agents.get a with ret := r } }

/-- A draw of 32 bits (70_reset_and_hazards.md R511). -/
def State.draw32 (s : State) : Word × State := (Config.draw32 s.draws, { s with draws := s.draws + 1 })

/-- A draw of 16 bits (R511). -/
def State.draw16 (s : State) : Half × State := (Config.draw16 s.draws, { s with draws := s.draws + 1 })

/-- Append to the driver log (10_state.md R72). -/
def State.addLog (s : State) (kind : LogKind) (value : Nat) : State :=
  { s with drv := { s.drv with log := s.drv.log ++ [⟨kind, value⟩] } }

/-- Append to the trace (60_exceptions.md R453). -/
def State.addTrace (s : State) (code : TraceCode) (value : Nat) : State :=
  { s with trace := s.trace ++ [⟨code, value⟩] }

/-! ### Interrupt entry and return (60_exceptions.md R462 to R466) -/

/-- INTERRUPT ENTRY (R464): `isrActive` becomes true. HOST and BH keep their position in State and take no step until the
return; nothing else is saved and no mask changes. -/
def State.isrEnter (s : State) : State := { s with drv := { s.drv with isrActive := true } }

/-- INTERRUPT RETURN (R465): `isrActive` becomes false, and the preempted agent goes on where it stopped. -/
def State.isrReturn (s : State) : State := { s with drv := { s.drv with isrActive := false } }

/-- While `isrActive`, HOST and BH take no step (R464). -/
def State.mayRun (s : State) (a : HostAgent) : Bool := a = .isr || !s.drv.isrActive

/-! ### The checks of an issued host operation (60_exceptions.md R452, R470) -/

/-- Refusal (R452): before its minimum `initStep`, or after a failed `initialize`. -/
def State.refuses (s : State) (minStep : Nat) : Bool := s.drv.initFailed || s.drv.initStep < minStep

/-- A refused operation changes no state and returns `Refused` to its issuer (R452). -/
def State.refuse (s : State) : State := s.setRet s.cur .refused

/-- Any host agent may issue the operation (R470). -/
def anyAgent (_ : State) : Bool := true

/-- Only HOST (R470). -/
def onlyHost (s : State) : Bool := s.cur = .host

/-- Only ISR (R470). -/
def onlyIsr (s : State) : Bool := s.cur = .isr

/-- Only BH (R470). -/
def onlyBh (s : State) : Bool := s.cur = .bh

/-- HOST or BH (R470: `tx.send` blocks, so not ISR). -/
def notIsr (s : State) : Bool := s.cur = .host || s.cur = .bh

/-- An issued host operation: refusal, then the agent check, then its own body (R452). -/
def hostOp (minStep : Nat) (allowed : State → Bool) (op : HostOp) (body : State → Flow) (s : State) :
    Host.Outcome State Fault Refusal :=
  if s.refuses minStep then .next s.refuse
  else if allowed s then (body s).out
  else .next (s.raise ⟨.context, s.cur.toAgent, 470, op.word⟩)

/-! ### DMA (20_memory.md R101, R110) -/

/-- A DMA access is legal: bus mastering, below 2^32, inside one DMA region (R110). -/
def State.dmaLegal (s : State) (a n : Nat) : Bool :=
  s.busMaster && a + n ≤ physSize && s.dma.any (fun r => r.base ≤ a && a + n ≤ r.base + r.len)

/-- Add a DMA region (10_state.md R53). -/
def State.addRegion (s : State) (base len : Nat) (use : RegionUse) : State := { s with dma := s.dma ++ [⟨base, len, use⟩] }

/-- Remove a DMA region (R350). -/
def State.removeRegion (s : State) (base len : Nat) (use : RegionUse) : State := { s with dma := s.dma.erase ⟨base, len, use⟩ }

/-! ### Frame check sequence (46_dma_sequencer.md R412) -/

/-- One bit of the IEEE 802.3 CRC-32, least significant bit first. -/
def crcBit (c : Word) : Word := if c.getLsbD 0 then (c >>> 1) ^^^ 0xEDB88320#32 else c >>> 1

/-- One byte of the CRC. -/
def crcByte (c : Word) (b : Byte) : Word :=
  crcBit (crcBit (crcBit (crcBit (crcBit (crcBit (crcBit (crcBit (c ^^^ b.setWidth 32))))))))

/-- The IEEE 802.3 CRC-32 of bytes. -/
def crc32 (bs : List Byte) : Word := ~~~(bs.foldl crcByte 0xFFFFFFFF#32)

/-- `FCS(f)`: the CRC-32, least significant byte first (R412). -/
def fcs (f : List Byte) : List Byte := wordBytes (crc32 f)

end Sys2Proof.Machine
end

