-- ==== Sys2Proof/Machine/Flags.lean ====
section
/-! DEFINITION. The flags of this block: the ICR cause bits (spec/10_state.md R39), link status and the interrupt line. -/

namespace Sys2Proof.Machine

/-- Cause bit TXDW: transmit descriptor written back (R39). -/
def txdw : Nat := 0
/-- Cause bit TXQE: transmit queue empty. -/
def txqe : Nat := 1
/-- Cause bit LSC: link status change. -/
def lsc : Nat := 2
/-- Cause bit RXDMT0: receive descriptor minimum threshold. -/
def rxdmt0 : Nat := 4
/-- Cause bit RXO: receiver overrun. -/
def rxo : Nat := 6
/-- Cause bit RXT0: receiver timer interrupt. -/
def rxt0 : Nat := 7
/-- Cause bit MDAC: MDIO access completed; never set in this model (R39). -/
def mdac : Nat := 9

/-- The set of modelled causes (41_register_mapper.md R279). -/
def modelledCauses : Word := 0x2D7#32

/-- Latch a cause in ICR, whatever IMS holds (46_dma_sequencer.md R414). -/
def State.setCause (s : State) (k : Nat) : State := { s with regs := { s.regs with icr := s.regs.icr ||| bit k } }

/-- Latch a cause if the condition holds. -/
def State.setCauseIf (s : State) (c : Bool) (k : Nat) : State := if c then s.setCause k else s

/-- STATUS.LU: `cable ∧ CTRL.SLU` (R37). -/
def State.lu (s : State) : Bool := s.cable && s.regs.ctrl.getLsbD 6

/-- `LinkEval()` (46_dma_sequencer.md R432): LSC when LU differs from its last evaluated value. -/
def State.linkEval (s : State) : State :=
  let s1 := s.setCauseIf (s.lu != s.luPrev) lsc
  { s1 with luPrev := s.lu }

/-- The interrupt line (R433): `(ICR & IMS) ≠ 0` at every instant. -/
def State.irq (s : State) : Bool := s.regs.icr &&& s.regs.ims != 0#32

/-- `causes(before, m)` of an RXE step (R425): RXT0, and RXDMT0 when the number of hardware-owned descriptors falls to the
threshold. RDMTS = 3 has been refused before. -/
def State.rxCauses (s : State) (before m : Nat) : State :=
  let t := s.ndev .rx >>> ((s.regs.rctl.extractLsb' 8 2).toNat + 1)
  (s.setCause rxt0).setCauseIf (before > t && before - m ≤ t) rxdmt0

/-- The transmit causes of a TXE step (R412, R414), after the head moved: TXDW if a status was written back, TXQE if the head
reached the tail. -/
def State.txCauses (s : State) (reported : Bool) : State :=
  (s.setCauseIf reported txdw).setCauseIf (s.regs.tdh == s.regs.tdt) txqe

end Sys2Proof.Machine
end

