-- ==== Sys2Proof/Machine/Operands.lean ====
section
/-! DEFINITION. Operand forms: register offsets, groups, indices, lengths (spec/30_encoding.md R146) and the register fields
the rules name (10_state.md R38 to R48). -/

namespace Sys2Proof.Machine

/-- `off(R) = P_OFFSETS(P_VARIANT)(R)` (R146). -/
def State.off (s : State) (r : Reg) : Nat := pOffsets s.params.offsets r

/-- The register of a control group (41_register_mapper.md R267). -/
def groupReg : Group → Reg
  | .dc => .ctrl
  | .rc => .rctl
  | .tc => .tctl
  | .ie => .ims
  | .id => .imc

/-- `0 ≤ i < N_T` (R146). -/
def State.indexOk (s : State) (t : Ring) (i : Nat) : Bool := i < s.ringSize t

/-- A length operand fits 16 bits (R146). -/
def lenOk (len : Nat) : Bool := len < 2 ^ 16

/-- The place of the EERD address field (40_mmio_registers.md R205). -/
def addrLo : EerdLayout → Nat
  | .l540 => 8
  | .l541 => 2

/-- The place of the EERD DONE bit (R205). -/
def doneBit : EerdLayout → Nat
  | .l540 => 4
  | .l541 => 1

/-- The EERD layout of the variant (R38). -/
def State.layout (s : State) : EerdLayout := s.params.variant.eerdLayout

/-- The address field of a value written to EERD (40_mmio_registers.md R206). -/
def eerdAddr (l : EerdLayout) (v : Word) : BitVec 14 :=
  match l with
  | .l540 => (v.extractLsb' 8 8).setWidth 14
  | .l541 => v.extractLsb' 2 14

/-- EERD as it reads (R205): DATA, ADDR and DONE; START reads 0. -/
def eerdWord (l : EerdLayout) (e : Eeprom) : Word :=
  (e.data.setWidth 32 <<< 16) ||| (e.addr.setWidth 32 <<< addrLo l) ||| (if e.done then bit (doneBit l) else 0#32)

/-- RCTL.LBM (R42). -/
def State.lbm (s : State) : Nat := (s.regs.rctl.extractLsb' 6 2).toNat

/-- RCTL.RDMTS (R42). -/
def State.rdmts (s : State) : Nat := (s.regs.rctl.extractLsb' 8 2).toNat

/-- RCTL.EN (R42). -/
def State.rxEnabled (s : State) : Bool := s.regs.rctl.getLsbD 1

/-- TCTL.EN (R44). -/
def State.txEnabled (s : State) : Bool := s.regs.tctl.getLsbD 1

/-- The receive buffer size that BSEX and BSIZE select (R43); none for the reserved pair. -/
def bufSize (rctl : Word) : Option Nat :=
  match rctl.getLsbD 25, (rctl.extractLsb' 16 2).toNat with
  | false, 0 => some 2048
  | false, 1 => some 1024
  | false, 2 => some 512
  | false, _ => some 256
  | true, 0 => none
  | true, 1 => some 16384
  | true, 2 => some 8192
  | true, _ => some 4096

/-- The station address of receive address 0 (R48): bytes 0 to 3 in RAL0, 4 and 5 in RAH0. -/
def State.ra0 (s : State) : List Byte := wordBytes s.regs.ral0 ++ bytesOfNat 2 s.regs.rah0.toNat

/-- The next index of a ring, wrapping (43_descriptors.md R334, R343). -/
def nextIndex (i n : Nat) : Nat := (i + 1) % n

end Sys2Proof.Machine
end

