-- ==== Sys2Proof/Machine/Registers.lean ====
section
/-! DEFINITION. The device's answer to a read or write of each register (spec/40_mmio_registers.md R200 to R240), and device
reset (70_reset_and_hazards.md R491). -/

namespace Sys2Proof.Machine

/-- Device reset (R491): every register takes its reset value, draws afresh; FIFO and EEPROM engine are cleared. Bus
mastering, memory, DMA regions, driver state and faults stay. -/
def State.deviceReset (s : State) : State :=
  let n := s.draws
  let fresh : PowerOn :=
    { ctrl := Config.draw32 n, tctl := Config.draw32 (n + 1), rdbal := Config.draw32 (n + 2), rdbah := Config.draw32 (n + 3),
      tdbal := Config.draw32 (n + 4), tdbah := Config.draw32 (n + 5), cable := s.cable, mac := s.drv.mac }
  let regs := DevRegs.afterReset s.params (Config.draw16 n) fresh
  { s with regs := regs, rxFifo := [], ee := { busy := false, addr := 0#14, data := 0#16, done := false },
           luPrev := s.cable && regs.ctrl.getLsbD 6, draws := n + 6 }

/-- STATUS (R203): LU in bit 1, every other bit a fresh draw. -/
def readStatus (s : State) : Word × State :=
  let (d, s1) := s.draw32
  ((d &&& ~~~(bit 1)) ||| (if s.lu then bit 1 else 0#32), s1)

/-- ICR read-and-clear (R207). -/
def readIcr (s : State) : Word × State := (s.regs.icr, { s with regs := { s.regs with icr := 0#32 } })

/-- `MmioRead(off(R))`: the read rule of each register, with the state it leaves. -/
def readReg (r : Reg) (s : State) : Word × State :=
  match r with
  | .ctrl => (s.regs.ctrl &&& ~~~(bit 26), s)
  | .status => readStatus s
  | .eerd => (eerdWord s.layout s.ee, s)
  | .icr => readIcr s
  | .ims => (s.regs.ims, s)
  | .imc => s.draw32
  | .rctl => (s.regs.rctl, s)
  | .tctl => (s.regs.tctl, s)
  | .rdbal => (s.regs.rdbal &&& 0xFFFFFFF0#32, s)
  | .rdbah => (s.regs.rdbah, s)
  | .rdlen => (s.regs.rdlen &&& 0x000FFF80#32, s)
  | .rdh => (s.regs.rdh &&& 0x0000FFFF#32, s)
  | .rdt => (s.regs.rdt &&& 0x0000FFFF#32, s)
  | .tdbal => (s.regs.tdbal &&& 0xFFFFFFF0#32, s)
  | .tdbah => (s.regs.tdbah, s)
  | .tdlen => (s.regs.tdlen &&& 0x000FFF80#32, s)
  | .tdh => (s.regs.tdh &&& 0x0000FFFF#32, s)
  | .tdt => (s.regs.tdt &&& 0x0000FFFF#32, s)
  | .ral0 => (s.regs.ral0, s)
  | .rah0 => (s.regs.rah0 &&& 0x8003FFFF#32, s)

/-- Write CTRL (R202): bit 26 starts a device reset and discards the rest. -/
def writeCtrl (v : Word) (s : State) : Flow :=
  .ok (if v.getLsbD 26 then s.deviceReset.linkEval else State.linkEval { s with regs := { s.regs with ctrl := v } })

/-- Write EERD (R206): store the address; START begins a read, and faults while one is in progress. The fault's detail is the
EEPROM address of the write (log entry 18). -/
def writeEerd (a : HostAgent) (v : Word) (s : State) : Flow :=
  let addr := eerdAddr s.layout v
  if v.getLsbD 0 then
    if s.ee.busy then .raised s ⟨.eerdBusy, a.toAgent, 206, addr.toNat⟩
    else .ok { s with ee := { s.ee with addr := addr, busy := true, done := false } }
  else .ok { s with ee := { s.ee with addr := addr } }

/-- A control register that enables an engine (R214, R216): the enable must not precede the ring length. -/
def initOrderFault (s : State) (a : HostAgent) (rule : Nat) (r : Reg) (enabled : Bool) (len v : Word) : Option FaultRecord :=
  if !enabled && v.getLsbD 1 && len == 0#32 then some ⟨.initOrder, a.toAgent, rule, s.off r⟩ else none

/-- Write RCTL (R214). -/
def writeRctl (a : HostAgent) (v : Word) (s : State) : Flow :=
  match initOrderFault s a 214 .rctl s.rxEnabled s.regs.rdlen v with
  | some f => .raised s f
  | none => .ok { s with regs := { s.regs with rctl := v } }

/-- Write TCTL (R216). -/
def writeTctl (a : HostAgent) (v : Word) (s : State) : Flow :=
  match initOrderFault s a 216 .tctl s.txEnabled s.regs.tdlen v with
  | some f => .raised s f
  | none => .ok { s with regs := { s.regs with tctl := v } }

/-- A ring base, length or head is written: refused by a fault while the ring's engine is enabled (R218 to R234). -/
def whileDisabled (a : HostAgent) (rule : Nat) (r : Reg) (enabled : Bool) (s : State) (go : Flow) : Flow :=
  if enabled then .raised s ⟨.ringReprogram, a.toAgent, rule, s.off r⟩ else go

/-- A head or tail is written: the index must be below `max(Ndev, 1)` (R224, R226, R234, R236). The fault's detail, which
60_exceptions.md R451 calls the value, is the index `v[15:0]` (DESIGN CHOICE, log entry 18). -/
def inRange (a : HostAgent) (rule : Nat) (n : Nat) (v : Word) (s : State) (go : Word → Flow) : Flow :=
  if (v &&& 0x0000FFFF#32).toNat ≥ max n 1 then .raised s ⟨.ringRegRange, a.toAgent, rule, (v &&& 0x0000FFFF#32).toNat⟩
  else go (v &&& 0x0000FFFF#32)

/-- Another agent's confirm of the register is between its two steps (41_register_mapper.md R263 (b)). -/
def State.confirmedByOther (s : State) (r : Reg) (a : HostAgent) : Bool :=
  let c := (s.mapper.get r).inConfirm
  (c.host && a != .host) || (c.isr && a != .isr) || (c.bh && a != .bh)

/-- The write rule of each register. -/
def writeRule (a : HostAgent) (r : Reg) (v : Word) (s : State) : Flow :=
  match r with
  | .ctrl => writeCtrl v s
  | .status => .ok s
  | .eerd => writeEerd a v s
  | .icr => .ok { s with regs := { s.regs with icr := s.regs.icr &&& ~~~v } }
  | .ims => .ok { s with regs := { s.regs with ims := s.regs.ims ||| v } }
  | .imc => .ok { s with regs := { s.regs with ims := s.regs.ims &&& ~~~v } }
  | .rctl => writeRctl a v s
  | .tctl => writeTctl a v s
  | .rdbal => whileDisabled a 218 r s.rxEnabled s (.ok { s with regs := { s.regs with rdbal := v &&& 0xFFFFFFF0#32 } })
  | .rdbah => whileDisabled a 220 r s.rxEnabled s (.ok { s with regs := { s.regs with rdbah := v } })
  | .rdlen => whileDisabled a 222 r s.rxEnabled s (.ok { s with regs := { s.regs with rdlen := v &&& 0x000FFF80#32 } })
  | .rdh => whileDisabled a 224 r s.rxEnabled s
      (inRange a 224 (s.ndev .rx) v s fun x => .ok { s with regs := { s.regs with rdh := x } })
  | .rdt => inRange a 226 (s.ndev .rx) v s fun x => .ok { s with regs := { s.regs with rdt := x } }
  | .tdbal => whileDisabled a 228 r s.txEnabled s (.ok { s with regs := { s.regs with tdbal := v &&& 0xFFFFFFF0#32 } })
  | .tdbah => whileDisabled a 230 r s.txEnabled s (.ok { s with regs := { s.regs with tdbah := v } })
  | .tdlen => whileDisabled a 232 r s.txEnabled s (.ok { s with regs := { s.regs with tdlen := v &&& 0x000FFF80#32 } })
  | .tdh => whileDisabled a 234 r s.txEnabled s
      (inRange a 234 (s.ndev .tx) v s fun x => .ok { s with regs := { s.regs with tdh := x } })
  | .tdt => inRange a 236 (s.ndev .tx) v s fun x => .ok { s with regs := { s.regs with tdt := x } }
  | .ral0 => .ok { s with regs := { s.regs with ral0 := v } }
  | .rah0 => .ok { s with regs := { s.regs with rah0 := v &&& 0x8003FFFF#32 } }

/-- `MmioWrite(off(R), v)` by an agent: the single-writer check (41_register_mapper.md R263 (b)) before the register's own rule
(log entry 13). -/
def writeReg (a : HostAgent) (r : Reg) (v : Word) (s : State) : Flow :=
  if s.confirmedByOther r a then .raised s ⟨.regRace, a.toAgent, 263, s.off r⟩ else writeRule a r v s

/-- A read request (R200): the value goes to the issuing agent. -/
def mmioRead (r : Reg) (s : State) : Host.Outcome State Fault Refusal :=
  .next ((readReg r s).2.setRet s.cur (.word (readReg r s).1))

/-- A write request (R200): it returns nothing. -/
def mmioWrite (r : Reg) (v : Word) (s : State) : Host.Outcome State Fault Refusal :=
  ((writeReg s.cur r v s).andThen fun s1 => .ok (s1.setRet s.cur .unit)).out

end Sys2Proof.Machine
end

