-- ==== Sys2Proof/Machine/Mapper.lean ====
section
/-! DEFINITION. The register mapper (spec/41_register_mapper.md): staging, control-group setters, and the operations of one
step among them. `reg.confirm` and `grp.manage` stand in Rings.lean, since they take two steps. -/

namespace Sys2Proof.Machine

/-- The Register object of a register (10_state.md R60). -/
def State.regObj (s : State) (r : Reg) : RegObj := s.mapper.get r

/-- Replace a Register object. -/
def State.setRegObj (s : State) (r : Reg) (o : RegObj) : State := { s with mapper := s.mapper.set r o }

/-- `stage(R)` of 41_register_mapper.md fails: the pending masks belong to another agent (R263 (a)). -/
def State.stagedByOther (s : State) (r : Reg) (a : HostAgent) : Bool :=
  match (s.regObj r).stagedBy with
  | none => false
  | some b => b != a

/-- Store new masks as staged by an agent; `stagedBy` is none when both are empty (R260, R261, R60). -/
def RegObj.withMasks (o : RegObj) (a : HostAgent) (on off : Word) : RegObj :=
  { o with onMask := on, offMask := off, stagedBy := if on = 0#32 ∧ off = 0#32 then none else some a }

/-- Staging by an agent: the single-writer check, then the new masks. -/
def stage (a : HostAgent) (r : Reg) (on off : Word) (s : State) : Flow :=
  if s.stagedByOther r a then .raised s ⟨.regRace, a.toAgent, 263, s.off r⟩
  else .ok (s.setRegObj r ((s.regObj r).withMasks a on off))

/-- `reg.set R, values, mask` (R260). -/
def regSet (a : HostAgent) (r : Reg) (values mask : Word) (s : State) : Flow :=
  let o := s.regObj r
  stage a r ((o.onMask &&& ~~~mask) ||| (values &&& mask)) ((o.offMask &&& ~~~mask) ||| (~~~values &&& mask)) s

/-- `reg.decide R, values, enable` (R261). -/
def regDecide (a : HostAgent) (r : Reg) (values : Word) (enable : Bool) (s : State) : Flow :=
  let o := s.regObj r
  if enable then stage a r (o.onMask ||| values) (o.offMask &&& ~~~values) s
  else stage a r (o.onMask &&& ~~~values) (o.offMask ||| values) s

/-- How a setter stages its field. -/
inductive Staging where
  | set (r : Reg) (values mask : Word)
  | decide (r : Reg) (values : Word) (enable : Bool)
deriving DecidableEq, Repr

/-- Run a staging. -/
def Staging.run (a : HostAgent) (g : Staging) (s : State) : Flow :=
  match g with
  | .set r values mask => regSet a r values mask s
  | .decide r values enable => regDecide a r values enable s

/-- The feature a setter needs (R266). -/
def Setting.feature : Setting → Feature
  | .linkUp _ => .setLinkUp
  | .autoSpeed _ => .autoSpeed
  | .rcEnable _ => .rcEnable
  | .loopback _ => .loopback
  | .bufSize _ => .bufSize
  | .minThreshold _ => .minThreshold
  | .broadcast _ => .broadcast
  | .tcEnable _ => .tcEnable
  | .padShort _ => .padShort
  | .collThresh _ => .collThresh
  | .collDist _ => .collDist
  | .ieEnable _ => .ieEnable
  | .idDisable _ => .idDisable

/-- BSEX and BSIZE of a buffer size (R272); none outside the domain. -/
def bufSizeCode (v : Int) : Option Word :=
  if v = 2048 then some 0x00000000#32
  else if v = 1024 then some 0x00010000#32
  else if v = 512 then some 0x00020000#32
  else if v = 256 then some 0x00030000#32
  else if v = 16384 then some 0x02010000#32
  else if v = 8192 then some 0x02020000#32
  else if v = 4096 then some 0x02030000#32
  else none

/-- RDMTS of a threshold denominator (R273); none outside the domain. -/
def minThresholdCode (f : Int) : Option Word :=
  if f = 2 then some 0x000#32 else if f = 4 then some 0x100#32 else if f = 8 then some 0x200#32 else none

/-- A set of causes that `ie.enable` and `id.disable` accept (R279, R280). -/
def causesOk (causes : Word) : Bool := causes != 0#32 && causes &&& ~~~modelledCauses == 0#32

/-- What a setter stages (R268 to R280); none where its argument is outside its domain. -/
def Setting.staging : Setting → Option Staging
  | .linkUp b => some (.decide .ctrl (bit 6) b)
  | .autoSpeed b => some (.decide .ctrl (bit 5) b)
  | .rcEnable b => some (.decide .rctl (bit 1) b)
  | .loopback m => if m = 0 ∨ m = 3 then some (.set .rctl (BitVec.ofInt 32 m <<< 6) 0x000000C0#32) else none
  | .bufSize v => (bufSizeCode v).map fun c => .set .rctl c 0x02030000#32
  | .minThreshold f => (minThresholdCode f).map fun c => .set .rctl c 0x00000300#32
  | .broadcast b => some (.decide .rctl (bit 15) b)
  | .tcEnable b => some (.decide .tctl (bit 1) b)
  | .padShort b => some (.decide .tctl (bit 3) b)
  | .collThresh v => if 0 ≤ v ∧ v ≤ 255 then some (.set .tctl (BitVec.ofInt 32 v <<< 4) 0x00000FF0#32) else none
  | .collDist v => if 0 ≤ v ∧ v ≤ 1023 then some (.set .tctl (BitVec.ofInt 32 v <<< 12) 0x003FF000#32) else none
  | .ieEnable causes => if causesOk causes then some (.decide .ims causes true) else none
  | .idDisable causes => if causesOk causes then some (.decide .imc causes true) else none

/-- The feature is in `P_FEATURES` (R266). -/
def State.supports (s : State) (f : Feature) : Bool := s.params.features.contains f

/-- What a setter answers before it stages (R266): unsupported first, then the domain. -/
def Setting.check (st : Setting) (s : State) : Except Err Staging :=
  if s.supports st.feature then
    match st.staging with
    | some g => .ok g
    | none => .error .config
  else .error .unsupported

/-- A setter issued on its own (R266). -/
def settingOp (st : Setting) (s : State) : Flow :=
  match st.check s with
  | .error e => .ok (s.setRet s.cur (.err e))
  | .ok g => (g.run s.cur s).andThen fun s1 => .ok (s1.setRet s.cur .ok)

/-! ### Meanings -/

/-- `reg.set` (R260): refused on ICR. -/
def execRegSet (reg : Reg) (values mask : Word) : State → Host.Outcome State Fault Refusal :=
  hostOp 6 anyAgent .regSet fun s =>
    if reg = .icr then .ok s.refuse
    else (regSet s.cur reg values mask s).andThen fun s1 => .ok (s1.setRet s.cur .unit)

/-- `reg.decide` (R261): refused on ICR. -/
def execRegDecide (reg : Reg) (values : Word) (enable : Bool) : State → Host.Outcome State Fault Refusal :=
  hostOp 6 anyAgent .regDecide fun s =>
    if reg = .icr then .ok s.refuse
    else (regDecide s.cur reg values enable s).andThen fun s1 => .ok (s1.setRet s.cur .unit)

/-- `reg.readdirect` (R264): one read, masks unchanged. -/
def execRegReaddirect (reg : Reg) : State → Host.Outcome State Fault Refusal :=
  hostOp 6 anyAgent .regReaddirect fun s => .ok ((readReg reg s).2.setRet s.cur (.word (readReg reg s).1))

/-- `dc.setlinkup` (R268). -/
def execDcSetlinkup (on : Bool) : State → Host.Outcome State Fault Refusal :=
  hostOp 6 anyAgent .dcSetlinkup (settingOp (.linkUp on))

/-- `dc.autospeed` (R269). -/
def execDcAutospeed (on : Bool) : State → Host.Outcome State Fault Refusal :=
  hostOp 6 anyAgent .dcAutospeed (settingOp (.autoSpeed on))

/-- `rc.enable` (R270). -/
def execRcEnable (on : Bool) : State → Host.Outcome State Fault Refusal :=
  hostOp 6 anyAgent .rcEnable (settingOp (.rcEnable on))

/-- `rc.loopback` (R271). -/
def execRcLoopback (mode : Int) : State → Host.Outcome State Fault Refusal :=
  hostOp 6 anyAgent .rcLoopback (settingOp (.loopback mode))

/-- `rc.bufsize` (R272). -/
def execRcBufsize (size : Int) : State → Host.Outcome State Fault Refusal :=
  hostOp 6 anyAgent .rcBufsize (settingOp (.bufSize size))

/-- `rc.minthreshold` (R273). -/
def execRcMinthreshold (fraction : Int) : State → Host.Outcome State Fault Refusal :=
  hostOp 6 anyAgent .rcMinthreshold (settingOp (.minThreshold fraction))

/-- `rc.broadcast` (R274). -/
def execRcBroadcast (on : Bool) : State → Host.Outcome State Fault Refusal :=
  hostOp 6 anyAgent .rcBroadcast (settingOp (.broadcast on))

/-- `tc.enable` (R275). -/
def execTcEnable (on : Bool) : State → Host.Outcome State Fault Refusal :=
  hostOp 6 anyAgent .tcEnable (settingOp (.tcEnable on))

/-- `tc.padshort` (R276). -/
def execTcPadshort (on : Bool) : State → Host.Outcome State Fault Refusal :=
  hostOp 6 anyAgent .tcPadshort (settingOp (.padShort on))

/-- `tc.collthresh` (R277). -/
def execTcCollthresh (value : Int) : State → Host.Outcome State Fault Refusal :=
  hostOp 6 anyAgent .tcCollthresh (settingOp (.collThresh value))

/-- `tc.colldist` (R278). -/
def execTcColldist (value : Int) : State → Host.Outcome State Fault Refusal :=
  hostOp 6 anyAgent .tcColldist (settingOp (.collDist value))

/-- `ie.enable` (R279). -/
def execIeEnable (causes : Word) : State → Host.Outcome State Fault Refusal :=
  hostOp 6 anyAgent .ieEnable (settingOp (.ieEnable causes))

/-- `id.disable` (R280). -/
def execIdDisable (causes : Word) : State → Host.Outcome State Fault Refusal :=
  hostOp 6 anyAgent .idDisable (settingOp (.idDisable causes))

end Sys2Proof.Machine
end

