-- ==== Sys2Proof/Machine/Cause.lean ====
section
/-! DEFINITION. The interrupt-cause decoder (spec/42_interrupt_cause.md). -/

namespace Sys2Proof.Machine

/-- `readAndClear` (R301): one read of ICR, which clears it; the value becomes the snapshot. -/
def readAndClear (s : State) : State :=
  let (v, s1) := readReg .icr s
  { s1 with drv := { s1.drv with snap := v, icState := .handling } }

/-- `claim(k)` (R302): whether the snapshot held the bit, and the state without it; in IDLE false and no change. -/
def claim (k : Nat) (s : State) : Bool × State :=
  match s.drv.icState with
  | .idle => (false, s)
  | .handling => (s.drv.snap.getLsbD k, { s with drv := { s.drv with snap := s.drv.snap &&& ~~~(bit k) } })

/-- `hasUnhandledInterrupts` (R307). -/
def unhandled (s : State) : Bool := s.drv.icState = .handling && s.drv.snap != 0#32

/-- `ic.done` (R309). -/
def icDone (s : State) : State := { s with drv := { s.drv with snap := 0#32, icState := .idle } }

/-- HOST is at step 12 of `initialize` (R310): 11 steps are complete and its next step is that step's read or its end. -/
def inStep12 (s : State) : Bool :=
  s.drv.initStep = 11 && (s.work .host).head? matches some .icReadClear | some .icDone

/-- Who may use the decoder (R310, 60_exceptions.md R470): ISR, and HOST as step 12 of `initialize`. -/
def decoderAgent (s : State) : Bool := s.cur = .isr || (s.cur = .host && inStep12 s)

/-- A predicate of the decoder (R302 to R306). -/
def claimOp (k : Nat) (s : State) : Flow := .ok ((claim k s).2.setRet s.cur (.bool (claim k s).1))

/-! ### Meanings -/

/-- `ic.readclear` (R301). -/
def execIcReadclear : State → Host.Outcome State Fault Refusal :=
  hostOp 6 decoderAgent .icReadclear fun s => .ok ((readAndClear s).setRet s.cur (.word s.regs.icr))

/-- `ic.linkchanged` (R302). -/
def execIcLinkchanged : State → Host.Outcome State Fault Refusal := hostOp 6 decoderAgent .icLinkchanged (claimOp lsc)

/-- `ic.overrun` (R303). -/
def execIcOverrun : State → Host.Outcome State Fault Refusal := hostOp 6 decoderAgent .icOverrun (claimOp rxo)

/-- `ic.minthreshold` (R304). -/
def execIcMinthreshold : State → Host.Outcome State Fault Refusal := hostOp 6 decoderAgent .icMinthreshold (claimOp rxdmt0)

/-- `ic.rxtimer` (R305). -/
def execIcRxtimer : State → Host.Outcome State Fault Refusal := hostOp 6 decoderAgent .icRxtimer (claimOp rxt0)

/-- `ic.mdiodone` (R306). -/
def execIcMdiodone : State → Host.Outcome State Fault Refusal := hostOp 6 decoderAgent .icMdiodone (claimOp mdac)

/-- `ic.unhandled` (R307): it does not change the snapshot. -/
def execIcUnhandled : State → Host.Outcome State Fault Refusal :=
  hostOp 6 decoderAgent .icUnhandled fun s => .ok (s.setRet s.cur (.bool (unhandled s)))

end Sys2Proof.Machine
end

