-- ==== Sys2Proof/Machine/Descriptors.lean ====
section
/-! DEFINITION. Descriptor views and the ring cursor (spec/43_descriptors.md R320 to R334; layouts 30_encoding.md R150, R151). -/

namespace Sys2Proof.Machine

/-- Physical address of byte `off` of the driver's descriptor `i` (R320, 10_state.md R54). -/
def State.descAddr (s : State) (t : Ring) (i off : Nat) : Nat :=
  s.ringPhys t + 16 * i + off

/-- The index check of an accessor (R320, 30_encoding.md R146). -/
def checkIndex (a : HostAgent) (t : Ring) (i : Nat) (s : State) : Flow :=
  if s.indexOk t i then .ok s else .raised s ⟨.index, a.toAgent, 146, i⟩

/-- The bytes of a descriptor field. -/
def State.descBytes (s : State) (t : Ring) (i off n : Nat) : List Byte := s.mem.readBytes (s.descAddr t i off) n

/-- A host write of one descriptor field (R320): index, ownership, then the store. -/
def descWrite (a : HostAgent) (t : Ring) (i off : Nat) (bs : List Byte) (s : State) : Flow :=
  (checkIndex a t i s).andThen (hostWrite a (s.descAddr t i off) bs)

/-- `txd.writeaddress`, `rxd.writeaddress` (R321, R325): the address field is 8 bytes, zero-extended. -/
def writeAddress (a : HostAgent) (t : Ring) (i : Nat) (pa : Word) : State → Flow := descWrite a t i 0 (bytesOfNat 8 pa.toNat)

/-- `txd.writelength` (R322). -/
def writeLength (a : HostAgent) (i len : Nat) : State → Flow := descWrite a .tx i 8 (bytesOfNat 2 len)

/-- `txd.writecommand` (R323): the command byte, and the status byte cleared, in one step. -/
def writeCommand (a : HostAgent) (i : Nat) (s : State) : Flow :=
  (descWrite a .tx i 11 [Config.txCmd] s).andThen (descWrite a .tx i 12 [0#8])

/-- `rxd.clearstatus` (R329). -/
def clearStatus (a : HostAgent) (i : Nat) : State → Flow := descWrite a .rx i 12 [0#8]

/-- The status byte of a descriptor (30_encoding.md R150, R151: byte 12). -/
def State.status (s : State) (t : Ring) (i : Nat) : Byte := (s.descBytes t i 12 1).headD 0#8

/-- The errors byte of a receive descriptor (R151: byte 13). -/
def State.rxErrors (s : State) (i : Nat) : Byte := (s.descBytes .rx i 13 1).headD 0#8

/-- The length field of a receive descriptor (R151: bytes 8 and 9). -/
def State.rxLength (s : State) (i : Nat) : Half := BitVec.ofNat 16 (natOfBytes (s.descBytes .rx i 8 2))

/-- `isDone()` of a transmit status byte (30_encoding.md R153). -/
def txStatusDone (sta : Byte) : Bool := sta &&& 0x07#8 != 0#8

/-- `done()` of a receive status byte (R331). -/
def rxStatusDone (sta : Byte) : Bool := sta.getLsbD 0

/-- `isEop()` of a receive status byte (R328). -/
def rxStatusEop (sta : Byte) : Bool := sta.getLsbD 1

/-- `hasErrors()` of an errors byte (R330). -/
def rxHasErrors (errors : Byte) : Bool := errors &&& Config.rxErrorMask != 0#8

/-- The virtual address of slot `i` (R326). -/
def State.slotVirt (s : State) (i : Nat) : Word := (s.drv.slots[i]?.getD ⟨0#32, 0#32⟩).virt

/-- The physical address of slot `i` (R342). -/
def State.slotPhys (s : State) (i : Nat) : Word := (s.drv.slots[i]?.getD ⟨0#32, 0#32⟩).phys

/-- The cursor of a ring (R333). -/
def State.cursor (s : State) : Ring → Nat
  | .tx => s.drv.txCur
  | .rx => s.drv.rxCur

/-- `ring.setnext` (R334). -/
def State.setNext (s : State) : Ring → State
  | .tx => { s with drv := { s.drv with txCur := nextIndex s.drv.txCur s.params.nTx } }
  | .rx => { s with drv := { s.drv with rxCur := nextIndex s.drv.rxCur s.params.nRx } }

/-- An accessor that writes: its own effect, and nothing returned. -/
def writeOp (go : HostAgent → State → Flow) (s : State) : Flow :=
  (go s.cur s).andThen fun s1 => .ok (s1.setRet s.cur .unit)

/-- An accessor that reads: the index check, then a value returned. -/
def readOp (t : Ring) (i : Nat) (value : State → Ret) (s : State) : Flow :=
  (checkIndex s.cur t i s).andThen fun s1 => .ok (s1.setRet s.cur (value s))

/-! ### Meanings -/

/-- `txd.writeaddress` (R321). -/
def execTxdWriteaddress (index : Nat) (pa : Word) : State → Host.Outcome State Fault Refusal :=
  hostOp 5 anyAgent .txdWriteaddress (writeOp fun a => writeAddress a .tx index pa)

/-- `txd.writelength` (R322); a length of more than 16 bits is `F_TX_LENGTH` (30_encoding.md R146). The index is checked first,
then the length, then the owner (DESIGN CHOICE, log entry 33). -/
def execTxdWritelength (index len : Nat) : State → Host.Outcome State Fault Refusal :=
  hostOp 5 anyAgent .txdWritelength fun s =>
    (checkIndex s.cur .tx index s).andThen fun s =>
      if lenOk len then writeOp (fun a => writeLength a index len) s
      else .raised s ⟨.txLength, s.cur.toAgent, 146, len⟩

/-- `txd.writecommand` (R323). -/
def execTxdWritecommand (index : Nat) : State → Host.Outcome State Fault Refusal :=
  hostOp 5 anyAgent .txdWritecommand (writeOp fun a => writeCommand a index)

/-- `txd.isdone` (R324). -/
def execTxdIsdone (index : Nat) : State → Host.Outcome State Fault Refusal :=
  hostOp 5 anyAgent .txdIsdone (readOp .tx index fun s => .bool (txStatusDone (s.status .tx index)))

/-- `rxd.writeaddress` (R325). -/
def execRxdWriteaddress (index : Nat) (pa : Word) : State → Host.Outcome State Fault Refusal :=
  hostOp 5 anyAgent .rxdWriteaddress (writeOp fun a => writeAddress a .rx index pa)

/-- `rxd.getpacketaddress` (R326): no memory access. -/
def execRxdGetpacketaddress (index : Nat) : State → Host.Outcome State Fault Refusal :=
  hostOp 5 anyAgent .rxdGetpacketaddress (readOp .rx index fun s => .word (s.slotVirt index))

/-- `rxd.readlength` (R327). -/
def execRxdReadlength (index : Nat) : State → Host.Outcome State Fault Refusal :=
  hostOp 5 anyAgent .rxdReadlength (readOp .rx index fun s => .half (s.rxLength index))

/-- `rxd.iseop` (R328). -/
def execRxdIseop (index : Nat) : State → Host.Outcome State Fault Refusal :=
  hostOp 5 anyAgent .rxdIseop (readOp .rx index fun s => .bool (rxStatusEop (s.status .rx index)))

/-- `rxd.clearstatus` (R329). -/
def execRxdClearstatus (index : Nat) : State → Host.Outcome State Fault Refusal :=
  hostOp 5 anyAgent .rxdClearstatus (writeOp fun a => clearStatus a index)

/-- `rxd.haserrors` (R330). -/
def execRxdHaserrors (index : Nat) : State → Host.Outcome State Fault Refusal :=
  hostOp 5 anyAgent .rxdHaserrors (readOp .rx index fun s => .bool (rxHasErrors (s.rxErrors index)))

/-- `rxd.done` (R331). -/
def execRxdDone (index : Nat) : State → Host.Outcome State Fault Refusal :=
  hostOp 5 anyAgent .rxdDone (readOp .rx index fun s => .bool (rxStatusDone (s.status .rx index)))

/-- `ring.current` (R333): no step, the cursor is not moved. -/
def execRingCurrent (ring : Ring) : State → Host.Outcome State Fault Refusal :=
  hostOp 5 anyAgent .ringCurrent fun s => .ok (s.setRet s.cur (.index (s.cursor ring)))

/-- `ring.setnext` (R334). -/
def execRingSetnext (ring : Ring) : State → Host.Outcome State Fault Refusal :=
  hostOp 5 anyAgent .ringSetnext fun s => .ok ((s.setNext ring).setRet s.cur .unit)

end Sys2Proof.Machine
end

