-- ==== Sys2Proof/Machine/Device.lean ====
section
/-! DEFINITION. The device's engines (spec/46_dma_sequencer.md) and ENV's steps. A step that faults has no other effect (R410). -/

namespace Sys2Proof.Machine

/-- The bytes of `l` from place `a` on, `n` of them. -/
def sliceBytes (l : List Byte) (a n : Nat) : List Byte := (l.drop a).take n

/-! ### RXMAC (R418, R419) -/

/-- The destination filter (R418). A looped-back frame of fewer than 6 bytes has no whole destination address: it is filtered on
the bytes it has, so it matches neither RA0 nor broadcast (DESIGN CHOICE, log entry 16). -/
def State.addressMatch (s : State) (f : List Byte) : Bool :=
  let dst := f.take 6
  let group := (f.headD 0#8).getLsbD 0
  (s.regs.rah0.getLsbD 31 && dst == s.ra0) ||
  (dst == List.replicate 6 0xFF#8 && s.regs.rctl.getLsbD 15) ||
  (!group && s.regs.rctl.getLsbD 3) ||
  (group && s.regs.rctl.getLsbD 4)

/-- The errors byte stored with a frame (R418). -/
def rxErrByte (crcOk : Bool) (err : Byte) : Byte := (err &&& 0x86#8) ||| (if crcOk then 0x00#8 else 0x01#8)

/-- The tests of R418 that discard a frame: a bad CRC, the length limit and the filter. -/
def State.rxPasses (s : State) (f : List Byte) (crcOk : Bool) : Bool :=
  (crcOk || s.regs.rctl.getLsbD 2) && (s.regs.rctl.getLsbD 5 || f.length ≤ 1522) && s.addressMatch f

/-- Store an accepted frame, or lose it to an overrun (R418, R419). -/
def State.rxStore (s : State) (f : List Byte) (crcOk : Bool) (err : Byte) : State :=
  if s.rxFifo.length = s.params.rxFifoCap then s.setCause rxo
  else { s with rxFifo := s.rxFifo ++ [⟨f, rxErrByte crcOk err⟩] }

/-- RXMAC's rule (R418) for a frame from ENV or from TXE's loopback. A reserved loopback mode faults while the receiver or the
transmitter is enabled, as 30_encoding.md R158 has it; where the transmitter alone is, R418's own order would discard the frame
(DESIGN CHOICE, log entry 34). -/
def rxmacAccept (fromEnv : Bool) (f : List Byte) (crcOk : Bool) (err : Byte) (s : State) : Flow :=
  if (s.rxEnabled || s.txEnabled) && (s.lbm = 1 || s.lbm = 2) then .raised s ⟨.reservedValue, .rxmac, 418, s.lbm⟩
  else if !s.rxEnabled then .ok s
  else if fromEnv && (s.lbm = 3 || !s.lu) then .ok s
  else if s.rxPasses f crcOk then .ok (s.rxStore f crcOk err)
  else .ok s

/-- ENV offers a frame; R418 covers frames of at least 18 bytes. -/
def rxmacStep (f : List Byte) (crcOk : Bool) (err : Byte) (s : State) : Flow :=
  if f.length < 18 then .ok s else rxmacAccept true f crcOk err s

/-! ### TXE (R411 to R417) -/

/-- TXE is enabled (R411). -/
def State.txeEnabled (s : State) : Bool :=
  s.busMaster && s.txEnabled && s.ndev .tx > 0 && s.regs.tdh != s.regs.tdt &&
  (s.lu || s.params.txNoLink = .discard || s.lbm = 3)

/-- A frame looped back by TXE (R416). R418 does not cover one of fewer than 18 bytes: whether RXMAC looks at it is free
(log entry 16). -/
def loopFrame (f : List Byte) (s : State) : Flow :=
  if f.length < 18 then
    let s1 := { s with draws := s.draws + 1 }
    if Config.runtLoopTaken s.draws then rxmacAccept false f true 0#8 s1 else .ok s1
  else rxmacAccept false f true 0#8 s

/-- `emit(f, o)` (R415, R416). -/
def emit (f : List Byte) (o : Collision) (s : State) : Flow :=
  if s.lbm = 3 then loopFrame f s
  else if s.lu && o = .none then .ok { s with wireOut := s.wireOut ++ [f] }
  else .ok s

/-- The frame that a buffer and a command byte make: padding, then FCS (R412). -/
def txFrame (pad : Bool) (cmd : Byte) (buf : List Byte) : List Byte :=
  let f := if pad && buf.length < 60 then buf ++ List.replicate (60 - buf.length) 0#8 else buf
  if cmd.getLsbD 1 then f ++ fcs f else f

/-- The status byte written back (R412). -/
def txStatusByte (o : Collision) : Byte :=
  match o with
  | .none => 0x01#8
  | .ec => 0x03#8
  | .lc => 0x05#8

/-- What TXE reads of the descriptor at its head. -/
structure TxWork where
  addr : Nat
  cmd  : Byte
  buf  : List Byte
deriving DecidableEq, Repr

/-- A transmit command byte the model has no format for (30_encoding.md R152, 46 R417). -/
def txCmdBad (cmd : Byte) : Bool := cmd &&& 0xD4#8 != 0#8 || !cmd.getLsbD 5 || !cmd.getLsbD 0

/-- The checks and reads of a TXE step, in their order (R412, 60_exceptions.md R455). -/
def txeFetch (s : State) : Except FaultRecord TxWork :=
  let h := s.head .tx
  let a := s.ringBase .tx + 16 * h
  if s.lbm = 1 ∨ s.lbm = 2 then .error ⟨.reservedValue, .txe, 412, s.lbm⟩
  else if !s.dmaLegal a 16 then .error ⟨.dmaWild, .txe, 110, a⟩
  else
    let d := s.mem.readBytes a 16
    let cmd := d.getD 11 0#8
    let len := natOfBytes (sliceBytes d 8 2)
    let addr := natOfBytes (sliceBytes d 0 8)
    if txCmdBad cmd then .error ⟨.descFormat, .txe, 417, h⟩
    else if len = 0 ∨ Config.txMaxLen < len then .error ⟨.txLength, .txe, 417, len⟩
    else if !s.dmaLegal addr len then .error ⟨.dmaWild, .txe, 110, addr⟩
    else .ok ⟨a, cmd, s.mem.readBytes addr len⟩

/-- The status write-back (R412): inside the descriptor whose 16 bytes the step has checked. -/
def State.txWriteBack (s : State) (w : TxWork) (o : Collision) : State :=
  if w.cmd.getLsbD 3 then s.putBytes (w.addr + 12) [txStatusByte o] else s

/-- The head moves past the descriptor, and the causes are latched (R412, R414). -/
def State.txRetire (s : State) (w : TxWork) : State :=
  { s with regs := { s.regs with tdh := BitVec.ofNat 32 (nextIndex (s.head .tx) (s.ndev .tx)) } }.txCauses (w.cmd.getLsbD 3)

/-- One TXE step (R412); under loopback the outcome is none (R413). -/
def txeStep (drawn : Collision) (s : State) : Flow :=
  if s.txeEnabled then
    match txeFetch s with
    | .error f => .raised s f
    | .ok w =>
      let o := if s.lbm = 3 then .none else drawn
      (emit (txFrame (s.regs.tctl.getLsbD 3) w.cmd w.buf) o s).andThen fun s1 => .ok ((s1.txWriteBack w o).txRetire w)
  else .ok s

/-! ### RXE (R420 to R425) -/

/-- The bytes RXE stores of a frame (R421): without the last 4 where SECRC is set, so none of a looped-back frame of fewer than 4
bytes (DESIGN CHOICE, log entry 16). -/
def State.rxBytes (s : State) (e : RxFrame) : List Byte :=
  if s.regs.rctl.getLsbD 26 then e.bytes.take (e.bytes.length - 4) else e.bytes

/-- The number of descriptors a frame needs (R421); 1 for the reserved buffer size (log entry 17). -/
def State.rxNeeds (s : State) (e : RxFrame) : Nat :=
  match bufSize s.regs.rctl with
  | some b => max 1 (((s.rxBytes e).length + b - 1) / b)
  | none => 1

/-- The descriptors hardware owns on a ring (R420). -/
def State.hwCount (s : State) (t : Ring) : Nat := count (s.head t) (s.tail t) (s.ndev t)

/-- RXE is enabled (R420). -/
def State.rxeEnabled (s : State) : Bool :=
  match s.rxFifo with
  | [] => false
  | e :: _ => s.busMaster && s.ndev .rx > 0 && s.rxNeeds e ≤ s.hwCount .rx

/-- The fields of one write-back (R421): length, checksum, status, errors and special. -/
def rxWriteBackBytes (len : Nat) (checksum : Half) (last : Bool) (err : Byte) (special : Half) : List Byte :=
  bytesOfNat 2 len ++ halfBytes checksum ++ [if last then 0x03#8 else 0x01#8] ++ [if last then err else 0x00#8] ++
    halfBytes special

/-- The places and widths of the write-back accesses in a descriptor (R421). -/
def rxWriteBackSpans : List (Nat × Nat) := [(8, 2), (10, 2), (12, 1), (13, 1), (14, 2)]

/-- The first access of chunk `j` that is no legal DMA access (R110): the address read, the chunk, the write-back. A chunk of
no bytes makes no access (log entry 16). -/
def State.rxWild (s : State) (a addr n : Nat) : Option Nat :=
  if !s.dmaLegal a 8 then some a
  else if n ≠ 0 && !s.dmaLegal addr n then some addr
  else (rxWriteBackSpans.find? fun p => !s.dmaLegal (a + p.1) p.2).map fun p => a + p.1

/-- Write chunk `j` of `m` (R421): the buffer, then the descriptor's fields; both 16-bit fields that no rule interprets are
draws (30_encoding.md R156). -/
def rxWriteChunk (s : State) (err : Byte) (j m : Nat) (chunk : List Byte) : Except FaultRecord State :=
  let a := s.ringBase .rx + 16 * ((s.head .rx + j) % s.ndev .rx)
  let addr := natOfBytes (s.mem.readBytes a 8)
  match s.rxWild a addr chunk.length with
  | some bad => .error ⟨.dmaWild, .rxe, 110, bad⟩
  | none =>
    let fields := rxWriteBackBytes chunk.length (Config.draw16 s.draws) (j + 1 = m) err (Config.draw16 (s.draws + 1))
    .ok { s with mem := (s.mem.writeBytes addr chunk).writeBytes (a + 8) fields, draws := s.draws + 2 }

/-- The loop of R421 over the chunks from `j` on; `k` chunks remain. -/
def rxWriteChunks (err : Byte) (bytes : List Byte) (b m : Nat) : Nat → Nat → State → Except FaultRecord State
  | 0, _, s => .ok s
  | k + 1, j, s =>
    match rxWriteChunk s err j m (sliceBytes bytes (j * b) b) with
    | .error f => .error f
    | .ok s1 => rxWriteChunks err bytes b m k (j + 1) s1

/-- The head moves past the frame's descriptors, the frame leaves the FIFO, and the causes are latched (R421, R425). -/
def State.rxRetire (s : State) (before m : Nat) : State :=
  let head := BitVec.ofNat 32 ((s.head .rx + m) % s.ndev .rx)
  { s with regs := { s.regs with rdh := head }, rxFifo := s.rxFifo.tail }.rxCauses before m

/-- One RXE step (R421). The reserved values are checked before any effect (R424), BSEX and BSIZE first (log entry 17). -/
def rxeStep (s : State) : Flow :=
  match s.rxFifo with
  | [] => .ok s
  | e :: _ =>
    if s.rxeEnabled then
      match bufSize s.regs.rctl with
      | none => .raised s ⟨.reservedValue, .rxe, 421, 0⟩
      | some b =>
        if s.rdmts = 3 then .raised s ⟨.reservedValue, .rxe, 425, 3⟩
        else
          match rxWriteChunks e.err (s.rxBytes e) b (s.rxNeeds e) (s.rxNeeds e) 0 s with
          | .error f => .raised s f
          | .ok s1 => .ok (s1.rxRetire (s.hwCount .rx) (s.rxNeeds e))
    else .ok s

/-! ### EEC, the cable, DISPATCH and other host code -/

/-- One EEC step (R431); a word the EEPROM does not have is a draw. -/
def eecStep (s : State) : State :=
  if s.ee.busy then
    if s.ee.addr.toNat < s.params.eeprom.length then
      { s with ee := { s.ee with data := s.params.eeprom.getD s.ee.addr.toNat 0#16, done := true, busy := false } }
    else { s.draw16.2 with ee := { s.ee with data := s.draw16.1, done := true, busy := false } }
  else s

/-- ENV flips the cable (R76, R432). -/
def cableStep (s : State) : State := State.linkEval { s with cable := !s.cable }

/-- DISPATCH may deliver (60_exceptions.md R462); ISR has nothing in progress (log entry 21). -/
def State.deliverable (s : State) : Bool :=
  s.irq && s.drv.irqAllowed && s.drv.handlerAssigned && !s.drv.isrActive && (s.work .isr).isEmpty

/-- A host write to memory by address (20_memory.md R119; log entries 11 and 15). -/
def storeStep (a : HostAgent) (addr : Nat) (bytes : List Byte) (s : State) : Flow :=
  (hostWrite a addr bytes s).andThen fun s => .ok (s.setRet a .unit)

end Sys2Proof.Machine
end

