-- ==== Sys2Proof/Machine/Progress.lean ====
section
/-! DEFINITION. Operations in progress: what each atomic step of a host agent does, what runs locally between two steps, and
how an agent takes its next step (spec/00_scope.md R14, 60_exceptions.md R464; log entry 3). -/

namespace Sys2Proof.Machine

/-- What a piece of an operation does: it goes on with more work in front, `initialize` fails with an error (45_core.md
R382), or a fault is raised. -/
inductive Go where
  | run (s : State) (push : List Micro)
  | abort (s : State) (e : Err)
  | raised (s : State) (f : FaultRecord)

/-- Go on with more work after a piece that may raise a fault. -/
def Flow.go (x : Flow) (push : List Micro) : Go :=
  match x with
  | .ok s => .run s push
  | .raised s f => .raised s f

/-- Go on as a function of the state after a piece that may raise a fault. -/
def Flow.thenGo (x : Flow) (k : State → Go) : Go :=
  match x with
  | .ok s => k s
  | .raised s f => .raised s f

/-! ### The register mapper (41_register_mapper.md R262, 30_encoding.md R160) -/

/-- Mark an agent's confirm of a register as between its two steps, or not (R262, R263). -/
def State.setInConfirm (s : State) (r : Reg) (a : HostAgent) (b : Bool) : State :=
  s.setRegObj r { s.regObj r with inConfirm := (s.regObj r).inConfirm.set a b }

/-- The value step 1 of a confirm takes as live: 0 for IMC, with no read; else one read of the register (R262). -/
def confirmLive (r : Reg) (s : State) : Word × State := if r = .imc then (0#32, s) else readReg r s

/-- `confirm` step 1 (R262). -/
def confirmRead (a : HostAgent) (r : Reg) (s : State) : Go :=
  .run ((confirmLive r s).2.setInConfirm r a true) [.confirmWrite r (confirmLive r s).1]

/-- The value step 2 of a confirm writes: `(live & ~offMask) | onMask` (R262). -/
def confirmValue (o : RegObj) (live : Word) : Word := (live &&& ~~~o.offMask) ||| o.onMask

/-- A Register object after its confirm (R262). -/
def RegObj.confirmed (o : RegObj) (a : HostAgent) : RegObj :=
  { onMask := 0#32, offMask := 0#32, inConfirm := o.inConfirm.set a false, stagedBy := none }

/-- `confirm` step 2 (R262). The masks are those that this step finds, as R262's pseudocode reads them: what another agent staged into
empty masks since step 1 is written and emptied with them, though R265 speaks of the masks when the confirm starts (DESIGN CHOICE,
log entry 35). -/
def confirmWrite (a : HostAgent) (r : Reg) (live : Word) (s : State) : Flow :=
  let v := confirmValue (s.regObj r) live
  (writeReg a r v s).andThen fun s1 => .ok ((s1.setRegObj r ((s1.regObj r).confirmed a)).setRet a (.word v))

/-- `writereg R, v` up to its first step: a full-mask `set`, then `confirm` (30_encoding.md R160). -/
def startWriteReg (a : HostAgent) (r : Reg) (v : Word) (after : List Micro) (s : State) : Go :=
  (regSet a r v 0xFFFFFFFF#32 s).go (.confirmRead r :: after)

/-! ### The hardware rings (43_descriptors.md R341 to R343) -/

/-- The driver's copy of a ring's tail (10_state.md R62). -/
def State.tailShadow (s : State) : Ring → Nat
  | .tx => s.drv.txTail
  | .rx => s.drv.rxTail

/-- Store the driver's copy of a ring's tail. -/
def State.setTailShadow (s : State) (t : Ring) (tail : Nat) : State :=
  match t with
  | .tx => { s with drv := { s.drv with txTail := tail } }
  | .rx => { s with drv := { s.drv with rxTail := tail } }

/-- Store a ring's cursor. -/
def State.setCursor (s : State) (t : Ring) (c : Nat) : State :=
  match t with
  | .tx => { s with drv := { s.drv with txCur := c } }
  | .rx => { s with drv := { s.drv with rxCur := c } }

/-- The tail register of a ring. -/
def tailReg : Ring → Reg
  | .tx => .tdt
  | .rx => .rdt

/-- `hwring.movetail` up to its first step (R343). -/
def moveTail (a : HostAgent) (t : Ring) (s : State) : Go :=
  let tail := nextIndex (s.tailShadow t) (s.ringSize t)
  startWriteReg a (tailReg t) (BitVec.ofNat 32 tail) [.tailEnd t tail] s

/-- The end of `hwring.movetail` (R343). -/
def tailEnd (a : HostAgent) (t : Ring) (tail : Nat) (s : State) : Go := .run ((s.setTailShadow t tail).setRet a .unit) []

/-- `hwring.init TX` up to its first step (R341). -/
def txInit (a : HostAgent) (s : State) : Go :=
  startWriteReg a .tdbal s.drv.txPhys
    [.writeReg .tdbah 0#32, .writeReg .tdlen (BitVec.ofNat 32 (16 * s.params.nTx)), .writeReg .tdh 0#32, .writeReg .tdt 0#32,
     .ringInitEnd .tx] s

/-- `hwring.init RX` from descriptor `i` (R342). -/
def rxInitFrom (a : HostAgent) (i : Nat) (s : State) : Go :=
  if i < s.params.nRx then .run s [.rxAddr i, .rxClear i, .rxInitFrom (i + 1)]
  else
    startWriteReg a .rdbal s.drv.rxPhys
      [.writeReg .rdbah 0#32, .writeReg .rdlen (BitVec.ofNat 32 (16 * s.params.nRx)), .writeReg .rdh 0#32,
       .writeReg .rdt (BitVec.ofNat 32 (s.params.nRx - 1)), .ringInitEnd .rx] s

/-- The tail that `hwring.init` leaves (R341, R342). -/
def State.initialTail (s : State) : Ring → Nat
  | .tx => 0
  | .rx => s.params.nRx - 1

/-- The end of `hwring.init` (R341, R342). -/
def ringInitEnd (a : HostAgent) (t : Ring) (s : State) : Go :=
  .run (((s.setTailShadow t (s.initialTail t)).setCursor t 0).setRet a .unit) []

/-! ### `tx.send` (44_ring_operations.md R350) -/

/-- The return of `tx.send` (R350 step 5); a collision leaves an event in the trace (R352). -/
def sendEnd (a : HostAgent) (pa : Word) (len : Nat) (sta : Byte) (c : Nat) (s : State) : State :=
  let s1 := if sta &&& 0x06#8 != 0#8 then s.addTrace .txCollisionAsSuccess c else s
  let s2 := (s1.setNext .tx).removeRegion pa.toNat len .sendBuffer
  { s2 with drv := { s2.drv with txBusy := false } }.setRet a .ok

/-- One poll of `tx.send` step 4 (R350). -/
def txPoll (a : HostAgent) (c : Nat) (pa : Word) (len : Nat) (s : State) : Go :=
  (checkIndex a .tx c s).thenGo fun s =>
    if txStatusDone (s.status .tx c) then .run (sendEnd a pa len (s.status .tx c) c s) [] else .run s [.txPoll c pa len]

/-! ### `rx.poll` (44_ring_operations.md R355) -/

/-- Drop the descriptor at the cursor: count it, log it, and note the event (R355, 60_exceptions.md R453). -/
def State.drop (s : State) (kind : LogKind) (code : TraceCode) (c : Nat) : State :=
  let d := s.drv
  let d1 : Driver :=
    match kind with
    | .dropRunt => { d with dropRunt := d.dropRunt + 1 }
    | .dropNotEop => { d with dropNotEop := d.dropNotEop + 1 }
    | .dropErrors => { d with dropErrors := d.dropErrors + 1 }
    | .dropQueueFull => { d with dropQueueFull := d.dropQueueFull + 1 }
    | .unhandled => d
    | .overrun => d
  ({ s with drv := d1 }.addLog kind c).addTrace code c

/-- The head of the loop (R355): at most `N_RX` descriptors. -/
def pollFrom (a : HostAgent) (k : Nat) (s : State) : Go :=
  if k < s.params.nRx then .run s [.pollDone k] else .run (s.setRet a .unit) []

/-- `rxd.done` at the cursor (R355). In which step a turn of the loop reads the cursor is open, since `ring.current` takes none: the
model reads it in this step, not in the one before (DESIGN CHOICE, log entry 36). -/
def pollDone (a : HostAgent) (k : Nat) (s : State) : Go :=
  (checkIndex a .rx s.drv.rxCur s).thenGo fun s =>
    if rxStatusDone (s.status .rx s.drv.rxCur) then .run s [.pollLen k s.drv.rxCur] else .run (s.setRet a .unit) []

/-- `rxd.readlength`, `rxd.getpacketaddress` and the runt test (R355). -/
def pollLen (a : HostAgent) (k c : Nat) (s : State) : Go :=
  (checkIndex a .rx c s).thenGo fun s =>
    if (s.rxLength c).toNat < Config.rxMinLen then .run (s.drop .dropRunt .dropRunt c) [.pollClear k c]
    else .run s [.pollEop k c (s.slotVirt c) (s.rxLength c)]

/-- `rxd.iseop` and its test (R355). -/
def pollEop (a : HostAgent) (k c : Nat) (ptr : Word) (len : Half) (s : State) : Go :=
  (checkIndex a .rx c s).thenGo fun s =>
    if rxStatusEop (s.status .rx c) then .run s [.pollErrors k c ptr len]
    else .run (s.drop .dropNotEop .dropNotEop c) [.pollClear k c]

/-- `rxd.haserrors` and its test (R355). -/
def pollErrors (a : HostAgent) (k c : Nat) (ptr : Word) (len : Half) (s : State) : Go :=
  (checkIndex a .rx c s).thenGo fun s =>
    if rxHasErrors (s.rxErrors c) then .run (s.drop .dropErrors .dropErrors c) [.pollClear k c]
    else .run s [.pollPush k c ptr len]

/-- The push to the bounded `Q`, one step with the test of a full queue (R355, R357, 10_state.md R63; log entry 3). -/
def pollPush (k c : Nat) (ptr : Word) (len : Half) (s : State) : Go :=
  if s.drv.queue.length < s.params.qCap then
    .run { s with drv := { s.drv with queue := s.drv.queue ++ [⟨ptr, len⟩] } } [.pollClear k c]
  else .run (s.drop .dropQueueFull .dropQueueFull c) [.pollClear k c]

/-- `rxd.clearstatus`, then the cursor and the tail (R355). -/
def pollClear (a : HostAgent) (k c : Nat) (s : State) : Go :=
  (clearStatus a c s).thenGo fun s => .run (s.setNext .rx) [.moveTail .rx, .pollFrom (k + 1)]

/-! ### External services (45_core.md R380) -/

/-- A service call that ENV answers with `Ok` or `Fail`; `Fail` aborts `initialize` and has no effect of its own (R382; log
entry 14). -/
def service (s : State) (effect : State → State) : Go :=
  if s.reply.ok then .run (effect s) [] else .abort s .initFailed

/-- The number of bytes of an allocation (R381 steps 1 and 4): whole pages for a descriptor block. -/
def State.allocLen (s : State) : AllocFor → Nat
  | .txBlock => (16 * s.params.nTx + Config.pageSize - 1) / Config.pageSize * Config.pageSize
  | .rxBlock => (16 * s.params.nRx + Config.pageSize - 1) / Config.pageSize * Config.pageSize
  | .slot => Config.rxbufSize

/-- Two ranges do not meet. -/
def apart (a n b m : Nat) : Bool := a + n ≤ b || b + m ≤ a

/-- ENV's answer is a range `allocPinned` may return: page-aligned, below 2^32, apart from every other region (R380), and the one
that `phys` gives (20_memory.md R102); its virtual range apart from the MMIO window as well (log entry 14). -/
def State.allocOffered (s : State) (r : Reply) (n : Nat) : Bool :=
  r.ok && r.pa.toNat % Config.pageSize == 0 && r.va.toNat % Config.pageSize == 0 &&
  r.pa.toNat + n ≤ physSize && r.va.toNat + n ≤ physSize && s.translates r.va r.pa n &&
  apart r.va.toNat n s.drv.base.toNat Config.bar0Size &&
  s.dma.all (fun d => apart r.pa.toNat n d.base d.len) &&
  s.maps.all (fun m => apart r.pa.toNat n m.pa.toNat m.len && apart r.va.toNat n m.va.toNat m.len)

/-- Store the addresses of an allocation (R381 step 4). -/
def State.keepAlloc (s : State) (what : AllocFor) (va pa : Word) : State :=
  match what with
  | .txBlock => { s with drv := { s.drv with txVirt := va, txPhys := pa } }
  | .rxBlock => { s with drv := { s.drv with rxVirt := va, rxPhys := pa } }
  | .slot => { s with drv := { s.drv with slots := s.drv.slots ++ [⟨va, pa⟩] } }

/-- `allocPinned` (R380): the range becomes a DMA region, its contents are what ENV drew. -/
def callAlloc (what : AllocFor) (s : State) : Go :=
  let n := s.allocLen what
  let r := s.reply
  if s.allocOffered r n then
    let s1 := (s.addRegion r.pa.toNat n .pinned).keepAlloc what r.va r.pa
    .run (State.putBytes { s1 with maps := s1.maps ++ [⟨r.va, r.pa, n⟩] } r.pa.toNat (r.contents.take n)) []
  else .abort s .initFailed

/-- `enableBusMaster()`. -/
def callBusMaster (s : State) : Go := service s fun s => { s with busMaster := true }

/-- ENV's answer is a window `mapIO` may return: `BAR0_SIZE` bytes of 32-bit addresses. -/
def mapOffered (r : Reply) : Bool := r.ok && r.va.toNat + Config.bar0Size ≤ physSize

/-- `mapIO(BAR0_SIZE)` (20_memory.md R103): ENV answers a window of 32-bit addresses; an answer that leaves them counts as Fail
(log entry 14). -/
def callMapIo (s : State) : Go :=
  if mapOffered s.reply then .run { s with drv := { s.drv with base := s.reply.va } } [] else .abort s .initFailed

/-- `registerDevice()`. -/
def callRegister (s : State) : Go := service s fun s => { s with drv := { s.drv with registered := true } }

/-- `allow(irqLine)`. -/
def callAllow (s : State) : Go := service s fun s => { s with drv := { s.drv with irqAllowed := true } }

/-- `assign(vector, trigger)`. -/
def callAssign (s : State) : Go := service s fun s => { s with drv := { s.drv with handlerAssigned := true } }

/-- `createDirectory(P_NODE_DIR)`: the directory itself is the filesystem's (00_scope.md R5). -/
def callCreateDirectory (s : State) : Go := service s fun s => s

/-- `addVirtualNode(P_NODE_DIR, macNode)` (10_state.md R68). -/
def callAddNode (s : State) : Go :=
  service s fun s => { s with drv := { s.drv with macNode := some ⟨s.params.nodeDir, Config.macText s.drv.mac⟩ } }

/-! ### `initialize` (45_core.md R381 to R386) -/

/-- The allocation loop of step 4 (R381). -/
def slotsFrom (i : Nat) (s : State) : Go :=
  if i < s.params.nRx then .run s [.callAlloc .slot, .slotsFrom (i + 1)] else .run s []

/-- Steps 5 and 6 (R381): the views need no state; every Register object starts with empty masks. -/
def createObjects (s : State) : Go :=
  .run { s with mapper := PerReg.const RegObj.empty, drv := { s.drv with initStep := 6 } } []

/-- `initStep <- k` (R381); the last one returns `Ok`. -/
def initDone (a : HostAgent) (k : Nat) (s : State) : Go :=
  let s1 := { s with drv := { s.drv with initStep := k } }
  .run (if k = 13 then s1.setRet a .ok else s1) []

/-- A setter of step 8 (R383). -/
def settingLine (a : HostAgent) (st : Setting) (s : State) : Go :=
  match st.check s with
  | .error e => .abort s e
  | .ok g => (g.run a s).go []

/-- A `grp.manage` of step 8 (R383, 41_register_mapper.md R281). -/
def manageLine (g : Group) (s : State) : Go :=
  if s.supports (.group g) then .run s [.confirmRead (groupReg g)] else .abort s .unsupported

/-- The value that starts an EEPROM read of word `k` (R385). -/
def State.eerdStart (s : State) (k : Nat) : Word := (BitVec.ofNat 32 k <<< addrLo s.layout) ||| 1#32

/-- Word `k` of `macFromEeprom` up to its first step (R385). -/
def macStart (a : HostAgent) (k : Nat) (words : List Half) (s : State) : Go :=
  startWriteReg a .eerd (s.eerdStart k) [.macPoll k words] s

/-- The MAC address of three EEPROM words, low byte first (R385). -/
def macOfWords (words : List Half) : List Byte := words.flatMap halfBytes

/-- `core.loadmac` stores the address and returns `Ok` (R384). -/
def macLoaded (a : HostAgent) (mac : List Byte) (s : State) : Go :=
  .run ({ s with drv := { s.drv with mac := mac } }.setRet a .ok) []

/-- One poll of the EEPROM ready bit (R385). -/
def macPoll (a : HostAgent) (k : Nat) (words : List Half) (s : State) : Go :=
  let (v, s1) := readReg .eerd s
  if v.getLsbD (doneBit s.layout) then
    let ws := words ++ [v.extractLsb' 16 16]
    if k < 2 then .run s1 [.macStart (k + 1) ws] else macLoaded a (macOfWords ws) s1
  else .run s1 [.macPoll k words]

/-- The first step of `core.loadmac` (R384): the read of EERD that starts word 0, or the read of RAL0. -/
def loadMac (a : HostAgent) (s : State) : Go :=
  match s.params.macSource with
  | .eeprom =>
    (regSet a .eerd (s.eerdStart 0) 0xFFFFFFFF#32 s).thenGo fun s =>
      match confirmRead a .eerd s with
      | .run s1 push => .run s1 (push ++ [.macPoll 0 []])
      | other => other
  | .mmio => .run (readReg .ral0 s).2 [.macHigh (readReg .ral0 s).1]

/-- The second read of `macFromMmio`, and the address (R386). -/
def macHigh (a : HostAgent) (lo : Word) (s : State) : Go :=
  let (hi, s1) := readReg .rah0 s
  macLoaded a (wordBytes lo ++ bytesOfNat 2 hi.toNat) s1

/-- A failed `initialize` (R382). -/
def failInit (a : HostAgent) (s : State) (e : Err) : State :=
  ({ s with drv := { s.drv with initFailed := true, registered := false, handlerAssigned := false } }.setWork a []).setRet a
    (.err e)

/-! ### `trigger` (45_core.md R387) -/

/-- Step 2 of `trigger`: a link change re-asserts link-up; its setter's `Err` has no effect here (log entry 25). -/
def trigLink (a : HostAgent) (s : State) : Go :=
  let (fired, s1) := claim lsc s
  if fired then
    match (Setting.linkUp true).check s1 with
    | .error _ => .run s1 (if s1.supports (.group .dc) then [.confirmRead .ctrl] else [])
    | .ok g => (g.run a s1).thenGo fun s2 => .run s2 (if s2.supports (.group .dc) then [.confirmRead .ctrl] else [])
  else .run s1 []

/-- Step 3 of `trigger`: an overrun is counted and logged. -/
def trigOverrun (s : State) : Go :=
  let (fired, s1) := claim rxo s
  if fired then
    let n := s1.drv.overrunCount + 1
    .run (({ s1 with drv := { s1.drv with overrunCount := n } }.addLog .overrun n).addTrace .rxOverrun n) []
  else .run s1 []

/-- Step 4 of `trigger`: both predicates, then `rx.poll`. -/
def trigReceive (a : HostAgent) (s : State) : Go :=
  let (thr, s1) := claim rxdmt0 s
  let (tim, s2) := claim rxt0 s1
  if thr || tim then pollFrom a 0 s2 else .run s2 []

/-- Step 5 of `trigger`: unclaimed bits are logged. -/
def trigUnhandled (s : State) : Go :=
  if unhandled s then .run ((s.addLog .unhandled s.drv.snap.toNat).addTrace .unhandledCause s.drv.snap.toNat) []
  else .run s []

/-- The return of `trigger`, which is the interrupt return (60_exceptions.md R465). -/
def trigReturn (a : HostAgent) (s : State) : Go := .run (s.isrReturn.setRet a .unit) []

/-! ### `core.parse` (45_core.md R390) -/

/-- The pop; while `Q` is empty the agent waits. -/
def parsePop (s : State) : Go :=
  match s.drv.queue with
  | [] => .run s [.parsePop]
  | e :: rest => .run { s with drv := { s.drv with queue := rest } } [.parseCopy e.ptr e.len]

/-- The copy. -/
def parseCopy (ptr : Word) (len : Half) (s : State) : Go :=
  .run s [.parsePublish (s.mem.readBytes (s.phys ptr) len.toNat) len]

/-- The publish, and the return. -/
def parsePublish (a : HostAgent) (bytes : List Byte) (len : Half) (s : State) : Go :=
  let s1 : State := { s with drv := { s.drv with published := s.drv.published ++ [⟨bytes, len⟩] } }
  .run (s1.setRet a .unit) []

/-! ### Taking a step -/

/-- The atomic steps; every other frame is a local continuation. -/
def Micro.isStep : Micro → Bool
  | .confirmRead _ | .confirmWrite _ _ | .txAddr _ _ | .txLen _ _ | .txCmd _ | .txPoll _ _ _ | .rxAddr _ | .rxClear _ => true
  | .pollDone _ | .pollLen _ _ | .pollEop _ _ _ _ | .pollErrors _ _ _ _ | .pollPush _ _ _ _ | .pollClear _ _ => true
  | .callBusMaster | .callMapIo | .callAlloc _ | .callRegister | .callAllow | .callAssign => true
  | .callCreateDirectory | .callAddNode | .loadMac | .macPoll _ _ | .macHigh _ | .icReadClear | .icDone => true
  | .parsePop | .parseCopy _ _ | .parsePublish _ _ => true
  | .writeReg _ _ | .moveTail _ | .tailEnd _ _ | .txInit | .rxInitFrom _ | .ringInitEnd _ | .setting _ | .manage _ => false
  | .slotsFrom _ | .createObjects | .initDone _ | .macStart _ _ => false
  | .trigLink | .trigOverrun | .trigReceive | .trigUnhandled | .trigReturn | .pollFrom _ => false

/-- What a frame does when it runs. -/
def Micro.run (a : HostAgent) (m : Micro) (s : State) : Go :=
  match m with
  | .confirmRead r => Machine.confirmRead a r s
  | .confirmWrite r live => (Machine.confirmWrite a r live s).go []
  | .txAddr c pa => (writeAddress a .tx c pa s).go []
  | .txLen c len => (writeLength a c len s).go []
  | .txCmd c => (writeCommand a c s).go []
  | .txPoll c pa len => Machine.txPoll a c pa len s
  | .rxAddr i => (writeAddress a .rx i (s.slotPhys i) s).go []
  | .rxClear i => (clearStatus a i s).go []
  | .pollDone k => Machine.pollDone a k s
  | .pollLen k c => Machine.pollLen a k c s
  | .pollEop k c ptr len => Machine.pollEop a k c ptr len s
  | .pollErrors k c ptr len => Machine.pollErrors a k c ptr len s
  | .pollPush k c ptr len => Machine.pollPush k c ptr len s
  | .pollClear k c => Machine.pollClear a k c s
  | .callBusMaster => Machine.callBusMaster s
  | .callMapIo => Machine.callMapIo s
  | .callAlloc what => Machine.callAlloc what s
  | .callRegister => Machine.callRegister s
  | .callAllow => Machine.callAllow s
  | .callAssign => Machine.callAssign s
  | .callCreateDirectory => Machine.callCreateDirectory s
  | .callAddNode => Machine.callAddNode s
  | .loadMac => Machine.loadMac a s
  | .macPoll k words => Machine.macPoll a k words s
  | .macHigh lo => Machine.macHigh a lo s
  | .icReadClear => .run (readAndClear s) []
  | .icDone => .run (Machine.icDone s) []
  | .parsePop => Machine.parsePop s
  | .parseCopy ptr len => Machine.parseCopy ptr len s
  | .parsePublish bytes len => Machine.parsePublish a bytes len s
  | .writeReg r v => startWriteReg a r v [] s
  | .moveTail t => Machine.moveTail a t s
  | .tailEnd t tail => Machine.tailEnd a t tail s
  | .txInit => Machine.txInit a s
  | .rxInitFrom i => Machine.rxInitFrom a i s
  | .ringInitEnd t => Machine.ringInitEnd a t s
  | .setting st => settingLine a st s
  | .manage g => manageLine g s
  | .slotsFrom i => Machine.slotsFrom i s
  | .createObjects => Machine.createObjects s
  | .initDone k => Machine.initDone a k s
  | .macStart k words => Machine.macStart a k words s
  | .trigLink => Machine.trigLink a s
  | .trigOverrun => Machine.trigOverrun s
  | .trigReceive => Machine.trigReceive a s
  | .trigUnhandled => Machine.trigUnhandled s
  | .trigReturn => Machine.trigReturn a s
  | .pollFrom k => Machine.pollFrom a k s

/-- Run the local continuations in front of the work, up to the agent's next atomic step. A continuation that puts new work
in front puts an atomic step first. -/
def unwind (a : HostAgent) : List Micro → State → Flow
  | [], s => .ok (s.setWork a [])
  | m :: rest, s =>
    if m.isStep then .ok (s.setWork a (m :: rest))
    else
      match m.run a s with
      | .raised s1 f => .raised s1 f
      | .abort s1 e => .ok (failInit a s1 e)
      | .run s1 [] => unwind a rest s1
      | .run s1 (p :: ps) => .ok (s1.setWork a (p :: ps ++ rest))

/-- An agent takes the next atomic step of its operation, and then runs locally up to the one after it. -/
def advance (a : HostAgent) (s : State) : Flow :=
  match s.work a with
  | [] => .ok s
  | m :: rest =>
    match m.run a s with
    | .raised s1 f => .raised s1 f
    | .abort s1 e => .ok (failInit a s1 e)
    | .run s1 push => unwind a (push ++ rest) s1

/-- Put an operation's frames in front of the agent's work, and run locally up to its first step. -/
def install (a : HostAgent) (frames : List Micro) (s : State) : Flow := unwind a (frames ++ s.work a) (s.setRet a .pending)

/-- Start an operation of several steps: its first step is part of its issue (log entry 3). -/
def startOp (frames : List Micro) (s : State) : Flow := (install s.cur frames s).andThen (advance s.cur)

end Sys2Proof.Machine
end

