-- ==== Sys2Proof/Machine/Rings.lean ====
section
/-! DEFINITION. The mapper operations of two steps (spec/41_register_mapper.md R262, R281), the hardware rings
(43_descriptors.md R340, R343) and the ring operations (44_ring_operations.md). -/

namespace Sys2Proof.Machine

/-- `reg.confirm` (R262): refused on ICR. -/
def execRegConfirm (reg : Reg) : State → Host.Outcome State Fault Refusal :=
  hostOp 6 anyAgent .regConfirm fun s => if reg = .icr then .ok s.refuse else startOp [.confirmRead reg] s

/-- `grp.manage` (R281). -/
def execGrpManage (group : Group) : State → Host.Outcome State Fault Refusal :=
  hostOp 6 anyAgent .grpManage fun s =>
    if s.supports (.group group) then startOp [.confirmRead (groupReg group)] s
    else .ok (s.setRet s.cur (.err .unsupported))

/-- The frames of `hwring.init` (R341, R342). -/
def ringInitFrames : Ring → List Micro
  | .tx => [.txInit]
  | .rx => [.rxInitFrom 0]

/-- `hwring.init` (R340). -/
def execHwringInit (ring : Ring) : State → Host.Outcome State Fault Refusal :=
  hostOp 6 anyAgent .hwringInit (startOp (ringInitFrames ring))

/-- `hwring.movetail` (R343). -/
def execHwringMovetail (ring : Ring) : State → Host.Outcome State Fault Refusal :=
  hostOp 7 anyAgent .hwringMovetail (startOp [.moveTail ring])

/-- The steps of `tx.send` after its checks (R350). -/
def sendFrames (c : Nat) (pa : Word) (len : Nat) : List Micro :=
  [.txAddr c pa, .txLen c len, .txCmd c, .moveTail .tx, .txPoll c pa len]

/-- `tx.send` marks itself in progress and gives the device its buffer (R350). -/
def sendClaim (pa : Word) (len : Nat) (s : State) : State :=
  { s with drv := { s.drv with txBusy := true } }.addRegion pa.toNat len .sendBuffer

/-- The body of `tx.send` (R350), its checks in the order of the pseudocode. F_SEND_REENTERED has no detail (60_exceptions.md
R451), and its record holds 0 there (DESIGN CHOICE, log entry 18). -/
def sendBody (pa : Word) (len : Nat) (s : State) : Flow :=
  if s.drv.txBusy then .raised s ⟨.sendReentered, s.cur.toAgent, 350, 0⟩
  else if len < 1 ∨ Config.txMaxLen < len then .raised s ⟨.txLength, s.cur.toAgent, 350, len⟩
  else if s.hwOwned .tx s.drv.txCur then
    .raised (sendClaim pa len s) ⟨.sendNotOwned, s.cur.toAgent, 350, s.drv.txCur⟩
  else startOp (sendFrames s.drv.txCur pa len) (sendClaim pa len s)

/-- `tx.send` (R350). -/
def execTxSend (pa : Word) (len : Nat) : State → Host.Outcome State Fault Refusal :=
  hostOp 13 notIsr .txSend (sendBody pa len)

/-- `rx.poll` (R355). -/
def execRxPoll : State → Host.Outcome State Fault Refusal := hostOp 11 onlyIsr .rxPoll (startOp [.pollFrom 0])

end Sys2Proof.Machine
end

