-- ==== Sys2Proof/Machine/CoreOps.lean ====
section
/-! DEFINITION. The core operations (spec/45_core.md R381 to R390). -/

namespace Sys2Proof.Machine

/-- The configuration of step 8 (R383). -/
def configFrames : List Micro :=
  [.setting (.linkUp true), .setting (.autoSpeed true), .manage .dc,
   .setting (.ieEnable 0xD4#32), .manage .ie,
   .setting (.tcEnable true), .setting (.padShort true), .setting (.collThresh 15), .setting (.collDist 64), .manage .tc,
   .setting (.loopback 0), .setting (.bufSize 2048), .setting (.minThreshold 2), .setting (.broadcast true),
   .setting (.rcEnable true), .manage .rc]

/-- The thirteen steps of `initialize` (R381). -/
def initFrames : List Micro :=
  [.initDone 1, .callBusMaster, .initDone 2, .callMapIo, .initDone 3,
   .callAlloc .txBlock, .callAlloc .rxBlock, .slotsFrom 0, .initDone 4, .createObjects,
   .txInit, .rxInitFrom 0, .initDone 7] ++ configFrames ++
  [.initDone 8, .loadMac, .initDone 9, .callRegister, .initDone 10, .callAllow, .callAssign, .initDone 11,
   .icReadClear, .icDone, .initDone 12, .callCreateDirectory, .callAddNode, .initDone 13]

/-- `core.initialize` (R381): refused a second time. -/
def execCoreInitialize (s : State) : Host.Outcome State Fault Refusal :=
  if s.drv.initStep ≠ 0 then .next s.refuse else hostOp 0 onlyHost .coreInitialize (startOp initFrames) s

/-- HOST is at step 9 of `initialize` (R384, 60_exceptions.md R452). -/
def inStep9 (s : State) : Bool := s.drv.initStep = 8 && (s.work .host).head? = some .loadMac

/-- `core.loadmac` (R384): refused except as step 9 of `initialize`, whose next step it then takes. Issued by ISR or BH it is
F_CONTEXT while HOST's next step is that one, and refused at every other time (DESIGN CHOICE, log entry 20). -/
def execCoreLoadmac (s : State) : Host.Outcome State Fault Refusal :=
  if inStep9 s then hostOp 8 onlyHost .coreLoadmac (fun s => advance s.cur s) s else .next s.refuse

/-- The steps of `trigger` (R387). -/
def triggerFrames : List Micro :=
  [.icReadClear, .trigLink, .trigOverrun, .trigReceive, .trigUnhandled, .icReadClear, .icDone, .trigReturn]

/-- `core.trigger` (R387): interrupt entry; its frame operand is ignored. The steps that follow are ISR's (60_exceptions.md
R462). -/
def execCoreTrigger (_frame : Word) : State → Host.Outcome State Fault Refusal :=
  hostOp 11 onlyIsr .coreTrigger fun s => install s.cur triggerFrames s.isrEnter

/-- `core.hasdata` (R389). -/
def execCoreHasdata : State → Host.Outcome State Fault Refusal :=
  hostOp 11 onlyBh .coreHasdata fun s => .ok (s.setRet s.cur (.bool !s.drv.queue.isEmpty))

/-- `core.parse` (R390). -/
def execCoreParse : State → Host.Outcome State Fault Refusal := hostOp 11 onlyBh .coreParse (startOp [.parsePop])

end Sys2Proof.Machine
end

