-- ==== Sys2Proof/Machine/Mmio.lean ====
section
/-! DEFINITION. The 40 MMIO requests: one read and one write of each register (spec/40_mmio_registers.md R201 to R240). -/

namespace Sys2Proof.Machine

/-- `mmio.r_CTRL` (R201). -/
def execMmioRCtrl : State → Host.Outcome State Fault Refusal := mmioRead .ctrl

/-- `mmio.w_CTRL` (R202). -/
def execMmioWCtrl (data : Word) : State → Host.Outcome State Fault Refusal := mmioWrite .ctrl data

/-- `mmio.r_STATUS` (R203). -/
def execMmioRStatus : State → Host.Outcome State Fault Refusal := mmioRead .status

/-- `mmio.w_STATUS` (R204). -/
def execMmioWStatus (data : Word) : State → Host.Outcome State Fault Refusal := mmioWrite .status data

/-- `mmio.r_EERD` (R205). -/
def execMmioREerd : State → Host.Outcome State Fault Refusal := mmioRead .eerd

/-- `mmio.w_EERD` (R206). -/
def execMmioWEerd (data : Word) : State → Host.Outcome State Fault Refusal := mmioWrite .eerd data

/-- `mmio.r_ICR` (R207). -/
def execMmioRIcr : State → Host.Outcome State Fault Refusal := mmioRead .icr

/-- `mmio.w_ICR` (R208). -/
def execMmioWIcr (data : Word) : State → Host.Outcome State Fault Refusal := mmioWrite .icr data

/-- `mmio.r_IMS` (R209). -/
def execMmioRIms : State → Host.Outcome State Fault Refusal := mmioRead .ims

/-- `mmio.w_IMS` (R210). -/
def execMmioWIms (data : Word) : State → Host.Outcome State Fault Refusal := mmioWrite .ims data

/-- `mmio.r_IMC` (R211). -/
def execMmioRImc : State → Host.Outcome State Fault Refusal := mmioRead .imc

/-- `mmio.w_IMC` (R212). -/
def execMmioWImc (data : Word) : State → Host.Outcome State Fault Refusal := mmioWrite .imc data

/-- `mmio.r_RCTL` (R213). -/
def execMmioRRctl : State → Host.Outcome State Fault Refusal := mmioRead .rctl

/-- `mmio.w_RCTL` (R214). -/
def execMmioWRctl (data : Word) : State → Host.Outcome State Fault Refusal := mmioWrite .rctl data

/-- `mmio.r_TCTL` (R215). -/
def execMmioRTctl : State → Host.Outcome State Fault Refusal := mmioRead .tctl

/-- `mmio.w_TCTL` (R216). -/
def execMmioWTctl (data : Word) : State → Host.Outcome State Fault Refusal := mmioWrite .tctl data

/-- `mmio.r_RDBAL` (R217). -/
def execMmioRRdbal : State → Host.Outcome State Fault Refusal := mmioRead .rdbal

/-- `mmio.w_RDBAL` (R218). -/
def execMmioWRdbal (data : Word) : State → Host.Outcome State Fault Refusal := mmioWrite .rdbal data

/-- `mmio.r_RDBAH` (R219). -/
def execMmioRRdbah : State → Host.Outcome State Fault Refusal := mmioRead .rdbah

/-- `mmio.w_RDBAH` (R220). -/
def execMmioWRdbah (data : Word) : State → Host.Outcome State Fault Refusal := mmioWrite .rdbah data

/-- `mmio.r_RDLEN` (R221). -/
def execMmioRRdlen : State → Host.Outcome State Fault Refusal := mmioRead .rdlen

/-- `mmio.w_RDLEN` (R222). -/
def execMmioWRdlen (data : Word) : State → Host.Outcome State Fault Refusal := mmioWrite .rdlen data

/-- `mmio.r_RDH` (R223). -/
def execMmioRRdh : State → Host.Outcome State Fault Refusal := mmioRead .rdh

/-- `mmio.w_RDH` (R224). -/
def execMmioWRdh (data : Word) : State → Host.Outcome State Fault Refusal := mmioWrite .rdh data

/-- `mmio.r_RDT` (R225). -/
def execMmioRRdt : State → Host.Outcome State Fault Refusal := mmioRead .rdt

/-- `mmio.w_RDT` (R226). -/
def execMmioWRdt (data : Word) : State → Host.Outcome State Fault Refusal := mmioWrite .rdt data

/-- `mmio.r_TDBAL` (R227). -/
def execMmioRTdbal : State → Host.Outcome State Fault Refusal := mmioRead .tdbal

/-- `mmio.w_TDBAL` (R228). -/
def execMmioWTdbal (data : Word) : State → Host.Outcome State Fault Refusal := mmioWrite .tdbal data

/-- `mmio.r_TDBAH` (R229). -/
def execMmioRTdbah : State → Host.Outcome State Fault Refusal := mmioRead .tdbah

/-- `mmio.w_TDBAH` (R230). -/
def execMmioWTdbah (data : Word) : State → Host.Outcome State Fault Refusal := mmioWrite .tdbah data

/-- `mmio.r_TDLEN` (R231). -/
def execMmioRTdlen : State → Host.Outcome State Fault Refusal := mmioRead .tdlen

/-- `mmio.w_TDLEN` (R232). -/
def execMmioWTdlen (data : Word) : State → Host.Outcome State Fault Refusal := mmioWrite .tdlen data

/-- `mmio.r_TDH` (R233). -/
def execMmioRTdh : State → Host.Outcome State Fault Refusal := mmioRead .tdh

/-- `mmio.w_TDH` (R234). -/
def execMmioWTdh (data : Word) : State → Host.Outcome State Fault Refusal := mmioWrite .tdh data

/-- `mmio.r_TDT` (R235). -/
def execMmioRTdt : State → Host.Outcome State Fault Refusal := mmioRead .tdt

/-- `mmio.w_TDT` (R236). -/
def execMmioWTdt (data : Word) : State → Host.Outcome State Fault Refusal := mmioWrite .tdt data

/-- `mmio.r_RAL0` (R237). -/
def execMmioRRal0 : State → Host.Outcome State Fault Refusal := mmioRead .ral0

/-- `mmio.w_RAL0` (R238). -/
def execMmioWRal0 (data : Word) : State → Host.Outcome State Fault Refusal := mmioWrite .ral0 data

/-- `mmio.r_RAH0` (R239). -/
def execMmioRRah0 : State → Host.Outcome State Fault Refusal := mmioRead .rah0

/-- `mmio.w_RAH0` (R240). -/
def execMmioWRah0 (data : Word) : State → Host.Outcome State Fault Refusal := mmioWrite .rah0 data

end Sys2Proof.Machine
end

