-- ==== Sys2Proof/Machine/Dispatch.lean ====
section
/-! DEFINITION. The meaning of every instruction: one arm for each constructor of `Instr`. -/

namespace Sys2Proof.Machine

/-- An instruction, issued by the agent `cur` of the state: its first atomic step. -/
def exec (i : Instr) (s : State) : Host.Outcome State Fault Refusal :=
  match i with
  | .mmioRCtrl => Sys2Proof.Machine.execMmioRCtrl s
  | .mmioWCtrl data => Sys2Proof.Machine.execMmioWCtrl data s
  | .mmioRStatus => Sys2Proof.Machine.execMmioRStatus s
  | .mmioWStatus data => Sys2Proof.Machine.execMmioWStatus data s
  | .mmioREerd => Sys2Proof.Machine.execMmioREerd s
  | .mmioWEerd data => Sys2Proof.Machine.execMmioWEerd data s
  | .mmioRIcr => Sys2Proof.Machine.execMmioRIcr s
  | .mmioWIcr data => Sys2Proof.Machine.execMmioWIcr data s
  | .mmioRIms => Sys2Proof.Machine.execMmioRIms s
  | .mmioWIms data => Sys2Proof.Machine.execMmioWIms data s
  | .mmioRImc => Sys2Proof.Machine.execMmioRImc s
  | .mmioWImc data => Sys2Proof.Machine.execMmioWImc data s
  | .mmioRRctl => Sys2Proof.Machine.execMmioRRctl s
  | .mmioWRctl data => Sys2Proof.Machine.execMmioWRctl data s
  | .mmioRTctl => Sys2Proof.Machine.execMmioRTctl s
  | .mmioWTctl data => Sys2Proof.Machine.execMmioWTctl data s
  | .mmioRRdbal => Sys2Proof.Machine.execMmioRRdbal s
  | .mmioWRdbal data => Sys2Proof.Machine.execMmioWRdbal data s
  | .mmioRRdbah => Sys2Proof.Machine.execMmioRRdbah s
  | .mmioWRdbah data => Sys2Proof.Machine.execMmioWRdbah data s
  | .mmioRRdlen => Sys2Proof.Machine.execMmioRRdlen s
  | .mmioWRdlen data => Sys2Proof.Machine.execMmioWRdlen data s
  | .mmioRRdh => Sys2Proof.Machine.execMmioRRdh s
  | .mmioWRdh data => Sys2Proof.Machine.execMmioWRdh data s
  | .mmioRRdt => Sys2Proof.Machine.execMmioRRdt s
  | .mmioWRdt data => Sys2Proof.Machine.execMmioWRdt data s
  | .mmioRTdbal => Sys2Proof.Machine.execMmioRTdbal s
  | .mmioWTdbal data => Sys2Proof.Machine.execMmioWTdbal data s
  | .mmioRTdbah => Sys2Proof.Machine.execMmioRTdbah s
  | .mmioWTdbah data => Sys2Proof.Machine.execMmioWTdbah data s
  | .mmioRTdlen => Sys2Proof.Machine.execMmioRTdlen s
  | .mmioWTdlen data => Sys2Proof.Machine.execMmioWTdlen data s
  | .mmioRTdh => Sys2Proof.Machine.execMmioRTdh s
  | .mmioWTdh data => Sys2Proof.Machine.execMmioWTdh data s
  | .mmioRTdt => Sys2Proof.Machine.execMmioRTdt s
  | .mmioWTdt data => Sys2Proof.Machine.execMmioWTdt data s
  | .mmioRRal0 => Sys2Proof.Machine.execMmioRRal0 s
  | .mmioWRal0 data => Sys2Proof.Machine.execMmioWRal0 data s
  | .mmioRRah0 => Sys2Proof.Machine.execMmioRRah0 s
  | .mmioWRah0 data => Sys2Proof.Machine.execMmioWRah0 data s
  | .regSet reg values mask => Sys2Proof.Machine.execRegSet reg values mask s
  | .regDecide reg values enable => Sys2Proof.Machine.execRegDecide reg values enable s
  | .regConfirm reg => Sys2Proof.Machine.execRegConfirm reg s
  | .regReaddirect reg => Sys2Proof.Machine.execRegReaddirect reg s
  | .dcSetlinkup on => Sys2Proof.Machine.execDcSetlinkup on s
  | .dcAutospeed on => Sys2Proof.Machine.execDcAutospeed on s
  | .rcEnable on => Sys2Proof.Machine.execRcEnable on s
  | .rcLoopback mode => Sys2Proof.Machine.execRcLoopback mode s
  | .rcBufsize size => Sys2Proof.Machine.execRcBufsize size s
  | .rcMinthreshold fraction => Sys2Proof.Machine.execRcMinthreshold fraction s
  | .rcBroadcast on => Sys2Proof.Machine.execRcBroadcast on s
  | .tcEnable on => Sys2Proof.Machine.execTcEnable on s
  | .tcPadshort on => Sys2Proof.Machine.execTcPadshort on s
  | .tcCollthresh value => Sys2Proof.Machine.execTcCollthresh value s
  | .tcColldist value => Sys2Proof.Machine.execTcColldist value s
  | .ieEnable causes => Sys2Proof.Machine.execIeEnable causes s
  | .idDisable causes => Sys2Proof.Machine.execIdDisable causes s
  | .grpManage group => Sys2Proof.Machine.execGrpManage group s
  | .icReadclear => Sys2Proof.Machine.execIcReadclear s
  | .icLinkchanged => Sys2Proof.Machine.execIcLinkchanged s
  | .icOverrun => Sys2Proof.Machine.execIcOverrun s
  | .icMinthreshold => Sys2Proof.Machine.execIcMinthreshold s
  | .icRxtimer => Sys2Proof.Machine.execIcRxtimer s
  | .icMdiodone => Sys2Proof.Machine.execIcMdiodone s
  | .icUnhandled => Sys2Proof.Machine.execIcUnhandled s
  | .txdWriteaddress index pa => Sys2Proof.Machine.execTxdWriteaddress index pa s
  | .txdWritelength index len => Sys2Proof.Machine.execTxdWritelength index len s
  | .txdWritecommand index => Sys2Proof.Machine.execTxdWritecommand index s
  | .txdIsdone index => Sys2Proof.Machine.execTxdIsdone index s
  | .rxdWriteaddress index pa => Sys2Proof.Machine.execRxdWriteaddress index pa s
  | .rxdGetpacketaddress index => Sys2Proof.Machine.execRxdGetpacketaddress index s
  | .rxdReadlength index => Sys2Proof.Machine.execRxdReadlength index s
  | .rxdIseop index => Sys2Proof.Machine.execRxdIseop index s
  | .rxdClearstatus index => Sys2Proof.Machine.execRxdClearstatus index s
  | .rxdHaserrors index => Sys2Proof.Machine.execRxdHaserrors index s
  | .rxdDone index => Sys2Proof.Machine.execRxdDone index s
  | .ringCurrent ring => Sys2Proof.Machine.execRingCurrent ring s
  | .ringSetnext ring => Sys2Proof.Machine.execRingSetnext ring s
  | .hwringInit ring => Sys2Proof.Machine.execHwringInit ring s
  | .hwringMovetail ring => Sys2Proof.Machine.execHwringMovetail ring s
  | .txSend pa len => Sys2Proof.Machine.execTxSend pa len s
  | .rxPoll => Sys2Proof.Machine.execRxPoll s
  | .coreInitialize => Sys2Proof.Machine.execCoreInitialize s
  | .coreLoadmac => Sys2Proof.Machine.execCoreLoadmac s
  | .coreTrigger frame => Sys2Proof.Machine.execCoreTrigger frame s
  | .coreHasdata => Sys2Proof.Machine.execCoreHasdata s
  | .coreParse => Sys2Proof.Machine.execCoreParse s

end Sys2Proof.Machine
end

