-- ==== Sys2Proof/Machine/Turns.lean ====
section
/-! DEFINITION. One turn of the machine: an agent takes its step (spec/10_state.md R30; log entries 2, 3 and 21). A turn whose
agent may not move changes nothing but the script. -/

namespace Sys2Proof.Machine

/-- The state as an agent finds it at its step: whose step it is, and ENV's answer to a service call of that step. -/
def State.asAgent (s : State) (a : HostAgent) (reply : Reply) : State := { s with cur := a, reply := reply }

/-- An issue by ISR that would start `trigger`, which DISPATCH alone starts (45_core.md R387, 60_exceptions.md R462; log entry
21). -/
def State.startsTrigger (s : State) (a : HostAgent) (i : Instr) : Bool :=
  match i with
  | .coreTrigger _ => a = .isr && !s.refuses 11
  | _ => false

/-- An agent may issue an operation when it has none in progress and is not preempted; `core.loadmac` is issued inside
`initialize`, as its step 9 (R384). No issue starts `trigger`. -/
def State.canIssue (s : State) (a : HostAgent) (i : Instr) : Bool :=
  s.mayRun a && ((s.work a).isEmpty || (a = .host && i = .coreLoadmac && inStep9 s)) && !s.startsTrigger a i

/-- The offset of a bus request, without its direction bit (30_encoding.md R140; log entry 9). -/
def requestOffset : Request → Nat
  | .mmio _ bytes => natOfBytes (bytes.take 4) % 2 ^ 31
  | .host _ => 0

/-- A request the decoder rejects: an MMIO request faults (R144), an unknown host operation is refused (R147, R452). -/
def reject (e : DecodeError) (req : Request) (s : State) : State :=
  match e with
  | .width => s.raise ⟨.width, s.cur.toAgent, 144, requestOffset req⟩
  | .misaligned => s.raise ⟨.misaligned, s.cur.toAgent, 144, requestOffset req⟩
  | .unmodelledOffset => s.raise ⟨.unmodelledOffset, s.cur.toAgent, 144, requestOffset req⟩
  | .noSuchOperation => s.refuse

/-- An agent issues a request. -/
def issue (a : HostAgent) (req : Request) (reply : Reply) (s : State) : Host.Outcome State Fault Refusal :=
  match decode s.params.offsets req with
  | .ok i => if s.canIssue a i then exec i (s.asAgent a reply) else .next s
  | .error e => if s.mayRun a && (s.work a).isEmpty then .next (reject e req (s.asAgent a reply)) else .next s

/-- An agent takes the next step of its operation in progress. -/
def resume (a : HostAgent) (reply : Reply) (s : State) : Host.Outcome State Fault Refusal :=
  if s.mayRun a then (advance a (s.asAgent a reply)).out else .next s

/-- A virtual address lies in the MMIO window, which is mapped from step 3 of `initialize` on (20_memory.md R103). -/
def State.inWindow (s : State) (va : Word) : Bool :=
  3 ≤ s.drv.initStep && s.drv.base.toNat ≤ va.toNat && va.toNat < s.drv.base.toNat + Config.bar0Size

/-- The MMIO request that an access to a virtual address is (R103): one that starts in the window, at its offset; none elsewhere. -/
def State.windowRequest (s : State) (va : Word) (access : Access) : Option Request :=
  if s.inWindow va then
    let off := va.toNat - s.drv.base.toNat
    match access with
    | .load n => some (.mmio (8 * n) (bytesOfNat 4 off))
    | .store bytes => some (.mmio (8 * bytes.length) (bytesOfNat 4 (2 ^ 31 + off) ++ bytes))
  else none

/-- Code that a host agent runs outside the driver may access memory when the agent has no operation in progress and is not
preempted (log entry 15). -/
def State.mayAccess (s : State) (a : HostAgent) : Bool := s.mayRun a && (s.work a).isEmpty

/-- A host access to a virtual address (R102 to R104): an MMIO request of the agent in the window, memory elsewhere. -/
def hostAccess (a : HostAgent) (va : Word) (access : Access) (s : State) : Host.Outcome State Fault Refusal :=
  match s.windowRequest va access with
  | some req => issue a req s.reply s
  | none =>
    if s.mayAccess a then
      match access with
      | .load n => .next (s.setRet a (.bytes (s.mem.readBytes (s.phys va) n)))
      | .store bytes => (storeStep a (s.phys va) bytes s).out
    else .next s

/-- DISPATCH delivers the interrupt to the driver's `trigger` (60_exceptions.md R462). -/
def deliver (frame : Word) (s : State) : Host.Outcome State Fault Refusal :=
  if s.deliverable then exec (.coreTrigger frame) (s.asAgent .isr s.reply) else .next s

/-- Take one turn. -/
def perform (t : Turn) (s : State) : Host.Outcome State Fault Refusal :=
  match t with
  | .issue agent request reply => issue agent request reply s
  | .resume agent reply => resume agent reply s
  | .dispatch frame => deliver frame s
  | .txe outcome => (txeStep outcome s).out
  | .rxmac frame crcOk err => (rxmacStep frame crcOk err s).out
  | .rxe => (rxeStep s).out
  | .eec => .next (eecStep s)
  | .cable => .next (cableStep s)
  | .access agent va access => hostAccess agent va access s
  | .store agent addr bytes => if s.mayAccess agent then (storeStep agent addr.toNat bytes s).out else .next s

/-- The turn to take, and the state without it: the head of the script, or where the script is empty a free turn (log
entry 2). -/
def State.nextTurn (s : State) : Turn × State :=
  match s.script with
  | t :: rest => (t, { s with script := rest })
  | [] => (Config.nextTurn s.turns, { s with turns := s.turns + 1 })

/-- Who issues an instruction when the host places it: the agent that 60_exceptions.md R470 lets issue it. -/
def issuerOf : Option Instr → HostAgent
  | some .icReadclear | some .icLinkchanged | some .icOverrun | some .icMinthreshold | some .icRxtimer
  | some .icMdiodone | some .icUnhandled | some .rxPoll | some (.coreTrigger _) => .isr
  | some .coreHasdata | some .coreParse => .bh
  | _ => .host

/-- Make `a` ready to issue: nothing in progress, and not preempted. -/
def State.readyToIssue (s : State) (a : HostAgent) : State :=
  let s1 := s.setWork a []
  if a = .isr then s1 else { s1 with drv := { s1.drv with isrActive := false } }

/-- Make DISPATCH ready to deliver: the line high, allowed and assigned, and no handler running (60_exceptions.md R462). -/
def State.readyToDeliver (s : State) : State :=
  { s with
    regs := if s.irq then s.regs else { s.regs with icr := s.regs.icr ||| bit txdw, ims := s.regs.ims ||| bit txdw },
    drv := { s.drv with irqAllowed := true, handlerAssigned := true, isrActive := false } }

/-- Place a request as the next turn; `core.trigger`, where it is not refused, as DISPATCH's turn (log entry 10). -/
def State.place (s : State) (nbits w : Nat) : State :=
  let i := decodeTableWord nbits w
  let a := issuerOf i
  let s1 : State := { s.readyToIssue a with faults := [] }
  let turn : Turn := .issue a (requestOfWord nbits w) { ok := true, va := 0#32, pa := 0#32, contents := [] }
  match i with
  | some (.coreTrigger frame) =>
    if s1.refuses 11 then { s1 with script := turn :: s1.script }
    else { s1.readyToDeliver with script := .dispatch frame :: s1.script }
  | _ => { s1 with script := turn :: s1.script }

end Sys2Proof.Machine
end

