-- ==== Sys2Proof/Machine/Step.lean ====
section
/-! DEFINITION. The step of the whole machine. -/

namespace Sys2Proof.Machine

/-- One step: in the fault state the machine stops (60_exceptions.md R451); else the next turn is taken. -/
def step (s : State) : Host.Outcome State Fault Refusal :=
  match s.faults with
  | f :: _ => .fault (.stopped f)
  | [] => perform s.nextTurn.1 s.nextTurn.2

/-- Store an instruction where `step` takes its next one: as the next turn of the agent that may issue it. -/
def State.withFetchWord (s : State) (nbits w : Nat) : State := s.place nbits w

end Sys2Proof.Machine
end

