-- ==== Sys2Proof/Safety.lean ====
section
/-! DEFINITION. What counts as a safe run, and the invariants and run notions that the statements use. -/

namespace Sys2Proof.Machine

/-- No fault has been recorded: the state in which the spec's claims about a step apply (60_exceptions.md R451). -/
def State.Safe (s : State) : Prop := s.faults = []

/-! ### Runs of one agent with nothing in between -/

/-- `n` further atomic steps of one agent, with no other agent between them. -/
def advances (a : HostAgent) : Nat → State → Flow
  | 0, s => .ok s
  | n + 1, s => (advance a s).andThen (advances a n)

/-- `n` atomic steps of one agent from a state in which `frames` are left to do: the local ones in front run first. -/
def runs (a : HostAgent) (frames : List Micro) (n : Nat) (s : State) : Flow := (unwind a frames s).andThen (advances a n)

/-- Instructions issued one after another, each answering a next state without a fault. -/
def execAll : List Instr → State → Option State
  | [], s => some s
  | i :: is, s =>
    match exec i s with
    | .next t => if t.faults = s.faults then execAll is t else none
    | _ => none

/-! ### Hypotheses on an issued operation -/

/-- An operation with this minimum `initStep` is not refused (60_exceptions.md R452). -/
def State.Ready (s : State) (minStep : Nat) : Prop := s.drv.initFailed = false ∧ minStep ≤ s.drv.initStep

/-- No confirm is between its two steps for any agent but `a`, on register `r` (41_register_mapper.md R263 (b)). -/
def State.Unraced (s : State) (r : Reg) (a : HostAgent) : Prop := ∀ b, b ≠ a → (s.regObj r).inConfirm.get b = false

/-- The pending masks of `r` do not belong to another agent than `a` (R263 (a)). -/
def State.MayStage (s : State) (r : Reg) (a : HostAgent) : Prop :=
  (s.regObj r).stagedBy = none ∨ (s.regObj r).stagedBy = some a

/-- A byte of a descriptor that hardware owns (20_memory.md R119, 43_descriptors.md R332): descriptor `i` of a ring stands at the
device's ring base, and from step 4 of `initialize` on in the driver's block (10_state.md R54). -/
def State.OwnedByte (s : State) (x : Nat) : Prop :=
  ∃ t i off, s.hwOwned t i = true ∧ off < 16 ∧
    (x = s.ringBase t + 16 * i + off ∨
      (4 ≤ s.drv.initStep ∧ i < s.ringSize t ∧ x = (s.ringPhys t + 16 * i + off) % 2 ^ 32))

/-- Hardware owns none of the `n` bytes from address `a` on. -/
def State.SoftwareOwns (s : State) (a n : Nat) : Prop := ∀ k, k < n → ¬ s.OwnedByte ((a + k) % 2 ^ 32)

/-! ### Invariants -/

/-- Reserved and hard-wired bits of the device registers, and what the device keeps true of itself (10_state.md R35 to R52). -/
structure State.DeviceInv (s : State) : Prop where
  /-- RST is never stored (40_mmio_registers.md R202). -/
  rst     : s.regs.ctrl.getLsbD 26 = false
  /-- Only the six causes the device sets are ever latched (R39; MDAC is never set). -/
  causes  : s.regs.icr &&& ~~~0xD7#32 = 0#32
  /-- Ring bases are 16-byte aligned (R45). -/
  rdbal   : s.regs.rdbal &&& 0xF#32 = 0#32
  tdbal   : s.regs.tdbal &&& 0xF#32 = 0#32
  /-- Ring lengths are multiples of 128 below 2^20 (R46). -/
  rdlen   : s.regs.rdlen &&& ~~~0x000FFF80#32 = 0#32
  tdlen   : s.regs.tdlen &&& ~~~0x000FFF80#32 = 0#32
  /-- Heads and tails are 16 bits wide (R47). -/
  rdh     : s.regs.rdh &&& ~~~0x0000FFFF#32 = 0#32
  rdt     : s.regs.rdt &&& ~~~0x0000FFFF#32 = 0#32
  tdh     : s.regs.tdh &&& ~~~0x0000FFFF#32 = 0#32
  tdt     : s.regs.tdt &&& ~~~0x0000FFFF#32 = 0#32
  /-- Bits 30:18 of RAH0 are never stored (R48). -/
  rah0    : s.regs.rah0 &&& ~~~0x8003FFFF#32 = 0#32
  /-- `luPrev` is the link state: no change of it goes unnoticed (R52, 46_dma_sequencer.md R432). -/
  link    : s.luPrev = s.lu
  /-- The FIFO holds at most `RXFIFO_CAP` frames (R50). -/
  fifo    : s.rxFifo.length ≤ s.params.rxFifoCap
  /-- A read in progress has not completed (R51). -/
  eeprom  : s.ee.busy = true → s.ee.done = false
  /-- Layout L540 has an 8-bit word address (R38). -/
  eeAddr  : s.layout = .l540 → s.ee.addr.toNat < 256

/-- The Register objects (10_state.md R60): the two masks of a register are disjoint, and an agent owns them exactly while
one of them is not empty. -/
def State.MapperInv (s : State) : Prop :=
  ∀ r, (s.regObj r).onMask &&& (s.regObj r).offMask = 0#32 ∧
    ((s.regObj r).stagedBy = none ↔ (s.regObj r).onMask = 0#32 ∧ (s.regObj r).offMask = 0#32)

/-- The driver's bounds (10_state.md R62, R63): cursors and tail copies are indices of their rings, as is every tail that a
`movetail` in progress will store, and Q holds at most `Q_CAP` entries. -/
structure State.RingInv (s : State) : Prop where
  txCur  : s.drv.txCur < s.params.nTx
  txTail : s.drv.txTail < s.params.nTx
  rxCur  : s.drv.rxCur < s.params.nRx
  rxTail : s.drv.rxTail < s.params.nRx
  tails  : ∀ a t n, Micro.tailEnd t n ∈ s.work a → n < s.ringSize t
  queue  : s.drv.queue.length ≤ s.params.qCap

/-- How many log records of a kind there are. -/
def State.logged (s : State) (kind : LogKind) : Nat := (s.drv.log.filter (fun r => r.kind = kind)).length

/-- The driver's records (10_state.md R61, R64, R72): an idle decoder holds no snapshot, and every counter counts the log
records of its kind. -/
structure State.DriverInv (s : State) : Prop where
  snap          : s.drv.icState = .idle → s.drv.snap = 0#32
  overrunCount  : s.drv.overrunCount = s.logged .overrun
  dropRunt      : s.drv.dropRunt = s.logged .dropRunt
  dropNotEop    : s.drv.dropNotEop = s.logged .dropNotEop
  dropErrors    : s.drv.dropErrors = s.logged .dropErrors
  dropQueueFull : s.drv.dropQueueFull = s.logged .dropQueueFull

/-! ### Weak fairness (70_reset_and_hazards.md R510) -/

/-- A run without end, and the turns it takes: no fault is recorded, and each turn takes one state to the next. Every finite part
of one is a run of `step` with its turns in the script (log entry 2). -/
def IsRun (r : Nat → State) (turn : Nat → Turn) : Prop :=
  ∀ n, (r n).faults = [] ∧ perform (turn n) (r n) = .next (r (n + 1))

/-- The agents of R510, when they are enabled: an engine by its own condition, a host agent while it has an operation in progress
and is not preempted. ENV and RXMAC have no fairness requirement. -/
def State.Enabled (s : State) : Agent → Prop
  | .txe => s.txeEnabled = true
  | .rxe => s.rxeEnabled = true
  | .eec => s.ee.busy = true
  | .dispatch => s.deliverable = true
  | .host => s.mayRun .host = true ∧ s.work .host ≠ []
  | .isr => s.mayRun .isr = true ∧ s.work .isr ≠ []
  | .bh => s.mayRun .bh = true ∧ s.work .bh ≠ []
  | .rxmac | .env => False

/-- The agent whose step a turn is; none for a request that starts something new. -/
def moverOf : Turn → Option Agent
  | .resume a _ => some a.toAgent
  | .dispatch _ => some .dispatch
  | .txe _ => some .txe
  | .rxmac _ _ _ => some .rxmac
  | .rxe => some .rxe
  | .eec => some .eec
  | .cable => some .env
  | .issue _ _ _ | .access _ _ _ | .store _ _ _ => none

/-- THE LIVENESS ASSUMPTION (00_scope.md R8): an agent that stays enabled eventually takes a step (R510). -/
def WeaklyFair (r : Nat → State) (turn : Nat → Turn) : Prop :=
  IsRun r turn ∧ ∀ (a : Agent) (n : Nat), ∃ m, n ≤ m ∧ (¬ (r m).Enabled a ∨ moverOf (turn m) = some a)

/-- The driver's lifecycle (45_core.md R391). -/
inductive Lifecycle where
  | uninit | initializing | ready | failed
deriving DecidableEq, Repr

/-- The lifecycle state that `initStep` and `initFailed` spell (R391). -/
def State.lifecycle (s : State) : Lifecycle :=
  if s.drv.initFailed then .failed
  else if s.drv.initStep = 0 then .uninit
  else if s.drv.initStep < 13 then .initializing
  else .ready

end Sys2Proof.Machine

namespace Sys2Proof

/-! ### The tables of 60_exceptions.md -/

/-- The host operation of an instruction; none for an MMIO request. -/
def Instr.hostOp? : Instr → Option HostOp
  | .mmioRCtrl | .mmioWCtrl _ | .mmioRStatus | .mmioWStatus _ | .mmioREerd | .mmioWEerd _ | .mmioRIcr | .mmioWIcr _ => none
  | .mmioRIms | .mmioWIms _ | .mmioRImc | .mmioWImc _ | .mmioRRctl | .mmioWRctl _ | .mmioRTctl | .mmioWTctl _ => none
  | .mmioRRdbal | .mmioWRdbal _ | .mmioRRdbah | .mmioWRdbah _ | .mmioRRdlen | .mmioWRdlen _ | .mmioRRdh | .mmioWRdh _ => none
  | .mmioRRdt | .mmioWRdt _ | .mmioRTdbal | .mmioWTdbal _ | .mmioRTdbah | .mmioWTdbah _ | .mmioRTdlen | .mmioWTdlen _ => none
  | .mmioRTdh | .mmioWTdh _ | .mmioRTdt | .mmioWTdt _ | .mmioRRal0 | .mmioWRal0 _ | .mmioRRah0 | .mmioWRah0 _ => none
  | .regSet _ _ _ => some .regSet
  | .regDecide _ _ _ => some .regDecide
  | .regConfirm _ => some .regConfirm
  | .regReaddirect _ => some .regReaddirect
  | .dcSetlinkup _ => some .dcSetlinkup
  | .dcAutospeed _ => some .dcAutospeed
  | .rcEnable _ => some .rcEnable
  | .rcLoopback _ => some .rcLoopback
  | .rcBufsize _ => some .rcBufsize
  | .rcMinthreshold _ => some .rcMinthreshold
  | .rcBroadcast _ => some .rcBroadcast
  | .tcEnable _ => some .tcEnable
  | .tcPadshort _ => some .tcPadshort
  | .tcCollthresh _ => some .tcCollthresh
  | .tcColldist _ => some .tcColldist
  | .ieEnable _ => some .ieEnable
  | .idDisable _ => some .idDisable
  | .grpManage _ => some .grpManage
  | .icReadclear => some .icReadclear
  | .icLinkchanged => some .icLinkchanged
  | .icOverrun => some .icOverrun
  | .icMinthreshold => some .icMinthreshold
  | .icRxtimer => some .icRxtimer
  | .icMdiodone => some .icMdiodone
  | .icUnhandled => some .icUnhandled
  | .txdWriteaddress _ _ => some .txdWriteaddress
  | .txdWritelength _ _ => some .txdWritelength
  | .txdWritecommand _ => some .txdWritecommand
  | .txdIsdone _ => some .txdIsdone
  | .rxdWriteaddress _ _ => some .rxdWriteaddress
  | .rxdGetpacketaddress _ => some .rxdGetpacketaddress
  | .rxdReadlength _ => some .rxdReadlength
  | .rxdIseop _ => some .rxdIseop
  | .rxdClearstatus _ => some .rxdClearstatus
  | .rxdHaserrors _ => some .rxdHaserrors
  | .rxdDone _ => some .rxdDone
  | .ringCurrent _ => some .ringCurrent
  | .ringSetnext _ => some .ringSetnext
  | .hwringInit _ => some .hwringInit
  | .hwringMovetail _ => some .hwringMovetail
  | .txSend _ _ => some .txSend
  | .rxPoll => some .rxPoll
  | .coreInitialize => some .coreInitialize
  | .coreLoadmac => some .coreLoadmac
  | .coreTrigger _ => some .coreTrigger
  | .coreHasdata => some .coreHasdata
  | .coreParse => some .coreParse

/-- The table of minimum `initStep` (60_exceptions.md R452). -/
def HostOp.minStep : HostOp → Nat
  | .txdWriteaddress | .txdWritelength | .txdWritecommand | .txdIsdone => 5
  | .rxdWriteaddress | .rxdGetpacketaddress | .rxdReadlength | .rxdIseop | .rxdClearstatus | .rxdHaserrors | .rxdDone => 5
  | .ringCurrent | .ringSetnext => 5
  | .regSet | .regDecide | .regConfirm | .regReaddirect => 6
  | .dcSetlinkup | .dcAutospeed | .rcEnable | .rcLoopback | .rcBufsize | .rcMinthreshold | .rcBroadcast => 6
  | .tcEnable | .tcPadshort | .tcCollthresh | .tcColldist | .ieEnable | .idDisable | .grpManage => 6
  | .icReadclear | .icLinkchanged | .icOverrun | .icMinthreshold | .icRxtimer | .icMdiodone | .icUnhandled => 6
  | .hwringInit => 6
  | .hwringMovetail => 7
  | .coreLoadmac => 8
  | .rxPoll | .coreHasdata | .coreParse | .coreTrigger => 11
  | .txSend => 13
  | .coreInitialize => 0

/-- The table of agents (60_exceptions.md R470). -/
def HostOp.allows (op : HostOp) (s : Machine.State) : Prop :=
  match op with
  | .coreInitialize | .coreLoadmac => s.cur = .host
  | .txSend => s.cur = .host ∨ s.cur = .bh
  | .rxPoll | .coreTrigger => s.cur = .isr
  | .coreHasdata | .coreParse => s.cur = .bh
  | .icReadclear | .icLinkchanged | .icOverrun | .icMinthreshold | .icRxtimer | .icMdiodone | .icUnhandled =>
    s.cur = .isr ∨ (s.cur = .host ∧ Machine.inStep12 s = true)
  | .regSet | .regDecide | .regConfirm | .regReaddirect => True
  | .dcSetlinkup | .dcAutospeed | .rcEnable | .rcLoopback | .rcBufsize | .rcMinthreshold | .rcBroadcast => True
  | .tcEnable | .tcPadshort | .tcCollthresh | .tcColldist | .ieEnable | .idDisable | .grpManage => True
  | .txdWriteaddress | .txdWritelength | .txdWritecommand | .txdIsdone => True
  | .rxdWriteaddress | .rxdGetpacketaddress | .rxdReadlength | .rxdIseop | .rxdClearstatus | .rxdHaserrors | .rxdDone => True
  | .ringCurrent | .ringSetnext | .hwringInit | .hwringMovetail => True

end Sys2Proof

namespace Sys2Proof.Machine

/-- The refusal cases of R452 for a host operation of the table of 30_encoding.md R145. -/
def State.Refuses (s : State) (op : HostOp) : Prop :=
  s.drv.initFailed = true ∨ s.drv.initStep < op.minStep ∨ (op = .coreInitialize ∧ s.drv.initStep ≠ 0) ∨
    (op = .coreLoadmac ∧ inStep9 s = false)

/-! ### DMA -/

/-- An address no DMA region holds (10_state.md R53). -/
def State.OutsideDma (s : State) (x : Nat) : Prop := ∀ r ∈ s.dma, x < r.base ∨ r.base + r.len ≤ x

/-! ### Encodings a statement names -/

/-- The request word `w` alone is the read request `i`, with the default offset table (30_encoding.md R142). -/
def IsReadWord (w : Word) (i : Instr) : Prop := decode Config.offsets (.mmio 32 (wordBytes w)) = .ok i

/-- The request word `w` with a data word is the write request `i` of that data, with the default offset table (R142). -/
def IsWriteWord (w : Word) (i : Word → Instr) : Prop :=
  ∀ data, decode Config.offsets (.mmio 32 (wordBytes w ++ wordBytes data)) = .ok (i data)

/-- The 16-bit word `w` is the word of the host operation `i` (R145). -/
def IsOpWord (w : Nat) (i : Instr) : Prop := ∃ op, i.hostOp? = some op ∧ hostOpOfWord w = some op

/-! ### Staging and confirm -/

/-- The state after an agent stages masks on a register: it owns them, unless both are empty (41_register_mapper.md R260,
10_state.md R60). -/
def State.staged (s : State) (r : Reg) (on off : Word) : State :=
  s.setRegObj r
    { s.regObj r with
      onMask := on, offMask := off, stagedBy := if on = 0#32 ∧ off = 0#32 then none else some s.cur }

/-- The state after `reg.set` (R260). -/
def State.afterSet (s : State) (r : Reg) (values mask : Word) : State :=
  s.staged r (((s.regObj r).onMask &&& ~~~mask) ||| (values &&& mask))
    (((s.regObj r).offMask &&& ~~~mask) ||| (~~~values &&& mask))

/-- The state after `reg.decide` (R261). -/
def State.afterDecide (s : State) (r : Reg) (values : Word) (enable : Bool) : State :=
  if enable then s.staged r ((s.regObj r).onMask ||| values) ((s.regObj r).offMask &&& ~~~values)
  else s.staged r ((s.regObj r).onMask &&& ~~~values) ((s.regObj r).offMask ||| values)

/-- A register's pending masks are empty, and no confirm of it is in progress. -/
def State.Untouched (s : State) (r : Reg) : Prop := s.regObj r = RegObj.empty

/-- Writing back what a register reads raises no fault: ICR is not staged; a base, length or head is written while its engine is
disabled; a head or tail is in range (40_mmio_registers.md R218 to R236). -/
def State.Rewritable (s : State) : Reg → Prop
  | .icr => False
  | .rdbal | .rdbah | .rdlen => s.regs.rctl.getLsbD 1 = false
  | .rdh => s.regs.rctl.getLsbD 1 = false ∧ s.regs.rdh.toNat < max (s.regs.rdlen.toNat / 16) 1
  | .rdt => s.regs.rdt.toNat < max (s.regs.rdlen.toNat / 16) 1
  | .tdbal | .tdbah | .tdlen => s.regs.tctl.getLsbD 1 = false
  | .tdh => s.regs.tctl.getLsbD 1 = false ∧ s.regs.tdh.toNat < max (s.regs.tdlen.toNat / 16) 1
  | .tdt => s.regs.tdt.toNat < max (s.regs.tdlen.toNat / 16) 1
  | .ctrl | .status | .eerd | .ims | .imc | .rctl | .tctl | .ral0 | .rah0 => True

/-- The state after step 1 of a confirm (R262): one read of the register, none for IMC, and `inConfirm` set. -/
def State.confirmStarted (s : State) (r : Reg) : State :=
  let live : Word × State := if r = .imc then (0#32, s) else readReg r s
  let o := live.2.regObj r
  ((live.2.setRegObj r { o with inConfirm := o.inConfirm.set s.cur true }).setWork s.cur
    (.confirmWrite r live.1 :: s.work s.cur)).setRet s.cur .pending

/-- A Register object after its confirm: empty masks, no owner, this agent's confirm over (R262). -/
def RegObj.AfterConfirm (o before : RegObj) (a : HostAgent) : Prop :=
  o.onMask = 0#32 ∧ o.offMask = 0#32 ∧ o.stagedBy = none ∧ o.inConfirm = before.inConfirm.set a false

/-- A setter that stages (R266): with its feature it stages on its register, or raises F_REG_RACE where the masks are another
agent's; without it, it returns ERR_UNSUPPORTED. -/
def StagesAs (i : Instr) (f : Feature) (r : Reg) (after : State → State) : Prop :=
  ∀ s : State, s.Ready 6 →
    (f ∈ s.params.features → s.MayStage r s.cur → exec i s = .next ((after s).setRet s.cur .ok)) ∧
    (f ∈ s.params.features → ¬ s.MayStage r s.cur →
      exec i s = .next (s.raise ⟨.regRace, s.cur.toAgent, 263, pOffsets s.params.offsets r⟩)) ∧
    (f ∉ s.params.features → exec i s = .next (s.setRet s.cur (.err .unsupported)))

/-- A setter whose argument is outside its domain (R266): ERR_UNSUPPORTED first, then ERR_CONFIG. -/
def RejectsArgument (i : Instr) (f : Feature) : Prop :=
  ∀ s : State, s.Ready 6 →
    (f ∈ s.params.features → exec i s = .next (s.setRet s.cur (.err .config))) ∧
    (f ∉ s.params.features → exec i s = .next (s.setRet s.cur (.err .unsupported)))

/-! ### Causes -/

/-- The ICR bit that a predicate of the decoder claims (42_interrupt_cause.md R302 to R306). -/
def predicateBit : Instr → Nat
  | .icLinkchanged => 2
  | .icOverrun => 6
  | .icMinthreshold => 4
  | .icRxtimer => 7
  | .icMdiodone => 9
  | _ => 0

/-- The five predicates of R308. -/
def predicates : List Instr := [.icLinkchanged, .icOverrun, .icMinthreshold, .icRxtimer, .icMdiodone]

/-! ### Receiving -/

/-- The destination filter of RXMAC (46_dma_sequencer.md R418): receive address 0, broadcast, unicast or multicast promiscuous. -/
def State.Wanted (s : State) (f : List Byte) : Prop :=
  let ra0 : List Byte := [s.regs.ral0.extractLsb' 0 8, s.regs.ral0.extractLsb' 8 8, s.regs.ral0.extractLsb' 16 8,
    s.regs.ral0.extractLsb' 24 8, s.regs.rah0.extractLsb' 0 8, s.regs.rah0.extractLsb' 8 8]
  let group := (f.headD 0#8).getLsbD 0
  (s.regs.rah0.getLsbD 31 = true ∧ f.take 6 = ra0) ∨
    (f.take 6 = [0xFF#8, 0xFF#8, 0xFF#8, 0xFF#8, 0xFF#8, 0xFF#8] ∧ s.regs.rctl.getLsbD 15 = true) ∨
    (group = false ∧ s.regs.rctl.getLsbD 3 = true) ∨ (group = true ∧ s.regs.rctl.getLsbD 4 = true)

/-! ### `initialize` -/

/-- What step 8 of `initialize` does, written out from 45_core.md R383. -/
def configuration : List Micro :=
  [.setting (.linkUp true), .setting (.autoSpeed true), .manage .dc, .setting (.ieEnable 0x000000D4#32), .manage .ie,
   .setting (.tcEnable true), .setting (.padShort true), .setting (.collThresh 15), .setting (.collDist 64), .manage .tc,
   .setting (.loopback 0), .setting (.bufSize 2048), .setting (.minThreshold 2), .setting (.broadcast true),
   .setting (.rcEnable true), .manage .rc]

/-- What `initialize` does after the call of its step 3, in order, written out from R381. -/
def afterMapIo : List Micro :=
  [.initDone 3, .callAlloc .txBlock, .callAlloc .rxBlock, .slotsFrom 0, .initDone 4, .createObjects, .txInit, .rxInitFrom 0,
   .initDone 7] ++ configuration ++
  [.initDone 8, .loadMac, .initDone 9, .callRegister, .initDone 10, .callAllow, .callAssign, .initDone 11, .icReadClear, .icDone,
   .initDone 12, .callCreateDirectory, .callAddNode, .initDone 13]

/-! ### Memory -/

/-- The byte at offset `off` of the driver's descriptor `i` (10_state.md R54). -/
def State.descByte (s : State) (t : Ring) (i off : Nat) : Byte :=
  s.mem.readByte (((match t with | .tx => s.drv.txPhys.toNat | .rx => s.drv.rxPhys.toNat) + 16 * i + off) % 2 ^ 32)

/-- From memory `m` to memory `m'`, the bytes `bs` are stored from address `a` on (addresses wrap at 2^32), and every other
byte reads as before. -/
def Memory.Stored (m m' : Memory) (a : Nat) (bs : List Byte) : Prop :=
  (∀ k, ∀ h : k < bs.length, m'.readByte ((a + k) % 2 ^ 32) = bs[k]) ∧
    ∀ x, (∀ k, k < bs.length → x ≠ (a + k) % 2 ^ 32) → m'.readByte x = m.readByte x

/-- A host operation that stores bytes and does nothing else. -/
def StoresBytes (i : Instr) (s : State) (a : Nat) (bs : List Byte) : Prop :=
  ∃ m, exec i s = .next (State.setRet { s with mem := m } s.cur .unit) ∧ m.wf = true ∧ s.mem.Stored m a bs

/-- The 8 bytes of a physical address in a descriptor: 4 address bytes, least significant first, and 4 zero bytes
(43_descriptors.md R321). -/
def addressBytes (pa : Word) : List Byte :=
  [pa.extractLsb' 0 8, pa.extractLsb' 8 8, pa.extractLsb' 16 8, pa.extractLsb' 24 8, 0#8, 0#8, 0#8, 0#8]

end Sys2Proof.Machine
end

