-- ==== Sys2Proof/Certificates/Slice0/Obligations.lean ====
section
/-! DEFINITION. The statements for the provers, `Obligations.<Name> : Prop`, in the order of the spec's files. A statement
whose title or docstring names a log entry rests on a choice of the model there. -/

section Statements

open Sys2Proof Sys2Proof.Machine

/-! ### Encoding (spec/30_encoding.md) -/

/-- Decoding what the encoder writes gives the instruction back, for every well-formed instruction and every offset table with
one aligned 17-bit offset for each register (R140 to R146; `P_OFFSETS` is a parameter, 00_scope.md R9). The bytes of a host
operation's operands are the model's (log entry 8). -/
def Obligations.DecodeEncodeAgree : Prop :=
  ∀ (o : Offsets) (i : Instr), o.wf = true → i.wf = true → decode o (encode o i) = .ok i

/-- A few words of the tables of R142 and R145 decode to the instructions they stand for. -/
def Obligations.TableWordsDecode : Prop :=
  decodeTableWord 32 0x00000000 = some .mmioRCtrl ∧
  decodeTableWord 32 0x000000C0 = some .mmioRIcr ∧
  decodeTableWord 64 0x00000004800000D0 = some (.mmioWIms 4#32) ∧
  decodeTableWord 32 0x80005404 = some (.mmioWRah0 0#32) ∧
  decodeTableWord 16 0x0301 = some .icReadclear ∧
  decodeTableWord 16 0x0502 = some (.ringSetnext .tx) ∧
  decodeTableWord 16 0x0705 = some .coreParse

/-- A bus request of another width, misaligned, or at no register's offset faults, the first that applies in that order, and
has no other effect (R144). The detail is the request word without its direction bit (log entry 9). A 16-bit word that is in no row
of R145 spells no operation: it is refused, and changes no state (R147). -/
def Obligations.RejectedRequests : Prop :=
  (∀ (s : State) (a : HostAgent) (reply : Reply) (width : Nat) (w data : Word),
     s.mayRun a = true → s.work a = [] →
     let req := Request.mmio width (wordBytes w ++ wordBytes data)
     let raises := fun c => perform (.issue a req reply) s =
       .next ((s.asAgent a reply).raise ⟨c, a.toAgent, 144, w.toNat % 2 ^ 31⟩)
     (width ≠ 32 → raises .width) ∧
     (width = 32 → w.extractLsb' 0 2 ≠ 0#2 → raises .misaligned) ∧
     (width = 32 → w.extractLsb' 0 2 = 0#2 →
       (w.extractLsb' 17 14 ≠ 0#14 ∨ ∀ r, pOffsets s.params.offsets r ≠ (w.extractLsb' 0 17).toNat) →
       raises .unmodelledOffset)) ∧
  ∀ (s : State) (a : HostAgent) (reply : Reply) (w : Half) (operands : List Byte),
    s.mayRun a = true → s.work a = [] → (∀ op : HostOp, op.word ≠ w.toNat) →
    perform (.issue a (.host (halfBytes w ++ operands)) reply) s = .next ((s.asAgent a reply).setRet a .refused)

/-! ### Checks on an issued operation (spec/60_exceptions.md) -/

/-- The checks on an issued host operation. Before its minimum `initStep`, after a failed `initialize`, a second time, or out of
its place in `initialize`, an operation is refused: it changes no state and returns Refused (R452). One that is not refused, issued
by an agent that the table of R470 does not allow, raises F_CONTEXT with the operation's word and has no other effect. That
`core.loadmac` issued by ISR or BH is in its place, and so F_CONTEXT and not Refused, while HOST stands at step 9 of `initialize`, is
the model's choice (log entry 20). -/
def Obligations.IssueChecks : Prop :=
  (∀ (i : Instr) (op : HostOp) (s : State), i.hostOp? = some op → s.Refuses op → exec i s = .next (s.setRet s.cur .refused)) ∧
  ∀ (i : Instr) (op : HostOp) (s : State), i.hostOp? = some op → ¬ s.Refuses op → ¬ op.allows s →
    exec i s = .next (s.raise ⟨.context, s.cur.toAgent, 470, op.word⟩)

/-! ### MMIO registers (spec/40_mmio_registers.md) -/

/-- Reads of CTRL, EERD, IMS, RCTL, TCTL, RAL0 and RAH0: the value the rule gives, and no effect. -/
def Obligations.ControlRegistersRead : Prop :=
  (IsReadWord 0x00000000#32 .mmioRCtrl ∧ IsReadWord 0x00000014#32 .mmioREerd ∧ IsReadWord 0x000000D0#32 .mmioRIms ∧
    IsReadWord 0x00000100#32 .mmioRRctl ∧ IsReadWord 0x00000400#32 .mmioRTctl ∧ IsReadWord 0x00005400#32 .mmioRRal0 ∧
    IsReadWord 0x00005404#32 .mmioRRah0) ∧
  ∀ s : State,
    let returns := fun v => Host.Outcome.next (s.setRet s.cur (.word v))
    let done := fun k : Nat => if s.ee.done then bit k else 0#32
    exec .mmioRCtrl s = returns (s.regs.ctrl &&& ~~~(bit 26)) ∧
    (s.params.variant.eerdLayout = .l540 →
      exec .mmioREerd s = returns ((s.ee.data.setWidth 32 <<< 16) ||| (s.ee.addr.setWidth 32 <<< 8) ||| done 4)) ∧
    (s.params.variant.eerdLayout = .l541 →
      exec .mmioREerd s = returns ((s.ee.data.setWidth 32 <<< 16) ||| (s.ee.addr.setWidth 32 <<< 2) ||| done 1)) ∧
    exec .mmioRIms s = returns s.regs.ims ∧
    exec .mmioRRctl s = returns s.regs.rctl ∧
    exec .mmioRTctl s = returns s.regs.tctl ∧
    exec .mmioRRal0 s = returns s.regs.ral0 ∧
    exec .mmioRRah0 s = returns (s.regs.rah0 &&& 0x8003FFFF#32)

/-- Reads of the ring registers: the stored bits, the others 0, and no effect. -/
def Obligations.RingRegistersRead : Prop :=
  (IsReadWord 0x00002800#32 .mmioRRdbal ∧ IsReadWord 0x00002804#32 .mmioRRdbah ∧ IsReadWord 0x00002808#32 .mmioRRdlen ∧
    IsReadWord 0x00002810#32 .mmioRRdh ∧ IsReadWord 0x00002818#32 .mmioRRdt ∧ IsReadWord 0x00003800#32 .mmioRTdbal ∧
    IsReadWord 0x00003804#32 .mmioRTdbah ∧ IsReadWord 0x00003808#32 .mmioRTdlen ∧ IsReadWord 0x00003810#32 .mmioRTdh ∧
    IsReadWord 0x00003818#32 .mmioRTdt) ∧
  ∀ s : State,
    let returns := fun v => Host.Outcome.next (s.setRet s.cur (.word v))
    let low := fun v : Word => (v.extractLsb' 0 16).setWidth 32
    exec .mmioRRdbal s = returns (s.regs.rdbal &&& 0xFFFFFFF0#32) ∧
    exec .mmioRRdbah s = returns s.regs.rdbah ∧
    exec .mmioRRdlen s = returns (s.regs.rdlen &&& 0x000FFF80#32) ∧
    exec .mmioRRdh s = returns (low s.regs.rdh) ∧
    exec .mmioRRdt s = returns (low s.regs.rdt) ∧
    exec .mmioRTdbal s = returns (s.regs.tdbal &&& 0xFFFFFFF0#32) ∧
    exec .mmioRTdbah s = returns s.regs.tdbah ∧
    exec .mmioRTdlen s = returns (s.regs.tdlen &&& 0x000FFF80#32) ∧
    exec .mmioRTdh s = returns (low s.regs.tdh) ∧
    exec .mmioRTdt s = returns (low s.regs.tdt)

/-- Reads with an effect or a draw: a read of ICR returns it and clears it in one step, so the interrupt line drops (R207,
46_dma_sequencer.md R433); STATUS shows the link in bit 1 and a draw in every other bit (R203); IMC reads as a draw (R211). The
counter of draws is the model's choice (DESIGN CHOICE, log entry 4). -/
def Obligations.IcrStatusImcRead : Prop :=
  (IsReadWord 0x000000C0#32 .mmioRIcr ∧ IsReadWord 0x00000008#32 .mmioRStatus ∧ IsReadWord 0x000000D8#32 .mmioRImc) ∧
  ∀ s : State,
    let cleared : State := { s with regs := { s.regs with icr := 0#32 } }
    let drawn : State := { s with draws := s.draws + 1 }
    let lu := if s.cable && s.regs.ctrl.getLsbD 6 then bit 1 else 0#32
    (exec .mmioRIcr s = .next (cleared.setRet s.cur (.word s.regs.icr)) ∧ cleared.irq = false) ∧
    (∃ d, exec .mmioRStatus s = .next (drawn.setRet s.cur (.word ((d &&& ~~~(bit 1)) ||| lu)))) ∧
    (∃ d, exec .mmioRImc s = .next (drawn.setRet s.cur (.word d)))

/-- Writes of STATUS, ICR, IMS, IMC, RAL0 and RAH0, where no other agent is between the two steps of a confirm of the register
(41_register_mapper.md R263). -/
def Obligations.PlainRegistersWrite : Prop :=
  (IsWriteWord 0x80000008#32 .mmioWStatus ∧ IsWriteWord 0x800000C0#32 .mmioWIcr ∧ IsWriteWord 0x800000D0#32 .mmioWIms ∧
    IsWriteWord 0x800000D8#32 .mmioWImc ∧ IsWriteWord 0x80005400#32 .mmioWRal0 ∧ IsWriteWord 0x80005404#32 .mmioWRah0) ∧
  ∀ (s : State) (v : Word),
    let leaves := fun regs : DevRegs => Host.Outcome.next (State.setRet { s with regs := regs } s.cur .unit)
    (s.Unraced .status s.cur → exec (.mmioWStatus v) s = leaves s.regs) ∧
    (s.Unraced .icr s.cur → exec (.mmioWIcr v) s = leaves { s.regs with icr := s.regs.icr &&& ~~~v }) ∧
    (s.Unraced .ims s.cur → exec (.mmioWIms v) s = leaves { s.regs with ims := s.regs.ims ||| v }) ∧
    (s.Unraced .imc s.cur → exec (.mmioWImc v) s = leaves { s.regs with ims := s.regs.ims &&& ~~~v }) ∧
    (s.Unraced .ral0 s.cur → exec (.mmioWRal0 v) s = leaves { s.regs with ral0 := v }) ∧
    (s.Unraced .rah0 s.cur → exec (.mmioWRah0 v) s = leaves { s.regs with rah0 := v &&& 0x8003FFFF#32 })

/-- A write of CTRL without bit 26 stores the value and evaluates the link: LSC is latched when LU changes (R202,
46_dma_sequencer.md R432). With bit 26 it resets the device in one step: every register takes its reset value, draws afresh,
the FIFO and the EEPROM engine are cleared, and everything else stays (70_reset_and_hazards.md R491; reset values 10_state.md
R35 to R48). That RAL0 and RAH0 take one free value for every word that a shorter EEPROM than R9 asks does not have
is the model's choice (log entry 28). -/
def Obligations.CtrlWritesOrResets : Prop :=
  IsWriteWord 0x80000000#32 .mmioWCtrl ∧
  (∀ (s : State) (v : Word), s.Unraced .ctrl s.cur → v.getLsbD 26 = false →
    let lu := s.cable && v.getLsbD 6
    let icr := if lu = s.luPrev then s.regs.icr else s.regs.icr ||| bit 2
    exec (.mmioWCtrl v) s =
      .next (State.setRet { s with regs := { s.regs with ctrl := v, icr := icr }, luPrev := lu } s.cur .unit)) ∧
  ∀ (s : State) (v : Word), s.Unraced .ctrl s.cur → v.getLsbD 26 = true →
    ∃ (ctrl tctl rdbal rdbah tdbal tdbah : Word) (free : Half) (draws : Nat),
      ctrl.getLsbD 26 = false ∧ tctl.getLsbD 1 = false ∧
      rdbal.extractLsb' 0 4 = 0#4 ∧ tdbal.extractLsb' 0 4 = 0#4 ∧
      exec (.mmioWCtrl v) s =
        .next (State.setRet
          { s with
            regs := { ctrl := ctrl, icr := 0#32, ims := 0#32, rctl := 0#32, tctl := tctl, rdbal := rdbal, rdbah := rdbah,
                      rdlen := 0#32, rdh := 0#32, rdt := 0#32, tdbal := tdbal, tdbah := tdbah, tdlen := 0#32, tdh := 0#32,
                      tdt := 0#32, ral0 := s.params.eeprom.getD 1 free ++ s.params.eeprom.getD 0 free,
                      rah0 := bit 31 ||| (s.params.eeprom.getD 2 free).setWidth 32 },
            rxFifo := [], ee := { busy := false, addr := 0#14, data := 0#16, done := false },
            luPrev := s.cable && ctrl.getLsbD 6, draws := draws } s.cur .unit)

/-- A write of EERD stores the address; START starts a read, and raises F_EERD_BUSY where one is in progress (R206). The
fault's detail is the EEPROM address written, and the fault leaves the stored address (log entry 18). -/
def Obligations.EerdWriteStartsRead : Prop :=
  IsWriteWord 0x80000014#32 .mmioWEerd ∧
  ∀ (s : State) (v : Word), s.Unraced .eerd s.cur →
    let addr : BitVec 14 :=
      if s.params.variant.eerdLayout = .l540 then (v.extractLsb' 8 8).setWidth 14 else v.extractLsb' 2 14
    let leaves := fun ee : Eeprom => Host.Outcome.next (State.setRet { s with ee := ee } s.cur .unit)
    (v.getLsbD 0 = false → exec (.mmioWEerd v) s = leaves { s.ee with addr := addr }) ∧
    (v.getLsbD 0 = true → s.ee.busy = false →
      exec (.mmioWEerd v) s = leaves { s.ee with addr := addr, busy := true, done := false }) ∧
    (v.getLsbD 0 = true → s.ee.busy = true →
      exec (.mmioWEerd v) s = .next (s.raise ⟨.eerdBusy, s.cur.toAgent, 206, addr.toNat⟩))

/-- Writes of RCTL and TCTL store every bit, unless they enable an engine whose ring length is 0: F_INIT_ORDER (R214, R216). -/
def Obligations.EnablesNeedRingLength : Prop :=
  (IsWriteWord 0x80000100#32 .mmioWRctl ∧ IsWriteWord 0x80000400#32 .mmioWTctl) ∧
  ∀ (s : State) (v : Word),
    let early := fun control len : Word => control.getLsbD 1 = false ∧ v.getLsbD 1 = true ∧ len = 0#32
    let leaves := fun regs : DevRegs => Host.Outcome.next (State.setRet { s with regs := regs } s.cur .unit)
    (s.Unraced .rctl s.cur → ¬ early s.regs.rctl s.regs.rdlen → exec (.mmioWRctl v) s = leaves { s.regs with rctl := v }) ∧
    (s.Unraced .rctl s.cur → early s.regs.rctl s.regs.rdlen →
      exec (.mmioWRctl v) s = .next (s.raise ⟨.initOrder, s.cur.toAgent, 214, pOffsets s.params.offsets .rctl⟩)) ∧
    (s.Unraced .tctl s.cur → ¬ early s.regs.tctl s.regs.tdlen → exec (.mmioWTctl v) s = leaves { s.regs with tctl := v }) ∧
    (s.Unraced .tctl s.cur → early s.regs.tctl s.regs.tdlen →
      exec (.mmioWTctl v) s = .next (s.raise ⟨.initOrder, s.cur.toAgent, 216, pOffsets s.params.offsets .tctl⟩))

/-- Ring bases and lengths: written while the engine is disabled they keep their stored bits; while it is enabled the write
raises F_RING_REPROGRAM (R218 to R222, R228 to R232). -/
def Obligations.RingProgramming : Prop :=
  (IsWriteWord 0x80002800#32 .mmioWRdbal ∧ IsWriteWord 0x80002804#32 .mmioWRdbah ∧ IsWriteWord 0x80002808#32 .mmioWRdlen ∧
    IsWriteWord 0x80003800#32 .mmioWTdbal ∧ IsWriteWord 0x80003804#32 .mmioWTdbah ∧
    IsWriteWord 0x80003808#32 .mmioWTdlen) ∧
  ∀ (s : State) (v : Word),
    let writes := fun (r : Reg) (i : Instr) (enabled : Bool) (rule : Nat) (regs : DevRegs) => s.Unraced r s.cur →
      (enabled = false → exec i s = .next (State.setRet { s with regs := regs } s.cur .unit)) ∧
      (enabled = true → exec i s = .next (s.raise ⟨.ringReprogram, s.cur.toAgent, rule, pOffsets s.params.offsets r⟩))
    let rx := s.regs.rctl.getLsbD 1
    let tx := s.regs.tctl.getLsbD 1
    writes .rdbal (.mmioWRdbal v) rx 218 { s.regs with rdbal := v &&& 0xFFFFFFF0#32 } ∧
    writes .rdbah (.mmioWRdbah v) rx 220 { s.regs with rdbah := v } ∧
    writes .rdlen (.mmioWRdlen v) rx 222 { s.regs with rdlen := v &&& 0x000FFF80#32 } ∧
    writes .tdbal (.mmioWTdbal v) tx 228 { s.regs with tdbal := v &&& 0xFFFFFFF0#32 } ∧
    writes .tdbah (.mmioWTdbah v) tx 230 { s.regs with tdbah := v } ∧
    writes .tdlen (.mmioWTdlen v) tx 232 { s.regs with tdlen := v &&& 0x000FFF80#32 }

/-- Heads and tails: an index below max(Ndev, 1) is stored, any other raises F_RING_REG_RANGE with the index (the record's detail,
log entry 18); a head is checked for F_RING_REPROGRAM first (R224, R226, R234, R236). -/
def Obligations.HeadsAndTailsWrite : Prop :=
  (IsWriteWord 0x80002810#32 .mmioWRdh ∧ IsWriteWord 0x80002818#32 .mmioWRdt ∧ IsWriteWord 0x80003810#32 .mmioWTdh ∧
    IsWriteWord 0x80003818#32 .mmioWTdt) ∧
  ∀ (s : State) (v : Word),
    let x : Word := (v.extractLsb' 0 16).setWidth 32
    let leaves := fun regs : DevRegs => Host.Outcome.next (State.setRet { s with regs := regs } s.cur .unit)
    let range := fun rule : Nat => Host.Outcome.next (s.raise ⟨.ringRegRange, s.cur.toAgent, rule, x.toNat⟩)
    let held := fun (rule : Nat) (r : Reg) =>
      Host.Outcome.next (s.raise ⟨.ringReprogram, s.cur.toAgent, rule, pOffsets s.params.offsets r⟩)
    let rxOk := x.toNat < max (s.regs.rdlen.toNat / 16) 1
    let txOk := x.toNat < max (s.regs.tdlen.toNat / 16) 1
    (s.Unraced .rdh s.cur →
      (s.regs.rctl.getLsbD 1 = true → exec (.mmioWRdh v) s = held 224 .rdh) ∧
      (s.regs.rctl.getLsbD 1 = false → ¬ rxOk → exec (.mmioWRdh v) s = range 224) ∧
      (s.regs.rctl.getLsbD 1 = false → rxOk → exec (.mmioWRdh v) s = leaves { s.regs with rdh := x })) ∧
    (s.Unraced .rdt s.cur →
      (¬ rxOk → exec (.mmioWRdt v) s = range 226) ∧
      (rxOk → exec (.mmioWRdt v) s = leaves { s.regs with rdt := x })) ∧
    (s.Unraced .tdh s.cur →
      (s.regs.tctl.getLsbD 1 = true → exec (.mmioWTdh v) s = held 234 .tdh) ∧
      (s.regs.tctl.getLsbD 1 = false → ¬ txOk → exec (.mmioWTdh v) s = range 234) ∧
      (s.regs.tctl.getLsbD 1 = false → txOk → exec (.mmioWTdh v) s = leaves { s.regs with tdh := x })) ∧
    (s.Unraced .tdt s.cur →
      (¬ txOk → exec (.mmioWTdt v) s = range 236) ∧
      (txOk → exec (.mmioWTdt v) s = leaves { s.regs with tdt := x }))

/-! ### The register mapper (spec/41_register_mapper.md) -/

/-- A write of a register whose confirm another agent has started and not finished raises F_REG_RACE, and has no other effect
(R263 (b); it is checked before the register's own rule, log entry 13). -/
def Obligations.WriteDuringConfirmRaces : Prop :=
  ∀ (s : State) (r : Reg) (v : Word), ¬ s.Unraced r s.cur →
    exec (writeInstr r v) s = .next (s.raise ⟨.regRace, s.cur.toAgent, 263, pOffsets s.params.offsets r⟩)

/-- `reg.set` and `reg.decide` stage their masks and issue no request: `set` clears the mask and sets the masked bits, `decide`
turns bits on or off, the later decision replacing the earlier; another agent's pending masks raise F_REG_RACE (R260,
R261, R263 (a)). That ICR is answered Refused is the model's reading (DEDUCED, log entry 24). -/
def Obligations.SetAndDecideStage : Prop :=
  (∀ (s : State) (r : Reg) (values mask : Word), s.Ready 6 →
    IsOpWord 0x0101 (.regSet r values mask) ∧
    (r = .icr → exec (.regSet r values mask) s = .next (s.setRet s.cur .refused)) ∧
    (r ≠ .icr → ¬ s.MayStage r s.cur →
      exec (.regSet r values mask) s =
        .next (s.raise ⟨.regRace, s.cur.toAgent, 263, pOffsets s.params.offsets r⟩)) ∧
    (r ≠ .icr → s.MayStage r s.cur →
      let on := ((s.regObj r).onMask &&& ~~~mask) ||| (values &&& mask)
      let off := ((s.regObj r).offMask &&& ~~~mask) ||| (~~~values &&& mask)
      exec (.regSet r values mask) s = .next ((s.staged r on off).setRet s.cur .unit) ∧
      ((s.regObj r).onMask &&& (s.regObj r).offMask = 0#32 → on &&& off = 0#32))) ∧
  ∀ (s : State) (r : Reg) (values : Word) (enable : Bool), s.Ready 6 →
    IsOpWord 0x0102 (.regDecide r values enable) ∧
    (r = .icr → exec (.regDecide r values enable) s = .next (s.setRet s.cur .refused)) ∧
    (r ≠ .icr → ¬ s.MayStage r s.cur →
      exec (.regDecide r values enable) s =
        .next (s.raise ⟨.regRace, s.cur.toAgent, 263, pOffsets s.params.offsets r⟩)) ∧
    (r ≠ .icr → s.MayStage r s.cur →
      let o := s.regObj r
      (enable = true → exec (.regDecide r values enable) s =
        .next ((s.staged r (o.onMask ||| values) (o.offMask &&& ~~~values)).setRet s.cur .unit)) ∧
      (enable = false → exec (.regDecide r values enable) s =
        .next ((s.staged r (o.onMask &&& ~~~values) (o.offMask ||| values)).setRet s.cur .unit)))

/-- For any sequence of `decide` calls from empty masks, what a confirm then writes is `(initial & ~offMask) | onMask`; the
masks are disjoint, and each bit is the last decision taken on it, or the initial bit where none was (R265). -/
def Obligations.LastDecisionWins : Prop :=
  ∀ (s : State) (r : Reg) (decisions : List (Word × Bool)), r ≠ .icr → s.Ready 6 → s.Untouched r →
    ∃ t, execAll (decisions.map fun d => .regDecide r d.1 d.2) s = some t ∧
      (t.regObj r).onMask &&& (t.regObj r).offMask = 0#32 ∧
      ∀ (initial : Word) (k : Nat), k < 32 →
        ((initial &&& ~~~(t.regObj r).offMask) ||| (t.regObj r).onMask).getLsbD k =
          match decisions.reverse.find? (fun d => d.1.getLsbD k) with
          | some d => d.2
          | none => initial.getLsbD k

/-- `reg.confirm` in its two steps (R262): the first reads the register (not IMC); the second writes
`(live & ~offMask) | onMask` as a bus write of the register, empties the masks and returns the value, or stops at the fault
of that write. That ICR is answered Refused is the model's reading (DEDUCED, log entry 24); that the masks are those the second step
finds, also where another agent has staged since the first, is its choice between R262 and R265 (DESIGN CHOICE, log entry 35). -/
def Obligations.ConfirmReadsThenWrites : Prop :=
  (∀ (s : State) (r : Reg), s.Ready 6 → IsOpWord 0x0103 (.regConfirm r) ∧
    (r = .icr → exec (.regConfirm r) s = .next (s.setRet s.cur .refused)) ∧
    (r ≠ .icr → exec (.regConfirm r) s = .next (s.confirmStarted r))) ∧
  ∀ (s : State) (a : HostAgent) (reply : Reply) (r : Reg) (live : Word),
    s.mayRun a = true → s.work a = [.confirmWrite r live] →
    let v := (live &&& ~~~(s.regObj r).offMask) ||| (s.regObj r).onMask
    let s1 := s.asAgent a reply
    (∀ u, exec (writeInstr r v) s1 = .next u → u.faults = s.faults →
      ∃ o, o.AfterConfirm (s.regObj r) a ∧
        perform (.resume a reply) s = .next (((u.setRegObj r o).setRet a (.word v)).setWork a [])) ∧
    (∀ u, exec (writeInstr r v) s1 = .next u → u.faults ≠ s.faults → perform (.resume a reply) s = .next u)

/-- A confirm with no decisions staged changes no register: on every register but ICR, its two steps leave the device as it was
(R262, R265), where the write that it makes is allowed: a ring base, length or head only while its engine is disabled, a head or
tail only in range (40_mmio_registers.md R218 to R236). -/
def Obligations.EmptyConfirmIsNoop : Prop :=
  ∀ (s : State) (r : Reg) (reply : Reply),
    s.Rewritable r → s.Ready 6 → s.DeviceInv → s.Untouched r → s.mayRun s.cur = true → s.work s.cur = [] →
    ∃ s1 t, exec (.regConfirm r) s = .next s1 ∧ perform (.resume s.cur reply) s1 = .next t ∧
      t = { s with draws := t.draws, reply := reply, agents := t.agents } ∧ t.work s.cur = [] ∧
      ∀ b, b ≠ s.cur → t.agents.get b = s.agents.get b

/-- The setters of a Boolean stage one bit of their register (R268 to R270, R274 to R276). -/
def Obligations.BooleanSettersStage : Prop :=
  ∀ b : Bool,
    StagesAs (.dcSetlinkup b) .setLinkUp .ctrl (fun s => s.afterDecide .ctrl (bit 6) b) ∧
    StagesAs (.dcAutospeed b) .autoSpeed .ctrl (fun s => s.afterDecide .ctrl (bit 5) b) ∧
    StagesAs (.rcEnable b) .rcEnable .rctl (fun s => s.afterDecide .rctl (bit 1) b) ∧
    StagesAs (.rcBroadcast b) .broadcast .rctl (fun s => s.afterDecide .rctl (bit 15) b) ∧
    StagesAs (.tcEnable b) .tcEnable .tctl (fun s => s.afterDecide .tctl (bit 1) b) ∧
    StagesAs (.tcPadshort b) .padShort .tctl (fun s => s.afterDecide .tctl (bit 3) b)

/-- The setters of an integer stage a field of their register for the values of their domain, and refuse every other integer
with ERR_CONFIG, never clamped; `ie.enable` and `id.disable` stage a non-empty set of modelled causes, and refuse any other
set (R266, R271 to R273, R277 to R280). -/
def Obligations.SettersValidate : Prop :=
  (∀ m code, (m, code) ∈ [((0 : Int), 0x00#32), (3, 0xC0#32)] →
    StagesAs (.rcLoopback m) .loopback .rctl (fun s => s.afterSet .rctl code 0x000000C0#32)) ∧
  (∀ m : Int, m ≠ 0 → m ≠ 3 → RejectsArgument (.rcLoopback m) .loopback) ∧
  (∀ size code, (size, code) ∈ [((2048 : Int), 0x00000000#32), (1024, 0x00010000#32), (512, 0x00020000#32),
      (256, 0x00030000#32), (16384, 0x02010000#32), (8192, 0x02020000#32), (4096, 0x02030000#32)] →
    StagesAs (.rcBufsize size) .bufSize .rctl (fun s => s.afterSet .rctl code 0x02030000#32)) ∧
  (∀ size : Int, size ∉ [(256 : Int), 512, 1024, 2048, 4096, 8192, 16384] →
    RejectsArgument (.rcBufsize size) .bufSize) ∧
  (∀ f code, (f, code) ∈ [((2 : Int), 0x000#32), (4, 0x100#32), (8, 0x200#32)] →
    StagesAs (.rcMinthreshold f) .minThreshold .rctl (fun s => s.afterSet .rctl code 0x00000300#32)) ∧
  (∀ f : Int, f ∉ [(2 : Int), 4, 8] → RejectsArgument (.rcMinthreshold f) .minThreshold) ∧
  (∀ v : Nat, v ≤ 255 →
    StagesAs (.tcCollthresh v) .collThresh .tctl (fun s => s.afterSet .tctl (BitVec.ofNat 32 (v * 16)) 0x00000FF0#32)) ∧
  (∀ v : Int, v < 0 ∨ 255 < v → RejectsArgument (.tcCollthresh v) .collThresh) ∧
  (∀ v : Nat, v ≤ 1023 →
    StagesAs (.tcColldist v) .collDist .tctl (fun s => s.afterSet .tctl (BitVec.ofNat 32 (v * 4096)) 0x003FF000#32)) ∧
  (∀ v : Int, v < 0 ∨ 1023 < v → RejectsArgument (.tcColldist v) .collDist) ∧
  ∀ causes : Word,
    (causes ≠ 0#32 → causes &&& ~~~0x000002D7#32 = 0#32 →
      StagesAs (.ieEnable causes) .ieEnable .ims (fun s => s.afterDecide .ims causes true) ∧
      StagesAs (.idDisable causes) .idDisable .imc (fun s => s.afterDecide .imc causes true)) ∧
    (causes = 0#32 ∨ causes &&& ~~~0x000002D7#32 ≠ 0#32 →
      RejectsArgument (.ieEnable causes) .ieEnable ∧ RejectsArgument (.idDisable causes) .idDisable)

/-- `grp.manage` is the confirm of the group's register; without the group in the features it returns ERR_UNSUPPORTED (R267,
R281). -/
def Obligations.ManageConfirmsGroup : Prop :=
  ∀ (s : State) (g : Group) (r : Reg), s.Ready 6 →
    (g, r) ∈ [(Group.dc, Reg.ctrl), (.rc, .rctl), (.tc, .tctl), (.ie, .ims), (.id, .imc)] →
    IsOpWord 0x0201 (.grpManage g) ∧
    (.group g ∈ s.params.features →
      exec (.grpManage g) s = .next (s.confirmStarted r) ∧ exec (.grpManage g) s = exec (.regConfirm r) s) ∧
    (.group g ∉ s.params.features → exec (.grpManage g) s = .next (s.setRet s.cur (.err .unsupported)))

/-- `reg.readdirect` is one bus read of the register: the same state and value as the read request, and the masks stay (R264). -/
def Obligations.ReadDirectReads : Prop :=
  ∀ (s : State) (r : Reg), s.Ready 6 → IsOpWord 0x0104 (.regReaddirect r) ∧
    exec (.regReaddirect r) s = exec (readInstr r) s ∧
    ∃ t, exec (.regReaddirect r) s = .next t ∧ t.mapper = s.mapper ∧ t.mem = s.mem ∧ t.drv = s.drv ∧
      (r = .icr → t.regs.icr = 0#32) ∧ (r ≠ .icr → t.regs = s.regs)

/-! ### The interrupt-cause decoder (spec/42_interrupt_cause.md) -/

/-- `ic.readclear` takes the ICR into the snapshot and clears it, in every state of the decoder (R301); before step 6 it is
refused, and another agent than those of R310 faults. The five predicates claim their bit of the snapshot and no other state: in
HANDLING the bit is returned and cleared, in IDLE the answer is false and nothing changes (R302 to R306). `ic.unhandled` changes
nothing (R307). The agents of R310 are ISR, and HOST at step 12 of `initialize`; where HOST stands at that step is the model's reading
(DEDUCED, log entry 20). -/
def Obligations.DecoderOperations : Prop :=
  (IsOpWord 0x0301 .icReadclear ∧
   ∀ s : State,
     (s.drv.initStep < 6 → exec .icReadclear s = .next (s.setRet s.cur .refused)) ∧
     (s.Ready 6 → HostOp.icReadclear.allows s →
       exec .icReadclear s =
         .next (State.setRet
           { s with regs := { s.regs with icr := 0#32 }, drv := { s.drv with snap := s.regs.icr, icState := .handling } }
           s.cur (.word s.regs.icr))) ∧
     (s.Ready 6 → ¬ HostOp.icReadclear.allows s →
       exec .icReadclear s = .next (s.raise ⟨.context, s.cur.toAgent, 470, 0x0301⟩))) ∧
  (IsOpWord 0x0302 .icLinkchanged ∧ IsOpWord 0x0303 .icOverrun ∧ IsOpWord 0x0304 .icMinthreshold ∧
    IsOpWord 0x0305 .icRxtimer ∧ IsOpWord 0x0306 .icMdiodone ∧ IsOpWord 0x0307 .icUnhandled) ∧
  ∀ s : State,
    (s.drv.initStep < 6 → ∀ p ∈ .icUnhandled :: predicates, exec p s = .next (s.setRet s.cur .refused)) ∧
    (s.Ready 6 → HostOp.icLinkchanged.allows s →
      (∀ p ∈ predicates,
        (s.drv.icState = .handling →
          exec p s = .next (State.setRet
            { s with drv := { s.drv with snap := s.drv.snap &&& ~~~(bit (predicateBit p)) } } s.cur
            (.bool (s.drv.snap.getLsbD (predicateBit p))))) ∧
        (s.drv.icState = .idle → exec p s = .next (s.setRet s.cur (.bool false)))) ∧
      exec .icUnhandled s = .next (s.setRet s.cur (.bool (s.drv.icState = .handling ∧ s.drv.snap ≠ 0#32))))

/-- After `ic.readclear`, querying every predicate once, in any order, claims every bit that has a predicate: each answers its
bit of the value read, the rest of the snapshot is left, and `ic.unhandled` is true exactly when something is left (R308). -/
def Obligations.EveryCauseClaimedOnce : Prop :=
  ∀ (s : State) (order : List Instr), s.cur = .isr → s.Ready 6 → order.Perm predicates →
    let v := s.regs.icr
    let rest := v &&& ~~~0x000002D4#32
    (∃ t u, execAll (.icReadclear :: order) s = some t ∧ t.drv.snap = rest ∧ exec .icUnhandled t = .next u ∧
      u.ret .isr = .bool (rest != 0#32)) ∧
    ∀ before p after, order = before ++ p :: after →
      ∃ w, execAll (.icReadclear :: (before ++ [p])) s = some w ∧ w.ret .isr = .bool (v.getLsbD (predicateBit p))

/-! ### Descriptors, cursors and hardware rings (spec/43_descriptors.md) -/

/-- The accessors that write store exactly their field's bytes at the descriptor's address, and change nothing else, where hardware
owns none of its bytes (R321 to R323, R325, R329; 20_memory.md R119, log entry 26). -/
def Obligations.DescriptorWritesStore : Prop :=
  ∀ (s : State) (i : Nat) (pa : Word) (len : Half), s.Ready 5 → s.mem.wf = true →
    (i < s.params.nTx →
      let d := s.drv.txPhys.toNat + 16 * i
      s.SoftwareOwns d 16 →
        StoresBytes (.txdWriteaddress i pa) s d (addressBytes pa) ∧
        StoresBytes (.txdWritelength i len.toNat) s (d + 8) [len.extractLsb' 0 8, len.extractLsb' 8 8] ∧
        StoresBytes (.txdWritecommand i) s (d + 11) [0x2B#8, 0x00#8]) ∧
    (i < s.params.nRx →
      let d := s.drv.rxPhys.toNat + 16 * i
      s.SoftwareOwns d 16 →
        StoresBytes (.rxdWriteaddress i pa) s d (addressBytes pa) ∧
        StoresBytes (.rxdClearstatus i) s (d + 12) [0x00#8])

/-- The accessors that read answer from the descriptor's bytes, or the slot's address, and change nothing, whoever owns the
descriptor (R324, R326 to R328, R330, R331). -/
def Obligations.DescriptorReadsAnswer : Prop :=
  ∀ (s : State) (i : Nat), s.Ready 5 →
    let returns := fun v => Host.Outcome.next (s.setRet s.cur v)
    (i < s.params.nTx → exec (.txdIsdone i) s = returns (.bool (s.descByte .tx i 12 &&& 0x07#8 != 0#8))) ∧
    (i < s.params.nRx →
      (∀ slot, s.drv.slots[i]? = some slot → exec (.rxdGetpacketaddress i) s = returns (.word slot.virt)) ∧
      exec (.rxdReadlength i) s = returns (.half (s.descByte .rx i 9 ++ s.descByte .rx i 8)) ∧
      exec (.rxdIseop i) s = returns (.bool ((s.descByte .rx i 12).getLsbD 1)) ∧
      exec (.rxdHaserrors i) s = returns (.bool (s.descByte .rx i 13 &&& 0x86#8 != 0#8)) ∧
      exec (.rxdDone i) s = returns (.bool ((s.descByte .rx i 12).getLsbD 0)))

/-- An accessor given an index outside its ring raises F_INDEX; a write that meets a byte that hardware owns raises F_DESC_RACE with
the address written; a length of more than 16 bits raises F_TX_LENGTH; none has another effect (R320, 30_encoding.md R146,
20_memory.md R119). Hardware owns every byte of a descriptor whose index lies in `cyc(HEAD, TAIL, Ndev)` (R332); bytes that the
device's ring base places elsewhere count as well (log entry 26). Where several faults apply to `txd.writelength`, the index comes
first, then the length (log entry 33). -/
def Obligations.DescriptorFaults : Prop :=
  ∀ (s : State) (i : Nat) (pa : Word) (len : Nat), s.Ready 5 →
    let raises := fun c d rule => Host.Outcome.next (s.raise ⟨c, s.cur.toAgent, rule, d⟩)
    let races := fun (op : Instr) (a n : Nat) => ¬ s.SoftwareOwns a n → exec op s = raises .descRace (a % 2 ^ 32) 119
    let tx := s.drv.txPhys.toNat + 16 * i
    let rx := s.drv.rxPhys.toNat + 16 * i
    (s.params.nTx ≤ i → ∀ op ∈ [Instr.txdWriteaddress i pa, .txdWritelength i len, .txdWritecommand i, .txdIsdone i],
      exec op s = raises .index i 146) ∧
    (s.params.nRx ≤ i → ∀ op ∈ [Instr.rxdWriteaddress i pa, .rxdGetpacketaddress i, .rxdReadlength i, .rxdIseop i,
        .rxdClearstatus i, .rxdHaserrors i, .rxdDone i],
      exec op s = raises .index i 146) ∧
    (i < s.params.nTx → 2 ^ 16 ≤ len → exec (.txdWritelength i len) s = raises .txLength len 146) ∧
    (i < s.params.nTx →
      races (.txdWriteaddress i pa) tx 8 ∧ (len < 2 ^ 16 → races (.txdWritelength i len) (tx + 8) 2) ∧
      races (.txdWritecommand i) (tx + 11) 1) ∧
    (i < s.params.nRx → races (.rxdWriteaddress i pa) rx 8 ∧ races (.rxdClearstatus i) (rx + 12) 1) ∧
    (i < s.params.nTx → s.hwOwned .tx i = true → ∀ off, off < 16 → s.OwnedByte ((tx + off) % 2 ^ 32)) ∧
    (i < s.params.nRx → s.hwOwned .rx i = true → ∀ off, off < 16 → s.OwnedByte ((rx + off) % 2 ^ 32))

/-- Hardware owns exactly the descriptors met in walking from the head to the tail: none where they are equal (R332,
10_state.md R47, 00_scope.md R12). -/
def Obligations.HardwareOwnsHeadToTail : Prop :=
  ∀ (s : State) (t : Ring) (i : Nat), s.head t < s.ndev t → s.tail t < s.ndev t →
    (s.hwOwned t i = true ↔
      ∃ k, i = (s.head t + k) % s.ndev t ∧
        k < (if s.head t ≤ s.tail t then s.tail t - s.head t else s.tail t + s.ndev t - s.head t))

/-- `ring.current` returns the cursor and moves nothing; `ring.setnext` advances it by one, wrapping (R333, R334); before step 5
both are refused. `k` calls of `ring.setnext` take the cursor from `c` to `(c + k) mod N`, which is `c` exactly when N divides `k`
(R335). -/
def Obligations.CursorOperations : Prop :=
  (∀ (s : State) (t : Ring), IsOpWord 0x0501 (.ringCurrent t) ∧ IsOpWord 0x0502 (.ringSetnext t) ∧
     (s.drv.initStep < 5 →
       exec (.ringCurrent t) s = .next (s.setRet s.cur .refused) ∧
       exec (.ringSetnext t) s = .next (s.setRet s.cur .refused)) ∧
     (s.Ready 5 →
       exec (.ringCurrent .tx) s = .next (s.setRet s.cur (.index s.drv.txCur)) ∧
       exec (.ringCurrent .rx) s = .next (s.setRet s.cur (.index s.drv.rxCur)) ∧
       exec (.ringSetnext .tx) s =
         .next (State.setRet { s with drv := { s.drv with txCur := (s.drv.txCur + 1) % s.params.nTx } } s.cur .unit) ∧
       exec (.ringSetnext .rx) s =
         .next (State.setRet { s with drv := { s.drv with rxCur := (s.drv.rxCur + 1) % s.params.nRx } } s.cur .unit))) ∧
  ∀ (s : State) (t : Ring) (k : Nat), s.Ready 5 → s.cursor t < s.ringSize t →
    ∃ u, execAll (List.replicate k (.ringSetnext t)) s = some u ∧ u.cursor t = (s.cursor t + k) % s.ringSize t ∧
      (u.cursor t = s.cursor t ↔ s.ringSize t ∣ k)

/-- `hwring.init TX`, run to its end with no other agent between, on a disabled transmitter: base, length, head and tail are
programmed, cursor and tail copy are 0, and nothing else changes (R340, R341). The same inside step 7 of `initialize`, after which
the rest of its work goes on (45_core.md R381). -/
def Obligations.TransmitRingInit : Prop :=
  (∀ s : State, s.Ready 6 → s.params.wf = true → s.work s.cur = [] → s.regs.tctl.getLsbD 1 = false →
    (∀ r ∈ [Reg.tdbal, .tdbah, .tdlen, .tdh, .tdt], s.Untouched r) →
    ∃ s1 t, exec (.hwringInit .tx) s = .next s1 ∧ advances s.cur 9 s1 = .ok t ∧
      t = (State.setRet
        { s with
          regs := { s.regs with tdbal := s.drv.txPhys &&& 0xFFFFFFF0#32, tdbah := 0#32,
                                tdlen := BitVec.ofNat 32 (16 * s.params.nTx), tdh := 0#32, tdt := 0#32 },
          drv := { s.drv with txTail := 0, txCur := 0 } } s.cur .unit)) ∧
  ∀ (s : State) (a : HostAgent) (rest : List Micro), s.params.wf = true → s.regs.tctl.getLsbD 1 = false →
    (∀ r ∈ [Reg.tdbal, .tdbah, .tdlen, .tdh, .tdt], s.Untouched r) →
    ∃ t, runs a (.txInit :: rest) 10 s = unwind a rest t ∧
      t = { s with
            regs := { s.regs with tdbal := s.drv.txPhys &&& 0xFFFFFFF0#32, tdbah := 0#32,
                                  tdlen := BitVec.ofNat 32 (16 * s.params.nTx), tdh := 0#32, tdt := 0#32 },
            drv := { s.drv with txTail := 0, txCur := 0 }, agents := t.agents } ∧
      t.ret a = .unit ∧ ∀ b, b ≠ a → t.agents.get b = s.agents.get b

/-- `hwring.init RX`, run to its end with no other agent between, on a disabled receiver, where hardware owns nothing of the block:
every descriptor gets its slot's address and a clear status, the ring is programmed with tail N - 1, and nothing else changes
(R340, R342). The same inside step 7 of `initialize`, after which the rest of its work goes on (45_core.md R381). -/
def Obligations.ReceiveRingInit : Prop :=
  ∀ s : State, s.params.wf = true → s.regs.rctl.getLsbD 1 = false → s.mem.wf = true →
    s.drv.slots.length = s.params.nRx → s.drv.rxPhys.toNat + 16 * s.params.nRx ≤ 2 ^ 32 →
    s.SoftwareOwns s.drv.rxPhys.toNat (16 * s.params.nRx) →
    (∀ r ∈ [Reg.rdbal, .rdbah, .rdlen, .rdh, .rdt], s.Untouched r) →
    let filled := fun m : Memory =>
      (∀ i, ∀ h : i < s.drv.slots.length, ∀ k, ∀ hk : k < 8,
        m.readByte (s.drv.rxPhys.toNat + 16 * i + k) = (addressBytes s.drv.slots[i].phys)[k]) ∧
      (∀ i, i < s.params.nRx → m.readByte (s.drv.rxPhys.toNat + 16 * i + 12) = 0#8) ∧
      (∀ x, (∀ i, i < s.params.nRx → (x < s.drv.rxPhys.toNat + 16 * i ∨ s.drv.rxPhys.toNat + 16 * i + 8 ≤ x) ∧
          x ≠ s.drv.rxPhys.toNat + 16 * i + 12) → m.readByte x = s.mem.readByte x)
    let regs := { s.regs with rdbal := s.drv.rxPhys &&& 0xFFFFFFF0#32, rdbah := 0#32,
                              rdlen := BitVec.ofNat 32 (16 * s.params.nRx), rdh := 0#32,
                              rdt := BitVec.ofNat 32 (s.params.nRx - 1) }
    let drv := { s.drv with rxTail := s.params.nRx - 1, rxCur := 0 }
    (s.Ready 6 → s.work s.cur = [] →
      ∃ s1 t, exec (.hwringInit .rx) s = .next s1 ∧ advances s.cur (2 * s.params.nRx + 9) s1 = .ok t ∧
        t = (State.setRet { s with regs := regs, drv := drv, mem := t.mem } s.cur .unit) ∧ filled t.mem) ∧
    ∀ (a : HostAgent) (rest : List Micro),
      ∃ t, runs a (.rxInitFrom 0 :: rest) (2 * s.params.nRx + 10) s = unwind a rest t ∧
        t = { s with regs := regs, drv := drv, mem := t.mem, agents := t.agents } ∧ filled t.mem ∧ t.ret a = .unit ∧
        ∀ b, b ≠ a → t.agents.get b = s.agents.get b

/-- `hwring.movetail` with no other agent between its two steps: the ring's tail register and the driver's copy go to the next
index, and nothing else changes (R343). -/
def Obligations.MoveTailHandsOff : Prop :=
  ∀ s : State, s.Ready 7 → s.params.wf = true → s.work s.cur = [] →
    (let tail := (s.drv.txTail + 1) % s.params.nTx
     s.Untouched .tdt → tail < max (s.regs.tdlen.toNat / 16) 1 →
      ∃ s1, exec (.hwringMovetail .tx) s = .next s1 ∧
        advances s.cur 1 s1 = .ok (State.setRet
          { s with regs := { s.regs with tdt := BitVec.ofNat 32 tail }, drv := { s.drv with txTail := tail } } s.cur .unit)) ∧
    (let tail := (s.drv.rxTail + 1) % s.params.nRx
     s.Untouched .rdt → tail < max (s.regs.rdlen.toNat / 16) 1 →
      ∃ s1, exec (.hwringMovetail .rx) s = .next s1 ∧
        advances s.cur 1 s1 = .ok (State.setRet
          { s with regs := { s.regs with rdt := BitVec.ofNat 32 tail }, drv := { s.drv with rxTail := tail } } s.cur .unit))

/-! ### Ring operations (spec/44_ring_operations.md) -/

/-- `tx.send` makes its checks in order, each with its own fault, before its first descriptor write (R350). A fault keeps the
effects of the lines before it (log entry 19); F_SEND_REENTERED has no detail, and its record holds 0 there (log entry 18). -/
def Obligations.SendChecksInOrder : Prop :=
  ∀ (s : State) (pa : Word) (len : Nat), s.Ready 13 → s.cur = .host ∨ s.cur = .bh →
    let claimed : State :=
      { s with drv := { s.drv with txBusy := true }, dma := s.dma ++ [⟨pa.toNat, len, .sendBuffer⟩] }
    (s.drv.txBusy = true → exec (.txSend pa len) s = .next (s.raise ⟨.sendReentered, s.cur.toAgent, 350, 0⟩)) ∧
    (s.drv.txBusy = false → len = 0 ∨ 16288 < len →
      exec (.txSend pa len) s = .next (s.raise ⟨.txLength, s.cur.toAgent, 350, len⟩)) ∧
    (s.drv.txBusy = false → 1 ≤ len → len ≤ 16288 → s.hwOwned .tx s.drv.txCur = true →
      exec (.txSend pa len) s = .next (claimed.raise ⟨.sendNotOwned, s.cur.toAgent, 350, s.drv.txCur⟩))

/-- `tx.send` up to its poll, with no other agent between its steps: the descriptor at the cursor holds the buffer's address,
the length, the command 0x2B and a clear status, the buffer is a DMA region, and TDT has moved past it (R350, R351). -/
def Obligations.SendProgramsThenHandsOff : Prop :=
  ∀ (s : State) (pa : Word) (len : Nat), s.Ready 13 → s.cur = .host ∨ s.cur = .bh → s.params.wf = true →
    s.work s.cur = [] → s.mem.wf = true → s.drv.txBusy = false → 1 ≤ len → len ≤ 16288 →
    s.drv.txCur < s.params.nTx → s.hwOwned .tx s.drv.txCur = false →
    s.SoftwareOwns (s.drv.txPhys.toNat + 16 * s.drv.txCur) 16 → s.drv.txPhys.toNat + 16 * s.params.nTx ≤ 2 ^ 32 →
    s.Untouched .tdt → (s.drv.txTail + 1) % s.params.nTx < max (s.regs.tdlen.toNat / 16) 1 →
    let tail := (s.drv.txTail + 1) % s.params.nTx
    let d := s.drv.txPhys.toNat + 16 * s.drv.txCur
    ∃ s1 t, exec (.txSend pa len) s = .next s1 ∧ advances s.cur 4 s1 = .ok t ∧
      t = { s with
            regs := { s.regs with tdt := BitVec.ofNat 32 tail }, drv := { s.drv with txBusy := true, txTail := tail },
            dma := s.dma ++ [⟨pa.toNat, len, .sendBuffer⟩], mem := t.mem, agents := t.agents } ∧
      t.work s.cur = [.txPoll s.drv.txCur pa len] ∧
      (∀ k, ∀ hk : k < 8, t.mem.readByte (d + k) = (addressBytes pa)[k]) ∧
      t.mem.readByte (d + 8) = BitVec.ofNat 8 len ∧ t.mem.readByte (d + 9) = BitVec.ofNat 8 (len / 256) ∧
      t.mem.readByte (d + 11) = 0x2B#8 ∧ t.mem.readByte (d + 12) = 0x00#8 ∧
      (∀ x, x < d ∨ x = d + 10 ∨ d + 13 ≤ x → t.mem.readByte x = s.mem.readByte x) ∧
      ∀ b, b ≠ s.cur → t.agents.get b = s.agents.get b

/-- A poll of `tx.send` returns only where the descriptor is done (DD, EC or LC); then the cursor advances, the buffer is no
longer a DMA region, and a collision returns Ok as well, leaving only an event in the trace (R350, R352, R353). That the event
carries the descriptor's index is the model's reading (DEDUCED, log entry 30). -/
def Obligations.SendReturnsOnlyWhenDone : Prop :=
  ∀ (s : State) (a : HostAgent) (c : Nat) (pa : Word) (len : Nat), c < s.params.nTx → s.work a = [.txPoll c pa len] →
    let sta := s.descByte .tx c 12
    (sta &&& 0x07#8 = 0#8 → advance a s = .ok s) ∧
    (sta &&& 0x07#8 ≠ 0#8 →
      let trace := if sta &&& 0x06#8 = 0#8 then s.trace else s.trace ++ [⟨.txCollisionAsSuccess, c⟩]
      advance a s = .ok ((State.setRet
        { s with
          drv := { s.drv with txBusy := false, txCur := (s.drv.txCur + 1) % s.params.nTx },
          dma := s.dma.erase ⟨pa.toNat, len, .sendBuffer⟩, trace := trace } a .ok).setWork a []))

/-- `rx.poll` looks at the descriptor at the cursor: not done ends the call, and what stands behind it goes on; a done one is
dropped as a runt, as not end of packet, for errors, or on a full queue, the first that applies, or is pushed; then its status
is to be cleared (R355 to R357). Each clause runs the accesses up to that decision with no other agent between, whatever ISR has
left to do behind `rx.poll`; the test of a full queue is one step with the push (log entry 3). The cursor is the one that the step
of `rxd.done` finds (log entry 36). -/
def Obligations.PollClassifiesDescriptor : Prop :=
  ∀ (s : State) (k : Nat) (rest : List Micro), s.drv.rxCur < s.params.nRx → s.work .isr = .pollDone k :: rest →
    let c := s.drv.rxCur
    let len : Half := s.descByte .rx c 9 ++ s.descByte .rx c 8
    let done := (s.descByte .rx c 12).getLsbD 0
    let eop := (s.descByte .rx c 12).getLsbD 1
    let errors := s.descByte .rx c 13 &&& 0x86#8 ≠ 0#8
    let full := s.params.qCap ≤ s.drv.queue.length
    let leaves := fun (n : Nat) (drv : Driver) (trace : List TraceEvent) =>
      advances .isr n s = .ok (State.setWork { s with drv := drv, trace := trace } .isr (.pollClear k c :: rest))
    let log := fun kind : LogKind => s.drv.log ++ [⟨kind, c⟩]
    let event := fun code : TraceCode => s.trace ++ [⟨code, c⟩]
    (done = false → advance .isr s = unwind .isr rest (s.setRet .isr .unit)) ∧
    (done = true → len.toNat < 64 →
      leaves 2 { s.drv with dropRunt := s.drv.dropRunt + 1, log := log .dropRunt } (event .dropRunt)) ∧
    (done = true → 64 ≤ len.toNat → eop = false →
      leaves 3 { s.drv with dropNotEop := s.drv.dropNotEop + 1, log := log .dropNotEop } (event .dropNotEop)) ∧
    (done = true → 64 ≤ len.toNat → eop = true → errors →
      leaves 4 { s.drv with dropErrors := s.drv.dropErrors + 1, log := log .dropErrors } (event .dropErrors)) ∧
    (done = true → 64 ≤ len.toNat → eop = true → ¬ errors → full →
      leaves 5 { s.drv with dropQueueFull := s.drv.dropQueueFull + 1, log := log .dropQueueFull } (event .dropQueueFull)) ∧
    (done = true → 64 ≤ len.toNat → eop = true → ¬ errors → ¬ full → ∀ slot, s.drv.slots[c]? = some slot →
      leaves 5 { s.drv with queue := s.drv.queue ++ [⟨slot.virt, len⟩] } s.trace)

/-- `rx.poll` starts by testing the descriptor at the cursor, for ISR alone; the end of each turn of its loop clears the status
byte, advances the cursor and moves the tail, for dropped and kept descriptors alike: then the next descriptor is to be tested, and
after N of them the call returns, and what stands behind it in ISR's work, as the rest of a `trigger`, goes on (R355, R356). -/
def Obligations.PollStartsAndAdvances : Prop :=
  (∀ s : State, s.Ready 11 → s.cur = .isr → s.work .isr = [] → 0 < s.params.nRx → s.drv.rxCur < s.params.nRx →
    ((s.descByte .rx s.drv.rxCur 12).getLsbD 0 = false → exec .rxPoll s = .next (s.setRet .isr .unit)) ∧
    ((s.descByte .rx s.drv.rxCur 12).getLsbD 0 = true →
      exec .rxPoll s = .next ((s.setRet .isr .pending).setWork .isr [.pollLen 0 s.drv.rxCur]))) ∧
  ∀ (s : State) (k : Nat) (rest : List Micro), s.params.wf = true → s.mem.wf = true →
    s.work .isr = .pollClear k s.drv.rxCur :: rest →
    s.drv.rxCur < s.params.nRx → s.SoftwareOwns (s.drv.rxPhys.toNat + 16 * s.drv.rxCur + 12) 1 → s.Untouched .rdt →
    (s.drv.rxTail + 1) % s.params.nRx < max (s.regs.rdlen.toNat / 16) 1 →
    let tail := (s.drv.rxTail + 1) % s.params.nRx
    ∃ t,
      (k + 1 < s.params.nRx → advances .isr 3 s = .ok (t.setWork .isr (.pollDone (k + 1) :: rest))) ∧
      (s.params.nRx ≤ k + 1 → advances .isr 3 s = unwind .isr rest t) ∧
      t = { s with
            regs := { s.regs with rdt := BitVec.ofNat 32 tail },
            drv := { s.drv with rxCur := (s.drv.rxCur + 1) % s.params.nRx, rxTail := tail }, mem := t.mem,
            agents := t.agents } ∧
      s.mem.Stored t.mem (s.drv.rxPhys.toNat + 16 * s.drv.rxCur + 12) [0#8] ∧
      t.ret .isr = .unit ∧ ∀ b, b ≠ .isr → t.agents.get b = s.agents.get b

/-! ### Core orchestration (spec/45_core.md) -/

/-- `core.initialize` issued by HOST on a driver that has not started it: bus mastering is enabled and two steps are complete,
and the calls and steps left to do are those of R381 in its order; where ENV answers Fail, it is a failed `initialize` with
ERR_INIT_FAILED, and the device stays unregistered (R381, R382). Every other external call that fails does the same; nothing an
earlier step did is undone, and the failing call itself changes nothing else (DESIGN CHOICE, log entry 14). A call that answers Ok
does this before the next frames run (R380): the window, the two descriptor blocks in whole pages and the receive slots, each with
its address pair, which `phys` gives (20_memory.md R102), its DMA region, its mapping and its contents, the network stack, the
line, the handler, the directory and the MAC-address node. Which answers ENV may give is the model's choice, and so are the
mappings and the contents (log entry 14). The loop over the slots, the empty Register objects, and `initStep` after each step are
local (R381). Step 12 reads and clears ICR, and its `ic.done` discards the snapshot (42_interrupt_cause.md R301, R309). Step 7 is in
TransmitRingInit and ReceiveRingInit, step 8 in ConfigurationRuns, step 9 in LoadMacReads. -/
def Obligations.InitializeSteps : Prop :=
  (∀ s : State, s.cur = .host → s.drv.initStep = 0 → s.drv.initFailed = false → s.work .host = [] →
    (s.reply.ok = true → exec .coreInitialize s =
      .next ((State.setRet { s with busMaster := true, drv := { s.drv with initStep := 2 } } .host .pending).setWork .host
        (.callMapIo :: afterMapIo))) ∧
    (s.reply.ok = false → exec .coreInitialize s =
      .next ((State.setRet
        { s with drv := { s.drv with initStep := 1, initFailed := true, registered := false, handlerAssigned := false } }
        .host (.err .initFailed)).setWork .host []))) ∧
  (∀ (s : State) (a : HostAgent) (call : Micro) (rest : List Micro), s.work a = call :: rest → s.reply.ok = false →
     call ∈ [Micro.callBusMaster, .callMapIo, .callAlloc .txBlock, .callAlloc .rxBlock, .callAlloc .slot, .callRegister,
       .callAllow, .callAssign, .callCreateDirectory, .callAddNode] →
     advance a s = .ok ((State.setRet
       { s with drv := { s.drv with initFailed := true, registered := false, handlerAssigned := false } } a
       (.err .initFailed)).setWork a [])) ∧
  (∀ (s : State) (a : HostAgent) (call : Micro) (rest : List Micro), s.work a = call :: rest → s.reply.ok = true →
     let r := s.reply
     let goesOn := fun t : State => advance a s = unwind a rest t
     let page := fun n : Nat => 4096 * ((n + 4095) / 4096)
     let allocates := fun (n : Nat) (drv : Driver) => s.allocOffered r n = true → s.mem.wf = true →
       ∃ m, goesOn { s with
           dma := s.dma ++ [⟨r.pa.toNat, n, .pinned⟩], maps := s.maps ++ [⟨r.va, r.pa, n⟩], drv := drv, mem := m } ∧
         m.wf = true ∧ s.mem.Stored m r.pa.toNat (r.contents.take n) ∧
         ∀ k, k < n → s.phys (r.va + BitVec.ofNat 32 k) = r.pa.toNat + k
     (call = .callMapIo → r.va.toNat + 0x20000 ≤ 2 ^ 32 → goesOn { s with drv := { s.drv with base := r.va } }) ∧
     (call = .callAlloc .txBlock →
       allocates (page (16 * s.params.nTx)) { s.drv with txVirt := r.va, txPhys := r.pa }) ∧
     (call = .callAlloc .rxBlock →
       allocates (page (16 * s.params.nRx)) { s.drv with rxVirt := r.va, rxPhys := r.pa }) ∧
     (call = .callAlloc .slot → allocates 2048 { s.drv with slots := s.drv.slots ++ [⟨r.va, r.pa⟩] }) ∧
     (call = .callRegister → goesOn { s with drv := { s.drv with registered := true } }) ∧
     (call = .callAllow → goesOn { s with drv := { s.drv with irqAllowed := true } }) ∧
     (call = .callAssign → goesOn { s with drv := { s.drv with handlerAssigned := true } }) ∧
     (call = .callCreateDirectory → goesOn s) ∧
     (call = .callAddNode →
       goesOn { s with drv := { s.drv with macNode := some ⟨s.params.nodeDir, Config.macText s.drv.mac⟩ } })) ∧
  ∀ (t : State) (a : HostAgent) (i : Nat) (rest : List Micro),
    (i < t.params.nRx → unwind a (.slotsFrom i :: rest) t =
      .ok (t.setWork a (.callAlloc .slot :: .slotsFrom (i + 1) :: rest))) ∧
    (t.params.nRx ≤ i → unwind a (.slotsFrom i :: rest) t = unwind a rest t) ∧
    unwind a (.createObjects :: rest) t =
      unwind a rest { t with mapper := PerReg.const RegObj.empty, drv := { t.drv with initStep := 6 } } ∧
    (i ≠ 13 → unwind a (.initDone i :: rest) t = unwind a rest { t with drv := { t.drv with initStep := i } }) ∧
    unwind a (.initDone 13 :: rest) t = unwind a rest (State.setRet { t with drv := { t.drv with initStep := 13 } } a .ok) ∧
    (t.work a = .icReadClear :: rest → advance a t = unwind a rest
      { t with regs := { t.regs with icr := 0#32 }, drv := { t.drv with snap := t.regs.icr, icState := .handling } }) ∧
    (t.work a = .icDone :: rest →
      advance a t = unwind a rest { t with drv := { t.drv with snap := 0#32, icState := .idle } })

/-- Step 8 of `core.initialize` with no other agent between its steps, on a variant with every setter and group it uses, on
untouched registers, after the rings are programmed: CTRL, IMS, TCTL and RCTL get the values of R383, LSC is latched when the link
changes, eight steps are complete, and nothing else changes; the next step is the load of the MAC address (R383, R381; the rule of
each setter 41_register_mapper.md R266 to R281, the link 46_dma_sequencer.md R432). A setter of that step that answers an error, or
a `grp.manage`, for want of its feature or for its argument, ends `initialize` with that error: it has failed, the device is
unregistered and the handler unassigned, nothing an earlier line staged or wrote is undone, and nothing else changes (R382). -/
def Obligations.ConfigurationRuns : Prop :=
  (∀ (s : State) (a : HostAgent) (rest : List Micro),
    (∀ f ∈ [Feature.setLinkUp, .autoSpeed, .ieEnable, .tcEnable, .padShort, .collThresh, .collDist, .loopback, .bufSize,
        .minThreshold, .broadcast, .rcEnable, .group .dc, .group .ie, .group .tc, .group .rc], f ∈ s.params.features) →
    (∀ r ∈ [Reg.ctrl, .ims, .tctl, .rctl], s.Untouched r) → s.regs.tdlen ≠ 0#32 → s.regs.rdlen ≠ 0#32 →
    let rctl := (s.regs.rctl &&& ~~~0x020383C2#32) ||| 0x00008002#32
    runs a (configuration ++ .initDone 8 :: .loadMac :: rest) 8 s = .ok ((State.setRet
      { s with
        regs := { s.regs with
          ctrl := (s.regs.ctrl &&& ~~~(bit 26)) ||| 0x00000060#32, ims := s.regs.ims ||| 0x000000D4#32,
          tctl := (s.regs.tctl &&& ~~~0x003FFFFA#32) ||| 0x000400FA#32, rctl := rctl,
          icr := if s.cable = s.luPrev then s.regs.icr else s.regs.icr ||| bit 2 },
        luPrev := s.cable, drv := { s.drv with initStep := 8 } } a (.word rctl)).setWork a (.loadMac :: rest))) ∧
  ∀ (s : State) (a : HostAgent) (rest : List Micro),
    let fails := fun (line : Micro) (e : Err) => unwind a (line :: rest) s = .ok ((State.setRet
      { s with drv := { s.drv with initFailed := true, registered := false, handlerAssigned := false } } a (.err e)).setWork a [])
    (∀ st f, (st, f) ∈ [(Setting.linkUp true, Feature.setLinkUp), (.autoSpeed true, .autoSpeed),
        (.ieEnable 0x000000D4#32, .ieEnable), (.tcEnable true, .tcEnable), (.padShort true, .padShort),
        (.collThresh 15, .collThresh), (.collDist 64, .collDist), (.loopback 0, .loopback), (.bufSize 2048, .bufSize),
        (.minThreshold 2, .minThreshold), (.broadcast true, .broadcast), (.rcEnable true, .rcEnable)] →
      f ∉ s.params.features → fails (.setting st) .unsupported) ∧
    (∀ st e, st.check s = .error e → fails (.setting st) e) ∧
    ∀ g, .group g ∉ s.params.features → fails (.manage g) .unsupported

/-- `core.loadmac`, as step 9 of `initialize`: from the MMIO registers it reads RAL0, then RAH0, stores the six bytes and
returns Ok (R384, R386); from the EEPROM it starts by reading EERD for the write that starts word 0, and HOST's steps with the
EEPROM engine's between them load the first three words, low byte first, in either layout, and return Ok (R385,
46_dma_sequencer.md R431). Then the rest of `initialize` goes on. It is issued at that step of HOST's work only (log entry 20),
and the masks of its writes are those that the second step of the confirm finds (log entry 35). -/
def Obligations.LoadMacReads : Prop :=
  (∀ (s : State) (rest : List Micro), s.cur = .host → s.drv.initFailed = false → s.drv.initStep = 8 →
    s.work .host = .loadMac :: rest →
    (s.params.macSource = .mmio →
      exec .coreLoadmac s = .next (s.setWork .host (.macHigh s.regs.ral0 :: rest))) ∧
    (s.params.macSource = .eeprom → s.MayStage .eerd .host →
      ∃ t live, exec .coreLoadmac s = .next t ∧
        t.work .host = .confirmWrite .eerd live :: .macPoll 0 [] :: rest ∧
        (t.regObj .eerd).onMask = 0x00000001#32 ∧ (t.regObj .eerd).offMask = 0xFFFFFFFE#32 ∧
        t = { s with mapper := t.mapper, agents := t.agents } ∧
        ∀ b, b ≠ HostAgent.host → t.agents.get b = s.agents.get b) ∧
    ∀ lo : Word,
      let high := s.setWork .host (.macHigh lo :: rest)
      advance .host high = unwind .host rest (State.setRet
        { high with drv := { s.drv with mac := [lo.extractLsb' 0 8, lo.extractLsb' 8 8, lo.extractLsb' 16 8,
                                                lo.extractLsb' 24 8, s.regs.rah0.extractLsb' 0 8,
                                                s.regs.rah0.extractLsb' 8 8] } } .host .ok)) ∧
  ∀ (s : State) (rest : List Micro) (live : Word) (w0 w1 w2 : Half) (more : List Half),
    s.params.eeprom = w0 :: w1 :: w2 :: more → s.work .host = .confirmWrite .eerd live :: .macPoll 0 [] :: rest →
    (s.regObj .eerd).onMask = 1#32 → (s.regObj .eerd).offMask = ~~~1#32 →
    (s.regObj .eerd).inConfirm.isr = false → (s.regObj .eerd).inConfirm.bh = false → s.ee.busy = false →
    let word := fun x : Flow => (x.andThen fun t => .ok (eecStep t)).andThen (advance .host)
    ∃ t, word ((word ((word (advance .host s)).andThen (advances .host 2))).andThen (advances .host 2)) = unwind .host rest t ∧
      t = { s with
            drv := { s.drv with
              mac := [w0.extractLsb' 0 8, w0.extractLsb' 8 8, w1.extractLsb' 0 8, w1.extractLsb' 8 8, w2.extractLsb' 0 8,
                      w2.extractLsb' 8 8] },
            ee := t.ee, mapper := t.mapper, agents := t.agents } ∧
      t.ret .host = .ok ∧ ∀ b, b ≠ HostAgent.host → t.agents.get b = s.agents.get b

/-- Interrupt entry: DISPATCH starts `trigger` exactly when the line is high, allowed, assigned and no handler runs; the frame
operand is ignored, what is left to do is the steps of `trigger` in their order, `isrActive` is set, nothing else of HOST or BH
changes, and while it is set neither takes a step: no request, no step of an operation, no memory access of theirs has an effect
(60_exceptions.md R462, R464, R466; 45_core.md R387). No request starts `trigger`: where it is not refused, its issue by ISR does
nothing. The handler also waits for an ISR operation in progress (log entry 21). -/
def Obligations.InterruptEntry : Prop :=
  (∀ (s : State) (frame : Word), s.Ready 11 → s.cur = .isr → s.work .isr = [] →
    exec (.coreTrigger frame) s =
      .next ((State.setRet { s with drv := { s.drv with isrActive := true } } .isr .pending).setWork .isr
        [.icReadClear, .trigLink, .trigOverrun, .trigReceive, .trigUnhandled, .icReadClear, .icDone, .trigReturn])) ∧
  (∀ (s : State) (frame : Word), s.regs.icr &&& s.regs.ims ≠ 0#32 → s.drv.irqAllowed = true →
    s.drv.handlerAssigned = true → s.drv.isrActive = false → s.work .isr = [] →
    perform (.dispatch frame) s = exec (.coreTrigger frame) { s with cur := .isr }) ∧
  (∀ (s : State) (frame : Word), s.regs.icr &&& s.regs.ims = 0#32 ∨ s.drv.irqAllowed = false ∨
    s.drv.handlerAssigned = false ∨ s.drv.isrActive = true → perform (.dispatch frame) s = .next s) ∧
  (∀ (s : State) (frame : Word), s.work .isr ≠ [] → perform (.dispatch frame) s = .next s) ∧
  (∀ (s : State) (frame : Word) (req : Request) (reply : Reply), decode s.params.offsets req = .ok (.coreTrigger frame) →
    s.Ready 11 → perform (.issue .isr req reply) s = .next s) ∧
  ∀ (s : State) (a : HostAgent), s.drv.isrActive = true → a ≠ .isr →
    (∀ req reply, perform (.issue a req reply) s = .next s) ∧ (∀ reply, perform (.resume a reply) s = .next s) ∧
    (∀ va access, perform (.access a va access) s = .next s) ∧ ∀ addr bytes, perform (.store a addr bytes) s = .next s

/-- A whole `trigger` with no link change and no receive cause pending, and no other agent between its steps: ICR is read and
cleared twice, an overrun is counted and logged, what is unclaimed is logged, the decoder is idle again, and the handler has
returned (R387, R388; 60_exceptions.md R465). -/
def Obligations.QuietTriggerRuns : Prop :=
  ∀ (s : State) (frame : Word), s.Ready 11 → s.cur = .isr → s.work .isr = [] → s.regs.icr &&& 0x00000094#32 = 0#32 →
    let overrun := s.regs.icr.getLsbD 6
    let rest := s.regs.icr &&& ~~~0x00000040#32
    let n := s.drv.overrunCount + 1
    let log1 : List LogRecord := if overrun then [⟨.overrun, n⟩] else []
    let log2 : List LogRecord := if rest = 0#32 then [] else [⟨.unhandled, rest.toNat⟩]
    let trace1 : List TraceEvent := if overrun then [⟨.rxOverrun, n⟩] else []
    let trace2 : List TraceEvent := if rest = 0#32 then [] else [⟨.unhandledCause, rest.toNat⟩]
    ∃ s1, exec (.coreTrigger frame) s = .next s1 ∧
      advances .isr 3 s1 = .ok (State.setRet
        { s with
          regs := { s.regs with icr := 0#32 },
          drv := { s.drv with snap := 0#32, icState := .idle, isrActive := false,
                              overrunCount := if overrun then n else s.drv.overrunCount, log := s.drv.log ++ log1 ++ log2 },
          trace := s.trace ++ trace1 ++ trace2 } .isr .unit)

/-- A `trigger` with no other agent between its steps that finds LSC, RXDMT0 or RXT0, or LSC together with one of these (R387, R388).
A link change re-asserts link-up: CTRL is written with SLU set; the second read discards what that write latched. On a receive cause
both predicates are claimed and `rx.poll` starts at the cursor, behind the overrun's record and what the link change did; where the
descriptor there is not done, it ends at once. Then what is unclaimed is logged and the handler returns, as in a quiet `trigger`. -/
def Obligations.TriggerActsOnCauses : Prop :=
  ∀ (s : State) (frame : Word), s.Ready 11 → s.cur = .isr → s.work .isr = [] →
    let link := s.regs.icr.getLsbD 2 = true
    let receive := s.regs.icr &&& 0x00000090#32 ≠ 0#32
    let relinks := .setLinkUp ∈ s.params.features ∧ .group .dc ∈ s.params.features ∧ s.Untouched .ctrl
    let linked := (s.regs.ctrl &&& ~~~(bit 26)) ||| bit 6
    let overrun := s.regs.icr.getLsbD 6
    let n := s.drv.overrunCount + 1
    let count := if overrun then n else s.drv.overrunCount
    let log1 : List LogRecord := if overrun then [⟨.overrun, n⟩] else []
    let log2 := fun left : Word => if left = 0#32 then [] else [(⟨.unhandled, left.toNat⟩ : LogRecord)]
    let trace1 : List TraceEvent := if overrun then [⟨.rxOverrun, n⟩] else []
    let trace2 := fun left : Word => if left = 0#32 then [] else [(⟨.unhandledCause, left.toNat⟩ : TraceEvent)]
    let polling := fun (left ctrl icr : Word) (lu : Bool) (ret : Ret) => (State.setRet
      { s with
        regs := { s.regs with ctrl := ctrl, icr := icr }, luPrev := lu,
        drv := { s.drv with snap := left, icState := .handling, isrActive := true, overrunCount := count,
                            log := s.drv.log ++ log1 },
        trace := s.trace ++ trace1 } .isr ret).setWork .isr [.pollDone 0, .trigUnhandled, .icReadClear, .icDone, .trigReturn]
    let returned := fun (left ctrl : Word) (lu : Bool) => State.setRet
      { s with
        regs := { s.regs with ctrl := ctrl, icr := 0#32 }, luPrev := lu,
        drv := { s.drv with snap := 0#32, icState := .idle, isrActive := false, overrunCount := count,
                            log := s.drv.log ++ log1 ++ log2 left },
        trace := s.trace ++ trace1 ++ trace2 left } .isr .unit
    let idle := (s.descByte .rx s.drv.rxCur 12).getLsbD 0 = false
    ∃ s1, exec (.coreTrigger frame) s = .next s1 ∧
      (link → ¬ receive → relinks →
        advances .isr 5 s1 = .ok (returned (s.regs.icr &&& ~~~0x00000044#32) linked s.cable)) ∧
      (¬ link → receive → s.drv.rxCur < s.params.nRx →
        let left := s.regs.icr &&& ~~~0x000000D0#32
        advances .isr 1 s1 = .ok (polling left s.regs.ctrl 0#32 s.luPrev .pending) ∧
        (idle → advances .isr 4 s1 = .ok (returned left s.regs.ctrl s.luPrev))) ∧
      (link → receive → relinks → s.drv.rxCur < s.params.nRx →
        let left := s.regs.icr &&& ~~~0x000000D4#32
        advances .isr 3 s1 =
          .ok (polling left linked (if s.cable = s.luPrev then 0#32 else bit 2) s.cable (.word linked)) ∧
        (idle → advances .isr 6 s1 = .ok (returned left linked s.cable)))

/-- The bottom half: `core.hasdata` tells whether Q holds an entry; `core.parse` waits on an empty Q, else pops the head, copies
its bytes and publishes them, and changes nothing else (R389, R390). -/
def Obligations.BottomHalfPublishes : Prop :=
  (∀ s : State, s.Ready 11 → s.cur = .bh →
    exec .coreHasdata s = .next (s.setRet .bh (.bool (0 < s.drv.queue.length)))) ∧
  (∀ s : State, s.Ready 11 → s.cur = .bh → s.work .bh = [] → s.drv.queue = [] →
    exec .coreParse s = .next ((s.setRet .bh .pending).setWork .bh [.parsePop])) ∧
  ∀ (s : State) (e : QEntry) (rest : List QEntry), s.Ready 11 → s.cur = .bh → s.work .bh = [] →
    s.drv.queue = e :: rest →
    ∃ s1 bytes, exec .coreParse s = .next s1 ∧ bytes.length = e.len.toNat ∧
      (∀ k, ∀ h : k < bytes.length, bytes[k] = s.mem.readByte ((s.phys e.ptr + k) % 2 ^ 32)) ∧
      advances .bh 2 s1 = .ok (State.setRet
        { s with drv := { s.drv with queue := rest, published := s.drv.published ++ [⟨bytes, e.len⟩] } } .bh .unit)

/-! ### The device's engines (spec/46_dma_sequencer.md) -/

/-- One TXE step that is enabled and passes its checks, outside loopback: the frame (padded, with FCS) goes on the wire unless
the link is down or it collided, the status byte alone is written back under RS, the head moves on, and TXDW and TXQE are
latched (R411 to R415). -/
def Obligations.TransmitStepCompletes : Prop :=
  ∀ (s : State) (o : Collision),
    let h := s.regs.tdh.toNat
    let n := s.regs.tdlen.toNat / 16
    let a := s.ringBase .tx + 16 * h
    let field := fun k => s.mem.readByte ((a + k) % 2 ^ 32)
    let cmd := field 11
    let len := (field 8).toNat + 256 * (field 9).toNat
    let addr := natOfBytes (s.mem.readBytes a 8)
    let lu := s.cable && s.regs.ctrl.getLsbD 6
    s.busMaster = true → s.regs.tctl.getLsbD 1 = true → 0 < n → s.regs.tdh ≠ s.regs.tdt →
    lu = true ∨ s.params.txNoLink = .discard → s.lbm = 0 → s.mem.wf = true →
    s.dmaLegal a 16 = true → cmd &&& 0xF5#8 = 0x21#8 → 1 ≤ len → len ≤ 16288 → s.dmaLegal addr len = true →
    let buf := s.mem.readBytes addr len
    let padded := if s.regs.tctl.getLsbD 3 = true ∧ len < 60 then buf ++ List.replicate (60 - len) 0#8 else buf
    let frame := if cmd.getLsbD 1 then padded ++ fcs padded else padded
    let status : Byte := match o with | .none => 0x01#8 | .ec => 0x03#8 | .lc => 0x05#8
    let head : Word := BitVec.ofNat 32 ((h + 1) % n)
    ∃ t, perform (.txe o) s = .next t ∧
      t = { s with
            regs := { s.regs with
              tdh := head,
              icr := (s.regs.icr ||| (if cmd.getLsbD 3 then bit 0 else 0#32)) |||
                (if head = s.regs.tdt then bit 1 else 0#32) },
            wireOut := if lu = true ∧ o = .none then s.wireOut ++ [frame] else s.wireOut, mem := t.mem } ∧
      s.mem.Stored t.mem (a + 12) (if cmd.getLsbD 3 then [status] else [])

/-- One TXE step under loopback (RCTL.LBM = 3) that is enabled and passes its checks, with the link up or down: the frame goes to
RXMAC and not to the wire, whatever collision ENV drew; RXMAC takes it by its own rule without the link, and it is lost with RXO
where the FIFO is full; the status byte 0x01 is written back under RS, the head moves on, and TXDW and TXQE are latched (R411, R413,
R416, R418, R419). Whether a frame of fewer than 18 bytes is looked at is free (log entry 16), and takes one draw of the model's
counter (log entry 4). -/
def Obligations.TransmitLoopback : Prop :=
  ∀ (s : State) (o : Collision),
    let h := s.regs.tdh.toNat
    let n := s.regs.tdlen.toNat / 16
    let a := s.ringBase .tx + 16 * h
    let field := fun k => s.mem.readByte ((a + k) % 2 ^ 32)
    let cmd := field 11
    let len := (field 8).toNat + 256 * (field 9).toNat
    let addr := natOfBytes (s.mem.readBytes a 8)
    s.busMaster = true → s.regs.tctl.getLsbD 1 = true → 0 < n → s.regs.tdh ≠ s.regs.tdt → s.lbm = 3 → s.mem.wf = true →
    s.dmaLegal a 16 = true → cmd &&& 0xF5#8 = 0x21#8 → 1 ≤ len → len ≤ 16288 → s.dmaLegal addr len = true →
    let buf := s.mem.readBytes addr len
    let padded := if s.regs.tctl.getLsbD 3 = true ∧ len < 60 then buf ++ List.replicate (60 - len) 0#8 else buf
    let frame := if cmd.getLsbD 1 then padded ++ fcs padded else padded
    let head : Word := BitVec.ofNat 32 ((h + 1) % n)
    ∃ (t : State) (taken stored lost : Bool), perform (.txe o) s = .next t ∧ (18 ≤ frame.length → taken = true) ∧
      (let accepted := taken = true ∧ s.regs.rctl.getLsbD 1 = true ∧
         (s.regs.rctl.getLsbD 5 = true ∨ frame.length ≤ 1522) ∧ s.Wanted frame
       (stored = true ↔ accepted ∧ s.rxFifo.length ≠ s.params.rxFifoCap) ∧
       (lost = true ↔ accepted ∧ s.rxFifo.length = s.params.rxFifoCap)) ∧
      t.rxFifo = (if stored then s.rxFifo ++ [⟨frame, 0x00#8⟩] else s.rxFifo) ∧
      t.regs.icr = ((s.regs.icr ||| (if lost then bit 6 else 0#32)) |||
        (if cmd.getLsbD 3 then bit 0 else 0#32)) ||| (if head = s.regs.tdt then bit 1 else 0#32) ∧
      t = { s with regs := { s.regs with tdh := head, icr := t.regs.icr }, rxFifo := t.rxFifo, mem := t.mem,
                   draws := if frame.length < 18 then s.draws + 1 else s.draws } ∧
      s.mem.Stored t.mem (a + 12) (if cmd.getLsbD 3 then [0x01#8] else [])

/-- RXMAC's filter: a frame from ENV is stored exactly when the receiver is enabled, the link is up, the CRC and the length pass
and an address matches; it is lost with RXO where the FIFO is full; any other leaves no trace (R418, R419). A reserved loopback
mode faults while the receiver or the transmitter is enabled (30_encoding.md R158); that it does so before a disabled receiver
discards, while the transmitter alone is enabled, is the model's choice between R158 and the order of R418 (log entry 34). -/
def Obligations.ReceiveFilter : Prop :=
  ∀ (s : State) (f : List Byte) (crcOk : Bool) (err : Byte), 18 ≤ f.length →
    let rctl := s.regs.rctl
    let dst := f.take 6
    let group := (f.headD 0#8).getLsbD 0
    let ra0 : List Byte := [s.regs.ral0.extractLsb' 0 8, s.regs.ral0.extractLsb' 8 8, s.regs.ral0.extractLsb' 16 8,
      s.regs.ral0.extractLsb' 24 8, s.regs.rah0.extractLsb' 0 8, s.regs.rah0.extractLsb' 8 8]
    let wanted := (s.regs.rah0.getLsbD 31 = true ∧ dst = ra0) ∨
      (dst = [0xFF#8, 0xFF#8, 0xFF#8, 0xFF#8, 0xFF#8, 0xFF#8] ∧ rctl.getLsbD 15 = true) ∨
      (group = false ∧ rctl.getLsbD 3 = true) ∨ (group = true ∧ rctl.getLsbD 4 = true)
    let accepted := s.cable = true ∧ s.regs.ctrl.getLsbD 6 = true ∧ (crcOk = true ∨ rctl.getLsbD 2 = true) ∧
      (rctl.getLsbD 5 = true ∨ f.length ≤ 1522) ∧ wanted
    let answer := perform (.rxmac f crcOk err) s
    let reserved := rctl.extractLsb' 6 2 = 1#2 ∨ rctl.extractLsb' 6 2 = 2#2
    let running := rctl.getLsbD 1 = true ∨ s.regs.tctl.getLsbD 1 = true
    (running → reserved → answer = .next (s.raise ⟨.reservedValue, .rxmac, 418, (rctl.extractLsb' 6 2).toNat⟩)) ∧
    (rctl.getLsbD 1 = false → ¬ (running ∧ reserved) → answer = .next s) ∧
    (rctl.getLsbD 1 = true → rctl.extractLsb' 6 2 = 3#2 → answer = .next s) ∧
    (rctl.getLsbD 1 = true → rctl.extractLsb' 6 2 = 0#2 → ¬ accepted → answer = .next s) ∧
    (rctl.getLsbD 1 = true → rctl.extractLsb' 6 2 = 0#2 → accepted → s.rxFifo.length = s.params.rxFifoCap →
      answer = .next { s with regs := { s.regs with icr := s.regs.icr ||| bit 6 } }) ∧
    (rctl.getLsbD 1 = true → rctl.extractLsb' 6 2 = 0#2 → accepted → s.rxFifo.length ≠ s.params.rxFifoCap →
      answer = .next
        { s with rxFifo := s.rxFifo ++ [⟨f, (err &&& 0x86#8) ||| (if crcOk then 0x00#8 else 0x01#8)⟩] })

/-- One RXE step that raises no fault: the head frame leaves the FIFO, RXT0 is latched, RXDMT0 is latched when the
hardware-owned descriptors fall to the threshold, and their number falls by exactly the descriptors the frame took, so the head
never passes the tail (R420 to R423, R425). -/
def Obligations.ReceiveStepCounts : Prop :=
  ∀ (s t : State) (e : RxFrame) (more : List RxFrame),
    s.rxFifo = e :: more → s.busMaster = true → 0 < s.ndev .rx → s.head .rx < s.ndev .rx → s.tail .rx < s.ndev .rx →
    s.ndev .rx ≤ 65536 → s.rxNeeds e ≤ s.hwCount .rx → perform .rxe s = .next t → t.faults = s.faults →
    let threshold := s.ndev .rx / 2 ^ (s.rdmts + 1)
    t.rxFifo = more ∧ t.hwCount .rx = s.hwCount .rx - s.rxNeeds e ∧ t.tail .rx = s.tail .rx ∧
      t.regs.icr = (s.regs.icr ||| bit 7) |||
        (if s.hwCount .rx > threshold ∧ t.hwCount .rx ≤ threshold then bit 4 else 0#32) ∧
      t = { s with regs := { s.regs with rdh := t.regs.rdh, icr := t.regs.icr }, rxFifo := more, mem := t.mem,
                   draws := t.draws }

/-- One RXE step that is enabled, with a buffer size and a threshold that are not reserved and every DMA access legal, raises no
fault and writes the head frame: chunk `j` to the buffer of the `j`-th descriptor from the head, its length, the status DD (EOP on
the last), the errors byte (on the last), while the address field stays; the checksum and special fields are draws; every other byte
of memory reads as before; the head moves past the `m` descriptors (R421, R422; 30_encoding.md R151, R154 to R156). It is stated for
buffers and descriptors that lie apart. A reserved buffer size, a reserved threshold, and a first access outside the DMA regions
fault before any effect, in that order (R424, R425; 20_memory.md R110; the order log entry 17). That a frame of which no byte is
stored makes no buffer access, and that SECRC leaves none of a frame of fewer than 4 bytes, is the model's choice (log entry 16). -/
def Obligations.ReceiveStepWrites : Prop :=
  ∀ (s : State) (e : RxFrame) (more : List RxFrame), s.rxFifo = e :: more → s.rxeEnabled = true →
    let n := s.ndev .rx
    let a := fun j => s.ringBase .rx + 16 * ((s.head .rx + j) % n)
    let addr := fun j => natOfBytes (s.mem.readBytes (a j) 8)
    let bytes := if s.regs.rctl.getLsbD 26 then e.bytes.take (e.bytes.length - 4) else e.bytes
    let raises := fun c rule d => perform .rxe s = .next (s.raise ⟨c, .rxe, rule, d⟩)
    (bufSize s.regs.rctl = none → raises .reservedValue 421 0) ∧
    ∀ b, bufSize s.regs.rctl = some b →
      let m := max 1 ((bytes.length + b - 1) / b)
      let chunk := fun j => sliceBytes bytes (j * b) b
      let legal := fun j => s.dmaLegal (a j) 8 = true ∧ (chunk j ≠ [] → s.dmaLegal (addr j) (chunk j).length = true) ∧
        ∀ p ∈ [(8, 2), (10, 2), (12, 1), (13, 1), (14, 2)], s.dmaLegal (a j + p.1) p.2 = true
      (s.rdmts = 3 → raises .reservedValue 425 3) ∧
      (s.rdmts ≠ 3 → s.dmaLegal (a 0) 8 = false → raises .dmaWild 110 (a 0)) ∧
      (s.rdmts ≠ 3 → s.dmaLegal (a 0) 8 = true → chunk 0 ≠ [] → s.dmaLegal (addr 0) (chunk 0).length = false →
        raises .dmaWild 110 (addr 0)) ∧
      (s.rdmts ≠ 3 → s.mem.wf = true → s.head .rx < n → s.tail .rx < n → n ≤ 65536 → (∀ j, j < m → legal j) →
        (∀ i j, i < m → j < m → apart (addr i) (chunk i).length (a j) 16 = true) →
        (∀ i j, i < m → j < m → i ≠ j → apart (addr i) (chunk i).length (addr j) (chunk j).length = true) →
        ∃ t, perform .rxe s = .next t ∧ t.faults = s.faults ∧
          t.regs.rdh = BitVec.ofNat 32 ((s.head .rx + m) % n) ∧ t.rxFifo = more ∧
          (∀ j, j < m →
            (∀ k, ∀ hk : k < (chunk j).length, t.mem.readByte (addr j + k) = (chunk j)[k]) ∧
            (∀ k, k < 8 → t.mem.readByte (a j + k) = s.mem.readByte (a j + k)) ∧
            t.mem.readByte (a j + 8) = BitVec.ofNat 8 (chunk j).length ∧
            t.mem.readByte (a j + 9) = BitVec.ofNat 8 ((chunk j).length / 256) ∧
            t.mem.readByte (a j + 12) = (if j + 1 = m then 0x03#8 else 0x01#8) ∧
            t.mem.readByte (a j + 13) = (if j + 1 = m then e.err else 0x00#8)) ∧
          ∀ x, (∀ j, j < m → (x < addr j ∨ addr j + (chunk j).length ≤ x) ∧ (x < a j + 8 ∨ a j + 16 ≤ x)) →
            t.mem.readByte x = s.mem.readByte x)

/-- DMA never writes outside the DMA regions: whatever TXE or RXE does in a step, every byte outside them reads as before
(20_memory.md R110). -/
def Obligations.DmaStaysInRegions : Prop :=
  ∀ (s t : State) (turn : Turn), (turn = .rxe ∨ ∃ o, turn = .txe o) → s.mem.wf = true → perform turn s = .next t →
    ∀ x, s.OutsideDma x → t.mem.readByte x = s.mem.readByte x

/-- A device step that raises a fault has no other effect, and without bus mastering TXE and RXE take no step (R410, 10_state.md
R49). Nor does TXE while any other condition of R411 fails: the transmitter disabled, no ring, nothing handed to hardware, or the
link down under STALL outside loopback; nor RXE while one of R420 fails: no frame waiting, no ring, or fewer descriptors owned by
hardware than the frame needs, which then waits (R423). How many a frame needs under the reserved buffer size is log entry 17, and
under SECRC for a frame of fewer than 4 bytes log entry 16; a turn of an engine that is not enabled changes nothing (log entry 27).
The checks of a TXE step in their order: reserved loopback mode, the descriptor's DMA, its command byte, its length, the buffer's
DMA; the first that fails is the fault (R412, R417, 60_exceptions.md R455). -/
def Obligations.DeviceFaultsHaveNoEffect : Prop :=
  (∀ (s t : State) (turn : Turn),
    (turn = .rxe ∨ (∃ o, turn = .txe o) ∨ ∃ f crcOk err, turn = .rxmac f crcOk err) → perform turn s = .next t →
    (t.faults ≠ s.faults → ∃ record, t = s.raise record) ∧
    (s.busMaster = false → (turn = .rxe ∨ ∃ o, turn = .txe o) → t = s)) ∧
  (∀ (s : State) (o : Collision),
    s.busMaster = false ∨ s.regs.tctl.getLsbD 1 = false ∨ s.regs.tdlen.toNat / 16 = 0 ∨ s.regs.tdh = s.regs.tdt ∨
      ((s.cable = false ∨ s.regs.ctrl.getLsbD 6 = false) ∧ s.params.txNoLink = .stall ∧
        s.regs.rctl.extractLsb' 6 2 ≠ 3#2) →
    perform (.txe o) s = .next s) ∧
  (∀ s : State, s.busMaster = false ∨ s.rxFifo = [] ∨ s.regs.rdlen.toNat / 16 = 0 → perform .rxe s = .next s) ∧
  (∀ (s : State) (e : RxFrame) (more : List RxFrame), s.rxFifo = e :: more →
    let n := s.regs.rdlen.toNat / 16
    let head := s.regs.rdh.toNat
    let tail := s.regs.rdt.toNat
    let len := if s.regs.rctl.getLsbD 26 then e.bytes.length - 4 else e.bytes.length
    let needed := match bufSize s.regs.rctl with | some b => max 1 ((len + b - 1) / b) | none => 1
    head < n → tail < n → (if head ≤ tail then tail - head else tail + n - head) < needed →
    perform .rxe s = .next s) ∧
  ∀ (s : State) (o : Collision), s.txeEnabled = true →
    let a := s.ringBase .tx + 16 * s.regs.tdh.toNat
    let field := fun k => s.mem.readByte ((a + k) % 2 ^ 32)
    let cmd := field 11
    let len := (field 8).toNat + 256 * (field 9).toNat
    let addr := natOfBytes (s.mem.readBytes a 8)
    let raises := fun c rule d => perform (.txe o) s = .next (s.raise ⟨c, .txe, rule, d⟩)
    let reserved := s.lbm = 1 ∨ s.lbm = 2
    let format := cmd &&& 0xD4#8 ≠ 0#8 ∨ cmd.getLsbD 5 = false ∨ cmd.getLsbD 0 = false
    (reserved → raises .reservedValue 412 s.lbm) ∧
    (¬ reserved → s.dmaLegal a 16 = false → raises .dmaWild 110 a) ∧
    (¬ reserved → s.dmaLegal a 16 = true → format → raises .descFormat 417 s.regs.tdh.toNat) ∧
    (¬ reserved → s.dmaLegal a 16 = true → ¬ format → len = 0 ∨ 16288 < len → raises .txLength 417 len) ∧
    (¬ reserved → s.dmaLegal a 16 = true → ¬ format → 1 ≤ len → len ≤ 16288 → s.dmaLegal addr len = false →
      raises .dmaWild 110 addr)

/-- The EEPROM engine completes a read in progress with the word addressed, or a draw beyond the EEPROM (R431); a cable flip
evaluates the link (R432, 10_state.md R76). In a weakly fair run every read in progress ends: it completes, unless a device reset
cancels it (R430, R431, 70_reset_and_hazards.md R491, R510). That a draw advances the counter of draws by one is the model's choice
(log entry 4), and that a fair run is the predicate `WeaklyFair` over endless runs without a fault is its reading of R510 (DEDUCED,
log entry 31). -/
def Obligations.EepromAndCableSteps : Prop :=
  (∀ s : State,
     (s.ee.busy = true → ∀ w, s.params.eeprom[s.ee.addr.toNat]? = some w →
       perform .eec s = .next { s with ee := { s.ee with data := w, done := true, busy := false } }) ∧
     (s.ee.busy = true → s.params.eeprom.length ≤ s.ee.addr.toNat →
       ∃ d, perform .eec s =
         .next { s with ee := { s.ee with data := d, done := true, busy := false }, draws := s.draws + 1 }) ∧
     (s.ee.busy = false → perform .eec s = .next s) ∧
     (let lu := !s.cable && s.regs.ctrl.getLsbD 6
      let icr := if lu = s.luPrev then s.regs.icr else s.regs.icr ||| bit 2
      perform .cable s = .next { s with cable := !s.cable, regs := { s.regs with icr := icr }, luPrev := lu })) ∧
  ∀ (r : Nat → State) (turn : Nat → Turn) (n : Nat), WeaklyFair r turn → (r n).ee.busy = true →
    ∃ m, n < m ∧ (r m).ee.busy = false ∧
      ((r m).ee.done = true ∨ ∃ addr, (r m).ee = { busy := false, addr := addr, data := 0#16, done := false })

/-! ### The whole machine -/

/-- Once a fault is recorded no agent takes another step, and one step records at most one fault (60_exceptions.md R451). The
model's `step` then answers the fault (log entry 1). -/
def Obligations.FaultStopsMachine : Prop :=
  (∀ (s : State) (f : FaultRecord) (more : List FaultRecord), s.faults = f :: more → step s = .fault (.stopped f)) ∧
  ∀ s t : State, step s = .next t → s.faults = [] ∧ (t.faults = [] ∨ ∃ f, t.faults = [f])

/-- A step whose turn is the request of a well-formed instruction, issued by an agent with nothing in progress (or
`core.loadmac` at its place in `initialize`) and not preempted, is the meaning of that instruction in that state, as that agent,
without the turn (log entry 2). `core.trigger` by ISR runs so where it is refused; else DISPATCH alone starts it, and the step of
its turn is the meaning of `core.trigger`, as ISR (45_core.md R387, 60_exceptions.md R462; log entry 21). -/
def Obligations.StepRunsDecoded : Prop :=
  (∀ (s : State) (a : HostAgent) (req : Request) (reply : Reply) (more : List Turn) (i : Instr),
     s.faults = [] → s.script = .issue a req reply :: more → decode s.params.offsets req = .ok i → i.wf = true →
     s.mayRun a = true → s.work a = [] ∨ (a = .host ∧ i = .coreLoadmac ∧ inStep9 s = true) →
     (∀ frame, i = .coreTrigger frame → a = .isr → ¬ s.Ready 11) →
     step s = exec i { s with script := more, cur := a, reply := reply }) ∧
  ∀ (s : State) (frame : Word) (more : List Turn), s.faults = [] → s.script = .dispatch frame :: more →
    s.regs.icr &&& s.regs.ims ≠ 0#32 → s.drv.irqAllowed = true → s.drv.handlerAssigned = true → s.drv.isrActive = false →
    s.work .isr = [] → step s = exec (.coreTrigger frame) { s with script := more, cur := .isr }

/-- A host access to a virtual address by code outside the driver (20_memory.md R103, R119). From step 3 of `initialize` on, an
aligned 32-bit access at a register's offset in the mapped window IS that register's MMIO request, once, as the agent that makes it;
one of another width is F_WIDTH, one that is misaligned F_MISALIGNED, one at no register's offset F_UNMODELLED_OFFSET, in that order
(30_encoding.md R144), each with the offset. Elsewhere it reads or stores memory at `phys(va)` and changes nothing else; a store
that meets a byte that hardware owns is F_DESC_RACE and changes nothing; a store by such code at a physical address does the same
there. A store of more bytes than there are addresses is left out. When such code may run, and that an access is placed by its first
byte, is the model's choice (log entries 11, 15 and 26), and so is that byte's address as the detail of F_DESC_RACE (log entry
18). -/
def Obligations.HostAccessesReachDevice : Prop :=
  ∀ (s : State) (a : HostAgent) (va : Word), s.mayRun a = true → s.work a = [] →
    let mapped := 3 ≤ s.drv.initStep ∧ s.drv.base.toNat ≤ va.toNat ∧ va.toNat < s.drv.base.toNat + 0x20000
    let off := va.toNat - s.drv.base.toNat
    let raises := fun (access : Access) (c : FaultCode) =>
      perform (.access a va access) s = .next (State.raise { s with cur := a } ⟨c, a.toAgent, 144, off⟩)
    let stores := fun (turn : Turn) (addr : Nat) (bytes : List Byte) =>
      (s.SoftwareOwns addr bytes.length → bytes.length ≤ 2 ^ 32 →
        ∃ m, perform turn s = .next (State.setRet { s with mem := m } a .unit) ∧ m.wf = true ∧ s.mem.Stored m addr bytes) ∧
      (¬ s.SoftwareOwns addr bytes.length →
        perform turn s = .next (s.raise ⟨.descRace, a.toAgent, 119, addr % 2 ^ 32⟩))
    (mapped → s.params.offsets.wf = true → ∀ r, pOffsets s.params.offsets r = off →
      perform (.access a va (.load 4)) s = exec (readInstr r) { s with cur := a } ∧
      ∀ v, perform (.access a va (.store (wordBytes v))) s = exec (writeInstr r v) { s with cur := a }) ∧
    (mapped → (∀ n, n ≠ 4 → raises (.load n) .width) ∧
      ∀ bytes : List Byte, bytes.length ≠ 4 → raises (.store bytes) .width) ∧
    (mapped → off % 4 ≠ 0 →
      raises (.load 4) .misaligned ∧ ∀ bytes : List Byte, bytes.length = 4 → raises (.store bytes) .misaligned) ∧
    (mapped → off % 4 = 0 → (∀ r, pOffsets s.params.offsets r ≠ off) →
      raises (.load 4) .unmodelledOffset ∧ ∀ bytes : List Byte, bytes.length = 4 → raises (.store bytes) .unmodelledOffset) ∧
    (¬ mapped → ∀ n, ∃ bytes : List Byte, bytes.length = n ∧
      (∀ k, ∀ h : k < bytes.length, bytes[k] = s.mem.readByte ((s.phys va + k) % 2 ^ 32)) ∧
      perform (.access a va (.load n)) s = .next (s.setRet a (.bytes bytes))) ∧
    (¬ mapped → s.mem.wf = true → ∀ bytes, stores (.access a va (.store bytes)) (s.phys va) bytes) ∧
    (s.mem.wf = true → ∀ (addr : Word) (bytes : List Byte), stores (.store a addr bytes) addr.toNat bytes)

/-- After power-on, for every launch parameters and every draw, the registers, the engines, the driver, the Register objects and
the records have the reset values of R490 and 10_state.md R77 (RAL0 and RAH0 from the EEPROM, R48), and the state meets every
invariant of the statements below; the bounds of the driver where the parameters meet 00_scope.md R9. A register whose reset value
is a draw is bounded by its rule alone. `State.reset` is one of these states, by its definition. A word that the EEPROM does not
have is free (log entry 28). -/
def Obligations.PowerOnState : Prop :=
  ∀ (p : Params) (free : Half) (d : PowerOn),
    let s := State.powerOn p free d
    (s.regs.ctrl.getLsbD 26 = false ∧ s.regs.icr = 0#32 ∧ s.regs.ims = 0#32 ∧ s.regs.rctl = 0#32 ∧
      s.regs.tctl.getLsbD 1 = false ∧ s.regs.rdbal.extractLsb' 0 4 = 0#4 ∧ s.regs.tdbal.extractLsb' 0 4 = 0#4 ∧
      s.regs.rdlen = 0#32 ∧ s.regs.tdlen = 0#32 ∧
      s.regs.rdh = 0#32 ∧ s.regs.rdt = 0#32 ∧ s.regs.tdh = 0#32 ∧ s.regs.tdt = 0#32 ∧
      s.regs.ral0 = p.eeprom.getD 1 free ++ p.eeprom.getD 0 free ∧
      s.regs.rah0 = bit 31 ||| (p.eeprom.getD 2 free).setWidth 32) ∧
    (s.busMaster = false ∧ s.rxFifo = [] ∧ s.ee = { busy := false, addr := 0#14, data := 0#16, done := false } ∧
      s.luPrev = (s.cable && s.regs.ctrl.getLsbD 6) ∧ s.irq = false ∧ s.faults = [] ∧ s.dma = [] ∧ s.maps = []) ∧
    (s.drv.initStep = 0 ∧ s.lifecycle = .uninit ∧ s.drv.initFailed = false ∧ s.drv.registered = false ∧
      s.drv.irqAllowed = false ∧ s.drv.handlerAssigned = false ∧ s.drv.slots = [] ∧ s.drv.snap = 0#32 ∧ s.drv.icState = .idle ∧
      s.drv.txCur = 0 ∧ s.drv.txTail = 0 ∧ s.drv.rxCur = 0 ∧ s.drv.rxTail = 0 ∧ s.drv.queue = [] ∧ s.drv.overrunCount = 0 ∧
      s.drv.dropRunt = 0 ∧ s.drv.dropNotEop = 0 ∧ s.drv.dropErrors = 0 ∧ s.drv.dropQueueFull = 0 ∧ s.drv.isrActive = false ∧
      s.drv.txBusy = false ∧ s.drv.macNode = none) ∧
    (s.drv.log = [] ∧ s.trace = [] ∧ s.drv.published = [] ∧ s.wireOut = [] ∧ (∀ r, s.Untouched r) ∧ ∀ a, s.work a = []) ∧
    s.mem.wf = true ∧ s.DeviceInv ∧ s.MapperInv ∧ s.DriverInv ∧ (p.wf = true → s.RingInv)

/-- Memory keeps its one canonical form at every step. -/
def Obligations.StepKeepsMemoryForm : Prop :=
  ∀ s t : State, s.mem.wf = true → step s = .next t → t.mem.wf = true

/-- Every step keeps the device's invariant: reserved and read-only bits read as the spec says, the FIFO is within its capacity,
the link record is the link state, and the EEPROM engine is never both busy and done (10_state.md R35 to R52). -/
def Obligations.StepKeepsDeviceInvariant : Prop :=
  ∀ s t : State, s.DeviceInv → step s = .next t → t.DeviceInv

/-- Every step keeps the mapper's and the driver's invariants: `onMask & offMask = 0`, an owner exactly where a mask is not
empty, an idle decoder holds no snapshot, every counter counts the log records of its kind, the cursors and tail copies are indices
of their rings, and Q holds at most `Q_CAP` entries (10_state.md R60 to R64, R72; 41_register_mapper.md R260). -/
def Obligations.StepKeepsHostInvariants : Prop :=
  ∀ s t : State, step s = .next t →
    (s.MapperInv → t.MapperInv) ∧ (s.DriverInv → t.DriverInv) ∧ (s.RingInv → t.RingInv)

/-- What no step changes or takes back: the launch parameters, and so `phys` (20_memory.md R102), a failed `initialize`, bus
mastering once on, and the records of the log, the trace, the wire and the event bus (00_scope.md R9, 45_core.md R382, R391,
10_state.md R66, R72, R74). -/
def Obligations.HistoryOnlyGrows : Prop :=
  ∀ s t : State, step s = .next t →
    t.params = s.params ∧ (∀ va, t.phys va = s.phys va) ∧ (s.drv.initFailed = true → t.drv.initFailed = true) ∧
    (s.busMaster = true → t.busMaster = true) ∧ s.drv.log <+: t.drv.log ∧ s.trace <+: t.trace ∧
    s.wireOut <+: t.wireOut ∧ s.drv.published <+: t.drv.published

end Statements
end

