-- ==== Sys2Proof/Laws/Memory.lean ====
section
/-! SUPPORT. Laws of host physical memory: every operation keeps the canonical form, and reads see the last write. -/

namespace Sys2Proof.Machine

/-- Every entry of a memory lies above an address. -/
def Memory.above (a : Nat) (m : Memory) : Prop := ∀ c ∈ m, a < c.1

/-- The canonical form entry by entry: the first entry is listed, in range and below all others, and the rest is canonical. -/
theorem Memory.wf_cons_iff {a : Nat} {b : Byte} {m : Memory} :
    Memory.wf ((a, b) :: m) = true ↔ b ≠ Memory.unlisted ∧ a < physSize ∧ Memory.above a m ∧ Memory.wf m = true := by
  induction m generalizing a b with
  | nil => simp [Memory.wf, Memory.above]
  | cons c m ih =>
    obtain ⟨a2, b2⟩ := c
    have h2 := @ih a2 b2
    rw [Memory.wf]
    simp only [Bool.and_eq_true, bne_iff_ne, decide_eq_true_eq]
    constructor
    · rintro ⟨⟨⟨hb, ha⟩, hlt⟩, hwf⟩
      refine ⟨hb, ha, ?_, hwf⟩
      have hab := (h2.1 hwf).2.2.1
      intro c hc
      cases hc with
      | head => exact hlt
      | tail _ h => exact Nat.lt_trans hlt (hab c h)
    · rintro ⟨hb, ha, hab, hwf⟩
      exact ⟨⟨⟨hb, ha⟩, hab _ (List.mem_cons_self ..)⟩, hwf⟩

/-- A read below every entry gives what an unlisted address reads as. -/
theorem Memory.readByte_above {x : Nat} {m : Memory} (h : Memory.above x m) : m.readByte x = Memory.unlisted := by
  induction m with
  | nil => rfl
  | cons c m ih =>
    obtain ⟨a, b⟩ := c
    have : x < a := h _ (List.mem_cons_self ..)
    rw [Memory.readByte, if_neg (by omega)]
    exact ih fun c hc => h c (List.mem_cons_of_mem _ hc)

/-- The entries after a write lie above every address that the old entries and the address written lie above. -/
theorem Memory.above_writeByte {a x : Nat} {v : Byte} {m : Memory} (hm : Memory.above a m) (hx : a < x) :
    Memory.above a (m.writeByte x v) := by
  induction m with
  | nil =>
    intro c hc
    rw [Memory.writeByte] at hc
    split at hc
    · cases hc
    · simp only [List.mem_singleton] at hc; subst hc; exact hx
  | cons d m ih =>
    obtain ⟨a2, b2⟩ := d
    have h2 : a < a2 := hm _ (List.mem_cons_self ..)
    have hr : Memory.above a m := fun c hc => hm c (List.mem_cons_of_mem _ hc)
    intro c hc
    rw [Memory.writeByte] at hc
    split at hc
    · split at hc
      · exact hm c hc
      · rcases List.mem_cons.1 hc with rfl | hc
        · exact hx
        · exact hm c hc
    · split at hc
      · split at hc
        · exact hr c hc
        · rcases List.mem_cons.1 hc with rfl | hc
          · exact hx
          · exact hr c hc
      · rcases List.mem_cons.1 hc with rfl | hc
        · exact h2
        · exact ih hr c hc

/-- Storing one byte keeps the canonical form. -/
theorem Memory.wf_writeByte {m : Memory} {x : Nat} {v : Byte} (h : m.wf = true) (hx : x < physSize) :
    (m.writeByte x v).wf = true := by
  induction m with
  | nil =>
    rw [Memory.writeByte]
    split
    · rfl
    · rename_i hv
      exact Memory.wf_cons_iff.2 ⟨hv, hx, fun c hc => (List.not_mem_nil hc).elim, rfl⟩
  | cons c m ih =>
    obtain ⟨a, b⟩ := c
    have hc := Memory.wf_cons_iff.1 h
    rw [Memory.writeByte]
    split
    · rename_i hlt
      split
      · exact h
      · rename_i hv
        refine Memory.wf_cons_iff.2 ⟨hv, hx, fun c hm => ?_, h⟩
        rcases List.mem_cons.1 hm with rfl | hm
        · exact hlt
        · exact Nat.lt_trans hlt (hc.2.2.1 c hm)
    · split
      · rename_i heq
        subst heq
        split
        · exact hc.2.2.2
        · rename_i hv
          exact Memory.wf_cons_iff.2 ⟨hv, hx, hc.2.2.1, hc.2.2.2⟩
      · exact Memory.wf_cons_iff.2 ⟨hc.1, hc.2.1, Memory.above_writeByte hc.2.2.1 (by omega), ih hc.2.2.2⟩

/-- Storing bytes keeps the canonical form. -/
theorem Memory.wf_writeBytes {m : Memory} {a : Nat} {bs : List Byte} (h : m.wf = true) : (m.writeBytes a bs).wf = true := by
  induction bs generalizing m a with
  | nil => exact h
  | cons b bs ih => exact ih (Memory.wf_writeByte h (Nat.mod_lt _ (by decide)))

/-- What a read gives after one byte was stored. -/
theorem Memory.readByte_writeByte {m : Memory} {x y : Nat} {v : Byte} (h : m.wf = true) :
    (m.writeByte x v).readByte y = if y = x then v else m.readByte y := by
  induction m with
  | nil =>
    rw [Memory.writeByte]
    by_cases hv : v = Memory.unlisted <;> by_cases hy : y = x
    · subst hy; simp [hv, Memory.readByte]
    · simp [hv, hy, Memory.readByte]
    · subst hy; simp [hv, Memory.readByte]
    · simp only [hv, if_false, hy, Memory.readByte]
      rw [if_neg (fun h => hy h.symm)]
  | cons c m ih =>
    obtain ⟨a, b⟩ := c
    have hc := Memory.wf_cons_iff.1 h
    have ih := ih hc.2.2.2
    have low : ∀ z, z < a → Memory.readByte ((a, b) :: m) z = Memory.unlisted := fun z hz =>
      Memory.readByte_above fun c hm => by
        rcases List.mem_cons.1 hm with rfl | hm
        · exact hz
        · exact Nat.lt_trans hz (hc.2.2.1 c hm)
    rw [Memory.writeByte]
    by_cases h1 : x < a
    · by_cases hv : v = Memory.unlisted
      · rw [if_pos h1, if_pos hv]
        by_cases hy : y = x
        · subst hy; rw [if_pos rfl, low _ h1, hv]
        · rw [if_neg hy]
      · rw [if_pos h1, if_neg hv]
        by_cases hy : y = x
        · subst hy; rw [if_pos rfl, Memory.readByte, if_pos rfl]
        · rw [if_neg hy]
          conv => lhs; rw [Memory.readByte]
          rw [if_neg (fun h => hy h.symm)]
    · rw [if_neg h1]
      by_cases h2 : x = a
      · subst h2
        rw [if_pos rfl]
        by_cases hv : v = Memory.unlisted
        · rw [if_pos hv]
          by_cases hy : y = x
          · subst hy; rw [if_pos rfl, Memory.readByte_above hc.2.2.1, hv]
          · rw [if_neg hy]
            conv => rhs; rw [Memory.readByte]
            rw [if_neg (fun h => hy h.symm)]
        · rw [if_neg hv]
          by_cases hy : y = x
          · subst hy; rw [if_pos rfl, Memory.readByte, if_pos rfl]
          · rw [if_neg hy, Memory.readByte, if_neg (fun h => hy h.symm)]
            conv => rhs; rw [Memory.readByte]
            rw [if_neg (fun h => hy h.symm)]
      · rw [if_neg h2, Memory.readByte]
        by_cases hya : a = y
        · subst hya
          rw [if_pos rfl, if_neg (fun h => h2 h.symm), Memory.readByte, if_pos rfl]
        · rw [if_neg hya, ih]
          conv => rhs; rw [Memory.readByte]
          rw [if_neg hya]

/-- A read of an address below 2^32 outside the bytes stored gives what it gave. -/
theorem Memory.readByte_writeBytes_outside {m : Memory} {a y : Nat} {bs : List Byte} (h : m.wf = true)
    (hend : a + bs.length ≤ physSize) (hy : y < a ∨ a + bs.length ≤ y) : (m.writeBytes a bs).readByte y = m.readByte y := by
  induction bs generalizing m a with
  | nil => rfl
  | cons b bs ih =>
    simp only [List.length_cons] at hend hy
    have ha : a % physSize = a := Nat.mod_eq_of_lt (by omega)
    rw [Memory.writeBytes, ih (Memory.wf_writeByte h (Nat.mod_lt _ (by decide))) (by omega) (by omega),
      Memory.readByte_writeByte h, ha, if_neg (by omega)]

/-- A read inside the bytes stored gives the byte stored. -/
theorem Memory.readByte_writeBytes_inside {m : Memory} {a k : Nat} {bs : List Byte} (h : m.wf = true)
    (hend : a + bs.length ≤ physSize) (hk : k < bs.length) : (m.writeBytes a bs).readByte (a + k) = bs[k] := by
  induction bs generalizing m a k with
  | nil => exact absurd hk (Nat.not_lt_zero _)
  | cons b bs ih =>
    simp only [List.length_cons] at hend hk
    have ha : a % physSize = a := Nat.mod_eq_of_lt (by omega)
    have hw : (m.writeByte (a % physSize) b).wf = true := Memory.wf_writeByte h (Nat.mod_lt _ (by decide))
    rw [Memory.writeBytes]
    cases k with
    | zero =>
      rw [Memory.readByte_writeBytes_outside hw (by omega) (by omega), Memory.readByte_writeByte h, ha, if_pos (by omega)]
      rfl
    | succ k =>
      have := ih (m := m.writeByte (a % physSize) b) (a := a + 1) (k := k) hw (by omega) (by omega)
      rw [show a + (k + 1) = a + 1 + k by omega, this]
      rfl

/-- The number of bytes a read gives. -/
@[simp] theorem Memory.length_readBytes (m : Memory) (a n : Nat) : (m.readBytes a n).length = n := by
  induction n generalizing a with
  | zero => rfl
  | succ n ih => simp [Memory.readBytes, ih]

/-- Reading back the bytes just stored. -/
theorem Memory.readBytes_writeBytes {m : Memory} {a : Nat} {bs : List Byte} (h : m.wf = true)
    (hend : a + bs.length ≤ physSize) : (m.writeBytes a bs).readBytes a bs.length = bs := by
  have key : ∀ n k, k + n = bs.length → (m.writeBytes a bs).readBytes (a + k) n = bs.drop k := by
    intro n
    induction n with
    | zero => intro k hk; rw [Memory.readBytes, List.drop_eq_nil_of_le (by omega)]
    | succ n ih =>
      intro k hk
      have hlt : k < bs.length := by omega
      rw [Memory.readBytes, show (a + k) % physSize = a + k from Nat.mod_eq_of_lt (by omega),
        Memory.readByte_writeBytes_inside h hend hlt, show a + k + 1 = a + (k + 1) by omega, ih (k + 1) (by omega),
        ← List.drop_eq_getElem_cons hlt]
  simpa using key bs.length 0 (by omega)

/-- Reading bytes apart from those stored. -/
theorem Memory.readBytes_writeBytes_outside {m : Memory} {a b n : Nat} {bs : List Byte} (h : m.wf = true)
    (hend : a + bs.length ≤ physSize) (hb : b + n ≤ physSize) (hout : b + n ≤ a ∨ a + bs.length ≤ b) :
    (m.writeBytes a bs).readBytes b n = m.readBytes b n := by
  induction n generalizing b with
  | zero => rfl
  | succ n ih =>
    rw [Memory.readBytes, Memory.readBytes, ih (by omega) (by omega), show b % physSize = b from Nat.mod_eq_of_lt (by omega),
      Memory.readByte_writeBytes_outside h hend (by omega)]

end Sys2Proof.Machine
end

