-- ==== Sys2Proof/Laws/State.lean ====
section
/-! SUPPORT. One lemma for each field and each named update of the state, so that no proof unfolds a record update; and the
laws of the values kept for each agent and each register. -/

namespace Sys2Proof.Machine

/-! ### One value for each agent or register -/

/-- Reading back what was stored for an agent. -/
@[simp] theorem ByAgent.get_set_self {α : Type} (p : ByAgent α) (a : HostAgent) (x : α) : (p.set a x).get a = x := by
  cases a <;> rfl

/-- Storing for an agent leaves the others. -/
theorem ByAgent.get_set_ne {α : Type} (p : ByAgent α) {a b : HostAgent} (x : α) (h : b ≠ a) :
    (p.set a x).get b = p.get b := by
  cases a <;> cases b <;> first | rfl | exact absurd rfl h

/-- Storing twice for an agent keeps the second value. -/
@[simp] theorem ByAgent.set_set {α : Type} (p : ByAgent α) (a : HostAgent) (x y : α) : (p.set a x).set a y = p.set a y := by
  cases a <;> rfl

/-- Storing what is there changes nothing. -/
@[simp] theorem ByAgent.set_get_self {α : Type} (p : ByAgent α) (a : HostAgent) : p.set a (p.get a) = p := by
  cases a <;> rfl

/-- Reading back what was stored for a register. -/
@[simp] theorem PerReg.get_set_self {α : Type} (p : PerReg α) (r : Reg) (x : α) : (p.set r x).get r = x := by
  cases r <;> rfl

/-- Storing for a register leaves the others. -/
theorem PerReg.get_set_ne {α : Type} (p : PerReg α) {r q : Reg} (x : α) (h : q ≠ r) : (p.set r x).get q = p.get q := by
  cases r <;> cases q <;> first | rfl | exact absurd rfl h

/-- Storing twice for a register keeps the second value. -/
@[simp] theorem PerReg.set_set {α : Type} (p : PerReg α) (r : Reg) (x y : α) : (p.set r x).set r y = p.set r y := by
  cases r <;> rfl

/-- Storing what is there changes nothing. -/
@[simp] theorem PerReg.set_get_self {α : Type} (p : PerReg α) (r : Reg) : p.set r (p.get r) = p := by
  cases r <;> rfl

/-- The same value for every register. -/
@[simp] theorem PerReg.get_const {α : Type} (x : α) (r : Reg) : (PerReg.const x).get r = x := by cases r <;> rfl

/-- Two families of values are equal when they agree at every register. -/
theorem PerReg.ext_get {α : Type} {p q : PerReg α} (h : ∀ r, p.get r = q.get r) : p = q := by
  cases p; cases q
  simp only [PerReg.mk.injEq]
  exact ⟨h .ctrl, h .status, h .eerd, h .icr, h .ims, h .imc, h .rctl, h .tctl, h .rdbal, h .rdbah, h .rdlen, h .rdh, h .rdt,
    h .tdbal, h .tdbah, h .tdlen, h .tdh, h .tdt, h .ral0, h .rah0⟩

/-! ### Work, results and Register objects -/

@[simp] theorem State.work_setWork (s : State) (a : HostAgent) (w : List Micro) : (s.setWork a w).work a = w := by
  simp [State.work, State.setWork]

@[simp] theorem State.work_setRet (s : State) (a b : HostAgent) (r : Ret) : (s.setRet a r).work b = s.work b := by
  cases a <;> cases b <;> rfl

@[simp] theorem State.ret_setRet (s : State) (a : HostAgent) (r : Ret) : (s.setRet a r).ret a = r := by
  simp [State.ret, State.setRet]

@[simp] theorem State.ret_setWork (s : State) (a b : HostAgent) (w : List Micro) : (s.setWork a w).ret b = s.ret b := by
  cases a <;> cases b <;> rfl

@[simp] theorem State.setRet_setRet (s : State) (a : HostAgent) (p q : Ret) : (s.setRet a p).setRet a q = s.setRet a q := by
  cases a <;> rfl

@[simp] theorem State.setWork_setWork (s : State) (a : HostAgent) (v w : List Micro) :
    (s.setWork a v).setWork a w = s.setWork a w := by cases a <;> rfl

@[simp] theorem State.regObj_setRegObj (s : State) (r : Reg) (o : RegObj) : (s.setRegObj r o).regObj r = o := by
  simp [State.regObj, State.setRegObj]

theorem State.regObj_setRegObj_ne (s : State) {r q : Reg} (o : RegObj) (h : q ≠ r) :
    (s.setRegObj r o).regObj q = s.regObj q := by simp [State.regObj, State.setRegObj, PerReg.get_set_ne _ _ h]

@[simp] theorem State.setRegObj_setRegObj (s : State) (r : Reg) (o p : RegObj) :
    (s.setRegObj r o).setRegObj r p = s.setRegObj r p := by simp [State.setRegObj]

/-! ### `raise` -/

@[simp] theorem State.raise_params (s : State) (f : FaultRecord) : (s.raise f).params = s.params := rfl
@[simp] theorem State.raise_regs (s : State) (f : FaultRecord) : (s.raise f).regs = s.regs := rfl
@[simp] theorem State.raise_busMaster (s : State) (f : FaultRecord) : (s.raise f).busMaster = s.busMaster := rfl
@[simp] theorem State.raise_rxFifo (s : State) (f : FaultRecord) : (s.raise f).rxFifo = s.rxFifo := rfl
@[simp] theorem State.raise_ee (s : State) (f : FaultRecord) : (s.raise f).ee = s.ee := rfl
@[simp] theorem State.raise_luPrev (s : State) (f : FaultRecord) : (s.raise f).luPrev = s.luPrev := rfl
@[simp] theorem State.raise_faults (s : State) (f : FaultRecord) : (s.raise f).faults = s.faults ++ [f] := rfl
@[simp] theorem State.raise_mem (s : State) (f : FaultRecord) : (s.raise f).mem = s.mem := rfl
@[simp] theorem State.raise_dma (s : State) (f : FaultRecord) : (s.raise f).dma = s.dma := rfl
@[simp] theorem State.raise_maps (s : State) (f : FaultRecord) : (s.raise f).maps = s.maps := rfl
@[simp] theorem State.raise_drv (s : State) (f : FaultRecord) : (s.raise f).drv = s.drv := rfl
@[simp] theorem State.raise_mapper (s : State) (f : FaultRecord) : (s.raise f).mapper = s.mapper := rfl
@[simp] theorem State.raise_cable (s : State) (f : FaultRecord) : (s.raise f).cable = s.cable := rfl
@[simp] theorem State.raise_wireOut (s : State) (f : FaultRecord) : (s.raise f).wireOut = s.wireOut := rfl
@[simp] theorem State.raise_trace (s : State) (f : FaultRecord) : (s.raise f).trace = s.trace := rfl
@[simp] theorem State.raise_agents (s : State) (f : FaultRecord) : (s.raise f).agents = s.agents := rfl
@[simp] theorem State.raise_cur (s : State) (f : FaultRecord) : (s.raise f).cur = s.cur := rfl
@[simp] theorem State.raise_reply (s : State) (f : FaultRecord) : (s.raise f).reply = s.reply := rfl
@[simp] theorem State.raise_draws (s : State) (f : FaultRecord) : (s.raise f).draws = s.draws := rfl
@[simp] theorem State.raise_turns (s : State) (f : FaultRecord) : (s.raise f).turns = s.turns := rfl
@[simp] theorem State.raise_script (s : State) (f : FaultRecord) : (s.raise f).script = s.script := rfl

/-! ### `setWork` -/

@[simp] theorem State.setWork_params (s : State) (a : HostAgent) (w : List Micro) : (s.setWork a w).params = s.params := rfl
@[simp] theorem State.setWork_regs (s : State) (a : HostAgent) (w : List Micro) : (s.setWork a w).regs = s.regs := rfl
@[simp] theorem State.setWork_busMaster (s : State) (a : HostAgent) (w : List Micro) :
    (s.setWork a w).busMaster = s.busMaster := rfl
@[simp] theorem State.setWork_rxFifo (s : State) (a : HostAgent) (w : List Micro) : (s.setWork a w).rxFifo = s.rxFifo := rfl
@[simp] theorem State.setWork_ee (s : State) (a : HostAgent) (w : List Micro) : (s.setWork a w).ee = s.ee := rfl
@[simp] theorem State.setWork_luPrev (s : State) (a : HostAgent) (w : List Micro) : (s.setWork a w).luPrev = s.luPrev := rfl
@[simp] theorem State.setWork_faults (s : State) (a : HostAgent) (w : List Micro) : (s.setWork a w).faults = s.faults := rfl
@[simp] theorem State.setWork_mem (s : State) (a : HostAgent) (w : List Micro) : (s.setWork a w).mem = s.mem := rfl
@[simp] theorem State.setWork_dma (s : State) (a : HostAgent) (w : List Micro) : (s.setWork a w).dma = s.dma := rfl
@[simp] theorem State.setWork_maps (s : State) (a : HostAgent) (w : List Micro) : (s.setWork a w).maps = s.maps := rfl
@[simp] theorem State.setWork_drv (s : State) (a : HostAgent) (w : List Micro) : (s.setWork a w).drv = s.drv := rfl
@[simp] theorem State.setWork_mapper (s : State) (a : HostAgent) (w : List Micro) : (s.setWork a w).mapper = s.mapper := rfl
@[simp] theorem State.setWork_cable (s : State) (a : HostAgent) (w : List Micro) : (s.setWork a w).cable = s.cable := rfl
@[simp] theorem State.setWork_wireOut (s : State) (a : HostAgent) (w : List Micro) :
    (s.setWork a w).wireOut = s.wireOut := rfl
@[simp] theorem State.setWork_trace (s : State) (a : HostAgent) (w : List Micro) : (s.setWork a w).trace = s.trace := rfl
@[simp] theorem State.setWork_agents (s : State) (a : HostAgent) (w : List Micro) :
    (s.setWork a w).agents = s.agents.set a { s.agents.get a with work := w } := rfl
@[simp] theorem State.setWork_cur (s : State) (a : HostAgent) (w : List Micro) : (s.setWork a w).cur = s.cur := rfl
@[simp] theorem State.setWork_reply (s : State) (a : HostAgent) (w : List Micro) : (s.setWork a w).reply = s.reply := rfl
@[simp] theorem State.setWork_draws (s : State) (a : HostAgent) (w : List Micro) : (s.setWork a w).draws = s.draws := rfl
@[simp] theorem State.setWork_turns (s : State) (a : HostAgent) (w : List Micro) : (s.setWork a w).turns = s.turns := rfl
@[simp] theorem State.setWork_script (s : State) (a : HostAgent) (w : List Micro) : (s.setWork a w).script = s.script := rfl

/-! ### `setRet` -/

@[simp] theorem State.setRet_params (s : State) (a : HostAgent) (r : Ret) : (s.setRet a r).params = s.params := rfl
@[simp] theorem State.setRet_regs (s : State) (a : HostAgent) (r : Ret) : (s.setRet a r).regs = s.regs := rfl
@[simp] theorem State.setRet_busMaster (s : State) (a : HostAgent) (r : Ret) : (s.setRet a r).busMaster = s.busMaster := rfl
@[simp] theorem State.setRet_rxFifo (s : State) (a : HostAgent) (r : Ret) : (s.setRet a r).rxFifo = s.rxFifo := rfl
@[simp] theorem State.setRet_ee (s : State) (a : HostAgent) (r : Ret) : (s.setRet a r).ee = s.ee := rfl
@[simp] theorem State.setRet_luPrev (s : State) (a : HostAgent) (r : Ret) : (s.setRet a r).luPrev = s.luPrev := rfl
@[simp] theorem State.setRet_faults (s : State) (a : HostAgent) (r : Ret) : (s.setRet a r).faults = s.faults := rfl
@[simp] theorem State.setRet_mem (s : State) (a : HostAgent) (r : Ret) : (s.setRet a r).mem = s.mem := rfl
@[simp] theorem State.setRet_dma (s : State) (a : HostAgent) (r : Ret) : (s.setRet a r).dma = s.dma := rfl
@[simp] theorem State.setRet_maps (s : State) (a : HostAgent) (r : Ret) : (s.setRet a r).maps = s.maps := rfl
@[simp] theorem State.setRet_drv (s : State) (a : HostAgent) (r : Ret) : (s.setRet a r).drv = s.drv := rfl
@[simp] theorem State.setRet_mapper (s : State) (a : HostAgent) (r : Ret) : (s.setRet a r).mapper = s.mapper := rfl
@[simp] theorem State.setRet_cable (s : State) (a : HostAgent) (r : Ret) : (s.setRet a r).cable = s.cable := rfl
@[simp] theorem State.setRet_wireOut (s : State) (a : HostAgent) (r : Ret) : (s.setRet a r).wireOut = s.wireOut := rfl
@[simp] theorem State.setRet_trace (s : State) (a : HostAgent) (r : Ret) : (s.setRet a r).trace = s.trace := rfl
@[simp] theorem State.setRet_agents (s : State) (a : HostAgent) (r : Ret) :
    (s.setRet a r).agents = s.agents.set a { s.agents.get a with ret := r } := rfl
@[simp] theorem State.setRet_cur (s : State) (a : HostAgent) (r : Ret) : (s.setRet a r).cur = s.cur := rfl
@[simp] theorem State.setRet_reply (s : State) (a : HostAgent) (r : Ret) : (s.setRet a r).reply = s.reply := rfl
@[simp] theorem State.setRet_draws (s : State) (a : HostAgent) (r : Ret) : (s.setRet a r).draws = s.draws := rfl
@[simp] theorem State.setRet_turns (s : State) (a : HostAgent) (r : Ret) : (s.setRet a r).turns = s.turns := rfl
@[simp] theorem State.setRet_script (s : State) (a : HostAgent) (r : Ret) : (s.setRet a r).script = s.script := rfl

/-! ### `addLog` -/

@[simp] theorem State.addLog_params (s : State) (k : LogKind) (v : Nat) : (s.addLog k v).params = s.params := rfl
@[simp] theorem State.addLog_regs (s : State) (k : LogKind) (v : Nat) : (s.addLog k v).regs = s.regs := rfl
@[simp] theorem State.addLog_busMaster (s : State) (k : LogKind) (v : Nat) : (s.addLog k v).busMaster = s.busMaster := rfl
@[simp] theorem State.addLog_rxFifo (s : State) (k : LogKind) (v : Nat) : (s.addLog k v).rxFifo = s.rxFifo := rfl
@[simp] theorem State.addLog_ee (s : State) (k : LogKind) (v : Nat) : (s.addLog k v).ee = s.ee := rfl
@[simp] theorem State.addLog_luPrev (s : State) (k : LogKind) (v : Nat) : (s.addLog k v).luPrev = s.luPrev := rfl
@[simp] theorem State.addLog_faults (s : State) (k : LogKind) (v : Nat) : (s.addLog k v).faults = s.faults := rfl
@[simp] theorem State.addLog_mem (s : State) (k : LogKind) (v : Nat) : (s.addLog k v).mem = s.mem := rfl
@[simp] theorem State.addLog_dma (s : State) (k : LogKind) (v : Nat) : (s.addLog k v).dma = s.dma := rfl
@[simp] theorem State.addLog_maps (s : State) (k : LogKind) (v : Nat) : (s.addLog k v).maps = s.maps := rfl
@[simp] theorem State.addLog_drv (s : State) (k : LogKind) (v : Nat) :
    (s.addLog k v).drv = { s.drv with log := s.drv.log ++ [⟨k, v⟩] } := rfl
@[simp] theorem State.addLog_mapper (s : State) (k : LogKind) (v : Nat) : (s.addLog k v).mapper = s.mapper := rfl
@[simp] theorem State.addLog_cable (s : State) (k : LogKind) (v : Nat) : (s.addLog k v).cable = s.cable := rfl
@[simp] theorem State.addLog_wireOut (s : State) (k : LogKind) (v : Nat) : (s.addLog k v).wireOut = s.wireOut := rfl
@[simp] theorem State.addLog_trace (s : State) (k : LogKind) (v : Nat) : (s.addLog k v).trace = s.trace := rfl
@[simp] theorem State.addLog_agents (s : State) (k : LogKind) (v : Nat) : (s.addLog k v).agents = s.agents := rfl
@[simp] theorem State.addLog_cur (s : State) (k : LogKind) (v : Nat) : (s.addLog k v).cur = s.cur := rfl
@[simp] theorem State.addLog_reply (s : State) (k : LogKind) (v : Nat) : (s.addLog k v).reply = s.reply := rfl
@[simp] theorem State.addLog_draws (s : State) (k : LogKind) (v : Nat) : (s.addLog k v).draws = s.draws := rfl
@[simp] theorem State.addLog_turns (s : State) (k : LogKind) (v : Nat) : (s.addLog k v).turns = s.turns := rfl
@[simp] theorem State.addLog_script (s : State) (k : LogKind) (v : Nat) : (s.addLog k v).script = s.script := rfl

/-! ### `addTrace` -/

@[simp] theorem State.addTrace_params (s : State) (k : TraceCode) (v : Nat) : (s.addTrace k v).params = s.params := rfl
@[simp] theorem State.addTrace_regs (s : State) (k : TraceCode) (v : Nat) : (s.addTrace k v).regs = s.regs := rfl
@[simp] theorem State.addTrace_busMaster (s : State) (k : TraceCode) (v : Nat) :
    (s.addTrace k v).busMaster = s.busMaster := rfl
@[simp] theorem State.addTrace_rxFifo (s : State) (k : TraceCode) (v : Nat) : (s.addTrace k v).rxFifo = s.rxFifo := rfl
@[simp] theorem State.addTrace_ee (s : State) (k : TraceCode) (v : Nat) : (s.addTrace k v).ee = s.ee := rfl
@[simp] theorem State.addTrace_luPrev (s : State) (k : TraceCode) (v : Nat) : (s.addTrace k v).luPrev = s.luPrev := rfl
@[simp] theorem State.addTrace_faults (s : State) (k : TraceCode) (v : Nat) : (s.addTrace k v).faults = s.faults := rfl
@[simp] theorem State.addTrace_mem (s : State) (k : TraceCode) (v : Nat) : (s.addTrace k v).mem = s.mem := rfl
@[simp] theorem State.addTrace_dma (s : State) (k : TraceCode) (v : Nat) : (s.addTrace k v).dma = s.dma := rfl
@[simp] theorem State.addTrace_maps (s : State) (k : TraceCode) (v : Nat) : (s.addTrace k v).maps = s.maps := rfl
@[simp] theorem State.addTrace_drv (s : State) (k : TraceCode) (v : Nat) : (s.addTrace k v).drv = s.drv := rfl
@[simp] theorem State.addTrace_mapper (s : State) (k : TraceCode) (v : Nat) : (s.addTrace k v).mapper = s.mapper := rfl
@[simp] theorem State.addTrace_cable (s : State) (k : TraceCode) (v : Nat) : (s.addTrace k v).cable = s.cable := rfl
@[simp] theorem State.addTrace_wireOut (s : State) (k : TraceCode) (v : Nat) : (s.addTrace k v).wireOut = s.wireOut := rfl
@[simp] theorem State.addTrace_trace (s : State) (k : TraceCode) (v : Nat) :
    (s.addTrace k v).trace = s.trace ++ [⟨k, v⟩] := rfl
@[simp] theorem State.addTrace_agents (s : State) (k : TraceCode) (v : Nat) : (s.addTrace k v).agents = s.agents := rfl
@[simp] theorem State.addTrace_cur (s : State) (k : TraceCode) (v : Nat) : (s.addTrace k v).cur = s.cur := rfl
@[simp] theorem State.addTrace_reply (s : State) (k : TraceCode) (v : Nat) : (s.addTrace k v).reply = s.reply := rfl
@[simp] theorem State.addTrace_draws (s : State) (k : TraceCode) (v : Nat) : (s.addTrace k v).draws = s.draws := rfl
@[simp] theorem State.addTrace_turns (s : State) (k : TraceCode) (v : Nat) : (s.addTrace k v).turns = s.turns := rfl
@[simp] theorem State.addTrace_script (s : State) (k : TraceCode) (v : Nat) : (s.addTrace k v).script = s.script := rfl

/-! ### `isrEnter` -/

@[simp] theorem State.isrEnter_params (s : State) : (s.isrEnter).params = s.params := rfl
@[simp] theorem State.isrEnter_regs (s : State) : (s.isrEnter).regs = s.regs := rfl
@[simp] theorem State.isrEnter_busMaster (s : State) : (s.isrEnter).busMaster = s.busMaster := rfl
@[simp] theorem State.isrEnter_rxFifo (s : State) : (s.isrEnter).rxFifo = s.rxFifo := rfl
@[simp] theorem State.isrEnter_ee (s : State) : (s.isrEnter).ee = s.ee := rfl
@[simp] theorem State.isrEnter_luPrev (s : State) : (s.isrEnter).luPrev = s.luPrev := rfl
@[simp] theorem State.isrEnter_faults (s : State) : (s.isrEnter).faults = s.faults := rfl
@[simp] theorem State.isrEnter_mem (s : State) : (s.isrEnter).mem = s.mem := rfl
@[simp] theorem State.isrEnter_dma (s : State) : (s.isrEnter).dma = s.dma := rfl
@[simp] theorem State.isrEnter_maps (s : State) : (s.isrEnter).maps = s.maps := rfl
@[simp] theorem State.isrEnter_drv (s : State) : (s.isrEnter).drv = { s.drv with isrActive := true } := rfl
@[simp] theorem State.isrEnter_mapper (s : State) : (s.isrEnter).mapper = s.mapper := rfl
@[simp] theorem State.isrEnter_cable (s : State) : (s.isrEnter).cable = s.cable := rfl
@[simp] theorem State.isrEnter_wireOut (s : State) : (s.isrEnter).wireOut = s.wireOut := rfl
@[simp] theorem State.isrEnter_trace (s : State) : (s.isrEnter).trace = s.trace := rfl
@[simp] theorem State.isrEnter_agents (s : State) : (s.isrEnter).agents = s.agents := rfl
@[simp] theorem State.isrEnter_cur (s : State) : (s.isrEnter).cur = s.cur := rfl
@[simp] theorem State.isrEnter_reply (s : State) : (s.isrEnter).reply = s.reply := rfl
@[simp] theorem State.isrEnter_draws (s : State) : (s.isrEnter).draws = s.draws := rfl
@[simp] theorem State.isrEnter_turns (s : State) : (s.isrEnter).turns = s.turns := rfl
@[simp] theorem State.isrEnter_script (s : State) : (s.isrEnter).script = s.script := rfl

/-! ### `isrReturn` -/

@[simp] theorem State.isrReturn_params (s : State) : (s.isrReturn).params = s.params := rfl
@[simp] theorem State.isrReturn_regs (s : State) : (s.isrReturn).regs = s.regs := rfl
@[simp] theorem State.isrReturn_busMaster (s : State) : (s.isrReturn).busMaster = s.busMaster := rfl
@[simp] theorem State.isrReturn_rxFifo (s : State) : (s.isrReturn).rxFifo = s.rxFifo := rfl
@[simp] theorem State.isrReturn_ee (s : State) : (s.isrReturn).ee = s.ee := rfl
@[simp] theorem State.isrReturn_luPrev (s : State) : (s.isrReturn).luPrev = s.luPrev := rfl
@[simp] theorem State.isrReturn_faults (s : State) : (s.isrReturn).faults = s.faults := rfl
@[simp] theorem State.isrReturn_mem (s : State) : (s.isrReturn).mem = s.mem := rfl
@[simp] theorem State.isrReturn_dma (s : State) : (s.isrReturn).dma = s.dma := rfl
@[simp] theorem State.isrReturn_maps (s : State) : (s.isrReturn).maps = s.maps := rfl
@[simp] theorem State.isrReturn_drv (s : State) : (s.isrReturn).drv = { s.drv with isrActive := false } := rfl
@[simp] theorem State.isrReturn_mapper (s : State) : (s.isrReturn).mapper = s.mapper := rfl
@[simp] theorem State.isrReturn_cable (s : State) : (s.isrReturn).cable = s.cable := rfl
@[simp] theorem State.isrReturn_wireOut (s : State) : (s.isrReturn).wireOut = s.wireOut := rfl
@[simp] theorem State.isrReturn_trace (s : State) : (s.isrReturn).trace = s.trace := rfl
@[simp] theorem State.isrReturn_agents (s : State) : (s.isrReturn).agents = s.agents := rfl
@[simp] theorem State.isrReturn_cur (s : State) : (s.isrReturn).cur = s.cur := rfl
@[simp] theorem State.isrReturn_reply (s : State) : (s.isrReturn).reply = s.reply := rfl
@[simp] theorem State.isrReturn_draws (s : State) : (s.isrReturn).draws = s.draws := rfl
@[simp] theorem State.isrReturn_turns (s : State) : (s.isrReturn).turns = s.turns := rfl
@[simp] theorem State.isrReturn_script (s : State) : (s.isrReturn).script = s.script := rfl

/-! ### `refuse` -/

@[simp] theorem State.refuse_params (s : State) : (s.refuse).params = s.params := rfl
@[simp] theorem State.refuse_regs (s : State) : (s.refuse).regs = s.regs := rfl
@[simp] theorem State.refuse_busMaster (s : State) : (s.refuse).busMaster = s.busMaster := rfl
@[simp] theorem State.refuse_rxFifo (s : State) : (s.refuse).rxFifo = s.rxFifo := rfl
@[simp] theorem State.refuse_ee (s : State) : (s.refuse).ee = s.ee := rfl
@[simp] theorem State.refuse_luPrev (s : State) : (s.refuse).luPrev = s.luPrev := rfl
@[simp] theorem State.refuse_faults (s : State) : (s.refuse).faults = s.faults := rfl
@[simp] theorem State.refuse_mem (s : State) : (s.refuse).mem = s.mem := rfl
@[simp] theorem State.refuse_dma (s : State) : (s.refuse).dma = s.dma := rfl
@[simp] theorem State.refuse_maps (s : State) : (s.refuse).maps = s.maps := rfl
@[simp] theorem State.refuse_drv (s : State) : (s.refuse).drv = s.drv := rfl
@[simp] theorem State.refuse_mapper (s : State) : (s.refuse).mapper = s.mapper := rfl
@[simp] theorem State.refuse_cable (s : State) : (s.refuse).cable = s.cable := rfl
@[simp] theorem State.refuse_wireOut (s : State) : (s.refuse).wireOut = s.wireOut := rfl
@[simp] theorem State.refuse_trace (s : State) : (s.refuse).trace = s.trace := rfl
@[simp] theorem State.refuse_agents (s : State) :
    (s.refuse).agents = s.agents.set s.cur { s.agents.get s.cur with ret := .refused } := rfl
@[simp] theorem State.refuse_cur (s : State) : (s.refuse).cur = s.cur := rfl
@[simp] theorem State.refuse_reply (s : State) : (s.refuse).reply = s.reply := rfl
@[simp] theorem State.refuse_draws (s : State) : (s.refuse).draws = s.draws := rfl
@[simp] theorem State.refuse_turns (s : State) : (s.refuse).turns = s.turns := rfl
@[simp] theorem State.refuse_script (s : State) : (s.refuse).script = s.script := rfl

/-! ### `addRegion` -/

@[simp] theorem State.addRegion_params (s : State) (b l : Nat) (u : RegionUse) : (s.addRegion b l u).params = s.params := rfl
@[simp] theorem State.addRegion_regs (s : State) (b l : Nat) (u : RegionUse) : (s.addRegion b l u).regs = s.regs := rfl
@[simp] theorem State.addRegion_busMaster (s : State) (b l : Nat) (u : RegionUse) :
    (s.addRegion b l u).busMaster = s.busMaster := rfl
@[simp] theorem State.addRegion_rxFifo (s : State) (b l : Nat) (u : RegionUse) : (s.addRegion b l u).rxFifo = s.rxFifo := rfl
@[simp] theorem State.addRegion_ee (s : State) (b l : Nat) (u : RegionUse) : (s.addRegion b l u).ee = s.ee := rfl
@[simp] theorem State.addRegion_luPrev (s : State) (b l : Nat) (u : RegionUse) : (s.addRegion b l u).luPrev = s.luPrev := rfl
@[simp] theorem State.addRegion_faults (s : State) (b l : Nat) (u : RegionUse) : (s.addRegion b l u).faults = s.faults := rfl
@[simp] theorem State.addRegion_mem (s : State) (b l : Nat) (u : RegionUse) : (s.addRegion b l u).mem = s.mem := rfl
@[simp] theorem State.addRegion_dma (s : State) (b l : Nat) (u : RegionUse) :
    (s.addRegion b l u).dma = s.dma ++ [⟨b, l, u⟩] := rfl
@[simp] theorem State.addRegion_maps (s : State) (b l : Nat) (u : RegionUse) : (s.addRegion b l u).maps = s.maps := rfl
@[simp] theorem State.addRegion_drv (s : State) (b l : Nat) (u : RegionUse) : (s.addRegion b l u).drv = s.drv := rfl
@[simp] theorem State.addRegion_mapper (s : State) (b l : Nat) (u : RegionUse) : (s.addRegion b l u).mapper = s.mapper := rfl
@[simp] theorem State.addRegion_cable (s : State) (b l : Nat) (u : RegionUse) : (s.addRegion b l u).cable = s.cable := rfl
@[simp] theorem State.addRegion_wireOut (s : State) (b l : Nat) (u : RegionUse) :
    (s.addRegion b l u).wireOut = s.wireOut := rfl
@[simp] theorem State.addRegion_trace (s : State) (b l : Nat) (u : RegionUse) : (s.addRegion b l u).trace = s.trace := rfl
@[simp] theorem State.addRegion_agents (s : State) (b l : Nat) (u : RegionUse) : (s.addRegion b l u).agents = s.agents := rfl
@[simp] theorem State.addRegion_cur (s : State) (b l : Nat) (u : RegionUse) : (s.addRegion b l u).cur = s.cur := rfl
@[simp] theorem State.addRegion_reply (s : State) (b l : Nat) (u : RegionUse) : (s.addRegion b l u).reply = s.reply := rfl
@[simp] theorem State.addRegion_draws (s : State) (b l : Nat) (u : RegionUse) : (s.addRegion b l u).draws = s.draws := rfl
@[simp] theorem State.addRegion_turns (s : State) (b l : Nat) (u : RegionUse) : (s.addRegion b l u).turns = s.turns := rfl
@[simp] theorem State.addRegion_script (s : State) (b l : Nat) (u : RegionUse) : (s.addRegion b l u).script = s.script := rfl

/-! ### `removeRegion` -/

@[simp] theorem State.removeRegion_params (s : State) (b l : Nat) (u : RegionUse) :
    (s.removeRegion b l u).params = s.params := rfl
@[simp] theorem State.removeRegion_regs (s : State) (b l : Nat) (u : RegionUse) : (s.removeRegion b l u).regs = s.regs := rfl
@[simp] theorem State.removeRegion_busMaster (s : State) (b l : Nat) (u : RegionUse) :
    (s.removeRegion b l u).busMaster = s.busMaster := rfl
@[simp] theorem State.removeRegion_rxFifo (s : State) (b l : Nat) (u : RegionUse) :
    (s.removeRegion b l u).rxFifo = s.rxFifo := rfl
@[simp] theorem State.removeRegion_ee (s : State) (b l : Nat) (u : RegionUse) : (s.removeRegion b l u).ee = s.ee := rfl
@[simp] theorem State.removeRegion_luPrev (s : State) (b l : Nat) (u : RegionUse) :
    (s.removeRegion b l u).luPrev = s.luPrev := rfl
@[simp] theorem State.removeRegion_faults (s : State) (b l : Nat) (u : RegionUse) :
    (s.removeRegion b l u).faults = s.faults := rfl
@[simp] theorem State.removeRegion_mem (s : State) (b l : Nat) (u : RegionUse) : (s.removeRegion b l u).mem = s.mem := rfl
@[simp] theorem State.removeRegion_dma (s : State) (b l : Nat) (u : RegionUse) :
    (s.removeRegion b l u).dma = s.dma.erase ⟨b, l, u⟩ := rfl
@[simp] theorem State.removeRegion_maps (s : State) (b l : Nat) (u : RegionUse) : (s.removeRegion b l u).maps = s.maps := rfl
@[simp] theorem State.removeRegion_drv (s : State) (b l : Nat) (u : RegionUse) : (s.removeRegion b l u).drv = s.drv := rfl
@[simp] theorem State.removeRegion_mapper (s : State) (b l : Nat) (u : RegionUse) :
    (s.removeRegion b l u).mapper = s.mapper := rfl
@[simp] theorem State.removeRegion_cable (s : State) (b l : Nat) (u : RegionUse) :
    (s.removeRegion b l u).cable = s.cable := rfl
@[simp] theorem State.removeRegion_wireOut (s : State) (b l : Nat) (u : RegionUse) :
    (s.removeRegion b l u).wireOut = s.wireOut := rfl
@[simp] theorem State.removeRegion_trace (s : State) (b l : Nat) (u : RegionUse) :
    (s.removeRegion b l u).trace = s.trace := rfl
@[simp] theorem State.removeRegion_agents (s : State) (b l : Nat) (u : RegionUse) :
    (s.removeRegion b l u).agents = s.agents := rfl
@[simp] theorem State.removeRegion_cur (s : State) (b l : Nat) (u : RegionUse) : (s.removeRegion b l u).cur = s.cur := rfl
@[simp] theorem State.removeRegion_reply (s : State) (b l : Nat) (u : RegionUse) :
    (s.removeRegion b l u).reply = s.reply := rfl
@[simp] theorem State.removeRegion_draws (s : State) (b l : Nat) (u : RegionUse) :
    (s.removeRegion b l u).draws = s.draws := rfl
@[simp] theorem State.removeRegion_turns (s : State) (b l : Nat) (u : RegionUse) :
    (s.removeRegion b l u).turns = s.turns := rfl
@[simp] theorem State.removeRegion_script (s : State) (b l : Nat) (u : RegionUse) :
    (s.removeRegion b l u).script = s.script := rfl

/-! ### `setCause` -/

@[simp] theorem State.setCause_params (s : State) (k : Nat) : (s.setCause k).params = s.params := rfl
@[simp] theorem State.setCause_regs (s : State) (k : Nat) :
    (s.setCause k).regs = { s.regs with icr := s.regs.icr ||| bit k } := rfl
@[simp] theorem State.setCause_busMaster (s : State) (k : Nat) : (s.setCause k).busMaster = s.busMaster := rfl
@[simp] theorem State.setCause_rxFifo (s : State) (k : Nat) : (s.setCause k).rxFifo = s.rxFifo := rfl
@[simp] theorem State.setCause_ee (s : State) (k : Nat) : (s.setCause k).ee = s.ee := rfl
@[simp] theorem State.setCause_luPrev (s : State) (k : Nat) : (s.setCause k).luPrev = s.luPrev := rfl
@[simp] theorem State.setCause_faults (s : State) (k : Nat) : (s.setCause k).faults = s.faults := rfl
@[simp] theorem State.setCause_mem (s : State) (k : Nat) : (s.setCause k).mem = s.mem := rfl
@[simp] theorem State.setCause_dma (s : State) (k : Nat) : (s.setCause k).dma = s.dma := rfl
@[simp] theorem State.setCause_maps (s : State) (k : Nat) : (s.setCause k).maps = s.maps := rfl
@[simp] theorem State.setCause_drv (s : State) (k : Nat) : (s.setCause k).drv = s.drv := rfl
@[simp] theorem State.setCause_mapper (s : State) (k : Nat) : (s.setCause k).mapper = s.mapper := rfl
@[simp] theorem State.setCause_cable (s : State) (k : Nat) : (s.setCause k).cable = s.cable := rfl
@[simp] theorem State.setCause_wireOut (s : State) (k : Nat) : (s.setCause k).wireOut = s.wireOut := rfl
@[simp] theorem State.setCause_trace (s : State) (k : Nat) : (s.setCause k).trace = s.trace := rfl
@[simp] theorem State.setCause_agents (s : State) (k : Nat) : (s.setCause k).agents = s.agents := rfl
@[simp] theorem State.setCause_cur (s : State) (k : Nat) : (s.setCause k).cur = s.cur := rfl
@[simp] theorem State.setCause_reply (s : State) (k : Nat) : (s.setCause k).reply = s.reply := rfl
@[simp] theorem State.setCause_draws (s : State) (k : Nat) : (s.setCause k).draws = s.draws := rfl
@[simp] theorem State.setCause_turns (s : State) (k : Nat) : (s.setCause k).turns = s.turns := rfl
@[simp] theorem State.setCause_script (s : State) (k : Nat) : (s.setCause k).script = s.script := rfl

/-! ### `setRegObj` -/

@[simp] theorem State.setRegObj_params (s : State) (r : Reg) (o : RegObj) : (s.setRegObj r o).params = s.params := rfl
@[simp] theorem State.setRegObj_regs (s : State) (r : Reg) (o : RegObj) : (s.setRegObj r o).regs = s.regs := rfl
@[simp] theorem State.setRegObj_busMaster (s : State) (r : Reg) (o : RegObj) :
    (s.setRegObj r o).busMaster = s.busMaster := rfl
@[simp] theorem State.setRegObj_rxFifo (s : State) (r : Reg) (o : RegObj) : (s.setRegObj r o).rxFifo = s.rxFifo := rfl
@[simp] theorem State.setRegObj_ee (s : State) (r : Reg) (o : RegObj) : (s.setRegObj r o).ee = s.ee := rfl
@[simp] theorem State.setRegObj_luPrev (s : State) (r : Reg) (o : RegObj) : (s.setRegObj r o).luPrev = s.luPrev := rfl
@[simp] theorem State.setRegObj_faults (s : State) (r : Reg) (o : RegObj) : (s.setRegObj r o).faults = s.faults := rfl
@[simp] theorem State.setRegObj_mem (s : State) (r : Reg) (o : RegObj) : (s.setRegObj r o).mem = s.mem := rfl
@[simp] theorem State.setRegObj_dma (s : State) (r : Reg) (o : RegObj) : (s.setRegObj r o).dma = s.dma := rfl
@[simp] theorem State.setRegObj_maps (s : State) (r : Reg) (o : RegObj) : (s.setRegObj r o).maps = s.maps := rfl
@[simp] theorem State.setRegObj_drv (s : State) (r : Reg) (o : RegObj) : (s.setRegObj r o).drv = s.drv := rfl
@[simp] theorem State.setRegObj_mapper (s : State) (r : Reg) (o : RegObj) :
    (s.setRegObj r o).mapper = s.mapper.set r o := rfl
@[simp] theorem State.setRegObj_cable (s : State) (r : Reg) (o : RegObj) : (s.setRegObj r o).cable = s.cable := rfl
@[simp] theorem State.setRegObj_wireOut (s : State) (r : Reg) (o : RegObj) : (s.setRegObj r o).wireOut = s.wireOut := rfl
@[simp] theorem State.setRegObj_trace (s : State) (r : Reg) (o : RegObj) : (s.setRegObj r o).trace = s.trace := rfl
@[simp] theorem State.setRegObj_agents (s : State) (r : Reg) (o : RegObj) : (s.setRegObj r o).agents = s.agents := rfl
@[simp] theorem State.setRegObj_cur (s : State) (r : Reg) (o : RegObj) : (s.setRegObj r o).cur = s.cur := rfl
@[simp] theorem State.setRegObj_reply (s : State) (r : Reg) (o : RegObj) : (s.setRegObj r o).reply = s.reply := rfl
@[simp] theorem State.setRegObj_draws (s : State) (r : Reg) (o : RegObj) : (s.setRegObj r o).draws = s.draws := rfl
@[simp] theorem State.setRegObj_turns (s : State) (r : Reg) (o : RegObj) : (s.setRegObj r o).turns = s.turns := rfl
@[simp] theorem State.setRegObj_script (s : State) (r : Reg) (o : RegObj) : (s.setRegObj r o).script = s.script := rfl

/-! ### `putBytes` -/

@[simp] theorem State.putBytes_params (s : State) (a : Nat) (bs : List Byte) : (s.putBytes a bs).params = s.params := rfl
@[simp] theorem State.putBytes_regs (s : State) (a : Nat) (bs : List Byte) : (s.putBytes a bs).regs = s.regs := rfl
@[simp] theorem State.putBytes_busMaster (s : State) (a : Nat) (bs : List Byte) : (s.putBytes a bs).busMaster = s.busMaster := rfl
@[simp] theorem State.putBytes_rxFifo (s : State) (a : Nat) (bs : List Byte) : (s.putBytes a bs).rxFifo = s.rxFifo := rfl
@[simp] theorem State.putBytes_ee (s : State) (a : Nat) (bs : List Byte) : (s.putBytes a bs).ee = s.ee := rfl
@[simp] theorem State.putBytes_luPrev (s : State) (a : Nat) (bs : List Byte) : (s.putBytes a bs).luPrev = s.luPrev := rfl
@[simp] theorem State.putBytes_faults (s : State) (a : Nat) (bs : List Byte) : (s.putBytes a bs).faults = s.faults := rfl
@[simp] theorem State.putBytes_mem (s : State) (a : Nat) (bs : List Byte) : (s.putBytes a bs).mem = s.mem.writeBytes a bs := rfl
@[simp] theorem State.putBytes_dma (s : State) (a : Nat) (bs : List Byte) : (s.putBytes a bs).dma = s.dma := rfl
@[simp] theorem State.putBytes_maps (s : State) (a : Nat) (bs : List Byte) : (s.putBytes a bs).maps = s.maps := rfl
@[simp] theorem State.putBytes_drv (s : State) (a : Nat) (bs : List Byte) : (s.putBytes a bs).drv = s.drv := rfl
@[simp] theorem State.putBytes_mapper (s : State) (a : Nat) (bs : List Byte) : (s.putBytes a bs).mapper = s.mapper := rfl
@[simp] theorem State.putBytes_cable (s : State) (a : Nat) (bs : List Byte) : (s.putBytes a bs).cable = s.cable := rfl
@[simp] theorem State.putBytes_wireOut (s : State) (a : Nat) (bs : List Byte) : (s.putBytes a bs).wireOut = s.wireOut := rfl
@[simp] theorem State.putBytes_trace (s : State) (a : Nat) (bs : List Byte) : (s.putBytes a bs).trace = s.trace := rfl
@[simp] theorem State.putBytes_agents (s : State) (a : Nat) (bs : List Byte) : (s.putBytes a bs).agents = s.agents := rfl
@[simp] theorem State.putBytes_cur (s : State) (a : Nat) (bs : List Byte) : (s.putBytes a bs).cur = s.cur := rfl
@[simp] theorem State.putBytes_reply (s : State) (a : Nat) (bs : List Byte) : (s.putBytes a bs).reply = s.reply := rfl
@[simp] theorem State.putBytes_draws (s : State) (a : Nat) (bs : List Byte) : (s.putBytes a bs).draws = s.draws := rfl
@[simp] theorem State.putBytes_turns (s : State) (a : Nat) (bs : List Byte) : (s.putBytes a bs).turns = s.turns := rfl
@[simp] theorem State.putBytes_script (s : State) (a : Nat) (bs : List Byte) : (s.putBytes a bs).script = s.script := rfl

/-- Who owns which descriptor does not depend on memory. -/
@[simp] theorem State.putBytes_meetsOwned (s : State) (a : Nat) (bs : List Byte) (b n : Nat) :
    (s.putBytes a bs).meetsOwned b n = s.meetsOwned b n := rfl
@[simp] theorem State.putBytes_descAddr (s : State) (a : Nat) (bs : List Byte) (t : Ring) (i off : Nat) :
    (s.putBytes a bs).descAddr t i off = s.descAddr t i off := rfl

/-! ### `setNext` -/

@[simp] theorem State.setNext_params (s : State) (t : Ring) : (s.setNext t).params = s.params := by cases t <;> rfl
@[simp] theorem State.setNext_regs (s : State) (t : Ring) : (s.setNext t).regs = s.regs := by cases t <;> rfl
@[simp] theorem State.setNext_busMaster (s : State) (t : Ring) : (s.setNext t).busMaster = s.busMaster := by cases t <;> rfl
@[simp] theorem State.setNext_rxFifo (s : State) (t : Ring) : (s.setNext t).rxFifo = s.rxFifo := by cases t <;> rfl
@[simp] theorem State.setNext_ee (s : State) (t : Ring) : (s.setNext t).ee = s.ee := by cases t <;> rfl
@[simp] theorem State.setNext_luPrev (s : State) (t : Ring) : (s.setNext t).luPrev = s.luPrev := by cases t <;> rfl
@[simp] theorem State.setNext_faults (s : State) (t : Ring) : (s.setNext t).faults = s.faults := by cases t <;> rfl
@[simp] theorem State.setNext_mem (s : State) (t : Ring) : (s.setNext t).mem = s.mem := by cases t <;> rfl
@[simp] theorem State.setNext_dma (s : State) (t : Ring) : (s.setNext t).dma = s.dma := by cases t <;> rfl
@[simp] theorem State.setNext_maps (s : State) (t : Ring) : (s.setNext t).maps = s.maps := by cases t <;> rfl
@[simp] theorem State.setNext_mapper (s : State) (t : Ring) : (s.setNext t).mapper = s.mapper := by cases t <;> rfl
@[simp] theorem State.setNext_cable (s : State) (t : Ring) : (s.setNext t).cable = s.cable := by cases t <;> rfl
@[simp] theorem State.setNext_wireOut (s : State) (t : Ring) : (s.setNext t).wireOut = s.wireOut := by cases t <;> rfl
@[simp] theorem State.setNext_trace (s : State) (t : Ring) : (s.setNext t).trace = s.trace := by cases t <;> rfl
@[simp] theorem State.setNext_agents (s : State) (t : Ring) : (s.setNext t).agents = s.agents := by cases t <;> rfl
@[simp] theorem State.setNext_cur (s : State) (t : Ring) : (s.setNext t).cur = s.cur := by cases t <;> rfl
@[simp] theorem State.setNext_reply (s : State) (t : Ring) : (s.setNext t).reply = s.reply := by cases t <;> rfl
@[simp] theorem State.setNext_draws (s : State) (t : Ring) : (s.setNext t).draws = s.draws := by cases t <;> rfl
@[simp] theorem State.setNext_turns (s : State) (t : Ring) : (s.setNext t).turns = s.turns := by cases t <;> rfl
@[simp] theorem State.setNext_script (s : State) (t : Ring) : (s.setNext t).script = s.script := by cases t <;> rfl

/-! ### `setTailShadow` -/

@[simp] theorem State.setTailShadow_params (s : State) (t : Ring) (n : Nat) :
    (s.setTailShadow t n).params = s.params := by cases t <;> rfl
@[simp] theorem State.setTailShadow_regs (s : State) (t : Ring) (n : Nat) :
    (s.setTailShadow t n).regs = s.regs := by cases t <;> rfl
@[simp] theorem State.setTailShadow_busMaster (s : State) (t : Ring) (n : Nat) :
    (s.setTailShadow t n).busMaster = s.busMaster := by cases t <;> rfl
@[simp] theorem State.setTailShadow_rxFifo (s : State) (t : Ring) (n : Nat) :
    (s.setTailShadow t n).rxFifo = s.rxFifo := by cases t <;> rfl
@[simp] theorem State.setTailShadow_ee (s : State) (t : Ring) (n : Nat) :
    (s.setTailShadow t n).ee = s.ee := by cases t <;> rfl
@[simp] theorem State.setTailShadow_luPrev (s : State) (t : Ring) (n : Nat) :
    (s.setTailShadow t n).luPrev = s.luPrev := by cases t <;> rfl
@[simp] theorem State.setTailShadow_faults (s : State) (t : Ring) (n : Nat) :
    (s.setTailShadow t n).faults = s.faults := by cases t <;> rfl
@[simp] theorem State.setTailShadow_mem (s : State) (t : Ring) (n : Nat) :
    (s.setTailShadow t n).mem = s.mem := by cases t <;> rfl
@[simp] theorem State.setTailShadow_dma (s : State) (t : Ring) (n : Nat) :
    (s.setTailShadow t n).dma = s.dma := by cases t <;> rfl
@[simp] theorem State.setTailShadow_maps (s : State) (t : Ring) (n : Nat) :
    (s.setTailShadow t n).maps = s.maps := by cases t <;> rfl
@[simp] theorem State.setTailShadow_mapper (s : State) (t : Ring) (n : Nat) :
    (s.setTailShadow t n).mapper = s.mapper := by cases t <;> rfl
@[simp] theorem State.setTailShadow_cable (s : State) (t : Ring) (n : Nat) :
    (s.setTailShadow t n).cable = s.cable := by cases t <;> rfl
@[simp] theorem State.setTailShadow_wireOut (s : State) (t : Ring) (n : Nat) :
    (s.setTailShadow t n).wireOut = s.wireOut := by cases t <;> rfl
@[simp] theorem State.setTailShadow_trace (s : State) (t : Ring) (n : Nat) :
    (s.setTailShadow t n).trace = s.trace := by cases t <;> rfl
@[simp] theorem State.setTailShadow_agents (s : State) (t : Ring) (n : Nat) :
    (s.setTailShadow t n).agents = s.agents := by cases t <;> rfl
@[simp] theorem State.setTailShadow_cur (s : State) (t : Ring) (n : Nat) :
    (s.setTailShadow t n).cur = s.cur := by cases t <;> rfl
@[simp] theorem State.setTailShadow_reply (s : State) (t : Ring) (n : Nat) :
    (s.setTailShadow t n).reply = s.reply := by cases t <;> rfl
@[simp] theorem State.setTailShadow_draws (s : State) (t : Ring) (n : Nat) :
    (s.setTailShadow t n).draws = s.draws := by cases t <;> rfl
@[simp] theorem State.setTailShadow_turns (s : State) (t : Ring) (n : Nat) :
    (s.setTailShadow t n).turns = s.turns := by cases t <;> rfl
@[simp] theorem State.setTailShadow_script (s : State) (t : Ring) (n : Nat) :
    (s.setTailShadow t n).script = s.script := by cases t <;> rfl

/-! ### `setCursor` -/

@[simp] theorem State.setCursor_params (s : State) (t : Ring) (n : Nat) :
    (s.setCursor t n).params = s.params := by cases t <;> rfl
@[simp] theorem State.setCursor_regs (s : State) (t : Ring) (n : Nat) : (s.setCursor t n).regs = s.regs := by cases t <;> rfl
@[simp] theorem State.setCursor_busMaster (s : State) (t : Ring) (n : Nat) :
    (s.setCursor t n).busMaster = s.busMaster := by cases t <;> rfl
@[simp] theorem State.setCursor_rxFifo (s : State) (t : Ring) (n : Nat) :
    (s.setCursor t n).rxFifo = s.rxFifo := by cases t <;> rfl
@[simp] theorem State.setCursor_ee (s : State) (t : Ring) (n : Nat) : (s.setCursor t n).ee = s.ee := by cases t <;> rfl
@[simp] theorem State.setCursor_luPrev (s : State) (t : Ring) (n : Nat) :
    (s.setCursor t n).luPrev = s.luPrev := by cases t <;> rfl
@[simp] theorem State.setCursor_faults (s : State) (t : Ring) (n : Nat) :
    (s.setCursor t n).faults = s.faults := by cases t <;> rfl
@[simp] theorem State.setCursor_mem (s : State) (t : Ring) (n : Nat) : (s.setCursor t n).mem = s.mem := by cases t <;> rfl
@[simp] theorem State.setCursor_dma (s : State) (t : Ring) (n : Nat) : (s.setCursor t n).dma = s.dma := by cases t <;> rfl
@[simp] theorem State.setCursor_maps (s : State) (t : Ring) (n : Nat) : (s.setCursor t n).maps = s.maps := by cases t <;> rfl
@[simp] theorem State.setCursor_mapper (s : State) (t : Ring) (n : Nat) :
    (s.setCursor t n).mapper = s.mapper := by cases t <;> rfl
@[simp] theorem State.setCursor_cable (s : State) (t : Ring) (n : Nat) :
    (s.setCursor t n).cable = s.cable := by cases t <;> rfl
@[simp] theorem State.setCursor_wireOut (s : State) (t : Ring) (n : Nat) :
    (s.setCursor t n).wireOut = s.wireOut := by cases t <;> rfl
@[simp] theorem State.setCursor_trace (s : State) (t : Ring) (n : Nat) :
    (s.setCursor t n).trace = s.trace := by cases t <;> rfl
@[simp] theorem State.setCursor_agents (s : State) (t : Ring) (n : Nat) :
    (s.setCursor t n).agents = s.agents := by cases t <;> rfl
@[simp] theorem State.setCursor_cur (s : State) (t : Ring) (n : Nat) : (s.setCursor t n).cur = s.cur := by cases t <;> rfl
@[simp] theorem State.setCursor_reply (s : State) (t : Ring) (n : Nat) :
    (s.setCursor t n).reply = s.reply := by cases t <;> rfl
@[simp] theorem State.setCursor_draws (s : State) (t : Ring) (n : Nat) :
    (s.setCursor t n).draws = s.draws := by cases t <;> rfl
@[simp] theorem State.setCursor_turns (s : State) (t : Ring) (n : Nat) :
    (s.setCursor t n).turns = s.turns := by cases t <;> rfl
@[simp] theorem State.setCursor_script (s : State) (t : Ring) (n : Nat) :
    (s.setCursor t n).script = s.script := by cases t <;> rfl

/-! ### `setInConfirm` -/

@[simp] theorem State.setInConfirm_params (s : State) (r : Reg) (a : HostAgent) (b : Bool) :
    (s.setInConfirm r a b).params = s.params := rfl
@[simp] theorem State.setInConfirm_regs (s : State) (r : Reg) (a : HostAgent) (b : Bool) :
    (s.setInConfirm r a b).regs = s.regs := rfl
@[simp] theorem State.setInConfirm_busMaster (s : State) (r : Reg) (a : HostAgent) (b : Bool) :
    (s.setInConfirm r a b).busMaster = s.busMaster := rfl
@[simp] theorem State.setInConfirm_rxFifo (s : State) (r : Reg) (a : HostAgent) (b : Bool) :
    (s.setInConfirm r a b).rxFifo = s.rxFifo := rfl
@[simp] theorem State.setInConfirm_ee (s : State) (r : Reg) (a : HostAgent) (b : Bool) :
    (s.setInConfirm r a b).ee = s.ee := rfl
@[simp] theorem State.setInConfirm_luPrev (s : State) (r : Reg) (a : HostAgent) (b : Bool) :
    (s.setInConfirm r a b).luPrev = s.luPrev := rfl
@[simp] theorem State.setInConfirm_faults (s : State) (r : Reg) (a : HostAgent) (b : Bool) :
    (s.setInConfirm r a b).faults = s.faults := rfl
@[simp] theorem State.setInConfirm_mem (s : State) (r : Reg) (a : HostAgent) (b : Bool) :
    (s.setInConfirm r a b).mem = s.mem := rfl
@[simp] theorem State.setInConfirm_dma (s : State) (r : Reg) (a : HostAgent) (b : Bool) :
    (s.setInConfirm r a b).dma = s.dma := rfl
@[simp] theorem State.setInConfirm_maps (s : State) (r : Reg) (a : HostAgent) (b : Bool) :
    (s.setInConfirm r a b).maps = s.maps := rfl
@[simp] theorem State.setInConfirm_drv (s : State) (r : Reg) (a : HostAgent) (b : Bool) :
    (s.setInConfirm r a b).drv = s.drv := rfl
@[simp] theorem State.setInConfirm_mapper (s : State) (r : Reg) (a : HostAgent) (b : Bool) :
    (s.setInConfirm r a b).mapper = s.mapper.set r { s.regObj r with inConfirm := (s.regObj r).inConfirm.set a b } := rfl
@[simp] theorem State.setInConfirm_cable (s : State) (r : Reg) (a : HostAgent) (b : Bool) :
    (s.setInConfirm r a b).cable = s.cable := rfl
@[simp] theorem State.setInConfirm_wireOut (s : State) (r : Reg) (a : HostAgent) (b : Bool) :
    (s.setInConfirm r a b).wireOut = s.wireOut := rfl
@[simp] theorem State.setInConfirm_trace (s : State) (r : Reg) (a : HostAgent) (b : Bool) :
    (s.setInConfirm r a b).trace = s.trace := rfl
@[simp] theorem State.setInConfirm_agents (s : State) (r : Reg) (a : HostAgent) (b : Bool) :
    (s.setInConfirm r a b).agents = s.agents := rfl
@[simp] theorem State.setInConfirm_cur (s : State) (r : Reg) (a : HostAgent) (b : Bool) :
    (s.setInConfirm r a b).cur = s.cur := rfl
@[simp] theorem State.setInConfirm_reply (s : State) (r : Reg) (a : HostAgent) (b : Bool) :
    (s.setInConfirm r a b).reply = s.reply := rfl
@[simp] theorem State.setInConfirm_draws (s : State) (r : Reg) (a : HostAgent) (b : Bool) :
    (s.setInConfirm r a b).draws = s.draws := rfl
@[simp] theorem State.setInConfirm_turns (s : State) (r : Reg) (a : HostAgent) (b : Bool) :
    (s.setInConfirm r a b).turns = s.turns := rfl
@[simp] theorem State.setInConfirm_script (s : State) (r : Reg) (a : HostAgent) (b : Bool) :
    (s.setInConfirm r a b).script = s.script := rfl

/-! ### `asAgent` -/

@[simp] theorem State.asAgent_params (s : State) (a : HostAgent) (p : Reply) : (s.asAgent a p).params = s.params := rfl
@[simp] theorem State.asAgent_regs (s : State) (a : HostAgent) (p : Reply) : (s.asAgent a p).regs = s.regs := rfl
@[simp] theorem State.asAgent_busMaster (s : State) (a : HostAgent) (p : Reply) :
    (s.asAgent a p).busMaster = s.busMaster := rfl
@[simp] theorem State.asAgent_rxFifo (s : State) (a : HostAgent) (p : Reply) : (s.asAgent a p).rxFifo = s.rxFifo := rfl
@[simp] theorem State.asAgent_ee (s : State) (a : HostAgent) (p : Reply) : (s.asAgent a p).ee = s.ee := rfl
@[simp] theorem State.asAgent_luPrev (s : State) (a : HostAgent) (p : Reply) : (s.asAgent a p).luPrev = s.luPrev := rfl
@[simp] theorem State.asAgent_faults (s : State) (a : HostAgent) (p : Reply) : (s.asAgent a p).faults = s.faults := rfl
@[simp] theorem State.asAgent_mem (s : State) (a : HostAgent) (p : Reply) : (s.asAgent a p).mem = s.mem := rfl
@[simp] theorem State.asAgent_dma (s : State) (a : HostAgent) (p : Reply) : (s.asAgent a p).dma = s.dma := rfl
@[simp] theorem State.asAgent_maps (s : State) (a : HostAgent) (p : Reply) : (s.asAgent a p).maps = s.maps := rfl
@[simp] theorem State.asAgent_drv (s : State) (a : HostAgent) (p : Reply) : (s.asAgent a p).drv = s.drv := rfl
@[simp] theorem State.asAgent_mapper (s : State) (a : HostAgent) (p : Reply) : (s.asAgent a p).mapper = s.mapper := rfl
@[simp] theorem State.asAgent_cable (s : State) (a : HostAgent) (p : Reply) : (s.asAgent a p).cable = s.cable := rfl
@[simp] theorem State.asAgent_wireOut (s : State) (a : HostAgent) (p : Reply) : (s.asAgent a p).wireOut = s.wireOut := rfl
@[simp] theorem State.asAgent_trace (s : State) (a : HostAgent) (p : Reply) : (s.asAgent a p).trace = s.trace := rfl
@[simp] theorem State.asAgent_agents (s : State) (a : HostAgent) (p : Reply) : (s.asAgent a p).agents = s.agents := rfl
@[simp] theorem State.asAgent_cur (s : State) (a : HostAgent) (p : Reply) : (s.asAgent a p).cur = a := rfl
@[simp] theorem State.asAgent_reply (s : State) (a : HostAgent) (p : Reply) : (s.asAgent a p).reply = p := rfl
@[simp] theorem State.asAgent_draws (s : State) (a : HostAgent) (p : Reply) : (s.asAgent a p).draws = s.draws := rfl
@[simp] theorem State.asAgent_turns (s : State) (a : HostAgent) (p : Reply) : (s.asAgent a p).turns = s.turns := rfl
@[simp] theorem State.asAgent_script (s : State) (a : HostAgent) (p : Reply) : (s.asAgent a p).script = s.script := rfl

/-! ### `setCauseIf` -/

@[simp] theorem State.setCauseIf_params (s : State) (c : Bool) (k : Nat) :
    (s.setCauseIf c k).params = s.params := by cases c <;> rfl
@[simp] theorem State.setCauseIf_busMaster (s : State) (c : Bool) (k : Nat) :
    (s.setCauseIf c k).busMaster = s.busMaster := by cases c <;> rfl
@[simp] theorem State.setCauseIf_rxFifo (s : State) (c : Bool) (k : Nat) :
    (s.setCauseIf c k).rxFifo = s.rxFifo := by cases c <;> rfl
@[simp] theorem State.setCauseIf_ee (s : State) (c : Bool) (k : Nat) : (s.setCauseIf c k).ee = s.ee := by cases c <;> rfl
@[simp] theorem State.setCauseIf_luPrev (s : State) (c : Bool) (k : Nat) :
    (s.setCauseIf c k).luPrev = s.luPrev := by cases c <;> rfl
@[simp] theorem State.setCauseIf_faults (s : State) (c : Bool) (k : Nat) :
    (s.setCauseIf c k).faults = s.faults := by cases c <;> rfl
@[simp] theorem State.setCauseIf_mem (s : State) (c : Bool) (k : Nat) : (s.setCauseIf c k).mem = s.mem := by cases c <;> rfl
@[simp] theorem State.setCauseIf_dma (s : State) (c : Bool) (k : Nat) : (s.setCauseIf c k).dma = s.dma := by cases c <;> rfl
@[simp] theorem State.setCauseIf_maps (s : State) (c : Bool) (k : Nat) :
    (s.setCauseIf c k).maps = s.maps := by cases c <;> rfl
@[simp] theorem State.setCauseIf_drv (s : State) (c : Bool) (k : Nat) : (s.setCauseIf c k).drv = s.drv := by cases c <;> rfl
@[simp] theorem State.setCauseIf_mapper (s : State) (c : Bool) (k : Nat) :
    (s.setCauseIf c k).mapper = s.mapper := by cases c <;> rfl
@[simp] theorem State.setCauseIf_cable (s : State) (c : Bool) (k : Nat) :
    (s.setCauseIf c k).cable = s.cable := by cases c <;> rfl
@[simp] theorem State.setCauseIf_wireOut (s : State) (c : Bool) (k : Nat) :
    (s.setCauseIf c k).wireOut = s.wireOut := by cases c <;> rfl
@[simp] theorem State.setCauseIf_trace (s : State) (c : Bool) (k : Nat) :
    (s.setCauseIf c k).trace = s.trace := by cases c <;> rfl
@[simp] theorem State.setCauseIf_agents (s : State) (c : Bool) (k : Nat) :
    (s.setCauseIf c k).agents = s.agents := by cases c <;> rfl
@[simp] theorem State.setCauseIf_cur (s : State) (c : Bool) (k : Nat) : (s.setCauseIf c k).cur = s.cur := by cases c <;> rfl
@[simp] theorem State.setCauseIf_reply (s : State) (c : Bool) (k : Nat) :
    (s.setCauseIf c k).reply = s.reply := by cases c <;> rfl
@[simp] theorem State.setCauseIf_draws (s : State) (c : Bool) (k : Nat) :
    (s.setCauseIf c k).draws = s.draws := by cases c <;> rfl
@[simp] theorem State.setCauseIf_turns (s : State) (c : Bool) (k : Nat) :
    (s.setCauseIf c k).turns = s.turns := by cases c <;> rfl
@[simp] theorem State.setCauseIf_script (s : State) (c : Bool) (k : Nat) :
    (s.setCauseIf c k).script = s.script := by cases c <;> rfl

/-! ### `sendClaim` -/

@[simp] theorem sendClaim_params (s : State) (pa : Word) (len : Nat) : (sendClaim pa len s).params = s.params := rfl
@[simp] theorem sendClaim_regs (s : State) (pa : Word) (len : Nat) : (sendClaim pa len s).regs = s.regs := rfl
@[simp] theorem sendClaim_busMaster (s : State) (pa : Word) (len : Nat) : (sendClaim pa len s).busMaster = s.busMaster := rfl
@[simp] theorem sendClaim_rxFifo (s : State) (pa : Word) (len : Nat) : (sendClaim pa len s).rxFifo = s.rxFifo := rfl
@[simp] theorem sendClaim_ee (s : State) (pa : Word) (len : Nat) : (sendClaim pa len s).ee = s.ee := rfl
@[simp] theorem sendClaim_luPrev (s : State) (pa : Word) (len : Nat) : (sendClaim pa len s).luPrev = s.luPrev := rfl
@[simp] theorem sendClaim_faults (s : State) (pa : Word) (len : Nat) : (sendClaim pa len s).faults = s.faults := rfl
@[simp] theorem sendClaim_mem (s : State) (pa : Word) (len : Nat) : (sendClaim pa len s).mem = s.mem := rfl
@[simp] theorem sendClaim_dma (s : State) (pa : Word) (len : Nat) :
    (sendClaim pa len s).dma = s.dma ++ [⟨pa.toNat, len, .sendBuffer⟩] := rfl
@[simp] theorem sendClaim_maps (s : State) (pa : Word) (len : Nat) : (sendClaim pa len s).maps = s.maps := rfl
@[simp] theorem sendClaim_drv (s : State) (pa : Word) (len : Nat) :
    (sendClaim pa len s).drv = { s.drv with txBusy := true } := rfl
@[simp] theorem sendClaim_mapper (s : State) (pa : Word) (len : Nat) : (sendClaim pa len s).mapper = s.mapper := rfl
@[simp] theorem sendClaim_cable (s : State) (pa : Word) (len : Nat) : (sendClaim pa len s).cable = s.cable := rfl
@[simp] theorem sendClaim_wireOut (s : State) (pa : Word) (len : Nat) : (sendClaim pa len s).wireOut = s.wireOut := rfl
@[simp] theorem sendClaim_trace (s : State) (pa : Word) (len : Nat) : (sendClaim pa len s).trace = s.trace := rfl
@[simp] theorem sendClaim_agents (s : State) (pa : Word) (len : Nat) : (sendClaim pa len s).agents = s.agents := rfl
@[simp] theorem sendClaim_cur (s : State) (pa : Word) (len : Nat) : (sendClaim pa len s).cur = s.cur := rfl
@[simp] theorem sendClaim_reply (s : State) (pa : Word) (len : Nat) : (sendClaim pa len s).reply = s.reply := rfl
@[simp] theorem sendClaim_draws (s : State) (pa : Word) (len : Nat) : (sendClaim pa len s).draws = s.draws := rfl
@[simp] theorem sendClaim_turns (s : State) (pa : Word) (len : Nat) : (sendClaim pa len s).turns = s.turns := rfl
@[simp] theorem sendClaim_script (s : State) (pa : Word) (len : Nat) : (sendClaim pa len s).script = s.script := rfl

/-! ### `failInit` -/

@[simp] theorem failInit_params (s : State) (a : HostAgent) (e : Err) :
    (failInit a s e).params = s.params := by cases a <;> rfl
@[simp] theorem failInit_regs (s : State) (a : HostAgent) (e : Err) : (failInit a s e).regs = s.regs := by cases a <;> rfl
@[simp] theorem failInit_busMaster (s : State) (a : HostAgent) (e : Err) :
    (failInit a s e).busMaster = s.busMaster := by cases a <;> rfl
@[simp] theorem failInit_rxFifo (s : State) (a : HostAgent) (e : Err) :
    (failInit a s e).rxFifo = s.rxFifo := by cases a <;> rfl
@[simp] theorem failInit_ee (s : State) (a : HostAgent) (e : Err) : (failInit a s e).ee = s.ee := by cases a <;> rfl
@[simp] theorem failInit_luPrev (s : State) (a : HostAgent) (e : Err) :
    (failInit a s e).luPrev = s.luPrev := by cases a <;> rfl
@[simp] theorem failInit_faults (s : State) (a : HostAgent) (e : Err) :
    (failInit a s e).faults = s.faults := by cases a <;> rfl
@[simp] theorem failInit_mem (s : State) (a : HostAgent) (e : Err) : (failInit a s e).mem = s.mem := by cases a <;> rfl
@[simp] theorem failInit_dma (s : State) (a : HostAgent) (e : Err) : (failInit a s e).dma = s.dma := by cases a <;> rfl
@[simp] theorem failInit_maps (s : State) (a : HostAgent) (e : Err) : (failInit a s e).maps = s.maps := by cases a <;> rfl
@[simp] theorem failInit_drv (s : State) (a : HostAgent) (e : Err) :
    (failInit a s e).drv = { s.drv with initFailed := true, registered := false, handlerAssigned := false } := by cases a <;> rfl
@[simp] theorem failInit_mapper (s : State) (a : HostAgent) (e : Err) :
    (failInit a s e).mapper = s.mapper := by cases a <;> rfl
@[simp] theorem failInit_cable (s : State) (a : HostAgent) (e : Err) : (failInit a s e).cable = s.cable := by cases a <;> rfl
@[simp] theorem failInit_wireOut (s : State) (a : HostAgent) (e : Err) :
    (failInit a s e).wireOut = s.wireOut := by cases a <;> rfl
@[simp] theorem failInit_trace (s : State) (a : HostAgent) (e : Err) : (failInit a s e).trace = s.trace := by cases a <;> rfl
@[simp] theorem failInit_cur (s : State) (a : HostAgent) (e : Err) : (failInit a s e).cur = s.cur := by cases a <;> rfl
@[simp] theorem failInit_reply (s : State) (a : HostAgent) (e : Err) : (failInit a s e).reply = s.reply := by cases a <;> rfl
@[simp] theorem failInit_draws (s : State) (a : HostAgent) (e : Err) : (failInit a s e).draws = s.draws := by cases a <;> rfl
@[simp] theorem failInit_turns (s : State) (a : HostAgent) (e : Err) : (failInit a s e).turns = s.turns := by cases a <;> rfl
@[simp] theorem failInit_script (s : State) (a : HostAgent) (e : Err) :
    (failInit a s e).script = s.script := by cases a <;> rfl

/-! ### `linkEval` -/

@[simp] theorem State.linkEval_params (s : State) : (s.linkEval).params = s.params := by simp [State.linkEval]
@[simp] theorem State.linkEval_regs (s : State) : (s.linkEval).regs = (s.setCauseIf (s.lu != s.luPrev) lsc).regs := rfl
@[simp] theorem State.linkEval_busMaster (s : State) : (s.linkEval).busMaster = s.busMaster := by simp [State.linkEval]
@[simp] theorem State.linkEval_rxFifo (s : State) : (s.linkEval).rxFifo = s.rxFifo := by simp [State.linkEval]
@[simp] theorem State.linkEval_ee (s : State) : (s.linkEval).ee = s.ee := by simp [State.linkEval]
@[simp] theorem State.linkEval_luPrev (s : State) : (s.linkEval).luPrev = s.lu := rfl
@[simp] theorem State.linkEval_faults (s : State) : (s.linkEval).faults = s.faults := by simp [State.linkEval]
@[simp] theorem State.linkEval_mem (s : State) : (s.linkEval).mem = s.mem := by simp [State.linkEval]
@[simp] theorem State.linkEval_dma (s : State) : (s.linkEval).dma = s.dma := by simp [State.linkEval]
@[simp] theorem State.linkEval_maps (s : State) : (s.linkEval).maps = s.maps := by simp [State.linkEval]
@[simp] theorem State.linkEval_drv (s : State) : (s.linkEval).drv = s.drv := by simp [State.linkEval]
@[simp] theorem State.linkEval_mapper (s : State) : (s.linkEval).mapper = s.mapper := by simp [State.linkEval]
@[simp] theorem State.linkEval_cable (s : State) : (s.linkEval).cable = s.cable := by simp [State.linkEval]
@[simp] theorem State.linkEval_wireOut (s : State) : (s.linkEval).wireOut = s.wireOut := by simp [State.linkEval]
@[simp] theorem State.linkEval_trace (s : State) : (s.linkEval).trace = s.trace := by simp [State.linkEval]
@[simp] theorem State.linkEval_agents (s : State) : (s.linkEval).agents = s.agents := by simp [State.linkEval]
@[simp] theorem State.linkEval_cur (s : State) : (s.linkEval).cur = s.cur := by simp [State.linkEval]
@[simp] theorem State.linkEval_reply (s : State) : (s.linkEval).reply = s.reply := by simp [State.linkEval]
@[simp] theorem State.linkEval_draws (s : State) : (s.linkEval).draws = s.draws := by simp [State.linkEval]
@[simp] theorem State.linkEval_turns (s : State) : (s.linkEval).turns = s.turns := by simp [State.linkEval]
@[simp] theorem State.linkEval_script (s : State) : (s.linkEval).script = s.script := by simp [State.linkEval]

end Sys2Proof.Machine
end

