-- ==== Sys2Proof/Laws/Ops.lean ====
section
/-! SUPPORT. One lemma for each shared operation that says once everything it can do. -/

namespace Sys2Proof.Machine

/-! ### Flow and Go -/

/-- What holds of the state a piece of a step leaves, whether it went on or raised a fault. -/
def Flow.All (P : State → Prop) : Flow → Prop
  | .ok s => P s
  | .raised s _ => P s

/-- What holds of the state a piece of an operation leaves. -/
def Go.All (P : State → Prop) : Go → Prop
  | .run s _ => P s
  | .abort s _ => P s
  | .raised s _ => P s

/-- What holds of every frame that a piece of an operation puts in front of the work. -/
def Go.Pushes (F : Micro → Prop) : Go → Prop
  | .run _ push => ∀ m ∈ push, F m
  | .abort _ _ => True
  | .raised _ _ => True

@[simp] theorem Go.pushes_run (F : Micro → Prop) (s : State) (p : List Micro) : (Go.run s p).Pushes F = ∀ m ∈ p, F m := rfl
@[simp] theorem Go.pushes_abort (F : Micro → Prop) (s : State) (e : Err) : (Go.abort s e).Pushes F = True := rfl
@[simp] theorem Go.pushes_raised (F : Micro → Prop) (s : State) (f : FaultRecord) : (Go.raised s f).Pushes F = True := rfl
@[simp] theorem Flow.all_ok (P : State → Prop) (s : State) : (Flow.ok s).All P = P s := rfl
@[simp] theorem Flow.all_raised (P : State → Prop) (s : State) (f : FaultRecord) : (Flow.raised s f).All P = P s := rfl
@[simp] theorem Go.all_run (P : State → Prop) (s : State) (p : List Micro) : (Go.run s p).All P = P s := rfl
@[simp] theorem Go.all_abort (P : State → Prop) (s : State) (e : Err) : (Go.abort s e).All P = P s := rfl
@[simp] theorem Go.all_raised (P : State → Prop) (s : State) (f : FaultRecord) : (Go.raised s f).All P = P s := rfl
@[simp] theorem Flow.ok_andThen (s : State) (f : State → Flow) : (Flow.ok s).andThen f = f s := rfl
@[simp] theorem Flow.raised_andThen (s : State) (r : FaultRecord) (f : State → Flow) :
    (Flow.raised s r).andThen f = .raised s r := rfl
@[simp] theorem Flow.state_ok (s : State) : (Flow.ok s).state = s := rfl
@[simp] theorem Flow.state_raised (s : State) (f : FaultRecord) : (Flow.raised s f).state = s.raise f := rfl
@[simp] theorem Flow.ok_go (s : State) (p : List Micro) : (Flow.ok s).go p = .run s p := rfl
@[simp] theorem Flow.raised_go (s : State) (f : FaultRecord) (p : List Micro) : (Flow.raised s f).go p = .raised s f := rfl
@[simp] theorem Flow.ok_thenGo (s : State) (k : State → Go) : (Flow.ok s).thenGo k = k s := rfl
@[simp] theorem Flow.raised_thenGo (s : State) (f : FaultRecord) (k : State → Go) :
    (Flow.raised s f).thenGo k = .raised s f := rfl

/-- A property of both pieces holds of their composition. -/
theorem Flow.all_andThen {P : State → Prop} {x : Flow} {f : State → Flow} (hx : x.All P) (hf : ∀ s, P s → (f s).All P) :
    (x.andThen f).All P := by
  cases x with
  | ok s => exact hf s hx
  | raised s r => exact hx

/-- A property of both pieces holds of their composition. -/
theorem Flow.all_thenGo {P : State → Prop} {x : Flow} {k : State → Go} (hx : x.All P) (hk : ∀ s, P s → (k s).All P) :
    (x.thenGo k).All P := by
  cases x with
  | ok s => exact hk s hx
  | raised s r => exact hx

/-- What a piece puts in front after one that may raise a fault. -/
theorem Flow.pushes_thenGo {F : Micro → Prop} {x : Flow} {k : State → Go} (hk : ∀ s, (k s).Pushes F) :
    (x.thenGo k).Pushes F := by
  cases x with
  | ok s => exact hk s
  | raised s r => trivial

/-- A piece with given frames in front puts those. -/
theorem Flow.pushes_go {F : Micro → Prop} {x : Flow} {p : List Micro} (hp : ∀ m ∈ p, F m) : (x.go p).Pushes F := by
  cases x with
  | ok s => exact hp
  | raised s r => trivial

/-- A property of a piece holds when more work is put in front. -/
theorem Flow.all_go {P : State → Prop} {x : Flow} {p : List Micro} (hx : x.All P) : (x.go p).All P := by
  cases x <;> exact hx

/-! ### Registers -/

/-- Everything a register read does: nothing to the state, or one draw, or the clearing of ICR. -/
theorem readReg_state (r : Reg) (s : State) :
    (readReg r s).2 = s ∨ (readReg r s).2 = { s with draws := s.draws + 1 } ∨
      (r = .icr ∧ (readReg r s).2 = { s with regs := { s.regs with icr := 0#32 } }) := by
  cases r
  case icr => exact .inr (.inr ⟨rfl, rfl⟩)
  case status => exact .inr (.inl rfl)
  case imc => exact .inr (.inl rfl)
  all_goals exact .inl rfl

/-- A register read other than that of ICR leaves every register. -/
theorem readReg_regs {r : Reg} (h : r ≠ .icr) (s : State) : (readReg r s).2.regs = s.regs := by
  cases r <;> first | rfl | exact absurd rfl h

/-- A register write that faults has no effect. -/
theorem writeReg_raised {a : HostAgent} {r : Reg} {v : Word} {s t : State} {f : FaultRecord}
    (h : writeReg a r v s = .raised t f) : t = s := by
  unfold writeReg at h
  split at h
  · cases h; rfl
  · cases r <;> simp only [writeRule, writeEerd, writeRctl, writeTctl, whileDisabled, inRange, writeCtrl] at h <;>
      (repeat' split at h) <;> cases h <;> rfl

/-- What a register write can change: the registers, the FIFO and the EEPROM engine, the link record and the draws. -/
theorem writeReg_ok {a : HostAgent} {r : Reg} {v : Word} {s t : State} (h : writeReg a r v s = .ok t) :
    t = { s with regs := t.regs, rxFifo := t.rxFifo, ee := t.ee, luPrev := t.luPrev, draws := t.draws } := by
  unfold writeReg at h
  split at h
  · cases h
  · cases r <;> simp only [writeRule, writeEerd, writeRctl, writeTctl, whileDisabled, inRange, writeCtrl] at h <;>
      (repeat' split at h) <;> cases h <;> first | rfl | skip
    · simp only [State.linkEval, State.setCauseIf]; split <;> rfl
    · simp only [State.linkEval, State.setCauseIf]; split <;> rfl

/-! ### Staging -/

/-- Everything staging does: the new masks, or a fault and nothing. -/
theorem stage_cases (a : HostAgent) (r : Reg) (on off : Word) (s : State) :
    (s.MayStage r a ∧ stage a r on off s = .ok (s.setRegObj r ((s.regObj r).withMasks a on off))) ∨
      (¬ s.MayStage r a ∧ stage a r on off s = .raised s ⟨.regRace, a.toAgent, 263, s.off r⟩) := by
  unfold stage State.stagedByOther State.MayStage
  cases h : (s.regObj r).stagedBy with
  | none => exact .inl ⟨.inl rfl, by simp⟩
  | some b =>
    by_cases hb : b = a
    · subst hb; exact .inl ⟨.inr rfl, by simp⟩
    · refine .inr ⟨by simp [hb], by simp [hb]⟩

/-- Staging as a fault or new masks, for a property of the state. -/
theorem stage_all {P : State → Prop} {a : HostAgent} {r : Reg} {on off : Word} {s : State} (hs : P s)
    (hm : P (s.setRegObj r ((s.regObj r).withMasks a on off))) : (stage a r on off s).All P := by
  rcases stage_cases a r on off s with ⟨_, h⟩ | ⟨_, h⟩ <;> rw [h] <;> assumption

/-! ### Descriptors -/

/-- Everything the index check does. -/
theorem checkIndex_cases (a : HostAgent) (t : Ring) (i : Nat) (s : State) :
    (i < s.ringSize t ∧ checkIndex a t i s = .ok s) ∨
      (s.ringSize t ≤ i ∧ checkIndex a t i s = .raised s ⟨.index, a.toAgent, 146, i⟩) := by
  unfold checkIndex State.indexOk
  by_cases h : i < s.ringSize t
  · exact .inl ⟨h, by simp [h]⟩
  · exact .inr ⟨by omega, by simp [h]⟩

/-- Hardware owns no descriptor beyond the device's ring, which has fewer than 2^28. -/
theorem State.hwOwned_lt {s : State} {t : Ring} {i : Nat} (h : s.hwOwned t i = true) : i < s.ndev t ∧ s.ndev t < 2 ^ 28 := by
  simp only [State.hwOwned, inCyc, Bool.and_eq_true, decide_eq_true_eq] at h
  refine ⟨h.1, ?_⟩
  cases t <;> simp only [State.ndev] <;> omega

/-- A descriptor that hardware owns by its index it owns by the address of each of its bytes, and by no other (20_memory.md R119). -/
theorem State.inOwnedDescriptor_iff (s : State) {x : Nat} (hx : x < physSize) : s.inOwnedDescriptor x = true ↔ s.OwnedByte x := by
  have hp : ∀ t, s.ringPhys t < 2 ^ 32 := fun t => by cases t <;> exact BitVec.isLt _
  have hany : s.inOwnedDescriptor x = true ↔ ∃ t : Ring, (s.ringBase t ≤ x ∧ s.hwOwned t ((x - s.ringBase t) / 16) = true) ∨
      ((4 ≤ s.drv.initStep ∧ (x + physSize - s.ringPhys t) % physSize / 16 < s.ringSize t) ∧
        s.hwOwned t ((x + physSize - s.ringPhys t) % physSize / 16) = true) := by
    simp only [State.inOwnedDescriptor, List.any_eq_true, Bool.or_eq_true, Bool.and_eq_true, decide_eq_true_eq]
    exact ⟨fun ⟨t, _, h⟩ => ⟨t, h⟩, fun ⟨t, h⟩ => ⟨t, by cases t <;> simp, h⟩⟩
  rw [hany]
  unfold State.OwnedByte
  unfold physSize at *
  constructor
  · rintro ⟨t, ⟨hb, ho⟩ | ⟨⟨h4, hi⟩, ho⟩⟩
    · exact ⟨t, _, (x - s.ringBase t) % 16, ho, by omega, .inl (by omega)⟩
    · have := hp t
      exact ⟨t, _, (x + 2 ^ 32 - s.ringPhys t) % 2 ^ 32 % 16, ho, by omega, .inr ⟨h4, hi, by omega⟩⟩
  · rintro ⟨t, i, off, ho, hoff, rfl | ⟨h4, hi, rfl⟩⟩
    · refine ⟨t, .inl ⟨by omega, ?_⟩⟩
      rwa [show (s.ringBase t + 16 * i + off - s.ringBase t) / 16 = i by omega]
    · have := hp t
      have hl := State.hwOwned_lt ho
      have hd : ((s.ringPhys t + 16 * i + off) % 2 ^ 32 + 2 ^ 32 - s.ringPhys t) % 2 ^ 32 / 16 = i := by omega
      exact ⟨t, .inr ⟨⟨h4, by rwa [hd]⟩, by rwa [hd]⟩⟩

/-- A host write meets no descriptor that hardware owns exactly where software owns all its bytes. -/
theorem State.meetsOwned_eq_false (s : State) (a n : Nat) : s.meetsOwned a n = false ↔ s.SoftwareOwns a n := by
  simp only [State.meetsOwned, List.any_eq_false, List.mem_range, State.SoftwareOwns]
  refine forall_congr' fun k => imp_congr Iff.rfl (not_congr (s.inOwnedDescriptor_iff ?_))
  exact Nat.mod_lt _ (by decide)

/-- Everything one host write does: the store, or `F_DESC_RACE` and nothing. -/
theorem hostWrite_cases (a : HostAgent) (addr : Nat) (bs : List Byte) (s : State) :
    (s.SoftwareOwns addr bs.length ∧ hostWrite a addr bs s = .ok (s.putBytes addr bs)) ∨
      (¬ s.SoftwareOwns addr bs.length ∧
        hostWrite a addr bs s = .raised s ⟨.descRace, a.toAgent, 119, addr % physSize⟩) := by
  unfold hostWrite
  rw [← s.meetsOwned_eq_false addr bs.length]
  cases s.meetsOwned addr bs.length with
  | false => exact .inl ⟨rfl, rfl⟩
  | true => exact .inr ⟨by simp, rfl⟩

/-- Everything a store by address does: the bytes and nothing else, or `F_DESC_RACE` and nothing (20_memory.md R119). -/
theorem storeStep_cases (a : HostAgent) (addr : Nat) (bs : List Byte) (s : State) :
    (s.SoftwareOwns addr bs.length ∧ storeStep a addr bs s = .ok ((s.putBytes addr bs).setRet a .unit)) ∨
      (¬ s.SoftwareOwns addr bs.length ∧
        storeStep a addr bs s = .raised s ⟨.descRace, a.toAgent, 119, addr % physSize⟩) := by
  unfold storeStep
  rcases hostWrite_cases a addr bs s with ⟨h, e⟩ | ⟨h, e⟩ <;> rw [e]
  · exact .inl ⟨h, rfl⟩
  · exact .inr ⟨h, rfl⟩

/-- Everything a host write into a descriptor does: the store, or a fault and nothing. -/
theorem descWrite_cases (a : HostAgent) (t : Ring) (i off : Nat) (bs : List Byte) (s : State) :
    (i < s.ringSize t ∧ s.SoftwareOwns (s.descAddr t i off) bs.length ∧
        descWrite a t i off bs s = .ok (s.putBytes (s.descAddr t i off) bs)) ∨
      (s.ringSize t ≤ i ∧ descWrite a t i off bs s = .raised s ⟨.index, a.toAgent, 146, i⟩) ∨
      (i < s.ringSize t ∧ ¬ s.SoftwareOwns (s.descAddr t i off) bs.length ∧
        descWrite a t i off bs s = .raised s ⟨.descRace, a.toAgent, 119, s.descAddr t i off % physSize⟩) := by
  unfold descWrite
  rcases checkIndex_cases a t i s with ⟨hi, h⟩ | ⟨hi, h⟩ <;> rw [h]
  · rcases hostWrite_cases a (s.descAddr t i off) bs s with ⟨ho, e⟩ | ⟨ho, e⟩
    · exact .inl ⟨hi, ho, e⟩
    · exact .inr (.inr ⟨hi, ho, e⟩)
  · exact .inr (.inl ⟨hi, rfl⟩)

/-! ### Translation (20_memory.md R102) -/

/-- Where an allocation's addresses agree with `phys`, they agree at every byte of it. -/
theorem State.phys_of_translates {s : State} {va pa : Word} {n k : Nat} (h : s.translates va pa n = true) (hk : k < n)
    (hv : va.toNat + n ≤ 2 ^ 32) : s.phys (va + BitVec.ofNat 32 k) = pa.toNat + k := by
  have hw : (va + BitVec.ofNat 32 k).toNat = va.toNat + k := by
    rw [BitVec.toNat_add, BitVec.toNat_ofNat, Nat.mod_eq_of_lt (by omega : k < 2 ^ 32), Nat.mod_eq_of_lt (by omega)]
  unfold State.translates at h
  split at h
  · rename_i m hm
    simp only [Bool.and_eq_true, decide_eq_true_eq, beq_iff_eq] at h
    have hone : s.rangeAt (va.toNat + k) 1 = some m := by
      unfold State.rangeAt at hm ⊢
      rw [List.find?_eq_some_iff_append] at hm ⊢
      obtain ⟨-, as, bs, hl, hbefore⟩ := hm
      refine ⟨by simp only [Bool.and_eq_true, decide_eq_true_eq]; omega, as, bs, hl, fun x hx => ?_⟩
      have := hbefore x hx
      simp only [Bool.not_eq_true', Bool.and_eq_false_iff, decide_eq_false_iff_not] at this ⊢
      omega
    unfold State.phys
    rw [hw, hone]
    simp only
    omega
  · cases h

/-! ### Issued host operations -/

/-- An operation that is refused (60_exceptions.md R452). -/
theorem hostOp_refused {n : Nat} {al : State → Bool} {op : HostOp} {body : State → Flow} {s : State}
    (h : s.drv.initFailed = true ∨ s.drv.initStep < n) : hostOp n al op body s = .next s.refuse := by
  unfold hostOp State.refuses
  rcases h with h | h <;> simp [h]

/-- An operation issued by an agent it does not allow (R470). -/
theorem hostOp_context {n : Nat} {al : State → Bool} {op : HostOp} {body : State → Flow} {s : State} (h : s.Ready n)
    (ha : al s = false) : hostOp n al op body s = .next (s.raise ⟨.context, s.cur.toAgent, 470, op.word⟩) := by
  obtain ⟨h1, h2⟩ := h
  simp [hostOp, State.refuses, h1, ha, Nat.not_lt.2 h2]

/-- An operation that is neither refused nor issued by the wrong agent does what its body does. -/
theorem hostOp_body {n : Nat} {al : State → Bool} {op : HostOp} {body : State → Flow} {s : State} (h : s.Ready n)
    (ha : al s = true) : hostOp n al op body s = .next (body s).state := by
  obtain ⟨h1, h2⟩ := h
  simp [hostOp, State.refuses, h1, ha, Nat.not_lt.2 h2, Flow.out]

/-- Everything an issued operation can answer: a refusal, a context fault, or its body. -/
theorem hostOp_cases (n : Nat) (al : State → Bool) (op : HostOp) (body : State → Flow) (s : State) :
    hostOp n al op body s = .next s.refuse ∨
      hostOp n al op body s = .next (s.raise ⟨.context, s.cur.toAgent, 470, op.word⟩) ∨
      hostOp n al op body s = .next (body s).state := by
  unfold hostOp
  split
  · exact .inl rfl
  · split
    · exact .inr (.inr rfl)
    · exact .inr (.inl rfl)

/-! ### Operations in progress -/

/-- A property that every frame keeps, that a failed `initialize` keeps, and that an agent's work does not matter for where every
frame of it meets `F`, is kept by the local continuations; every frame puts only frames that meet `F` in front. -/
theorem unwind_all {P : State → Prop} {F : Micro → Prop} {a : HostAgent}
    (hrun : ∀ m s, P s → F m → (Micro.run a m s).All P ∧ (Micro.run a m s).Pushes F)
    (hwork : ∀ s w, P s → (∀ m ∈ w, F m) → P (s.setWork a w)) (hfail : ∀ s e, P s → P (failInit a s e)) :
    ∀ ms s, P s → (∀ m ∈ ms, F m) → (unwind a ms s).All P := by
  intro ms
  induction ms with
  | nil => intro s hs hF; exact hwork s _ hs hF
  | cons m ms ih =>
    intro s hs hF
    have hF2 : ∀ x ∈ ms, F x := fun x hx => hF x (List.mem_cons_of_mem _ hx)
    rw [unwind]
    split
    · exact hwork s _ hs hF
    · have h := hrun m s hs (hF m List.mem_cons_self)
      split
      · rename_i h2; rw [h2] at h; exact h.1
      · rename_i h2; rw [h2] at h; exact hfail _ _ h.1
      · rename_i h2; rw [h2] at h; exact ih _ h.1 hF2
      · rename_i h2
        rw [h2] at h
        refine hwork _ _ h.1 fun x hx => ?_
        rcases List.mem_append.1 hx with hx | hx
        · exact h.2 x hx
        · exact hF2 x hx

/-- The same for the next atomic step of an agent. -/
theorem advance_all {P : State → Prop} {F : Micro → Prop} {a : HostAgent}
    (hrun : ∀ m s, P s → F m → (Micro.run a m s).All P ∧ (Micro.run a m s).Pushes F)
    (hwork : ∀ s w, P s → (∀ m ∈ w, F m) → P (s.setWork a w)) (hfail : ∀ s e, P s → P (failInit a s e)) (s : State)
    (hs : P s) (hF : ∀ m ∈ s.work a, F m) : (advance a s).All P := by
  unfold advance
  split
  · exact hs
  · rename_i m rest hw
    rw [hw] at hF
    have h := hrun m s hs (hF m List.mem_cons_self)
    split
    · rename_i h2; rw [h2] at h; exact h.1
    · rename_i h2; rw [h2] at h; exact hfail _ _ h.1
    · rename_i h2
      rw [h2] at h
      refine unwind_all hrun hwork hfail _ _ h.1 fun x hx => ?_
      rcases List.mem_append.1 hx with hx | hx
      · exact h.2 x hx
      · exact hF x (List.mem_cons_of_mem _ hx)

/-- An agent whose next frame is an atomic step with nothing local behind it. -/
theorem unwind_step {a : HostAgent} {m : Micro} {rest : List Micro} {s : State} (h : m.isStep = true) :
    unwind a (m :: rest) s = .ok (s.setWork a (m :: rest)) := by rw [unwind, if_pos h]

/-- An agent with nothing left to do. -/
@[simp] theorem unwind_nil (a : HostAgent) (s : State) : unwind a [] s = .ok (s.setWork a []) := rfl

end Sys2Proof.Machine
end

