-- ==== Sys2Proof/Laws/Closed.lean ====
section
/-! SUPPORT. What a step can do, said once: a property that every primitive effect keeps is kept by every step. -/

namespace Sys2Proof.Machine

/-- The primitive effects of the machine, and that `P` outlives each of them. `F` is what `P` says of a frame left to do: it
constrains the end of a `movetail` alone, whose tail is stored later. -/
structure Closed (P : State → Prop) (F : Micro → Prop) : Prop where
  /-- What an agent has left to do, and what was returned. -/
  setWork : ∀ s a w, P s → (∀ m ∈ w, F m) → P (s.setWork a w)
  setRet : ∀ s a r, P s → P (s.setRet a r)
  work : ∀ s a m, P s → m ∈ s.work a → F m
  frame : ∀ m, (∀ t n, m ≠ .tailEnd t n) → F m
  /-- The turn: its agent, its reply, the script and the free turns. -/
  turn : ∀ s c r sc n, P s → P { s with cur := c, reply := r, script := sc, turns := n }
  draw : ∀ s, P s → P { s with draws := s.draws + 1 }
  raise : ∀ s f, P s → P (s.raise f)
  trace : ∀ s k v, P s → P (s.addTrace k v)
  /-- Registers. -/
  clearIcr : ∀ s, P s → P { s with regs := { s.regs with icr := 0#32 } }
  write : ∀ a r v s t, P s → writeReg a r v s = .ok t → P t
  /-- Register objects. -/
  regSet : ∀ a r v m s, P s → (Machine.regSet a r v m s).All P
  regDecide : ∀ a r v b s, P s → (Machine.regDecide a r v b s).All P
  inConfirm : ∀ s r a, P s → P (s.setInConfirm r a true)
  confirmed : ∀ s r a, P s → P (s.setRegObj r ((s.regObj r).confirmed a))
  objects : ∀ s, P s → P { s with mapper := PerReg.const RegObj.empty, drv := { s.drv with initStep := 6 } }
  /-- Descriptors, cursors and tails. -/
  bytes : ∀ s addr bs, P s → s.SoftwareOwns addr bs.length → P (s.putBytes addr bs)
  next : ∀ s t, P s → P (s.setNext t)
  moved : ∀ s t, P s → F (.tailEnd t (nextIndex (s.tailShadow t) (s.ringSize t)))
  tail : ∀ s t n, P s → F (.tailEnd t n) → P (s.setTailShadow t n)
  ringReady : ∀ s t, P s → P ((s.setTailShadow t (s.initialTail t)).setCursor t 0)
  /-- The decoder. -/
  snapshot : ∀ s v, P s → P { s with drv := { s.drv with snap := v, icState := .handling } }
  claim : ∀ k s, P s → P (Machine.claim k s).2
  done : ∀ s, P s → P (Machine.icDone s)
  /-- Records. -/
  drop : ∀ s kind code c, P s → kind ≠ .unhandled → kind ≠ .overrun → P (s.drop kind code c)
  unhandled : ∀ s v, P s → P (s.addLog .unhandled v)
  overrun : ∀ s, P s →
    P ({ s with drv := { s.drv with overrunCount := s.drv.overrunCount + 1 } }.addLog .overrun (s.drv.overrunCount + 1))
  /-- The queue and what is published. -/
  push : ∀ s e, P s → s.drv.queue.length < s.params.qCap → P { s with drv := { s.drv with queue := s.drv.queue ++ [e] } }
  pop : ∀ s e q, P s → s.drv.queue = e :: q → P { s with drv := { s.drv with queue := q } }
  publish : ∀ s e, P s → P { s with drv := { s.drv with published := s.drv.published ++ [e] } }
  /-- `tx.send`. -/
  sendStart : ∀ s pa len, P s → P (sendClaim pa len s)
  sendEnd : ∀ s pa len, P s →
    P { s.removeRegion pa len .sendBuffer with drv := { (s.removeRegion pa len .sendBuffer).drv with txBusy := false } }
  /-- `initialize`. -/
  busMaster : ∀ s, P s → P { s with busMaster := true }
  base : ∀ s v, P s → P { s with drv := { s.drv with base := v } }
  registered : ∀ s, P s → P { s with drv := { s.drv with registered := true } }
  irqAllowed : ∀ s, P s → P { s with drv := { s.drv with irqAllowed := true } }
  assigned : ∀ s, P s → P { s with drv := { s.drv with handlerAssigned := true } }
  node : ∀ s n, P s → P { s with drv := { s.drv with macNode := some n } }
  mac : ∀ s m, P s → P { s with drv := { s.drv with mac := m } }
  initStep : ∀ s k, P s → P { s with drv := { s.drv with initStep := k } }
  failed : ∀ s, P s →
    P { s with drv := { s.drv with initFailed := true, registered := false, handlerAssigned := false } }
  alloc : ∀ what s t p, P s → callAlloc what s = .run t p → P t
  /-- Interrupt entry and return. -/
  enter : ∀ s, P s → P s.isrEnter
  leave : ∀ s, P s → P s.isrReturn
  /-- The device and the environment. -/
  txe : ∀ o s, P s → (txeStep o s).All P
  rxmac : ∀ f b e s, P s → (rxmacStep f b e s).All P
  rxe : ∀ s, P s → (rxeStep s).All P
  eec : ∀ s, P s → P (eecStep s)
  cable : ∀ s, P s → P (cableStep s)

variable {P : State → Prop} {F : Micro → Prop}

namespace Closed

/-- Frames among which there is no end of a `movetail`. -/
theorem frames (h : Closed P F) {l : List Micro} (hl : ∀ m ∈ l, ∀ t n, m ≠ .tailEnd t n) : ∀ m ∈ l, F m := fun m hm =>
  h.frame m (hl m hm)

theorem refuse (h : Closed P F) {s : State} (hs : P s) : P s.refuse := h.setRet _ _ _ hs

theorem failInit (h : Closed P F) {s : State} (a : HostAgent) (e : Err) (hs : P s) : P (Machine.failInit a s e) :=
  h.setRet _ _ _ (h.setWork _ _ _ (h.failed _ hs) (by simp))

theorem read (h : Closed P F) {s : State} (r : Reg) (hs : P s) : P (readReg r s).2 := by
  rcases readReg_state r s with e | e | ⟨_, e⟩ <;> rw [e]
  · exact hs
  · exact h.draw _ hs
  · exact h.clearIcr _ hs

theorem writeReg (h : Closed P F) {s : State} (a : HostAgent) (r : Reg) (v : Word) (hs : P s) :
    (Machine.writeReg a r v s).All P := by
  cases e : Machine.writeReg a r v s with
  | ok t => exact h.write _ _ _ _ _ hs e
  | raised t f => rw [writeReg_raised e]; exact hs

theorem staging (h : Closed P F) {s : State} (a : HostAgent) (g : Staging) (hs : P s) : (g.run a s).All P := by
  cases g with
  | set r v m => exact h.regSet _ _ _ _ _ hs
  | decide r v b => exact h.regDecide _ _ _ _ _ hs

theorem index (_ : Closed P F) {s : State} (a : HostAgent) (t : Ring) (i : Nat) (hs : P s) : (checkIndex a t i s).All P := by
  rcases checkIndex_cases a t i s with ⟨_, e⟩ | ⟨_, e⟩ <;> rw [e] <;> exact hs

theorem descWrite (h : Closed P F) {s : State} (a : HostAgent) (t : Ring) (i off : Nat) (bs : List Byte) (hs : P s) :
    (Machine.descWrite a t i off bs s).All P := by
  rcases descWrite_cases a t i off bs s with ⟨_, ho, e⟩ | ⟨_, e⟩ | ⟨_, _, e⟩ <;> rw [e]
  · exact h.bytes _ _ _ hs ho
  · exact hs
  · exact hs

theorem store (h : Closed P F) {s : State} (a : HostAgent) (addr : Nat) (bs : List Byte) (hs : P s) :
    (storeStep a addr bs s).All P := by
  rcases storeStep_cases a addr bs s with ⟨ho, e⟩ | ⟨_, e⟩ <;> rw [e]
  · exact h.setRet _ _ _ (h.bytes _ _ _ hs ho)
  · exact hs

theorem writeCommand (h : Closed P F) {s : State} (a : HostAgent) (i : Nat) (hs : P s) :
    (Machine.writeCommand a i s).All P :=
  Flow.all_andThen (h.descWrite _ _ _ _ _ hs) fun _ ht => h.descWrite _ _ _ _ _ ht

theorem startWrite (h : Closed P F) {s : State} (a : HostAgent) (r : Reg) (v : Word) (after : List Micro) (hs : P s) :
    (startWriteReg a r v after s).All P := Flow.all_go (h.regSet _ _ _ _ _ hs)

theorem readAndClear (h : Closed P F) {s : State} (hs : P s) : P (Machine.readAndClear s) :=
  h.snapshot _ _ (h.clearIcr _ hs)

theorem confirmRead (h : Closed P F) {s : State} (a : HostAgent) (r : Reg) (hs : P s) : (Machine.confirmRead a r s).All P := by
  refine h.inConfirm _ _ _ ?_
  unfold confirmLive
  split
  · exact hs
  · exact h.read _ hs

theorem confirmWrite (h : Closed P F) {s : State} (a : HostAgent) (r : Reg) (live : Word) (hs : P s) :
    (Machine.confirmWrite a r live s).All P :=
  Flow.all_andThen (h.writeReg _ _ _ hs) fun _ ht => h.setRet _ _ _ (h.confirmed _ _ _ ht)

theorem drops (h : Closed P F) {s : State} {kind : LogKind} (code : TraceCode) (c : Nat) (hs : P s)
    (h1 : kind ≠ .unhandled := by decide) (h2 : kind ≠ .overrun := by decide) : P (s.drop kind code c) :=
  h.drop _ _ _ _ hs h1 h2

theorem pollFrom (h : Closed P F) {s : State} (a : HostAgent) (k : Nat) (hs : P s) : (Machine.pollFrom a k s).All P := by
  unfold Machine.pollFrom
  split
  · exact hs
  · exact h.setRet _ _ _ hs

theorem finishSend (h : Closed P F) {s : State} (a : HostAgent) (pa : Word) (len : Nat) (sta : Byte) (c : Nat) (hs : P s) :
    P (Machine.sendEnd a pa len sta c s) := by
  unfold Machine.sendEnd
  refine h.setRet _ _ _ (h.sendEnd _ _ _ (h.next _ _ ?_))
  split
  · exact h.trace _ _ _ hs
  · exact hs

theorem trigLink (h : Closed P F) {s : State} (a : HostAgent) (hs : P s) : (Machine.trigLink a s).All P := by
  have hc := h.claim lsc s hs
  simp only [Machine.trigLink]
  split
  · split
    · exact hc
    · exact Flow.all_thenGo (h.staging _ _ hc) fun _ ht => ht
  · exact hc

theorem trigOverrun (h : Closed P F) {s : State} (hs : P s) : (Machine.trigOverrun s).All P := by
  have hc := h.claim rxo s hs
  simp only [Machine.trigOverrun]
  split
  · exact h.trace _ _ _ (h.overrun _ hc)
  · exact hc

theorem trigReceive (h : Closed P F) {s : State} (a : HostAgent) (hs : P s) : (Machine.trigReceive a s).All P := by
  have hc := h.claim rxt0 _ (h.claim rxdmt0 s hs)
  simp only [Machine.trigReceive]
  split
  · exact h.pollFrom _ _ hc
  · exact hc

theorem macPoll (h : Closed P F) {s : State} (a : HostAgent) (k : Nat) (words : List Half) (hs : P s) :
    (Machine.macPoll a k words s).All P := by
  have hr := h.read .eerd hs
  simp only [Machine.macPoll]
  split
  · split
    · exact hr
    · exact h.setRet _ _ _ (h.mac _ _ hr)
  · exact hr

theorem loadMac (h : Closed P F) {s : State} (a : HostAgent) (hs : P s) : (Machine.loadMac a s).All P := by
  simp only [Machine.loadMac]
  split
  · refine Flow.all_thenGo (h.regSet _ _ _ _ _ hs) fun t ht => ?_
    have hc := h.confirmRead a .eerd ht
    split
    · rename_i e; rw [e] at hc; exact hc
    · exact hc
  · exact h.read .ral0 hs

/-- Every frame keeps the property. -/
theorem micro (h : Closed P F) (a : HostAgent) (m : Micro) (s : State) (hs : P s) (hm : F m) : (m.run a s).All P := by
  cases m with
  | confirmRead r => exact h.confirmRead _ _ hs
  | confirmWrite r live => exact Flow.all_go (h.confirmWrite _ _ _ hs)
  | txAddr c pa => exact Flow.all_go (h.descWrite _ _ _ _ _ hs)
  | txLen c len => exact Flow.all_go (h.descWrite _ _ _ _ _ hs)
  | txCmd c => exact Flow.all_go (h.writeCommand _ _ hs)
  | txPoll c pa len =>
    refine Flow.all_thenGo (h.index _ _ _ hs) fun t ht => ?_
    split
    · exact h.finishSend _ _ _ _ _ ht
    · exact ht
  | rxAddr i => exact Flow.all_go (h.descWrite _ _ _ _ _ hs)
  | rxClear i => exact Flow.all_go (h.descWrite _ _ _ _ _ hs)
  | pollDone k =>
    refine Flow.all_thenGo (h.index _ _ _ hs) fun t ht => ?_
    split
    · exact ht
    · exact h.setRet _ _ _ ht
  | pollLen k c =>
    refine Flow.all_thenGo (h.index _ _ _ hs) fun t ht => ?_
    split
    · exact h.drops _ _ ht
    · exact ht
  | pollEop k c ptr len =>
    refine Flow.all_thenGo (h.index _ _ _ hs) fun t ht => ?_
    split
    · exact ht
    · exact h.drops _ _ ht
  | pollErrors k c ptr len =>
    refine Flow.all_thenGo (h.index _ _ _ hs) fun t ht => ?_
    split
    · exact h.drops _ _ ht
    · exact ht
  | pollPush k c ptr len =>
    simp only [Micro.run, Machine.pollPush]
    split
    · rename_i hq; exact h.push _ _ hs hq
    · exact h.drops _ _ hs
  | pollClear k c => exact Flow.all_thenGo (h.descWrite _ _ _ _ _ hs) fun t ht => h.next _ _ ht
  | callBusMaster =>
    simp only [Micro.run, Machine.callBusMaster, Machine.service]
    split
    · exact h.busMaster _ hs
    · exact hs
  | callMapIo =>
    simp only [Micro.run, Machine.callMapIo]
    split
    · exact h.base _ _ hs
    · exact hs
  | callAlloc what =>
    cases e : Machine.callAlloc what s with
    | run t p => simp only [Micro.run, e]; exact h.alloc _ _ _ _ hs e
    | abort t x =>
      simp only [Micro.run, e]
      simp only [Machine.callAlloc] at e
      split at e <;> cases e
      exact hs
    | raised t f =>
      simp only [Machine.callAlloc] at e
      split at e <;> cases e
  | callRegister =>
    simp only [Micro.run, Machine.callRegister, Machine.service]
    split
    · exact h.registered _ hs
    · exact hs
  | callAllow =>
    simp only [Micro.run, Machine.callAllow, Machine.service]
    split
    · exact h.irqAllowed _ hs
    · exact hs
  | callAssign =>
    simp only [Micro.run, Machine.callAssign, Machine.service]
    split
    · exact h.assigned _ hs
    · exact hs
  | callCreateDirectory =>
    simp only [Micro.run, Machine.callCreateDirectory, Machine.service]
    split <;> exact hs
  | callAddNode =>
    simp only [Micro.run, Machine.callAddNode, Machine.service]
    split
    · exact h.node _ _ hs
    · exact hs
  | loadMac => exact h.loadMac _ hs
  | macPoll k words => exact h.macPoll _ _ _ hs
  | macHigh lo => exact h.setRet _ _ _ (h.mac _ _ (h.read .rah0 hs))
  | icReadClear => exact h.readAndClear hs
  | icDone => exact h.done _ hs
  | parsePop =>
    simp only [Micro.run, Machine.parsePop]
    split
    · exact hs
    · rename_i e; exact h.pop _ _ _ hs e
  | parseCopy ptr len => exact hs
  | parsePublish bytes len => exact h.setRet _ _ _ (h.publish _ _ hs)
  | writeReg r v => exact h.startWrite _ _ _ _ hs
  | moveTail t => exact h.startWrite _ _ _ _ hs
  | tailEnd t tail => exact h.setRet _ _ _ (h.tail _ _ _ hs hm)
  | txInit => exact h.startWrite _ _ _ _ hs
  | rxInitFrom i =>
    simp only [Micro.run, Machine.rxInitFrom]
    split
    · exact hs
    · exact h.startWrite _ _ _ _ hs
  | ringInitEnd t => exact h.setRet _ _ _ (h.ringReady _ _ hs)
  | setting st =>
    simp only [Micro.run, Machine.settingLine]
    split
    · exact hs
    · exact Flow.all_go (h.staging _ _ hs)
  | manage g =>
    simp only [Micro.run, Machine.manageLine]
    split <;> exact hs
  | slotsFrom i =>
    simp only [Micro.run, Machine.slotsFrom]
    split <;> exact hs
  | createObjects => exact h.objects _ hs
  | initDone k =>
    simp only [Micro.run, Machine.initDone, Go.all_run]
    split
    · exact h.setRet _ _ _ (h.initStep _ _ hs)
    · exact h.initStep _ _ hs
  | macStart k words => exact h.startWrite _ _ _ _ hs
  | trigLink => exact h.trigLink _ hs
  | trigOverrun => exact h.trigOverrun hs
  | trigReceive => exact h.trigReceive _ hs
  | trigUnhandled =>
    simp only [Micro.run, Machine.trigUnhandled]
    split
    · exact h.trace _ _ _ (h.unhandled _ _ hs)
    · exact hs
  | trigReturn => exact h.setRet _ _ _ (h.leave _ hs)
  | pollFrom k => exact h.pollFrom _ _ hs

/-- Every frame puts only frames that meet `F` in front. -/
theorem pushes (h : Closed P F) (a : HostAgent) (m : Micro) (s : State) (hs : P s) : (m.run a s).Pushes F := by
  have one : ∀ (l : List Micro), (∀ m ∈ l, ∀ t n, m ≠ .tailEnd t n) → ∀ m ∈ l, F m := fun _ => h.frames
  cases m
  case moveTail t =>
    refine Flow.pushes_go fun m hm => ?_
    rcases List.mem_cons.1 hm with rfl | hm
    · exact h.frame _ (by simp)
    · rw [List.mem_singleton.1 hm]; exact h.moved s t hs
  all_goals
    simp only [Micro.run, Machine.confirmRead, Machine.txPoll, Machine.pollDone, Machine.pollLen, Machine.pollEop,
      Machine.pollErrors, Machine.pollPush, Machine.pollClear, Machine.parsePop,
      Machine.parseCopy, Machine.parsePublish, Machine.tailEnd, Machine.txInit, Machine.rxInitFrom, Machine.ringInitEnd,
      settingLine, manageLine, Machine.slotsFrom, Machine.createObjects, Machine.initDone, Machine.macStart, startWriteReg,
      Machine.trigLink, Machine.trigOverrun, Machine.trigReceive, Machine.trigUnhandled, Machine.trigReturn, Machine.pollFrom]
    try simp only [Machine.callBusMaster, Machine.callMapIo, Machine.callAlloc, Machine.callRegister, Machine.callAllow,
      Machine.callAssign, Machine.callCreateDirectory, Machine.callAddNode, Machine.service, Machine.loadMac, Machine.macPoll, macLoaded]
    repeat' first
      | exact one _ (by simp)
      | exact True.intro
      | refine Flow.pushes_go (one _ (by simp))
      | refine Flow.pushes_thenGo fun _ => ?_
      | split

/-- The next atomic step of an agent keeps the property. -/
theorem advance (h : Closed P F) (a : HostAgent) (s : State) (hs : P s) : (Machine.advance a s).All P :=
  advance_all (F := F) (fun m s hs hm => ⟨h.micro a m s hs hm, h.pushes a m s hs⟩) (fun _ _ => h.setWork _ _ _)
    (fun _ _ => h.failInit _ _) s hs (h.work s a · hs)

/-- Installing frames that meet `F` keeps the property. -/
theorem install (h : Closed P F) (a : HostAgent) {frames : List Micro} (s : State) (hs : P s) (hF : ∀ m ∈ frames, F m) :
    (Machine.install a frames s).All P :=
  unwind_all (F := F) (fun m s hs hm => ⟨h.micro a m s hs hm, h.pushes a m s hs⟩) (fun _ _ => h.setWork _ _ _)
    (fun _ _ => h.failInit _ _) _ _ (h.setRet _ _ _ hs) fun m hm =>
      (List.mem_append.1 hm).elim (hF m) (h.work s a m hs)

/-- Starting an operation whose frames meet `F` keeps the property. -/
theorem startOp (h : Closed P F) {frames : List Micro} (s : State) (hs : P s) (hF : ∀ m ∈ frames, F m) :
    (Machine.startOp frames s).All P :=
  Flow.all_andThen (h.install _ _ hs hF) fun _ ht => h.advance _ _ ht

/-- The outcome of a piece keeps the property. -/
theorem outcome (h : Closed P F) {x : Flow} (hx : x.All P) : P x.state := by
  cases x with
  | ok s => exact hx
  | raised s f => exact h.raise _ _ hx

/-- An issued host operation keeps the property when its body does. -/
theorem hostOp (h : Closed P F) {n : Nat} {al : State → Bool} {op : HostOp} {body : State → Flow} {s t : State} (hs : P s)
    (e : Machine.hostOp n al op body s = .next t) (hb : (body s).All P) : P t := by
  rcases hostOp_cases n al op body s with e2 | e2 | e2 <;> rw [e2] at e <;> cases e
  · exact h.refuse hs
  · exact h.raise _ _ hs
  · exact h.outcome hb

theorem settingOp (h : Closed P F) (st : Setting) {s : State} (hs : P s) : (Machine.settingOp st s).All P := by
  simp only [Machine.settingOp]
  split
  · exact h.setRet _ _ _ hs
  · exact Flow.all_andThen (h.staging _ _ hs) fun _ ht => h.setRet _ _ _ ht

theorem writeOp (h : Closed P F) {go : HostAgent → State → Flow} {s : State} (hg : (go s.cur s).All P) :
    (Machine.writeOp go s).All P := Flow.all_andThen hg fun _ ht => h.setRet _ _ _ ht

theorem readOp (h : Closed P F) {s : State} (t : Ring) (i : Nat) (v : State → Ret) (hs : P s) :
    (Machine.readOp t i v s).All P := Flow.all_andThen (h.index _ _ _ hs) fun _ ht => h.setRet _ _ _ ht

theorem mmioRead (h : Closed P F) {r : Reg} {s t : State} (hs : P s) (e : Machine.mmioRead r s = .next t) : P t := by
  cases e; exact h.setRet _ _ _ (h.read _ hs)

theorem mmioWrite (h : Closed P F) {r : Reg} {v : Word} {s t : State} (hs : P s) (e : Machine.mmioWrite r v s = .next t) :
    P t := by
  cases e
  exact h.outcome (Flow.all_andThen (h.writeReg _ _ _ hs) fun _ ht => h.setRet _ _ _ ht)

theorem sendBody (h : Closed P F) (pa : Word) (len : Nat) {s : State} (hs : P s) : (Machine.sendBody pa len s).All P := by
  unfold Machine.sendBody
  split
  · exact hs
  · split
    · exact hs
    · split
      · exact h.sendStart _ _ _ hs
      · exact h.startOp _ (h.sendStart _ _ _ hs) (h.frames (by simp [sendFrames]))

/-- Every instruction keeps the property. -/
theorem exec (h : Closed P F) (i : Instr) {s t : State} (hs : P s) (e : Machine.exec i s = .next t) : P t := by
  cases i <;> simp only [Machine.exec] at e
  case regSet r v m =>
    unfold execRegSet at e
    refine h.hostOp hs e ?_
    split
    · exact h.refuse hs
    · exact Flow.all_andThen (h.regSet _ _ _ _ _ hs) fun _ ht => h.setRet _ _ _ ht
  case regDecide r v b =>
    unfold execRegDecide at e
    refine h.hostOp hs e ?_
    split
    · exact h.refuse hs
    · exact Flow.all_andThen (h.regDecide _ _ _ _ _ hs) fun _ ht => h.setRet _ _ _ ht
  case regConfirm r =>
    unfold execRegConfirm at e
    refine h.hostOp hs e ?_
    split
    · exact h.refuse hs
    · exact h.startOp _ hs (h.frames (by simp))
  case grpManage g =>
    unfold execGrpManage at e
    refine h.hostOp hs e ?_
    split
    · exact h.startOp _ hs (h.frames (by simp))
    · exact h.setRet _ _ _ hs
  case regReaddirect r =>
    unfold execRegReaddirect at e
    exact h.hostOp hs e (h.setRet _ _ _ (h.read _ hs))
  case icReadclear =>
    unfold execIcReadclear at e
    exact h.hostOp hs e (h.setRet _ _ _ (h.readAndClear hs))
  case icLinkchanged =>
    unfold execIcLinkchanged at e
    exact h.hostOp hs e (h.setRet _ _ _ (h.claim _ _ hs))
  case icOverrun =>
    unfold execIcOverrun at e
    exact h.hostOp hs e (h.setRet _ _ _ (h.claim _ _ hs))
  case icMinthreshold =>
    unfold execIcMinthreshold at e
    exact h.hostOp hs e (h.setRet _ _ _ (h.claim _ _ hs))
  case icRxtimer =>
    unfold execIcRxtimer at e
    exact h.hostOp hs e (h.setRet _ _ _ (h.claim _ _ hs))
  case icMdiodone =>
    unfold execIcMdiodone at e
    exact h.hostOp hs e (h.setRet _ _ _ (h.claim _ _ hs))
  case icUnhandled =>
    unfold execIcUnhandled at e
    exact h.hostOp hs e (h.setRet _ _ _ hs)
  case txdWritelength i len =>
    unfold execTxdWritelength at e
    refine h.hostOp hs e (Flow.all_andThen (h.index _ _ _ hs) fun t ht => ?_)
    split
    · exact h.writeOp (h.descWrite _ _ _ _ _ ht)
    · exact ht
  case txdWritecommand i =>
    unfold execTxdWritecommand at e
    exact h.hostOp hs e (h.writeOp (h.writeCommand _ _ hs))
  case ringCurrent r =>
    unfold execRingCurrent at e
    exact h.hostOp hs e (h.setRet _ _ _ hs)
  case ringSetnext r =>
    unfold execRingSetnext at e
    exact h.hostOp hs e (h.setRet _ _ _ (h.next _ _ hs))
  case hwringInit r =>
    unfold execHwringInit at e
    refine h.hostOp hs e (h.startOp _ hs (h.frames ?_))
    cases r <;> simp [ringInitFrames]
  case txSend pa len =>
    unfold execTxSend at e
    exact h.hostOp hs e (h.sendBody _ _ hs)
  case coreInitialize =>
    unfold execCoreInitialize at e
    split at e
    · cases e; exact h.refuse hs
    · exact h.hostOp hs e (h.startOp _ hs (h.frames (by simp [initFrames, configFrames])))
  case coreLoadmac =>
    unfold execCoreLoadmac at e
    split at e
    · exact h.hostOp hs e (h.advance _ _ hs)
    · cases e; exact h.refuse hs
  case coreTrigger f =>
    unfold execCoreTrigger at e
    exact h.hostOp hs e (h.install _ _ (h.enter _ hs) (h.frames (by simp [triggerFrames])))
  case coreHasdata =>
    unfold execCoreHasdata at e
    exact h.hostOp hs e (h.setRet _ _ _ hs)
  all_goals
    first
    | exact h.mmioRead hs e
    | exact h.mmioWrite hs e
    | exact h.hostOp hs e (h.settingOp _ hs)
    | exact h.hostOp hs e (h.readOp _ _ _ hs)
    | exact h.hostOp hs e (h.writeOp (h.descWrite _ _ _ _ _ hs))
    | exact h.hostOp hs e (h.startOp _ hs (h.frames (by simp)))

theorem asAgent (h : Closed P F) {s : State} (a : HostAgent) (p : Reply) (hs : P s) : P (s.asAgent a p) :=
  h.turn s a p s.script s.turns hs

theorem reject (h : Closed P F) {s : State} (e : DecodeError) (req : Request) (hs : P s) : P (Machine.reject e req s) := by
  cases e
  case noSuchOperation => exact h.refuse hs
  all_goals exact h.raise _ _ hs

/-- Issuing a request keeps the property. -/
theorem issue (h : Closed P F) (a : HostAgent) (req : Request) (p : Reply) {s u : State} (hs : P s)
    (e : Machine.issue a req p s = .next u) : P u := by
  simp only [Machine.issue] at e
  split at e
  · split at e
    · exact h.exec _ (h.asAgent _ _ hs) e
    · cases e; exact hs
  · split at e
    · cases e; exact h.reject _ _ (h.asAgent _ _ hs)
    · cases e; exact hs

/-- A host access outside the driver keeps the property. -/
theorem hostAccess (h : Closed P F) (a : HostAgent) (va : Word) (acc : Access) {s u : State} (hs : P s)
    (e : Machine.hostAccess a va acc s = .next u) : P u := by
  simp only [Machine.hostAccess] at e
  split at e
  · exact h.issue _ _ _ hs e
  · split at e
    · split at e <;> cases e
      · exact h.setRet _ _ _ hs
      · exact h.outcome (h.store _ _ _ hs)
    · cases e; exact hs

/-- Every turn keeps the property. -/
theorem perform (h : Closed P F) (t : Turn) {s u : State} (hs : P s) (e : Machine.perform t s = .next u) : P u := by
  cases t
  case issue a req p => exact h.issue _ _ _ hs e
  case access a va acc => exact h.hostAccess _ _ _ hs e
  case resume a p =>
    simp only [Machine.perform, resume] at e
    split at e
    · cases e; exact h.outcome (h.advance _ _ (h.asAgent _ _ hs))
    · cases e; exact hs
  case dispatch f =>
    simp only [Machine.perform, deliver] at e
    split at e
    · exact h.exec _ (h.asAgent _ _ hs) e
    · cases e; exact hs
  case txe o => cases e; exact h.outcome (h.txe _ _ hs)
  case rxmac f b x => cases e; exact h.outcome (h.rxmac _ _ _ _ hs)
  case rxe => cases e; exact h.outcome (h.rxe _ hs)
  case eec => cases e; exact h.eec _ hs
  case cable => cases e; exact h.cable _ hs
  case store a n bs =>
    simp only [Machine.perform] at e
    split at e <;> cases e
    · exact h.outcome (h.store _ _ _ hs)
    · exact hs

/-- Taking the next turn off the script keeps the property. -/
theorem nextTurn (h : Closed P F) {s : State} (hs : P s) : P s.nextTurn.2 := by
  unfold State.nextTurn
  split
  · rename_i rest _; exact h.turn s s.cur s.reply rest s.turns hs
  · exact h.turn s s.cur s.reply s.script (s.turns + 1) hs

/-- EVERY STEP KEEPS A PROPERTY THAT EVERY PRIMITIVE EFFECT KEEPS. -/
theorem step (h : Closed P F) {s t : State} (hs : P s) (e : Machine.step s = .next t) : P t := by
  unfold Machine.step at e
  split at e
  · cases e
  · exact h.perform _ (h.nextTurn hs) e

end Closed

end Sys2Proof.Machine
end

