-- ==== Sys2Proof/Laws/Device.lean ====
section
/-! SUPPORT. One lemma for each device engine that says once what its step can change. -/

namespace Sys2Proof.Machine

/-- Latching a cause under a condition, as one record update. -/
theorem State.setCauseIf_eq (s : State) (c : Bool) (k : Nat) :
    s.setCauseIf c k = { s with regs := { s.regs with icr := s.regs.icr ||| (if c then bit k else 0#32) } } := by
  cases c
  · simp [State.setCauseIf]
  · rfl

/-- RXMAC's rule (46_dma_sequencer.md R418): the frame is stored, or an overrun is latched, or nothing happens, or a reserved
loopback mode faults. -/
theorem rxmacAccept_cases (env : Bool) (f : List Byte) (b : Bool) (e : Byte) (s : State) :
    rxmacAccept env f b e s = .ok s ∨ rxmacAccept env f b e s = .ok (s.rxStore f b e) ∨
      ∃ r, rxmacAccept env f b e s = .raised s r := by
  unfold rxmacAccept
  repeat' split
  all_goals first | exact .inl rfl | exact .inr (.inl rfl) | exact .inr (.inr ⟨_, rfl⟩)

/-- Storing a frame: one more frame in a FIFO that is not full, or the overrun cause (R418, R419). -/
theorem State.rxStore_cases (s : State) (f : List Byte) (b : Bool) (e : Byte) :
    (s.rxFifo.length = s.params.rxFifoCap ∧ s.rxStore f b e = s.setCause rxo) ∨
      (s.rxFifo.length ≠ s.params.rxFifoCap ∧
        s.rxStore f b e = { s with rxFifo := s.rxFifo ++ [⟨f, rxErrByte b e⟩] }) := by
  unfold State.rxStore
  split
  · rename_i h; exact .inl ⟨h, rfl⟩
  · rename_i h; exact .inr ⟨h, rfl⟩

/-- RXE's loop over the chunks changes memory and draws, nothing else. -/
theorem rxWriteChunks_ok {err : Byte} {bytes : List Byte} {b m k j : Nat} {s t : State}
    (h : rxWriteChunks err bytes b m k j s = .ok t) : t = { s with mem := t.mem, draws := t.draws } := by
  induction k generalizing j s with
  | zero => simp only [rxWriteChunks] at h; cases h; rfl
  | succ k ih =>
    simp only [rxWriteChunks] at h
    split at h
    · cases h
    · rename_i s1 h1
      have := ih h
      simp only [rxWriteChunk] at h1
      split at h1 <;> cases h1
      rw [this]

/-- What TXE's emission can change: the wire, the FIFO, ICR and the draws. -/
theorem emit_ok {f : List Byte} {o : Collision} {s t : State} (h : emit f o s = .ok t) :
    t = { s with wireOut := t.wireOut, rxFifo := t.rxFifo, draws := t.draws,
                 regs := { s.regs with icr := t.regs.icr } } := by
  have acc : ∀ s1 : State, rxmacAccept false f true 0#8 s1 = .ok t →
      t = { s1 with rxFifo := t.rxFifo, regs := { s1.regs with icr := t.regs.icr } } := by
    intro s1 h1
    rcases rxmacAccept_cases false f true 0#8 s1 with e | e | ⟨r, e⟩ <;> rw [e] at h1 <;> cases h1
    · rfl
    · rcases s1.rxStore_cases f true 0#8 with ⟨_, e2⟩ | ⟨_, e2⟩
      · rw [e2]; rfl
      · rw [e2]
  unfold emit loopFrame at h
  split at h
  · split at h
    · simp only at h
      split at h
      · rw [acc _ h]
      · cases h; rfl
    · rw [acc _ h]
  · split at h <;> cases h <;> rfl

/-- Loopback raises no fault: its mode is 3. -/
theorem emit_not_raised {f : List Byte} {o : Collision} {s t : State} {r : FaultRecord} : emit f o s ≠ .raised t r := by
  intro h
  have acc : ∀ s1 : State, s1.lbm = 3 → rxmacAccept false f true 0#8 s1 ≠ .raised t r := by
    intro s1 h3 h1
    unfold rxmacAccept at h1
    simp only [h3, show (decide (3 = 1) || decide (3 = 2)) = false from rfl, Bool.and_false, Bool.false_eq_true, if_false] at h1
    repeat' split at h1
    all_goals cases h1
  unfold emit loopFrame at h
  split at h
  · rename_i h3
    split at h
    · simp only at h
      split at h
      · exact acc { s with draws := s.draws + 1 } h3 h
      · cases h
    · exact acc s h3 h
  · split at h <;> cases h

/-- What a TXE step that raises no fault can change (46_dma_sequencer.md R412): the wire, the FIFO, the draws, memory, the head
and ICR. -/
theorem txeStep_ok {o : Collision} {s t : State} (h : txeStep o s = .ok t) :
    t = { s with wireOut := t.wireOut, rxFifo := t.rxFifo, draws := t.draws, mem := t.mem,
                 regs := { s.regs with icr := t.regs.icr, tdh := t.regs.tdh } } := by
  unfold txeStep at h
  split at h
  · split at h
    · cases h
    · rename_i w _
      dsimp only at h
      generalize (if s.lbm = 3 then Collision.none else o) = oo at h
      cases e : emit (txFrame (s.regs.tctl.getLsbD 3) w.cmd w.buf) oo s with
      | raised t f => exact absurd e emit_not_raised
      | ok t1 =>
        rw [e] at h
        simp only [Flow.ok_andThen, State.txRetire, State.txCauses, State.setCauseIf_eq, State.txWriteBack] at h
        cases h
        rw [emit_ok e]
        split <;> rfl
  · cases h; rfl

end Sys2Proof.Machine
end

