-- ==== Sys2Proof/Laws/PerInstr.lean ====
section
/-! SUPPORT. Statements for all instructions, one lemma for each constructor: no request is longer than the bytes that a table
word is laid out in (`requestBytes`). -/

namespace Sys2Proof

/-- The bytes of a request. -/
def Request.bytes : Request → List Byte
  | .mmio _ bs => bs
  | .host bs => bs

/-- The number of bytes written. -/
@[simp] theorem length_bytesOfNat (n v : Nat) : (bytesOfNat n v).length = n := by
  induction n generalizing v with
  | zero => rfl
  | succ n ih => simp [bytesOfNat, ih]

@[simp] theorem length_wordBytes (w : Word) : (wordBytes w).length = 4 := length_bytesOfNat _ _
@[simp] theorem length_countBytes (n : Nat) : (countBytes n).length = 4 := length_bytesOfNat _ _
@[simp] theorem length_intBytes (v : Int) : (intBytes v).length = 8 := length_bytesOfNat _ _
@[simp] theorem length_regByte (r : Reg) : (regByte r).length = 1 := rfl
@[simp] theorem length_groupByte (g : Group) : (groupByte g).length = 1 := rfl
@[simp] theorem length_ringByte (t : Ring) : (ringByte t).length = 1 := rfl
@[simp] theorem length_boolByte (b : Bool) : (boolByte b).length = 1 := rfl

/-- A request of 11 bytes fits the bytes of a table word. -/
theorem fits_of_le {r : Request} {n : Nat} (h : r.bytes.length = n) (hn : n ≤ 11) : r.bytes.length ≤ requestBytes := by
  unfold requestBytes; omega

/-- The offsets of a table are those of the registers in order. -/
theorem offsets_list (o : Offsets) : o.list = Reg.all.map (pOffsets o) := rfl

/-- In a table with one offset for each register, the register at a register's offset is that register (30_encoding.md R141). -/
theorem regAtOffset_pOffsets {o : Offsets} (h : o.wf = true) (r : Reg) : regAtOffset o (pOffsets o r) = some r := by
  have hn : (Reg.all.map (pOffsets o)).Nodup := by
    rw [← offsets_list]
    exact of_decide_eq_true (Bool.and_eq_true_iff.1 h).2
  have inj : ∀ (l : List Reg), (l.map (pOffsets o)).Nodup → r ∈ l → l.find? (fun x => pOffsets o x == pOffsets o r) = some r := by
    intro l
    induction l with
    | nil => intro _ hr; cases hr
    | cons x l ih =>
      intro hl hr
      rw [List.map_cons, List.nodup_cons] at hl
      rw [List.find?_cons]
      by_cases hx : x = r
      · subst hx; simp
      · have hr2 : r ∈ l := (List.mem_cons.1 hr).resolve_left (Ne.symm hx)
        have : pOffsets o x ≠ pOffsets o r := fun e => hl.1 (e ▸ List.mem_map_of_mem hr2)
        rw [ih hl.2 hr2, beq_eq_false_iff_ne.2 this]
  exact inj Reg.all hn (by cases r <;> decide)

/-- The offsets of a well-formed table are aligned and have 17 bits. -/
theorem pOffsets_wf {o : Offsets} (h : o.wf = true) (r : Reg) : pOffsets o r % 4 = 0 ∧ pOffsets o r < 2 ^ 17 := by
  have hm : pOffsets o r ∈ o.list := by
    rw [offsets_list]; exact List.mem_map_of_mem (by cases r <;> decide)
  have := List.all_eq_true.1 (Bool.and_eq_true_iff.1 h).1 _ hm
  simpa using this

namespace Laws.EncodeLength

/-- The request of the instruction fits the bytes that a table word is laid out in, for every offset table. -/
def Statement (i : Instr) : Prop := ∀ o, (encode o i).bytes.length ≤ requestBytes

theorem of_read (r : Reg) : ∀ o, (encodeRead o r).bytes.length ≤ requestBytes := fun _ =>
  fits_of_le (n := 4) (by simp [encodeRead, Request.bytes]) (by decide)

theorem of_write (r : Reg) (d : Word) : ∀ o, (encodeWrite o r d).bytes.length ≤ requestBytes := fun _ =>
  fits_of_le (n := 8) (by simp [encodeWrite, Request.bytes]) (by decide)

theorem of_host {op : HostOp} {bs : List Byte} (h : bs.length ≤ 9) : (encodeHost op bs).bytes.length ≤ requestBytes := by
  have : (encodeHost op bs).bytes.length = 2 + bs.length := by simp [encodeHost, Request.bytes]
  unfold requestBytes; omega

theorem mmioRCtrl : Statement .mmioRCtrl := of_read .ctrl
theorem mmioWCtrl (data : Word) : Statement (.mmioWCtrl data) := of_write .ctrl data
theorem mmioRStatus : Statement .mmioRStatus := of_read .status
theorem mmioWStatus (data : Word) : Statement (.mmioWStatus data) := of_write .status data
theorem mmioREerd : Statement .mmioREerd := of_read .eerd
theorem mmioWEerd (data : Word) : Statement (.mmioWEerd data) := of_write .eerd data
theorem mmioRIcr : Statement .mmioRIcr := of_read .icr
theorem mmioWIcr (data : Word) : Statement (.mmioWIcr data) := of_write .icr data
theorem mmioRIms : Statement .mmioRIms := of_read .ims
theorem mmioWIms (data : Word) : Statement (.mmioWIms data) := of_write .ims data
theorem mmioRImc : Statement .mmioRImc := of_read .imc
theorem mmioWImc (data : Word) : Statement (.mmioWImc data) := of_write .imc data
theorem mmioRRctl : Statement .mmioRRctl := of_read .rctl
theorem mmioWRctl (data : Word) : Statement (.mmioWRctl data) := of_write .rctl data
theorem mmioRTctl : Statement .mmioRTctl := of_read .tctl
theorem mmioWTctl (data : Word) : Statement (.mmioWTctl data) := of_write .tctl data
theorem mmioRRdbal : Statement .mmioRRdbal := of_read .rdbal
theorem mmioWRdbal (data : Word) : Statement (.mmioWRdbal data) := of_write .rdbal data
theorem mmioRRdbah : Statement .mmioRRdbah := of_read .rdbah
theorem mmioWRdbah (data : Word) : Statement (.mmioWRdbah data) := of_write .rdbah data
theorem mmioRRdlen : Statement .mmioRRdlen := of_read .rdlen
theorem mmioWRdlen (data : Word) : Statement (.mmioWRdlen data) := of_write .rdlen data
theorem mmioRRdh : Statement .mmioRRdh := of_read .rdh
theorem mmioWRdh (data : Word) : Statement (.mmioWRdh data) := of_write .rdh data
theorem mmioRRdt : Statement .mmioRRdt := of_read .rdt
theorem mmioWRdt (data : Word) : Statement (.mmioWRdt data) := of_write .rdt data
theorem mmioRTdbal : Statement .mmioRTdbal := of_read .tdbal
theorem mmioWTdbal (data : Word) : Statement (.mmioWTdbal data) := of_write .tdbal data
theorem mmioRTdbah : Statement .mmioRTdbah := of_read .tdbah
theorem mmioWTdbah (data : Word) : Statement (.mmioWTdbah data) := of_write .tdbah data
theorem mmioRTdlen : Statement .mmioRTdlen := of_read .tdlen
theorem mmioWTdlen (data : Word) : Statement (.mmioWTdlen data) := of_write .tdlen data
theorem mmioRTdh : Statement .mmioRTdh := of_read .tdh
theorem mmioWTdh (data : Word) : Statement (.mmioWTdh data) := of_write .tdh data
theorem mmioRTdt : Statement .mmioRTdt := of_read .tdt
theorem mmioWTdt (data : Word) : Statement (.mmioWTdt data) := of_write .tdt data
theorem mmioRRal0 : Statement .mmioRRal0 := of_read .ral0
theorem mmioWRal0 (data : Word) : Statement (.mmioWRal0 data) := of_write .ral0 data
theorem mmioRRah0 : Statement .mmioRRah0 := of_read .rah0
theorem mmioWRah0 (data : Word) : Statement (.mmioWRah0 data) := of_write .rah0 data
theorem regSet (reg : Reg) (values mask : Word) : Statement (.regSet reg values mask) :=
  fun _ => of_host (by simp)
theorem regDecide (reg : Reg) (values : Word) (enable : Bool) : Statement (.regDecide reg values enable) :=
  fun _ => of_host (by simp)
theorem regConfirm (reg : Reg) : Statement (.regConfirm reg) :=
  fun _ => of_host (by simp)
theorem regReaddirect (reg : Reg) : Statement (.regReaddirect reg) :=
  fun _ => of_host (by simp)
theorem dcSetlinkup (on : Bool) : Statement (.dcSetlinkup on) :=
  fun _ => of_host (by simp)
theorem dcAutospeed (on : Bool) : Statement (.dcAutospeed on) :=
  fun _ => of_host (by simp)
theorem rcEnable (on : Bool) : Statement (.rcEnable on) :=
  fun _ => of_host (by simp)
theorem rcLoopback (mode : Int) : Statement (.rcLoopback mode) :=
  fun _ => of_host (by simp)
theorem rcBufsize (size : Int) : Statement (.rcBufsize size) :=
  fun _ => of_host (by simp)
theorem rcMinthreshold (fraction : Int) : Statement (.rcMinthreshold fraction) :=
  fun _ => of_host (by simp)
theorem rcBroadcast (on : Bool) : Statement (.rcBroadcast on) :=
  fun _ => of_host (by simp)
theorem tcEnable (on : Bool) : Statement (.tcEnable on) :=
  fun _ => of_host (by simp)
theorem tcPadshort (on : Bool) : Statement (.tcPadshort on) :=
  fun _ => of_host (by simp)
theorem tcCollthresh (value : Int) : Statement (.tcCollthresh value) :=
  fun _ => of_host (by simp)
theorem tcColldist (value : Int) : Statement (.tcColldist value) :=
  fun _ => of_host (by simp)
theorem ieEnable (causes : Word) : Statement (.ieEnable causes) :=
  fun _ => of_host (by simp)
theorem idDisable (causes : Word) : Statement (.idDisable causes) :=
  fun _ => of_host (by simp)
theorem grpManage (group : Group) : Statement (.grpManage group) :=
  fun _ => of_host (by simp)
theorem icReadclear : Statement .icReadclear := fun _ => of_host (by decide)
theorem icLinkchanged : Statement .icLinkchanged := fun _ => of_host (by decide)
theorem icOverrun : Statement .icOverrun := fun _ => of_host (by decide)
theorem icMinthreshold : Statement .icMinthreshold := fun _ => of_host (by decide)
theorem icRxtimer : Statement .icRxtimer := fun _ => of_host (by decide)
theorem icMdiodone : Statement .icMdiodone := fun _ => of_host (by decide)
theorem icUnhandled : Statement .icUnhandled := fun _ => of_host (by decide)
theorem txdWriteaddress (index : Nat) (pa : Word) : Statement (.txdWriteaddress index pa) :=
  fun _ => of_host (by simp)
theorem txdWritelength (index len : Nat) : Statement (.txdWritelength index len) :=
  fun _ => of_host (by simp)
theorem txdWritecommand (index : Nat) : Statement (.txdWritecommand index) :=
  fun _ => of_host (by simp)
theorem txdIsdone (index : Nat) : Statement (.txdIsdone index) :=
  fun _ => of_host (by simp)
theorem rxdWriteaddress (index : Nat) (pa : Word) : Statement (.rxdWriteaddress index pa) :=
  fun _ => of_host (by simp)
theorem rxdGetpacketaddress (index : Nat) : Statement (.rxdGetpacketaddress index) :=
  fun _ => of_host (by simp)
theorem rxdReadlength (index : Nat) : Statement (.rxdReadlength index) :=
  fun _ => of_host (by simp)
theorem rxdIseop (index : Nat) : Statement (.rxdIseop index) :=
  fun _ => of_host (by simp)
theorem rxdClearstatus (index : Nat) : Statement (.rxdClearstatus index) :=
  fun _ => of_host (by simp)
theorem rxdHaserrors (index : Nat) : Statement (.rxdHaserrors index) :=
  fun _ => of_host (by simp)
theorem rxdDone (index : Nat) : Statement (.rxdDone index) :=
  fun _ => of_host (by simp)
theorem ringCurrent (ring : Ring) : Statement (.ringCurrent ring) :=
  fun _ => of_host (by simp)
theorem ringSetnext (ring : Ring) : Statement (.ringSetnext ring) :=
  fun _ => of_host (by simp)
theorem hwringInit (ring : Ring) : Statement (.hwringInit ring) :=
  fun _ => of_host (by simp)
theorem hwringMovetail (ring : Ring) : Statement (.hwringMovetail ring) :=
  fun _ => of_host (by simp)
theorem txSend (pa : Word) (len : Nat) : Statement (.txSend pa len) :=
  fun _ => of_host (by simp)
theorem rxPoll : Statement .rxPoll := fun _ => of_host (by decide)
theorem coreInitialize : Statement .coreInitialize := fun _ => of_host (by decide)
theorem coreLoadmac : Statement .coreLoadmac := fun _ => of_host (by decide)
theorem coreTrigger (frame : Word) : Statement (.coreTrigger frame) :=
  fun _ => of_host (by simp)
theorem coreHasdata : Statement .coreHasdata := fun _ => of_host (by decide)
theorem coreParse : Statement .coreParse := fun _ => of_host (by decide)

end Laws.EncodeLength

end Sys2Proof
end

