-- ==== Sys2Proof/Tests/Slice0.lean ====
section
/-! SUPPORT. Tests. `V<file>.<n>`, `P<n>` and `§8.<n>` are vectors of spec/95_test_vectors.md: each expected value is that
vector's, or worked by hand from the rule named. `witness_<statement>` shows a state and operands that meet the hypotheses of
`Obligations.<statement>`, clause by clause, at the bounds of their ranges. -/

namespace Sys2Proof.Tests

set_option Elab.async false

open Sys2Proof Sys2Proof.Machine

/-! ### Helpers -/

/-- The outcome is a next state with this property. -/
def next (o : Host.Outcome State Fault Refusal) (p : State → Bool) : Bool :=
  match o with
  | .next t => p t
  | _ => false

/-- The issue of an operation, then `n` further steps of its agent, end without a fault in a state with this property. -/
def runs (i : Instr) (n : Nat) (s : State) (p : State → Bool) : Bool :=
  next (exec i s) fun t =>
    match advances s.cur n t with
    | .ok u => u.faults.isEmpty && p u
    | .raised _ _ => false

/-- The outcome is a next state with this one fault recorded. -/
def faultsWith (o : Host.Outcome State Fault Refusal) (f : FaultRecord) : Bool := next o fun t => t.faults == [f]

/-- The returned value of the issuing agent. -/
def returns (o : Host.Outcome State Fault Refusal) (r : Ret) : Bool := next o fun t => t.ret t.cur == r

/-- State S13 of 95_test_vectors.md. The bytes written `x` there read 0 here. -/
def s13 : State :=
  { State.reset with
    regs := { State.reset.regs with
      ctrl := 0x60#32, ims := 0xD4#32, rctl := 0x00008002#32, tctl := 0x000400FA#32, rdbal := 0x00101000#32,
      rdlen := 0x80#32, rdt := 7#32, tdbal := 0x00100000#32, tdlen := 0x80#32 },
    busMaster := true, luPrev := true, ee := { busy := false, addr := 2#14, data := 0x5634#16, done := true },
    mem := [(0x101002, 0x40#8), (0x101011, 0x10#8), (0x101012, 0x40#8), (0x101021, 0x20#8), (0x101022, 0x40#8),
            (0x101031, 0x30#8), (0x101032, 0x40#8), (0x101041, 0x40#8), (0x101042, 0x40#8), (0x101051, 0x50#8),
            (0x101052, 0x40#8), (0x101061, 0x60#8), (0x101062, 0x40#8), (0x101071, 0x70#8), (0x101072, 0x40#8)],
    dma := [⟨0x100000, 4096, .pinned⟩, ⟨0x101000, 4096, .pinned⟩, ⟨0x400000, 0x8000, .pinned⟩],
    maps := [⟨0xC0100000#32, 0x100000#32, 4096⟩, ⟨0xC0101000#32, 0x101000#32, 4096⟩, ⟨0xC0400000#32, 0x400000#32, 0x8000⟩],
    drv := { State.reset.drv with
      initStep := 13, registered := true, irqAllowed := true, handlerAssigned := true, rxTail := 7,
      mac := [0x52#8, 0x54#8, 0x00#8, 0x12#8, 0x34#8, 0x56#8], txVirt := 0xC0100000#32, txPhys := 0x100000#32,
      rxVirt := 0xC0101000#32, rxPhys := 0x101000#32,
      slots := (List.range 8).map fun i => ⟨0xC0400000#32 + BitVec.ofNat 32 (0x1000 * i), 0x400000#32 + BitVec.ofNat 32 (0x1000 * i)⟩ } }

/-- S13 as another agent finds it. -/
def by_ (a : HostAgent) (s : State) : State := { s with cur := a }

/-- Store bytes at an address. -/
def poke (s : State) (a : Nat) (bs : List Byte) : State := { s with mem := s.mem.writeBytes a bs }

/-- Change the device registers. -/
def withRegs (s : State) (f : DevRegs → DevRegs) : State := { s with regs := f s.regs }

/-- Change the driver's state. -/
def withDrv (s : State) (f : Driver → Driver) : State := { s with drv := f s.drv }

/-- S13 with both engines disabled. -/
def quiet : State := withRegs s13 fun r => { r with rctl := 0x00008000#32, tctl := 0x000400F8#32 }

/-- S13 with receive descriptor `i` completed: its length, status and errors. -/
def completed (i len : Nat) (sta err : Byte) (s : State) : State :=
  poke s (0x101008 + 16 * i) (bytesOfNat 2 len ++ [0#8, 0#8, sta, err])

/-- S13 with transmit descriptor 0 programmed for 60 bytes at 0x400000 and handed to the device. -/
def sending (cmd : Byte) (len : Nat) : State :=
  withRegs (poke s13 0x100000 ([0#8, 0#8, 0x40#8, 0#8, 0#8, 0#8, 0#8, 0#8] ++ bytesOfNat 2 len ++ [0#8, cmd]))
    fun r => { r with tdt := 1#32 }

/-- A frame with this destination, of `n` bytes. -/
def frameTo (dst : List Byte) (n : Nat) : List Byte := dst ++ List.replicate (n - 6) 0x11#8

/-- The station address of fixture F0. -/
def station : List Byte := [0x52#8, 0x54#8, 0x00#8, 0x12#8, 0x34#8, 0x56#8]

/-! ### Well-formedness: an ill-formed term for each check -/

theorem test_wf_refuses_integers :
    [Instr.rcLoopback (2 ^ 63), .rcBufsize (-2 ^ 63 - 1), .rcMinthreshold (2 ^ 63), .tcCollthresh (2 ^ 63),
      .tcColldist (-2 ^ 63 - 1)].all (fun i => !i.wf) = true := by decide

theorem test_wf_refuses_counts :
    [Instr.txdWriteaddress (2 ^ 32) 0#32, .txdWritelength (2 ^ 32) 0, .txdWritelength 0 (2 ^ 32), .txdWritecommand (2 ^ 32),
      .txdIsdone (2 ^ 32), .rxdWriteaddress (2 ^ 32) 0#32, .rxdGetpacketaddress (2 ^ 32), .rxdReadlength (2 ^ 32),
      .rxdIseop (2 ^ 32), .rxdClearstatus (2 ^ 32), .rxdHaserrors (2 ^ 32), .rxdDone (2 ^ 32),
      .txSend 0#32 (2 ^ 32)].all (fun i => !i.wf) = true := by decide

/-! ### Decoding: every word of R142 and R145, written out from the tables -/

theorem test_decode_reads :
    [(0x00000000, Instr.mmioRCtrl), (0x00000008, .mmioRStatus), (0x00000014, .mmioREerd), (0x000000C0, .mmioRIcr),
      (0x000000D0, .mmioRIms), (0x000000D8, .mmioRImc), (0x00000100, .mmioRRctl), (0x00000400, .mmioRTctl),
      (0x00002800, .mmioRRdbal), (0x00002804, .mmioRRdbah), (0x00002808, .mmioRRdlen), (0x00002810, .mmioRRdh),
      (0x00002818, .mmioRRdt), (0x00003800, .mmioRTdbal), (0x00003804, .mmioRTdbah), (0x00003808, .mmioRTdlen),
      (0x00003810, .mmioRTdh), (0x00003818, .mmioRTdt), (0x00005400, .mmioRRal0), (0x00005404, .mmioRRah0)].all
      (fun p => decodeTableWord 32 p.1 == some p.2) = true := by decide +kernel

theorem test_decode_writes :
    [(0x1234567880000000, Instr.mmioWCtrl 0x12345678#32), (0x1234567880000008, .mmioWStatus 0x12345678#32),
      (0x1234567880000014, .mmioWEerd 0x12345678#32), (0x12345678800000C0, .mmioWIcr 0x12345678#32),
      (0x12345678800000D0, .mmioWIms 0x12345678#32), (0x12345678800000D8, .mmioWImc 0x12345678#32),
      (0x1234567880000100, .mmioWRctl 0x12345678#32), (0x1234567880000400, .mmioWTctl 0x12345678#32),
      (0x1234567880002800, .mmioWRdbal 0x12345678#32), (0x1234567880002804, .mmioWRdbah 0x12345678#32),
      (0x1234567880002808, .mmioWRdlen 0x12345678#32), (0x1234567880002810, .mmioWRdh 0x12345678#32),
      (0x1234567880002818, .mmioWRdt 0x12345678#32), (0x1234567880003800, .mmioWTdbal 0x12345678#32),
      (0x1234567880003804, .mmioWTdbah 0x12345678#32), (0x1234567880003808, .mmioWTdlen 0x12345678#32),
      (0x1234567880003810, .mmioWTdh 0x12345678#32), (0x1234567880003818, .mmioWTdt 0x12345678#32),
      (0x1234567880005400, .mmioWRal0 0x12345678#32), (0x1234567880005404, .mmioWRah0 0x12345678#32)].all
      (fun p => decodeTableWord 64 p.1 == some p.2) = true := by decide +kernel

/-- The bytes of a host operation decode to an instruction. -/
def hostDecodes (bytes : List Byte) (i : Instr) : Bool :=
  match decode Config.offsets (.host bytes) with
  | .ok j => j == i
  | .error _ => false

theorem test_decode_mapper :
    (hostDecodes [0x01, 0x01, 6, 0xC0, 0, 0, 0, 0x40, 1, 0, 0] (.regSet .rctl 0xC0#32 0x140#32) &&
      hostDecodes [0x02, 0x01, 0, 0x40, 0, 0, 0, 1] (.regDecide .ctrl 0x40#32 true) &&
      hostDecodes [0x03, 0x01, 19] (.regConfirm .rah0) && hostDecodes [0x04, 0x01, 3] (.regReaddirect .icr) &&
      hostDecodes [0x11, 0x02, 1] (.dcSetlinkup true) && hostDecodes [0x12, 0x02, 0] (.dcAutospeed false) &&
      hostDecodes [0x21, 0x02, 1] (.rcEnable true) &&
      hostDecodes [0x22, 0x02, 0xFF, 0xFF, 0xFF, 0xFF, 0xFF, 0xFF, 0xFF, 0xFF] (.rcLoopback (-1)) &&
      hostDecodes [0x23, 0x02, 0x00, 0x40, 0, 0, 0, 0, 0, 0] (.rcBufsize 16384) &&
      hostDecodes [0x24, 0x02, 8, 0, 0, 0, 0, 0, 0, 0] (.rcMinthreshold 8) &&
      hostDecodes [0x25, 0x02, 1] (.rcBroadcast true) && hostDecodes [0x31, 0x02, 0] (.tcEnable false) &&
      hostDecodes [0x32, 0x02, 1] (.tcPadshort true) &&
      hostDecodes [0x33, 0x02, 15, 0, 0, 0, 0, 0, 0, 0] (.tcCollthresh 15) &&
      hostDecodes [0x34, 0x02, 64, 0, 0, 0, 0, 0, 0, 0] (.tcColldist 64) &&
      hostDecodes [0x41, 0x02, 0xD4, 0, 0, 0] (.ieEnable 0xD4#32) &&
      hostDecodes [0x51, 0x02, 4, 0, 0, 0] (.idDisable 4#32) && hostDecodes [0x01, 0x02, 4] (.grpManage .id)) = true := by
  decide +kernel

theorem test_decode_causes :
    [(0x0301, Instr.icReadclear), (0x0302, .icLinkchanged), (0x0303, .icOverrun), (0x0304, .icMinthreshold),
      (0x0305, .icRxtimer), (0x0306, .icMdiodone), (0x0307, .icUnhandled)].all
      (fun p => decodeTableWord 16 p.1 == some p.2) = true := by decide +kernel

theorem test_decode_descriptors :
    (hostDecodes [0x01, 0x04, 7, 0, 0, 0, 0x00, 0x00, 0x30, 0x00] (.txdWriteaddress 7 0x00300000#32) &&
      hostDecodes [0x02, 0x04, 1, 0, 0, 0, 0x3C, 0, 0, 0] (.txdWritelength 1 60) &&
      hostDecodes [0x03, 0x04, 2, 0, 0, 0] (.txdWritecommand 2) && hostDecodes [0x04, 0x04, 3, 0, 0, 0] (.txdIsdone 3) &&
      hostDecodes [0x11, 0x04, 3, 0, 0, 0, 0x00, 0x30, 0x40, 0x00] (.rxdWriteaddress 3 0x00403000#32) &&
      hostDecodes [0x12, 0x04, 4, 0, 0, 0] (.rxdGetpacketaddress 4) &&
      hostDecodes [0x13, 0x04, 5, 0, 0, 0] (.rxdReadlength 5) && hostDecodes [0x14, 0x04, 6, 0, 0, 0] (.rxdIseop 6) &&
      hostDecodes [0x15, 0x04, 7, 0, 0, 0] (.rxdClearstatus 7) && hostDecodes [0x16, 0x04, 0, 1, 0, 0] (.rxdHaserrors 256) &&
      hostDecodes [0x17, 0x04, 1, 0, 0, 0] (.rxdDone 1) && hostDecodes [0x01, 0x05, 0] (.ringCurrent .tx) &&
      hostDecodes [0x02, 0x05, 1] (.ringSetnext .rx) && hostDecodes [0x11, 0x05, 1] (.hwringInit .rx) &&
      hostDecodes [0x12, 0x05, 0] (.hwringMovetail .tx)) = true := by decide +kernel

theorem test_decode_core :
    (hostDecodes [0x01, 0x06, 0x00, 0x00, 0x30, 0x00, 0x3C, 0, 0, 0] (.txSend 0x00300000#32 60) &&
      hostDecodes [0x02, 0x06] .rxPoll && hostDecodes [0x01, 0x07] .coreInitialize && hostDecodes [0x02, 0x07] .coreLoadmac &&
      hostDecodes [0x03, 0x07, 1, 2, 3, 4] (.coreTrigger 0x04030201#32) && hostDecodes [0x04, 0x07] .coreHasdata &&
      hostDecodes [0x05, 0x07] .coreParse) = true := by decide +kernel

/-! ### MMIO requests -/

theorem test_reads_of_s13 :
    (returns (exec .mmioRCtrl s13) (.word 0x60#32) && returns (exec .mmioREerd s13) (.word 0x56340210#32) &&
      returns (exec .mmioRIms s13) (.word 0xD4#32) && returns (exec .mmioRRctl s13) (.word 0x00008002#32) &&
      returns (exec .mmioRTctl s13) (.word 0x000400FA#32) && returns (exec .mmioRRal0 s13) (.word 0x12005452#32) &&
      returns (exec .mmioRRah0 s13) (.word 0x80005634#32)) = true := by decide +kernel

theorem test_ring_reads_of_s13 :
    (returns (exec .mmioRRdbal s13) (.word 0x00101000#32) && returns (exec .mmioRRdbah s13) (.word 0#32) &&
      returns (exec .mmioRRdlen s13) (.word 0x80#32) && returns (exec .mmioRRdh s13) (.word 0#32) &&
      returns (exec .mmioRRdt s13) (.word 7#32) && returns (exec .mmioRTdbal s13) (.word 0x00100000#32) &&
      returns (exec .mmioRTdbah s13) (.word 0#32) && returns (exec .mmioRTdlen s13) (.word 0x80#32) &&
      returns (exec .mmioRTdh s13) (.word 0#32) && returns (exec .mmioRTdt s13) (.word 0#32)) = true := by decide +kernel

/-- V40.5 and V40.6: bit 1 of STATUS is LU, for every draw. -/
theorem test_V40_5_status_shows_link :
    (readReg .status s13).1.getLsbD 1 = true ∧ (readReg .status { s13 with cable := false }).1.getLsbD 1 = false := by
  constructor <;> simp [readReg, readStatus, State.draw32, State.lu, bit, s13, State.reset, State.powerOn, PowerOn.zero]

/-- V40.21: a read of IMC is one draw. -/
theorem test_V40_21_imc_draws : next (exec .mmioRImc s13) (fun t => t.draws == 1) = true := by decide +kernel

/-- V40.2. -/
theorem test_V40_2_ctrl_keeps_link :
    next (exec (.mmioWCtrl 0x40#32) s13) (fun t => t.regs.ctrl == 0x40#32 && t.lu && t.regs.icr == 0#32) = true := by
  decide +kernel

/-- V40.3. -/
theorem test_V40_3_ctrl_drops_link :
    next (exec (.mmioWCtrl 0x20#32) s13) (fun t => t.regs.ctrl == 0x20#32 && !t.lu && t.regs.icr == 4#32) = true := by
  decide +kernel

/-- V40.4 and V70.2: a device reset, for the registers whose reset value is no draw; the data is discarded. -/
theorem test_V40_4_ctrl_resets :
    writeCtrl 0x04000060#32 s13 = .ok s13.deviceReset.linkEval ∧
    (let t := s13.deviceReset
     t.regs.ims == 0#32 && t.regs.rctl == 0#32 && t.regs.rdlen == 0#32 && t.regs.tdlen == 0#32 && t.regs.rdt == 0#32 &&
      t.regs.icr == 0#32 && t.regs.ral0 == 0x12005452#32 && t.regs.rah0 == 0x80005634#32 && !t.ee.done &&
      t.drv.rxTail == 7) = true := by
  constructor
  · rfl
  · decide +kernel

/-- V40.7. -/
theorem test_V40_7_status_ignores_writes :
    next (exec (.mmioWStatus 0xFFFFFFFF#32) s13) (fun t => t.regs == s13.regs && t.drv == s13.drv) = true := by decide +kernel

/-- V40.9, V40.10 and V40.11: a read of EEPROM word 1. -/
theorem test_V40_9_eerd_start :
    next (exec (.mmioWEerd 0x101#32) s13) (fun t =>
      t.ee.busy && returns (exec .mmioREerd t) (.word 0x56340100#32) &&
      returns (exec .mmioREerd (eecStep t)) (.word 0x12000110#32) &&
      faultsWith (exec (.mmioWEerd 0x201#32) t) ⟨.eerdBusy, .host, 206, 2⟩) = true := by decide +kernel

/-- V40.12 and V40.13: an address alone, and layout L541. -/
theorem test_V40_12_eerd_address :
    (next (exec (.mmioWEerd 0x200#32) s13) (fun t => t.ee.addr == 2#14 && t.ee.done && !t.ee.busy) &&
      next (exec (.mmioWEerd 5#32) { s13 with params := { s13.params with variant := .i82541ip } })
        (fun t => returns (exec .mmioREerd (eecStep t)) (.word 0x12000006#32))) = true := by decide +kernel

/-- V40.15. -/
theorem test_V40_15_icr_read_clears :
    next (exec .mmioRIcr (withRegs s13 fun r => { r with icr := 0x84#32 }))
      (fun t => t.ret .host == .word 0x84#32 && returns (exec .mmioRIcr t) (.word 0#32)) = true := by decide +kernel

/-- V40.16 and V40.17. -/
theorem test_V40_16_icr_write_clears_bits :
    (next (exec (.mmioWIcr 4#32) (withRegs s13 fun r => { r with icr := 0x86#32 })) (fun t => t.regs.icr == 0x82#32) &&
      next (exec (.mmioWIcr 0#32) (withRegs s13 fun r => { r with icr := 0x86#32 })) (fun t => t.regs.icr == 0x86#32)) =
      true := by decide +kernel

/-- V40.18. -/
theorem test_V40_18_ims_sets :
    next (exec (.mmioWIms 0xD0#32) (withRegs s13 fun r => { r with ims := 4#32 })) (fun t => t.regs.ims == 0xD4#32) = true := by
  decide +kernel

/-- V40.19 and V40.20. -/
theorem test_V40_19_imc_clears :
    (next (exec (.mmioWImc 4#32) s13) (fun t => t.regs.ims == 0xD0#32 && t.regs.icr == 0#32) &&
      next (exec (.mmioWImc 0xFFFFFFFF#32) (withRegs s13 fun r => { r with icr := 0xFF#32 })) (fun t => !t.irq)) = true := by
  decide +kernel

/-- V40.22 and V40.24. -/
theorem test_V40_22_rctl_enable :
    (faultsWith (exec (.mmioWRctl 2#32) State.reset) ⟨.initOrder, .host, 214, 0x100⟩ &&
      next (exec (.mmioWRctl 0x8000#32) s13) (fun t => t.regs.rctl == 0x8000#32 && !t.rxEnabled)) = true := by decide +kernel

/-- V40.23. -/
theorem test_V40_23_tctl_enable :
    next (exec (.mmioWTctl 2#32) (withRegs State.reset fun r => { r with tdlen := 0x80#32 }))
      (fun t => t.regs.tctl == 2#32 && t.faults.isEmpty) = true := by decide +kernel

/-- V40.25 and V40.26. -/
theorem test_V40_25_rdbal :
    (next (exec (.mmioWRdbal 0x00123007#32) quiet) (fun t => returns (exec .mmioRRdbal t) (.word 0x00123000#32)) &&
      faultsWith (exec (.mmioWRdbal 0x00200000#32) s13) ⟨.ringReprogram, .host, 218, 0x2800⟩) = true := by decide +kernel

/-- V40.27. -/
theorem test_V40_27_tdh_while_enabled :
    faultsWith (exec (.mmioWTdh 0#32) s13) ⟨.ringReprogram, .host, 234, 0x3810⟩ = true := by decide +kernel

/-- V40.28 and V40.29. -/
theorem test_V40_28_rdlen :
    (next (exec (.mmioWRdlen 0x85#32) quiet) (fun t => returns (exec .mmioRRdlen t) (.word 0x80#32)) &&
      next (exec (.mmioWRdlen 0x00100000#32) quiet) (fun t => t.ndev .rx == 0)) = true := by decide +kernel

/-- The transmit ring's base and length (R228, R230, R232) and the receive base's upper half (R220). -/
theorem test_ring_bases_and_lengths :
    (next (exec (.mmioWTdbal 0x0012300F#32) quiet) (fun t => t.regs.tdbal == 0x00123000#32) &&
      next (exec (.mmioWTdbah 5#32) quiet) (fun t => t.ringBase .tx == 0x500100000) &&
      next (exec (.mmioWTdlen 0x1FF#32) quiet) (fun t => t.regs.tdlen == 0x180#32) &&
      next (exec (.mmioWRdbah 5#32) quiet) (fun t => t.ringBase .rx == 0x500101000)) = true := by decide +kernel

/-- V40.30 and V40.31. -/
theorem test_V40_30_rdt :
    (faultsWith (exec (.mmioWRdt 8#32) s13) ⟨.ringRegRange, .host, 226, 8⟩ &&
      next (exec (.mmioWRdt 0x00010003#32) s13) (fun t => t.regs.rdt == 3#32)) = true := by decide +kernel

/-- V40.32. -/
theorem test_V40_32_rdh_without_ring :
    next (exec (.mmioWRdh 0#32) (withRegs quiet fun r => { r with rdlen := 0#32 }))
      (fun t => t.faults.isEmpty && faultsWith (exec (.mmioWRdh 1#32) t) ⟨.ringRegRange, .host, 224, 1⟩) = true := by
  decide +kernel

/-- V40.33. -/
theorem test_V40_33_tdt_hands_off :
    next (exec (.mmioWTdt 1#32) s13) (fun t => t.hwOwned .tx 0 && !t.hwOwned .tx 1) = true := by decide +kernel

/-- V40.35 and V30.6. -/
theorem test_V40_35_rah0 :
    (next (exec (.mmioWRah0 0xFFFFFFFF#32) s13) (fun t => returns (exec .mmioRRah0 t) (.word 0x8003FFFF#32)) &&
      next (exec (.mmioWRal0 0x04030201#32) s13) (fun t => t.ra0 == [1#8, 2#8, 3#8, 4#8, 0x34#8, 0x56#8])) = true := by
  decide +kernel

/-- An agent of HOST issues an MMIO request of this width and word. -/
def requestFaults (width w : Nat) (c : FaultCode) : Bool :=
  faultsWith (perform (.issue .host (.mmio width (bytesOfNat 4 w)) s13.reply) s13) ⟨c, .host, 144, w⟩

/-- V30.1 to V30.5, and V30.7. -/
theorem test_V30_illegal_requests :
    (requestFaults 32 0x4 .unmodelledOffset && requestFaults 32 0x2 .misaligned && requestFaults 32 0x6 .misaligned &&
      requestFaults 32 0x00020000 .unmodelledOffset && requestFaults 16 0 .width &&
      next (perform (.issue .host (.host [0x06, 0x06]) s13.reply) s13) (fun t => t.ret .host == .refused)) = true := by
  decide +kernel

/-! ### The register mapper -/

/-- The masks of a register after an operation that returned this. -/
def stages (i : Instr) (r : Reg) (on off : Word) (ret : Ret) (s : State) : Bool :=
  next (exec i s) fun t =>
    (t.regObj r).onMask == on && (t.regObj r).offMask == off && t.ret .host == ret && t.faults.isEmpty &&
      (t.regObj r).stagedBy == (if on == 0#32 && off == 0#32 then none else some .host)

/-- V41.1, V41.2 and V41.3. -/
theorem test_V41_1_set :
    (stages (.regSet .rctl 0xC0#32 0xC0#32) .rctl 0xC0#32 0#32 .unit s13 &&
      stages (.regSet .rctl 0x40#32 0xC0#32) .rctl 0x40#32 0x80#32 .unit s13 &&
      stages (.regSet .rctl 0xFFFFFFFF#32 0#32) .rctl 0#32 0#32 .unit s13) = true := by decide +kernel

/-- V41.5 and V41.6. -/
theorem test_V41_5_decide :
    (next (exec (.regDecide .ctrl (bit 6) true) s13)
        (fun t => stages (.regDecide .ctrl (bit 6) false) .ctrl 0#32 0x40#32 .unit t) &&
      stages (.regDecide .ctrl 0#32 true) .ctrl 0#32 0#32 .unit s13) = true := by decide +kernel

/-- §8.1's instance and V41.4: `reg.confirm RAL0`. -/
theorem test_8_1_confirm :
    runs (.regConfirm .ral0) 1
      { withRegs s13 (fun r => { r with ral0 := 0xFFFFFFFF#32 }) with
        mapper := s13.mapper.set .ral0 { RegObj.empty with onMask := 0x20#32, offMask := 0x40#32, stagedBy := some .host } }
      (fun t => t.regs.ral0 == 0xFFFFFFBF#32 && t.ret .host == .word 0xFFFFFFBF#32 && t.regObj .ral0 == RegObj.empty) = true := by
  decide +kernel

/-- V41.10. -/
theorem test_V41_10_readdirect_icr :
    next (exec (.regReaddirect .icr) (withRegs s13 fun r => { r with icr := 0x80#32 }))
      (fun t => t.ret .host == .word 0x80#32 && t.regs.icr == 0#32) = true := by decide +kernel

/-- V41.11: staging over another agent's masks. -/
theorem test_V41_11_staging_race :
    next (exec (.regDecide .tctl (bit 3) true) s13)
      (fun t => faultsWith (exec (.regDecide .tctl (bit 4) true) (by_ .isr t)) ⟨.regRace, .isr, 263, 0x400⟩) = true := by
  decide +kernel

/-- V41.12: a write between the two steps of another agent's confirm. -/
theorem test_V41_12_confirm_race :
    next (exec (.regConfirm .ctrl) s13)
      (fun t => faultsWith (exec (.mmioWCtrl 0x60#32) (by_ .isr t)) ⟨.regRace, .isr, 263, 0⟩) = true := by decide +kernel

/-- R268 to R270 and R274 to R276: the setters of a Boolean. -/
theorem test_boolean_setters :
    (stages (.dcSetlinkup true) .ctrl 0x40#32 0#32 .ok s13 && stages (.dcAutospeed false) .ctrl 0#32 0x20#32 .ok s13 &&
      stages (.rcEnable true) .rctl 2#32 0#32 .ok s13 && stages (.rcBroadcast false) .rctl 0#32 0x8000#32 .ok s13 &&
      stages (.tcEnable true) .tctl 2#32 0#32 .ok s13 && stages (.tcPadshort true) .tctl 8#32 0#32 .ok s13) = true := by
  decide +kernel

/-- §8.8. -/
theorem test_8_8_loopback :
    ([1, 2, 4, -1].all (fun m => stages (.rcLoopback m) .rctl 0#32 0#32 (.err .config) s13) &&
      stages (.rcLoopback 0) .rctl 0#32 0xC0#32 .ok s13 && stages (.rcLoopback 3) .rctl 0xC0#32 0#32 .ok s13) = true := by
  decide +kernel

/-- V41.13 and V41.14. -/
theorem test_V41_13_bufsize :
    ([(2048, 0x00000000#32, 0x02030000#32), (1024, 0x00010000#32, 0x02020000#32), (512, 0x00020000#32, 0x02010000#32),
        (256, 0x00030000#32, 0x02000000#32), (16384, 0x02010000#32, 0x00020000#32), (8192, 0x02020000#32, 0x00010000#32),
        (4096, 0x02030000#32, 0x00000000#32)].all (fun p => stages (.rcBufsize p.1) .rctl p.2.1 p.2.2 .ok s13) &&
      [300, 128, 32768].all (fun v => stages (.rcBufsize v) .rctl 0#32 0#32 (.err .config) s13)) = true := by decide +kernel

/-- V41.15 and V41.16. -/
theorem test_V41_15_minthreshold :
    (stages (.rcMinthreshold 2) .rctl 0#32 0x300#32 .ok s13 && stages (.rcMinthreshold 4) .rctl 0x100#32 0x200#32 .ok s13 &&
      stages (.rcMinthreshold 8) .rctl 0x200#32 0x100#32 .ok s13 &&
      [3, 16].all (fun v => stages (.rcMinthreshold v) .rctl 0#32 0#32 (.err .config) s13)) = true := by decide +kernel

/-- V41.17 and V41.18. -/
theorem test_V41_17_collthresh :
    (stages (.tcCollthresh 15) .tctl 0xF0#32 0xF00#32 .ok s13 &&
      [256, -1].all (fun v => stages (.tcCollthresh v) .tctl 0#32 0#32 (.err .config) s13)) = true := by decide +kernel

/-- V41.19 and V41.20. -/
theorem test_V41_19_colldist :
    (stages (.tcColldist 64) .tctl 0x00040000#32 0x003BF000#32 .ok s13 &&
      stages (.tcColldist 1024) .tctl 0#32 0#32 (.err .config) s13) = true := by decide +kernel

/-- V41.21 and V41.22, and the same of `id.disable` (R280). -/
theorem test_V41_21_cause_setters :
    ([0#32, 8#32, 0x400#32].all (fun c => stages (.ieEnable c) .ims 0#32 0#32 (.err .config) s13 &&
        stages (.idDisable c) .imc 0#32 0#32 (.err .config) s13) &&
      stages (.ieEnable 0x2D7#32) .ims 0x2D7#32 0#32 .ok s13 && stages (.idDisable 4#32) .imc 4#32 0#32 .ok s13) = true := by
  decide +kernel

/-- V41.23. -/
theorem test_V41_23_unsupported :
    stages (.tcPadshort true) .tctl 0#32 0#32 (.err .unsupported)
      { s13 with params := { s13.params with features := [.tcEnable] } } = true := by decide +kernel

/-- §8.7: `grp.manage DC`; V41.8: `grp.manage ID` writes IMC without a read. -/
theorem test_8_7_manage :
    (runs (.grpManage .dc) 1
        { withRegs s13 (fun r => { r with ctrl := 0#32 }) with
          luPrev := false, mapper := s13.mapper.set .ctrl { RegObj.empty with onMask := 0x60#32, stagedBy := some .host } }
        (fun t => t.regs.ctrl == 0x60#32 && t.lu && t.regs.icr == 4#32) &&
      runs (.grpManage .id) 1
        { s13 with mapper := s13.mapper.set .imc { RegObj.empty with onMask := 0x84#32, stagedBy := some .host } }
        (fun t => t.regs.ims == 0x50#32 && t.draws == 0 && t.ret .host == .word 0x84#32)) = true := by decide +kernel

/-! ### The interrupt-cause decoder -/

/-- S13 in the decoder's state HANDLING with this snapshot, as ISR finds it. -/
def handling (snap : Word) : State := withDrv (by_ .isr s13) fun d => { d with snap := snap, icState := .handling }

/-- A predicate answers and leaves a snapshot. -/
def claims (i : Instr) (snap : Word) (answer : Bool) (left : Word) : Bool :=
  next (exec i (handling snap)) fun t => t.ret .isr == .bool answer && t.drv.snap == left

/-- V42.1 and V42.8. -/
theorem test_V42_1_readclear :
    (next (exec .icReadclear (withRegs (by_ .isr s13) fun r => { r with icr := 0x84#32 }))
        (fun t => t.ret .isr == .word 0x84#32 && t.drv.snap == 0x84#32 && t.regs.icr == 0#32 && t.drv.icState == .handling) &&
      next (exec .icReadclear (withRegs (handling 4#32) fun r => { r with icr := 0x80#32 }))
        (fun t => t.drv.snap == 0x80#32)) = true := by decide +kernel

/-- V42.2 to V42.5. -/
theorem test_V42_2_predicates :
    (claims .icLinkchanged 0x84#32 true 0x80#32 && claims .icLinkchanged 0x80#32 false 0x80#32 &&
      claims .icOverrun 0x40#32 true 0#32 && claims .icMinthreshold 0x90#32 true 0x80#32 &&
      claims .icRxtimer 0x80#32 true 0#32 && claims .icMdiodone 0x200#32 true 0#32) = true := by decide +kernel

/-- V42.6 and V42.7. -/
theorem test_V42_6_unhandled :
    (claims .icRxtimer 0x81#32 true 1#32 && claims .icUnhandled 1#32 true 1#32 && claims .icUnhandled 0#32 false 0#32 &&
      next (exec .icLinkchanged (by_ .isr s13)) (fun t => t.ret .isr == .bool false && t.drv == s13.drv)) = true := by
  decide +kernel

/-- V42.10. -/
theorem test_V42_10_context :
    faultsWith (exec .icReadclear (by_ .bh s13)) ⟨.context, .bh, 470, 0x0301⟩ = true := by decide +kernel

/-! ### Descriptors, cursors and hardware rings -/

/-- An operation leaves these bytes at this address. -/
def leaves (i : Instr) (s : State) (a : Nat) (bs : List Byte) : Bool :=
  next (exec i s) fun t => t.faults.isEmpty && t.mem.readBytes a bs.length == bs

/-- V43.1, V43.2 and V43.3. -/
theorem test_V43_1_txd_writes :
    (leaves (.txdWriteaddress 0 0x00300000#32) s13 0x100000 [0x00, 0x00, 0x30, 0x00, 0x00, 0x00, 0x00, 0x00] &&
      leaves (.txdWritelength 0 60) s13 0x100008 [0x3C, 0x00] &&
      leaves (.txdWritelength 0 0) (poke s13 0x100008 [1, 1]) 0x100008 [0x00, 0x00]) = true := by decide +kernel

/-- V43.4. -/
theorem test_V43_4_writecommand :
    leaves (.txdWritecommand 0) (poke s13 0x10000A [7, 7, 1, 7]) 0x10000A [7, 0x2B, 0x00, 7] = true := by decide +kernel

/-- V43.5 and V43.8. -/
theorem test_V43_5_isdone :
    ([(0x00#8, false), (0x01#8, true), (0x02#8, true), (0x03#8, true), (0x04#8, true), (0x05#8, true), (0x07#8, true),
        (0x08#8, false), (0xF8#8, false)].all
        (fun p => returns (exec (.txdIsdone 0) (poke s13 0x10000C [p.1])) (.bool p.2)) &&
      returns (exec (.txdIsdone 0) (sending 0x2B#8 60)) (.bool false)) = true := by decide +kernel

/-- V43.6 and V43.7. -/
theorem test_V43_6_descriptor_faults :
    (faultsWith (exec (.txdWriteaddress 8 0#32) s13) ⟨.index, .host, 146, 8⟩ &&
      faultsWith (exec (.txdWritelength 0 60) (sending 0x2B#8 60)) ⟨.descRace, .host, 119, 0x00100008⟩) = true := by
  decide +kernel

/-- V43.9, on a ring hardware owns nothing of. -/
theorem test_V43_9_rxd_writeaddress :
    leaves (.rxdWriteaddress 3 0x00403000#32) (withRegs s13 fun r => { r with rdh := 7#32 }) 0x101030
      [0x00, 0x30, 0x40, 0x00, 0x00, 0x00, 0x00, 0x00] = true := by decide +kernel

/-- V43.10 and V43.11. -/
theorem test_V43_10_rxd_reads :
    (returns (exec (.rxdGetpacketaddress 3) s13) (.word 0xC0403000#32) &&
      returns (exec (.rxdReadlength 0) (completed 0 0x164 3#8 0#8 s13)) (.half 0x164#16)) = true := by decide +kernel

/-- V43.12 and V43.15. -/
theorem test_V43_12_rxd_status :
    ([(0x03#8, true, true), (0x01#8, false, true), (0x02#8, true, false), (0x00#8, false, false)].all (fun p =>
      returns (exec (.rxdIseop 0) (completed 0 100 p.1 0#8 s13)) (.bool p.2.1) &&
      returns (exec (.rxdDone 0) (completed 0 100 p.1 0#8 s13)) (.bool p.2.2))) = true := by decide +kernel

/-- V43.13. -/
theorem test_V43_13_clearstatus :
    leaves (.rxdClearstatus 0) (withRegs (completed 0 100 3#8 0x84#8 s13) fun r => { r with rdh := 7#32 }) 0x101008
      [100, 0, 0, 0, 0x00, 0x84] = true := by decide +kernel

/-- V43.14. -/
theorem test_V43_14_haserrors :
    [(0x80#8, true), (0x04#8, true), (0x02#8, true), (0x01#8, false), (0x08#8, false), (0x79#8, false)].all (fun p =>
      returns (exec (.rxdHaserrors 0) (completed 0 100 3#8 p.1 s13)) (.bool p.2)) = true := by decide +kernel

/-- V43.16 and V43.21. -/
theorem test_V43_16_current :
    (returns (exec (.ringCurrent .tx) s13) (.index 0) &&
      returns (exec (.ringCurrent .tx) (withDrv s13 fun d => { d with initStep := 4 })) .refused) = true := by decide +kernel

/-- V43.17. -/
theorem test_V43_17_setnext :
    next (exec (.ringSetnext .rx) (withDrv s13 fun d => { d with rxCur := 7 })) (fun t => t.drv.rxCur == 0) = true := by
  decide +kernel

/-- V43.18 and V43.19. -/
theorem test_V43_18_movetail :
    (runs (.hwringMovetail .tx) 1 (withDrv (withRegs s13 fun r => { r with tdt := 7#32 }) fun d => { d with txTail := 7 })
        (fun t => t.regs.tdt == 0#32 && t.drv.txTail == 0) &&
      runs (.hwringMovetail .rx) 1 s13 (fun t => t.regs.rdt == 0#32 && t.drv.rxTail == 0 && t.hwCount .rx == 0)) = true := by
  decide +kernel

/-- V43.20. -/
theorem test_V43_20_init_while_enabled :
    next (exec (.hwringInit .tx) s13)
      (fun t => (advance .host t).state.faults == [⟨.ringReprogram, .host, 228, 0x3800⟩]) = true := by decide +kernel

/-! ### Ring operations -/

/-- V44.1, V44.2 and V44.7. -/
theorem test_V44_1_send_checks :
    (faultsWith (exec (.txSend 0x00300000#32 0) s13) ⟨.txLength, .host, 350, 0⟩ &&
      faultsWith (exec (.txSend 0x00300000#32 16289) s13) ⟨.txLength, .host, 350, 16289⟩ &&
      faultsWith (exec (.txSend 0x00300000#32 60) (by_ .isr s13)) ⟨.context, .isr, 470, 0x0601⟩) = true := by decide +kernel

/-- V44.8 and V60.3: refusal comes before the check of the agent. -/
theorem test_V44_8_send_refused :
    (returns (exec (.txSend 0#32 60) (withDrv (by_ .bh s13) fun d => { d with initStep := 12 })) .refused &&
      returns (exec (.txSend 0#32 60) (withDrv (by_ .isr s13) fun d => { d with initStep := 12 })) .refused) = true := by
  decide +kernel

/-- P2, rows 1 to 6. -/
theorem test_P2_send_hands_off :
    runs (.txSend 0x00300000#32 60) 4 s13 (fun t =>
      t.mem.readBytes 0x100000 13 == [0x00, 0x00, 0x30, 0x00, 0x00, 0x00, 0x00, 0x00, 0x3C, 0x00, 0x00, 0x2B, 0x00] &&
      t.regs.tdt == 1#32 && t.hwOwned .tx 0 && t.dma.contains ⟨0x00300000, 60, .sendBuffer⟩) = true := by decide +kernel

/-- V44.14 and V44.15. -/
theorem test_V44_14_poll :
    (returns (exec .rxPoll (by_ .isr s13)) .unit &&
      faultsWith (exec .rxPoll (by_ .bh s13)) ⟨.context, .bh, 470, 0x0602⟩) = true := by decide +kernel

/-- P3, rows 7 to 9. -/
theorem test_P3_poll_pushes :
    runs .rxPoll 4 (completed 0 100 3#8 0#8 (by_ .isr s13)) (fun t => t.drv.queue == [⟨0xC0400000#32, 100#16⟩]) = true := by
  decide +kernel

/-! ### Core orchestration -/

/-- P1, rows 1 to 2, and V45.3. -/
theorem test_P1_initialize_starts :
    (next (exec .coreInitialize State.reset) (fun t => t.busMaster && t.drv.initStep == 2 && t.ret .host == .pending) &&
      returns (exec .coreInitialize s13) .refused) = true := by decide +kernel

/-- V45.4 and V45.5. -/
theorem test_V45_4_loadmac :
    (returns (exec .coreLoadmac s13) .refused &&
      runs .coreLoadmac 1
        (withDrv (State.setWork { s13 with params := { s13.params with macSource := .mmio } } .host [.loadMac])
          fun d => { d with initStep := 8, mac := [] }) (fun t => t.drv.mac == station && t.ret .host == .ok)) = true := by
  decide +kernel

/-- V45.7 and V45.10: `trigger` with an overrun, and with two bits nothing claims. -/
theorem test_V45_7_trigger :
    (runs (.coreTrigger 0#32) 3 (withRegs (by_ .isr s13) fun r => { r with icr := 0x40#32 })
        (fun t => t.drv.overrunCount == 1 && t.drv.log == [⟨.overrun, 1⟩] && !t.drv.isrActive) &&
      runs (.coreTrigger 0#32) 3 (withRegs (by_ .isr s13) fun r => { r with icr := 3#32 })
        (fun t => t.drv.log == [⟨.unhandled, 3⟩])) = true := by decide +kernel

/-- V45.12. -/
theorem test_V45_12_hasdata :
    (returns (exec .coreHasdata (by_ .bh s13)) (.bool false) &&
      returns (exec .coreHasdata (withDrv (by_ .bh s13) fun d => { d with queue := [⟨0#32, 64#16⟩] })) (.bool true)) = true := by
  decide +kernel

/-- V45.13 and V45.15. -/
theorem test_V45_13_parse :
    (runs .coreParse 2
        (withDrv (poke (by_ .bh s13) 0x400000 [1, 2, 3]) fun d => { d with queue := [⟨0xC0400000#32, 3#16⟩] })
        (fun t => t.drv.queue.isEmpty && t.drv.published == [⟨[1, 2, 3], 3#16⟩]) &&
      faultsWith (exec .coreParse s13) ⟨.context, .host, 470, 0x0705⟩) = true := by decide +kernel

/-! ### The device's engines -/

/-- The IEEE 802.3 check value of "123456789". -/
theorem test_crc32 : crc32 [0x31, 0x32, 0x33, 0x34, 0x35, 0x36, 0x37, 0x38, 0x39] = 0xCBF43926#32 := by decide +kernel

/-- V46.1, V46.2 and V46.4. -/
theorem test_V46_1_transmit :
    (next (perform (.txe .none) (sending 0x2B#8 60)) (fun t =>
        t.wireOut.map List.length == [64] && t.mem.readByte 0x10000C == 1#8 && t.regs.tdh == 1#32 && t.regs.icr == 3#32) &&
      next (perform (.txe .none) (sending 0x2B#8 42)) (fun t => t.wireOut.map List.length == [64]) &&
      next (perform (.txe .none) (sending 0x23#8 60)) (fun t => t.regs.icr == 2#32 && t.mem.readByte 0x10000C == 0#8)) =
      true := by decide +kernel

/-- V46.3 and V46.15. -/
theorem test_V46_3_transmit_faults :
    (faultsWith (perform (.txe .none) (sending 0x0B#8 60)) ⟨.descFormat, .txe, 417, 0⟩ &&
      faultsWith (perform (.txe .none) (withRegs (sending 0x2B#8 60) fun r => { r with rctl := 0x8042#32 }))
        ⟨.reservedValue, .txe, 412, 1⟩) = true := by decide +kernel

/-- V46.6 and V46.7, and V46.8's discards. -/
theorem test_V46_6_receive_filter :
    ([(station, 100, true), (List.replicate 6 0xFF#8, 100, true)].all
        (fun p => next (perform (.rxmac (frameTo p.1 p.2.1) p.2.2 0#8) s13) (fun t => t.rxFifo.length == 1)) &&
      [([0x01#8, 0#8, 0x5E#8, 0#8, 0#8, 1#8], 100, true), ([0x52#8, 0x54#8, 0#8, 0xAA#8, 0xBB#8, 0xCC#8], 100, true),
        (station, 100, false), (station, 1523, true)].all
        (fun p => next (perform (.rxmac (frameTo p.1 p.2.1) p.2.2 0#8) s13) (fun t => t.rxFifo.isEmpty))) = true := by
  decide +kernel

/-- V46.10: one frame in one descriptor. -/
theorem test_V46_10_receive_dma :
    (next (perform .rxe { s13 with rxFifo := [⟨frameTo station 100, 0x84#8⟩] })
        (fun t => t.regs.rdh == 1#32 && t.regs.icr == 0x80#32 && t.rxFifo.isEmpty && t.faults.isEmpty) &&
      rxWriteBackBytes 100 0x0201#16 true 0x84#8 0x0403#16 == [100, 0, 1, 2, 3, 0x84, 3, 4]) = true := by decide +kernel

/-- V46.9: 600 bytes over buffers of 256. -/
theorem test_V46_9_receive_splits :
    (let s := withRegs s13 fun r => { r with rctl := 0x00038002#32 }
     let f := frameTo station 600
     s.rxNeeds ⟨f, 0#8⟩ == 3 && bufSize s.regs.rctl == some 256 &&
      [0, 1, 2].map (fun j => (sliceBytes f (j * 256) 256).length) == [256, 256, 88] &&
      rxWriteBackBytes 256 0#16 false 4#8 0#16 == [0, 1, 0, 0, 1, 0, 0, 0]) = true := by decide +kernel

/-- V46.13, V46.18 and V60.5. -/
theorem test_V46_13_causes :
    (next (perform (.rxmac (frameTo station 100) true 0#8) { s13 with rxFifo := [⟨[], 0#8⟩, ⟨[], 0#8⟩] })
        (fun t => t.regs.icr == 0x40#32 && t.rxFifo.length == 2) &&
      next (perform .cable s13) (fun t => !t.lu && t.regs.icr == 4#32 && t.irq) &&
      next (perform (.dispatch 0#32) (withDrv (withRegs s13 fun r => { r with icr := 4#32 }) fun d => { d with isrActive := true }))
        (fun t => (t.work .isr).isEmpty)) = true := by decide +kernel

/-- R158: a reserved loopback mode at an RXMAC step, with either engine enabled, and with none. -/
theorem test_reserved_loopback_faults :
    (let s := fun rctl tctl : Word => withRegs s13 fun r => { r with rctl := rctl, tctl := tctl }
     let step := perform (.rxmac (frameTo station 100) true 0#8)
     faultsWith (step (s 0x8042#32 0#32)) ⟨.reservedValue, .rxmac, 418, 1⟩ &&
       faultsWith (step (s 0x8080#32 2#32)) ⟨.reservedValue, .rxmac, 418, 2⟩ &&
       next (step (s 0x8040#32 0#32)) (fun t => t == s 0x8040#32 0#32)) = true := by decide +kernel

/-- R411 and R420: nothing is sent with TDH = TDT, and a frame waits while too few descriptors are hardware's. -/
theorem test_disabled_engines_wait :
    (next (perform (.txe .none) s13) (fun t => t == s13) &&
      (let r := withRegs { s13 with rxFifo := [⟨frameTo station 100, 0#8⟩] } fun r => { r with rdh := 7#32 }
       next (perform .rxe r) (fun t => t == r))) = true := by decide +kernel

/-- The host's interface: a word placed after reset is the instruction that the next step runs. -/
theorem test_placed_word_runs :
    (next (step (State.reset.withFetchWord 64 0x00000004800000D0)) (fun t => t.regs.ims == 4#32) &&
      next (step (State.reset.withFetchWord 16 0x0701)) (fun t => t.drv.initStep == 2) &&
      next (step (State.reset.withFetchWord 16 0x0602)) (fun t => t.ret .isr == .refused)) = true := by decide +kernel

/-- R9 and R144: with another offset table, the requests follow that table. -/
theorem test_offsets_are_a_parameter :
    (let o := { Config.offsets with ims := 0x1FFFC, rah0 := 0xD0 }
     let s : State := { s13 with params := { s13.params with offsets := o } }
     next (perform (.issue .host (.mmio 32 (bytesOfNat 4 0x1FFFC)) s13.reply) s) (fun t => t.ret .host == .word 0xD4#32) &&
       next (perform (.issue .host (.mmio 32 (bytesOfNat 4 0xD0)) s13.reply) s) (fun t => t.ret .host == .word 0x80005634#32) &&
       faultsWith (perform (.issue .host (.mmio 32 (bytesOfNat 4 0x5404)) s13.reply) s) ⟨.unmodelledOffset, .host, 144, 0x5404⟩) =
      true := by decide +kernel

/-- R103: an access in the window is one MMIO request; of another width it is F_WIDTH. -/
theorem test_window_access :
    (let s := withDrv s13 fun d => { d with base := 0xE0000000#32 }
     next (perform (.access .bh 0xE0000000#32 (.load 4)) s) (fun t => t.ret .bh == .word 0x60#32) &&
       next (perform (.access .bh 0xE00000D0#32 (.store [1, 0, 0, 0])) s) (fun t => t.regs.ims == 0xD5#32) &&
       faultsWith (perform (.access .bh 0xE00000D0#32 (.store [1])) s) ⟨.width, .bh, 144, 0xD0⟩) = true := by decide +kernel

/-- R119: a store by address to any byte of a descriptor that hardware owns. -/
theorem test_store_races :
    (faultsWith (perform (.store .host 0x101000#32 [0]) s13) ⟨.descRace, .host, 119, 0x101000⟩ &&
      faultsWith (perform (.access .host 0xC010106E#32 (.store [0, 0])) s13) ⟨.descRace, .host, 119, 0x10106E⟩ &&
      next (perform (.store .host 0x101070#32 [9]) s13) (fun t => t.faults.isEmpty && t.mem.readByte 0x101070 == 9#8)) =
      true := by decide +kernel

/-- R119: with the ring base moved by a raw write, an accessor and a store by address race on the same bytes, in the driver's
block and at the device's ring base; R102: the allocation's addresses are those of `phys`. -/
theorem test_races_agree :
    (let s := withRegs (sending 0x2B#8 60) fun r => { r with tdbal := 0x00300000#32 }
     faultsWith (exec (.txdWritelength 0 60) s) ⟨.descRace, .host, 119, 0x100008⟩ &&
       faultsWith (perform (.store .host 0x100008#32 [60, 0]) s) ⟨.descRace, .host, 119, 0x100008⟩ &&
       faultsWith (perform (.store .host 0x30000F#32 [0]) s) ⟨.descRace, .host, 119, 0x30000F⟩ &&
       leaves (.txdWritelength 1 60) s 0x100018 [60, 0] && s.phys 0xC0100008#32 == 0x100008) = true := by decide +kernel

/-- R387 and R462: a request of ISR does not start `trigger`; DISPATCH starts it when the line is high. -/
theorem test_dispatch_alone_starts_trigger :
    (let s := withRegs s13 fun r => { r with icr := 4#32 }
     next (perform (.issue .isr (.host [0x03, 0x07, 0, 0, 0, 0]) s13.reply) s) (fun t => t == s) &&
       next (perform (.dispatch 0#32) s) (fun t => t.drv.isrActive && t.work .isr == (.icReadClear :: triggerFrames.tail)) &&
       next (step (s13.withFetchWord 16 0x0703)) (fun t => t.drv.isrActive)) = true := by decide +kernel

/-- R355 and R357: a full queue drops the frame at its push. -/
theorem test_full_queue_drops :
    runs .rxPoll 4
      (withDrv (completed 0 100 3#8 0#8 (by_ .isr s13)) fun d => { d with queue := List.replicate 4 ⟨0#32, 64#16⟩ })
      (fun t => t.drv.queue.length == 4 && t.drv.dropQueueFull == 1 && t.drv.log == [⟨.dropQueueFull, 0⟩]) = true := by
  decide +kernel

/-! ### Witnesses: a state and operands that meet the hypotheses of each statement -/

theorem s13_ready (k : Nat) (h : k ≤ 13) (a : HostAgent) : (by_ a s13).Ready k := ⟨rfl, h⟩

theorem s13_untouched (r : Reg) : s13.Untouched r := by cases r <;> rfl

theorem s13_unraced (r : Reg) (a : HostAgent) : s13.Unraced r a := by intro b _; cases r <;> cases b <;> rfl

theorem s13_mayStage (r : Reg) (a : HostAgent) : s13.MayStage r a := .inl (by cases r <;> rfl)

theorem quiet_unraced (r : Reg) (a : HostAgent) : quiet.Unraced r a := by intro b _; cases r <;> cases b <;> rfl

theorem s13_deviceInv : s13.DeviceInv := by constructor <;> decide +kernel

theorem s13_mapperInv : s13.MapperInv := by intro r; cases r <;> decide +kernel

theorem s13_driverInv : s13.DriverInv := by constructor <;> decide +kernel

theorem s13_ringInv : s13.RingInv := by
  refine ⟨by decide +kernel, by decide +kernel, by decide +kernel, by decide +kernel, fun a t n h => ?_, by decide +kernel⟩
  cases a <;> exact absurd h List.not_mem_nil

/-- The owner of the bytes of a write, computed. -/
theorem softwareOwns (s : State) (a n : Nat) (h : s.meetsOwned a n = false) : s.SoftwareOwns a n :=
  (s.meetsOwned_eq_false a n).1 h

theorem hardwareOwns (s : State) (a n : Nat) (h : s.meetsOwned a n = true) : ¬ s.SoftwareOwns a n := fun k =>
  Bool.noConfusion (((s.meetsOwned_eq_false a n).2 k).symm.trans h)

/-- S13 with agent HOST's masks pending on CTRL and RCTL, as ISR finds it. -/
def stagedByHost : State :=
  { by_ .isr s13 with mapper := PerReg.const { RegObj.empty with onMask := 1#32, stagedBy := some .host } }

/-- S13 between the two steps of HOST's confirm of every register, as ISR finds it. -/
def confirming : State := { by_ .isr s13 with mapper := PerReg.const { RegObj.empty with inConfirm := ⟨true, false, false⟩ } }

theorem stagedByHost_mayNotStage (r : Reg) : ¬ stagedByHost.MayStage r .isr := by
  intro h; cases r <;> rcases h with h | h <;> exact absurd h (by decide)

/-- The default table, another one, and one that is no table: two registers at one offset. -/
theorem witness_DecodeEncodeAgree :
    Config.offsets.wf = true ∧ { Config.offsets with ctrl := 0x1FFFC, rah0 := 0 }.wf = true ∧
    { Config.offsets with ctrl := 8 }.wf = false ∧
    (Instr.txdWritelength (2 ^ 32 - 1) (2 ^ 32 - 1)).wf = true ∧ (Instr.txSend 0#32 (2 ^ 32 - 1)).wf = true ∧
    (Instr.rcLoopback (-2 ^ 63)).wf = true ∧ (Instr.tcColldist (2 ^ 63 - 1)).wf = true ∧ Instr.coreParse.wf = true := by
  decide +kernel

/-- A width, a misaligned word, one past the register space, a hole in it, and a word of no operation. -/
theorem witness_RejectedRequests :
    s13.mayRun .host = true ∧ s13.work .host = [] ∧ 16 ≠ 32 ∧ (3#32).extractLsb' 0 2 ≠ 0#2 ∧
    (0x00020000#32).extractLsb' 0 2 = 0#2 ∧ (0x00020000#32).extractLsb' 17 14 ≠ 0#14 ∧ (4#32).extractLsb' 0 2 = 0#2 ∧
    (∀ r, pOffsets s13.params.offsets r ≠ ((4#32).extractLsb' 0 17).toNat) ∧
    ∀ op : HostOp, op.word ≠ (0x0606#16).toNat := by
  refine ⟨by decide +kernel, by decide +kernel, by decide, by decide, by decide, by decide, by decide, fun r => ?_,
    fun op => ?_⟩
  · cases r <;> decide +kernel
  · cases op <;> decide

/-- S13 as it was before step `k` of `initialize`. -/
def atStep (k : Nat) : State := withDrv s13 fun d => { d with initStep := k }

/-- S13 after a failed `initialize`. -/
def failed : State := withDrv s13 fun d => { d with initFailed := true }

/-- Refusals; agents not allowed; and `core.loadmac` by ISR and BH while HOST stands at step 9 of `initialize`, and not. -/
theorem witness_IssueChecks :
    (failed.Refuses .ringCurrent ∧ (atStep 12).Refuses .txSend ∧ (atStep 5).Refuses .regSet ∧ s13.Refuses .coreInitialize ∧
      s13.Refuses .coreLoadmac ∧ (Instr.txSend 0#32 60).hostOp? = some .txSend ∧
      Instr.coreInitialize.hostOp? = some .coreInitialize) ∧
    ¬ (by_ .isr s13).Refuses .txSend ∧ ¬ HostOp.txSend.allows (by_ .isr s13) ∧
    Instr.icReadclear.hostOp? = some .icReadclear ∧ ¬ (by_ .bh s13).Refuses .icReadclear ∧
    ¬ HostOp.icReadclear.allows (by_ .bh s13) ∧
    (let m := fun a => by_ a ((atStep 8).setWork .host [.loadMac, .initDone 9])
     Instr.coreLoadmac.hostOp? = some .coreLoadmac ∧ (¬ (m .isr).Refuses .coreLoadmac ∧ ¬ HostOp.coreLoadmac.allows (m .isr)) ∧
       (¬ (m .bh).Refuses .coreLoadmac ∧ ¬ HostOp.coreLoadmac.allows (m .bh)) ∧ (by_ .isr (atStep 8)).Refuses .coreLoadmac) := by
  refine ⟨⟨.inl rfl, .inr (.inl (by decide +kernel)), .inr (.inl (by decide +kernel)),
    .inr (.inr (.inl ⟨rfl, by decide +kernel⟩)), .inr (.inr (.inr ⟨rfl, by decide +kernel⟩)), rfl, rfl⟩, ?_, ?_, rfl, ?_, ?_,
    rfl, ⟨?_, ?_⟩, ⟨?_, ?_⟩, ?_⟩ <;>
  simp only [State.Refuses, HostOp.allows] <;> decide +kernel

theorem witness_ControlRegistersRead :
    s13.params.variant.eerdLayout = .l540 ∧ Variant.i82541ip.eerdLayout = .l541 ∧ Variant.e1000Base.eerdLayout = .l540 := by
  decide +kernel

theorem witness_PlainRegistersWrite :
    ∀ r ∈ [Reg.status, .icr, .ims, .imc, .ral0, .rah0], s13.Unraced r s13.cur := fun r _ => s13_unraced r _

theorem witness_CtrlWritesOrResets :
    s13.Unraced .ctrl s13.cur ∧ (0x03FFFFFF#32).getLsbD 26 = false ∧ (0x04000000#32).getLsbD 26 = true :=
  ⟨s13_unraced _ _, by decide, by decide⟩

theorem witness_EerdWriteStartsRead :
    s13.Unraced .eerd s13.cur ∧ (0x200#32).getLsbD 0 = false ∧ (0x101#32).getLsbD 0 = true ∧ s13.ee.busy = false ∧
    (next (exec (.mmioWEerd 0x101#32) s13) fun t => t.ee.busy) = true ∧ s13.params.variant.eerdLayout = .l540 :=
  ⟨s13_unraced _ _, by decide, by decide, rfl, by decide +kernel, rfl⟩

theorem witness_EnablesNeedRingLength :
    s13.Unraced .rctl s13.cur ∧ s13.Unraced .tctl s13.cur ∧ quiet.Unraced .rctl quiet.cur ∧ quiet.Unraced .tctl quiet.cur ∧
    ¬ (s13.regs.rctl.getLsbD 1 = false ∧ (2#32).getLsbD 1 = true ∧ s13.regs.rdlen = 0#32) ∧
    (let s := withRegs quiet fun r => { r with rdlen := 0#32, tdlen := 0#32 }
     (s.regs.rctl.getLsbD 1 = false ∧ (2#32).getLsbD 1 = true ∧ s.regs.rdlen = 0#32) ∧
     s.regs.tctl.getLsbD 1 = false ∧ s.regs.tdlen = 0#32 ∧ s.Unraced .rctl s.cur ∧ s.Unraced .tctl s.cur) := by
  refine ⟨s13_unraced _ _, s13_unraced _ _, quiet_unraced _ _, quiet_unraced _ _, by decide +kernel, by decide +kernel,
    by decide +kernel, by decide +kernel, fun b _ => ?_, fun b _ => ?_⟩ <;> cases b <;> rfl

theorem witness_RingProgramming :
    (∀ r, s13.Unraced r s13.cur) ∧ (∀ r, quiet.Unraced r quiet.cur) ∧ s13.regs.rctl.getLsbD 1 = true ∧
    s13.regs.tctl.getLsbD 1 = true ∧ quiet.regs.rctl.getLsbD 1 = false ∧ quiet.regs.tctl.getLsbD 1 = false :=
  ⟨fun r => s13_unraced r _, fun r => quiet_unraced r _, by decide +kernel, by decide +kernel, by decide +kernel,
    by decide +kernel⟩

/-- The index 7 is the last of a ring of 8, index 8 the first outside it. -/
theorem witness_HeadsAndTailsWrite :
    (∀ r, quiet.Unraced r quiet.cur) ∧ quiet.regs.rctl.getLsbD 1 = false ∧ quiet.regs.tctl.getLsbD 1 = false ∧
    (((0xFFFF0007#32).extractLsb' 0 16).setWidth 32 : Word).toNat < max (quiet.regs.rdlen.toNat / 16) 1 ∧
    (((7#32).extractLsb' 0 16).setWidth 32 : Word).toNat < max (quiet.regs.tdlen.toNat / 16) 1 ∧
    ¬ (((8#32).extractLsb' 0 16).setWidth 32 : Word).toNat < max (quiet.regs.rdlen.toNat / 16) 1 ∧
    ¬ (((8#32).extractLsb' 0 16).setWidth 32 : Word).toNat < max (quiet.regs.tdlen.toNat / 16) 1 ∧
    s13.Unraced .rdh s13.cur ∧ s13.Unraced .tdh s13.cur ∧ s13.regs.rctl.getLsbD 1 = true ∧ s13.regs.tctl.getLsbD 1 = true :=
  ⟨fun r => quiet_unraced r _, by decide +kernel, by decide +kernel, by decide +kernel, by decide +kernel, by decide +kernel,
    by decide +kernel, s13_unraced _ _, s13_unraced _ _, by decide +kernel, by decide +kernel⟩

theorem witness_WriteDuringConfirmRaces : ∀ r : Reg, ¬ confirming.Unraced r confirming.cur := by
  intro r h
  have := h .host (by decide)
  cases r <;> exact absurd this (by decide)

theorem witness_SetAndDecideStage :
    s13.Ready 6 ∧ Reg.rah0 ≠ .icr ∧ s13.MayStage .rah0 s13.cur ∧ stagedByHost.Ready 6 ∧
    ¬ stagedByHost.MayStage .ctrl stagedByHost.cur ∧ (s13.regObj .rah0).onMask &&& (s13.regObj .rah0).offMask = 0#32 :=
  ⟨s13_ready 6 (by decide) .host, by decide, s13_mayStage _ _, ⟨rfl, by decide⟩, stagedByHost_mayNotStage .ctrl, rfl⟩

theorem witness_LastDecisionWins : Reg.ral0 ≠ .icr ∧ s13.Ready 6 ∧ s13.Untouched .ral0 :=
  ⟨by decide, s13_ready 6 (by decide) .host, s13_untouched _⟩

/-- The second clause where the write stores, and the third where it raises a fault. -/
theorem witness_ConfirmReadsThenWrites :
    s13.Ready 6 ∧ Reg.ral0 ≠ .icr ∧
    (let s := s13.setWork .host [.confirmWrite .ral0 5#32]
     s.mayRun .host = true ∧ s.work .host = [.confirmWrite .ral0 5#32] ∧
     (next (exec (writeInstr .ral0 5#32) (s.asAgent .host s.reply)) fun u => u.faults == s.faults) = true) ∧
    (let s := s13.setWork .host [.confirmWrite .rdt 8#32]
     s.mayRun .host = true ∧ s.work .host = [.confirmWrite .rdt 8#32] ∧
     (next (exec (writeInstr .rdt 8#32) (s.asAgent .host s.reply)) fun u => u.faults != s.faults) = true) :=
  ⟨s13_ready 6 (by decide) .host, by decide, ⟨by decide +kernel, rfl, by decide +kernel⟩, by decide +kernel, rfl,
    by decide +kernel⟩

/-- Nine registers while the engines run; all nineteen while they are disabled. -/
theorem witness_EmptyConfirmIsNoop :
    (∀ r ∈ [Reg.ctrl, .status, .eerd, .ims, .imc, .rctl, .tctl, .ral0, .rah0, .rdt, .tdt],
      s13.Rewritable r ∧ s13.Untouched r) ∧
    (∀ r, r ≠ .icr → quiet.Rewritable r ∧ quiet.Untouched r) ∧
    (s13.Ready 6 ∧ s13.DeviceInv ∧ s13.mayRun s13.cur = true ∧ s13.work s13.cur = []) ∧
    quiet.Ready 6 ∧ quiet.DeviceInv ∧ quiet.mayRun quiet.cur = true ∧ quiet.work quiet.cur = [] := by
  refine ⟨fun r hr => ⟨?_, s13_untouched r⟩, fun r hr => ⟨?_, by cases r <;> rfl⟩,
    ⟨s13_ready 6 (by decide) .host, s13_deviceInv, by decide +kernel, rfl⟩, ⟨rfl, by decide⟩, ?_, by decide +kernel, rfl⟩
  · cases r <;> first | exact absurd hr (by decide) | exact True.intro | (simp only [State.Rewritable]; decide +kernel)
  · cases r <;> first | exact absurd rfl hr | exact True.intro | (simp only [State.Rewritable]; decide +kernel)
  · constructor <;> decide +kernel

/-- Every feature present; none present; and masks another agent owns. -/
theorem witness_BooleanSettersStage :
    (∀ f ∈ [Feature.setLinkUp, .autoSpeed, .rcEnable, .broadcast, .tcEnable, .padShort], f ∈ s13.params.features) ∧
    (∀ r ∈ [Reg.ctrl, .rctl, .tctl], s13.MayStage r s13.cur ∧ ¬ stagedByHost.MayStage r stagedByHost.cur) ∧
    s13.Ready 6 ∧ stagedByHost.Ready 6 ∧ stagedByHost.params.features = s13.params.features ∧
    (let s : State := { s13 with params := { s13.params with features := [] } }
     s.Ready 6 ∧ ∀ f, f ∉ s.params.features) :=
  ⟨by decide +kernel, fun r _ => ⟨s13_mayStage r _, stagedByHost_mayNotStage r⟩, s13_ready 6 (by decide) .host,
    ⟨rfl, by decide⟩, rfl, ⟨rfl, by decide⟩, fun _ => List.not_mem_nil⟩

theorem witness_SettersValidate :
    s13.Ready 6 ∧ (∀ f ∈ [Feature.loopback, .bufSize, .minThreshold, .collThresh, .collDist, .ieEnable, .idDisable],
      f ∈ s13.params.features) ∧
    ((1 : Int) ≠ 0 ∧ (1 : Int) ≠ 3) ∧ (255 : Int) ∉ [(256 : Int), 512, 1024, 2048, 4096, 8192, 16384] ∧
    (16 : Int) ∉ [(2 : Int), 4, 8] ∧ 255 ≤ 255 ∧ ((-1 : Int) < 0 ∨ (255 : Int) < -1) ∧ ((256 : Int) < 0 ∨ (255 : Int) < 256) ∧
    1023 ≤ 1023 ∧ ((1024 : Int) < 0 ∨ (1023 : Int) < 1024) ∧ (0x2D7#32 ≠ 0#32 ∧ 0x2D7#32 &&& ~~~0x000002D7#32 = 0#32) ∧
    8#32 &&& ~~~0x000002D7#32 ≠ 0#32 ∧ (∀ r ∈ [Reg.rctl, .tctl, .ims, .imc], s13.MayStage r s13.cur) :=
  ⟨s13_ready 6 (by decide) .host, by decide +kernel, by decide, by decide, by decide, by decide, by decide, by decide,
    by decide, by decide, by decide, by decide, fun r _ => s13_mayStage r _⟩

theorem witness_ManageConfirmsGroup :
    s13.Ready 6 ∧ (Group.id, Reg.imc) ∈ [(Group.dc, Reg.ctrl), (.rc, .rctl), (.tc, .tctl), (.ie, .ims), (.id, .imc)] ∧
    Feature.group .id ∈ s13.params.features ∧ Feature.group .rc ∉ [Feature.group .dc] :=
  ⟨s13_ready 6 (by decide) .host, by decide, by decide +kernel, by decide⟩

theorem witness_ReadDirectReads : (atStep 6).Ready 6 ∧ Reg.imc ≠ .icr := ⟨⟨rfl, by decide⟩, by decide⟩

/-- HOST is allowed at step 12 of `initialize`, ISR always, BH never; the decoder in HANDLING and in IDLE. -/
theorem witness_DecoderOperations :
    (atStep 5).drv.initStep < 6 ∧ (by_ .isr (atStep 6)).Ready 6 ∧ HostOp.icReadclear.allows (by_ .isr (atStep 6)) ∧
    (let s := (atStep 11).setWork .host [.icReadClear, .icDone, .initDone 12]
     s.Ready 6 ∧ HostOp.icReadclear.allows s) ∧
    (by_ .bh s13).Ready 6 ∧ ¬ HostOp.icReadclear.allows (by_ .bh s13) ∧
    ((handling 0x2D4#32).Ready 6 ∧ HostOp.icLinkchanged.allows (handling 0x2D4#32) ∧
      (handling 0x2D4#32).drv.icState = .handling) ∧
    (by_ .isr s13).Ready 6 ∧ HostOp.icLinkchanged.allows (by_ .isr s13) ∧ (by_ .isr s13).drv.icState = .idle := by
  refine ⟨by decide +kernel, ⟨rfl, by decide⟩, .inl rfl, ⟨⟨rfl, by decide⟩, .inr ⟨rfl, by decide +kernel⟩⟩, ⟨rfl, by decide⟩,
    ?_, ⟨⟨rfl, by decide⟩, .inl rfl, rfl⟩, ⟨rfl, by decide⟩, .inl rfl, rfl⟩
  simp only [HostOp.allows]; decide +kernel

theorem witness_EveryCauseClaimedOnce :
    (by_ .isr s13).cur = .isr ∧ (by_ .isr s13).Ready 6 ∧ predicates.reverse.Perm predicates ∧
    predicates.reverse = [.icMdiodone, .icRxtimer] ++ .icMinthreshold :: [.icOverrun, .icLinkchanged] :=
  ⟨rfl, ⟨rfl, by decide⟩, List.reverse_perm _, rfl⟩

theorem witness_DescriptorWritesStore :
    let s := atStep 5
    s.Ready 5 ∧ s.mem.wf = true ∧ 7 < s.params.nTx ∧ s.SoftwareOwns (s.drv.txPhys.toNat + 16 * 7) 16 ∧ 7 < s.params.nRx ∧
    s.SoftwareOwns (s.drv.rxPhys.toNat + 16 * 7) 16 :=
  ⟨⟨rfl, by decide⟩, by decide +kernel, by decide +kernel, softwareOwns _ _ _ (by decide +kernel), by decide +kernel,
    softwareOwns _ _ _ (by decide +kernel)⟩

theorem witness_DescriptorReadsAnswer :
    (atStep 5).Ready 5 ∧ 7 < (atStep 5).params.nTx ∧ 7 < (atStep 5).params.nRx ∧
    (atStep 5).drv.slots[7]? = some ⟨0xC0407000#32, 0x407000#32⟩ :=
  ⟨⟨rfl, by decide⟩, by decide +kernel, by decide +kernel, by decide +kernel⟩

/-- An index outside its ring; a long length; a race on the first and on the last descriptor that hardware owns; and one on a
descriptor that software owns by its index, of whose bytes hardware owns some because a raw write moved the ring base. -/
theorem witness_DescriptorFaults :
    let moved := withRegs (sending 0x2B#8 60) fun r => { r with tdbal := 0x00100070#32 }
    s13.Ready 5 ∧ s13.params.nTx ≤ 8 ∧ s13.params.nRx ≤ 8 ∧ 7 < s13.params.nTx ∧ 2 ^ 16 ≤ 65536 ∧
    0 < (sending 0x2B#8 60).params.nTx ∧ (sending 0x2B#8 60).hwOwned .tx 0 = true ∧ (sending 0x2B#8 60).Ready 5 ∧
    65535 < 2 ^ 16 ∧ 6 < s13.params.nRx ∧ s13.hwOwned .rx 6 = true ∧ ¬ (sending 0x2B#8 60).SoftwareOwns 0x100008 2 ∧
    ¬ s13.SoftwareOwns (s13.drv.rxPhys.toNat + 16 * 6 + 12) 1 ∧
    (moved.Ready 5 ∧ 7 < moved.params.nTx ∧ moved.hwOwned .tx 7 = false ∧
      ¬ moved.SoftwareOwns (moved.drv.txPhys.toNat + 16 * 7 + 11) 1) :=
  ⟨⟨rfl, by decide⟩, by decide +kernel, by decide +kernel, by decide +kernel, by decide, by decide +kernel, by decide +kernel,
    ⟨rfl, by decide⟩, by decide, by decide +kernel, by decide +kernel, hardwareOwns _ _ _ (by decide +kernel),
    hardwareOwns _ _ _ (by decide +kernel), ⟨rfl, by decide⟩, by decide +kernel, by decide +kernel,
    hardwareOwns _ _ _ (by decide +kernel)⟩

theorem witness_HardwareOwnsHeadToTail :
    s13.head .rx < s13.ndev .rx ∧ s13.tail .rx < s13.ndev .rx ∧ s13.hwOwned .rx 6 = true ∧ s13.hwOwned .rx 7 = false := by
  decide +kernel

/-- Before step 5, after it, and the cursor at the last index of its ring. -/
theorem witness_CursorOperations :
    (atStep 4).drv.initStep < 5 ∧ (atStep 5).Ready 5 ∧ s13.Ready 5 ∧ s13.cursor .tx < s13.ringSize .tx ∧
    (let s := withDrv s13 fun d => { d with rxCur := 7 }
     s.Ready 5 ∧ s.cursor .rx < s.ringSize .rx) :=
  ⟨by decide +kernel, ⟨rfl, by decide⟩, ⟨rfl, by decide⟩, by decide +kernel, ⟨rfl, by decide⟩, by decide +kernel⟩

theorem witness_TransmitRingInit :
    quiet.Ready 6 ∧ quiet.params.wf = true ∧ quiet.work quiet.cur = [] ∧ quiet.regs.tctl.getLsbD 1 = false ∧
    (∀ r ∈ [Reg.tdbal, .tdbah, .tdlen, .tdh, .tdt], quiet.Untouched r) :=
  ⟨⟨rfl, by decide⟩, by decide +kernel, rfl, by decide +kernel, fun r _ => by cases r <;> rfl⟩

theorem witness_ReceiveRingInit :
    let s := withRegs quiet fun r => { r with rdh := 7#32 }
    s.Ready 6 ∧ s.params.wf = true ∧ s.work s.cur = [] ∧ s.regs.rctl.getLsbD 1 = false ∧ s.mem.wf = true ∧
    s.drv.slots.length = s.params.nRx ∧ s.drv.rxPhys.toNat + 16 * s.params.nRx ≤ 2 ^ 32 ∧
    s.SoftwareOwns s.drv.rxPhys.toNat (16 * s.params.nRx) ∧ (∀ r ∈ [Reg.rdbal, .rdbah, .rdlen, .rdh, .rdt], s.Untouched r) :=
  ⟨⟨rfl, by decide⟩, by decide +kernel, rfl, by decide +kernel, by decide +kernel, by decide +kernel, by decide +kernel,
    softwareOwns _ _ _ (by decide +kernel), fun r _ => by cases r <;> rfl⟩

theorem witness_MoveTailHandsOff :
    (atStep 7).Ready 7 ∧ (atStep 7).params.wf = true ∧ (atStep 7).work (atStep 7).cur = [] ∧ (atStep 7).Untouched .tdt ∧
    ((atStep 7).drv.txTail + 1) % (atStep 7).params.nTx < max ((atStep 7).regs.tdlen.toNat / 16) 1 ∧
    (atStep 7).Untouched .rdt ∧
    ((atStep 7).drv.rxTail + 1) % (atStep 7).params.nRx < max ((atStep 7).regs.rdlen.toNat / 16) 1 :=
  ⟨⟨rfl, by decide⟩, by decide +kernel, rfl, rfl, by decide +kernel, rfl, by decide +kernel⟩

theorem witness_SendChecksInOrder :
    s13.Ready 13 ∧ (s13.cur = .host ∨ s13.cur = .bh) ∧ (withDrv s13 fun d => { d with txBusy := true }).drv.txBusy = true ∧
    s13.drv.txBusy = false ∧ (0 = 0 ∨ 16288 < 0) ∧ (16289 = 0 ∨ 16288 < 16289) ∧ 1 ≤ 1 ∧ 16288 ≤ 16288 ∧
    (sending 0x2B#8 60).Ready 13 ∧ (sending 0x2B#8 60).hwOwned .tx (sending 0x2B#8 60).drv.txCur = true ∧
    (sending 0x2B#8 60).drv.txBusy = false :=
  ⟨⟨rfl, by decide⟩, .inl rfl, rfl, rfl, .inl rfl, .inr (by decide), by decide, by decide, ⟨rfl, by decide⟩,
    by decide +kernel, rfl⟩

theorem witness_SendProgramsThenHandsOff :
    s13.Ready 13 ∧ (s13.cur = .host ∨ s13.cur = .bh) ∧ s13.params.wf = true ∧ s13.work s13.cur = [] ∧ s13.mem.wf = true ∧
    s13.drv.txBusy = false ∧ 1 ≤ 16288 ∧ 16288 ≤ 16288 ∧ s13.drv.txCur < s13.params.nTx ∧
    s13.hwOwned .tx s13.drv.txCur = false ∧ s13.SoftwareOwns (s13.drv.txPhys.toNat + 16 * s13.drv.txCur) 16 ∧
    s13.drv.txPhys.toNat + 16 * s13.params.nTx ≤ 2 ^ 32 ∧ s13.Untouched .tdt ∧
    (s13.drv.txTail + 1) % s13.params.nTx < max (s13.regs.tdlen.toNat / 16) 1 :=
  ⟨⟨rfl, by decide⟩, .inl rfl, by decide +kernel, rfl, by decide +kernel, rfl, by decide, by decide, by decide +kernel,
    by decide +kernel, softwareOwns _ _ _ (by decide +kernel), by decide +kernel, rfl, by decide +kernel⟩

/-- A status of 0x08 is not done; one of 0x01 is, and one of 0x04 is a late collision. -/
theorem witness_SendReturnsOnlyWhenDone :
    let s := fun sta : Byte => (poke s13 0x10000C [sta]).setWork .host [.txPoll 0 5#32 60]
    0 < (s 8#8).params.nTx ∧ (s 8#8).work .host = [.txPoll 0 5#32 60] ∧ (s 8#8).descByte .tx 0 12 &&& 7#8 = 0#8 ∧
    (s 1#8).descByte .tx 0 12 &&& 7#8 ≠ 0#8 ∧ (s 4#8).descByte .tx 0 12 &&& 7#8 ≠ 0#8 :=
  ⟨by decide +kernel, rfl, by decide +kernel, by decide +kernel, by decide +kernel⟩

/-- The six clauses: not done; 63 bytes; 64 bytes and no EOP; an error; a full queue; and a frame that is kept. -/
theorem witness_PollClassifiesDescriptor :
    let s := fun (len : Nat) (sta err : Byte) => (completed 0 len sta err (by_ .isr s13)).setWork .isr [.pollDone 0]
    let done := fun s : State => (s.descByte .rx 0 12).getLsbD 0
    let eop := fun s : State => (s.descByte .rx 0 12).getLsbD 1
    let len := fun s : State => ((s.descByte .rx 0 9 ++ s.descByte .rx 0 8 : Half)).toNat
    (s 64 3#8 0#8).drv.rxCur < (s 64 3#8 0#8).params.nRx ∧ (s 64 3#8 0#8).work .isr = [.pollDone 0] ∧
    done (s 64 2#8 0#8) = false ∧ (done (s 63 3#8 0#8) = true ∧ len (s 63 3#8 0#8) < 64) ∧
    (done (s 64 1#8 0#8) = true ∧ 64 ≤ len (s 64 1#8 0#8) ∧ eop (s 64 1#8 0#8) = false) ∧
    (eop (s 64 3#8 2#8) = true ∧ (s 64 3#8 2#8).descByte .rx 0 13 &&& 0x86#8 ≠ 0#8) ∧
    (done (s 64 3#8 1#8) = true ∧ 64 ≤ len (s 64 3#8 1#8) ∧ eop (s 64 3#8 1#8) = true ∧
      ¬ (s 64 3#8 1#8).descByte .rx 0 13 &&& 0x86#8 ≠ 0#8 ∧ ¬ s13.params.qCap ≤ (s 64 3#8 1#8).drv.queue.length) ∧
    s13.params.qCap ≤ (withDrv (s 64 3#8 1#8) fun d => { d with queue := List.replicate 4 ⟨0#32, 64#16⟩ }).drv.queue.length ∧
    ((s 64 3#8 1#8).setWork .isr [.pollDone 0, .trigUnhandled]).work .isr = .pollDone 0 :: [.trigUnhandled] ∧
    (s 64 3#8 1#8).drv.slots[0]? = some ⟨0xC0400000#32, 0x400000#32⟩ :=
  ⟨by decide +kernel, rfl, by decide +kernel, by decide +kernel, by decide +kernel, by decide +kernel, by decide +kernel,
    by decide +kernel, rfl, by decide +kernel⟩

theorem witness_PollStartsAndAdvances :
    let s := by_ .isr s13
    let d := completed 0 100 3#8 0#8 s
    let c := (withRegs d fun r => { r with rdh := 1#32 }).setWork .isr [.pollClear 7 0, .trigUnhandled, .trigReturn]
    (s.Ready 11 ∧ s.cur = .isr ∧ s.work .isr = [] ∧ 0 < s.params.nRx ∧ s.drv.rxCur < s.params.nRx) ∧
    (s.descByte .rx s.drv.rxCur 12).getLsbD 0 = false ∧ (d.descByte .rx d.drv.rxCur 12).getLsbD 0 = true ∧
    c.params.wf = true ∧ c.mem.wf = true ∧ c.work .isr = .pollClear 7 c.drv.rxCur :: [.trigUnhandled, .trigReturn] ∧
    (c.setWork .isr [.pollClear 6 0]).work .isr = .pollClear 6 c.drv.rxCur :: [] ∧
    (6 + 1 < c.params.nRx ∧ c.params.nRx ≤ 7 + 1) ∧ c.drv.rxCur < c.params.nRx ∧
    c.SoftwareOwns (c.drv.rxPhys.toNat + 16 * c.drv.rxCur + 12) 1 ∧ c.Untouched .rdt ∧
    (c.drv.rxTail + 1) % c.params.nRx < max (c.regs.rdlen.toNat / 16) 1 :=
  ⟨⟨⟨rfl, by decide⟩, rfl, rfl, by decide +kernel, by decide +kernel⟩, by decide +kernel, by decide +kernel, by decide +kernel,
    by decide +kernel, rfl, rfl, by decide +kernel, by decide +kernel, softwareOwns _ _ _ (by decide +kernel), rfl,
    by decide +kernel⟩

/-- The start and its failure; a failing call; an answer that the allocations take, one whose addresses `phys` does not join, and
a window that ends at 2^32. -/
theorem witness_InitializeSteps :
    let s := State.reset
    let f : State := { s with reply := { s.reply with ok := false } }
    let offered : Reply := { ok := true, va := 0xC0500000#32, pa := 0x500000#32, contents := [1, 2] }
    let a : State := { s13 with reply := offered }
    (s.cur = .host ∧ s.drv.initStep = 0 ∧ s.drv.initFailed = false ∧ s.work .host = [] ∧ s.reply.ok = true ∧
      f.reply.ok = false) ∧
    (f.setWork .host [.callAlloc .slot, .slotsFrom 1]).work .host = .callAlloc .slot :: [.slotsFrom 1] ∧
    ((a.setWork .host [.callAlloc .slot, .slotsFrom 1]).work .host = .callAlloc .slot :: [.slotsFrom 1] ∧ a.reply.ok = true ∧
      a.mem.wf = true ∧ a.allocOffered offered 2048 = true ∧ a.allocOffered offered 4096 = true ∧
      a.allocOffered { offered with pa := 0x501000#32 } 2048 = false) ∧
    ((a.setWork .host [.icReadClear, .icDone, .initDone 12]).work .host = .icReadClear :: [.icDone, .initDone 12] ∧
      (a.setWork .host [.icDone, .initDone 12]).work .host = .icDone :: [.initDone 12]) ∧
    (0xFFFE0000#32).toNat + 0x20000 ≤ 2 ^ 32 ∧ 7 < s13.params.nRx ∧ s13.params.nRx ≤ 8 :=
  ⟨⟨rfl, rfl, rfl, rfl, rfl, rfl⟩, rfl, ⟨rfl, rfl, by decide +kernel, by decide +kernel, by decide +kernel, by decide +kernel⟩,
    ⟨rfl, rfl⟩, by decide, by decide +kernel, by decide +kernel⟩

/-- Every feature and untouched registers; no feature; and an argument outside its domain. -/
theorem witness_ConfigurationRuns :
    (∀ f ∈ [Feature.setLinkUp, .autoSpeed, .ieEnable, .tcEnable, .padShort, .collThresh, .collDist, .loopback, .bufSize,
        .minThreshold, .broadcast, .rcEnable, .group .dc, .group .ie, .group .tc, .group .rc], f ∈ (atStep 7).params.features) ∧
    (∀ r ∈ [Reg.ctrl, .ims, .tctl, .rctl], (atStep 7).Untouched r) ∧ (atStep 7).regs.tdlen ≠ 0#32 ∧
    (atStep 7).regs.rdlen ≠ 0#32 ∧
    (∀ f, f ∉ { s13 with params := { s13.params with features := [] } }.params.features) ∧
    (match Setting.check (.loopback 1) (atStep 7) with | .error e => e == .config | .ok _ => false) = true :=
  ⟨by decide +kernel, fun r _ => by cases r <;> rfl, by decide +kernel, by decide +kernel, fun _ => List.not_mem_nil,
    by decide +kernel⟩

/-- The MMIO source, the EEPROM source, and the EEPROM loop. -/
theorem witness_LoadMacReads :
    let s := (atStep 8).setWork .host [.loadMac, .initDone 9]
    let o : RegObj := { onMask := 1#32, offMask := ~~~1#32, inConfirm := ⟨true, false, false⟩, stagedBy := some .host }
    let e : State := { s13 with mapper := s13.mapper.set .eerd o }
    let w := e.setWork .host [.confirmWrite .eerd 0#32, .macPoll 0 [], .initDone 9]
    s.cur = .host ∧ s.drv.initFailed = false ∧ s.drv.initStep = 8 ∧ s.work .host = [.loadMac, .initDone 9] ∧
    s.params.macSource = .eeprom ∧ s.MayStage .eerd .host ∧
    { s.params with macSource := .mmio }.macSource = .mmio ∧
    w.params.eeprom = [0x5452#16, 0x1200#16, 0x5634#16] ∧ w.work .host = .confirmWrite .eerd 0#32 :: .macPoll 0 [] :: [.initDone 9] ∧
    (w.regObj .eerd).onMask = 1#32 ∧ (w.regObj .eerd).offMask = ~~~1#32 ∧ (w.regObj .eerd).inConfirm.isr = false ∧
    (w.regObj .eerd).inConfirm.bh = false ∧ w.ee.busy = false :=
  ⟨rfl, rfl, rfl, rfl, rfl, .inl rfl, rfl, rfl, rfl, rfl, rfl, rfl, rfl, rfl⟩

theorem witness_InterruptEntry :
    let s := withRegs s13 fun r => { r with icr := 4#32 }
    let active := withDrv s fun d => { d with isrActive := true }
    ((by_ .isr s13).Ready 11 ∧ (by_ .isr s13).cur = .isr ∧ (by_ .isr s13).work .isr = []) ∧
    (s.regs.icr &&& s.regs.ims ≠ 0#32 ∧ s.drv.irqAllowed = true ∧ s.drv.handlerAssigned = true ∧ s.drv.isrActive = false ∧
      s.work .isr = []) ∧
    (active.drv.isrActive = true ∧ HostAgent.bh ≠ .isr) ∧ s13.regs.icr &&& s13.regs.ims = 0#32 ∧ s.Ready 11 ∧
    hostDecodes [0x03, 0x07, 0, 0, 0, 0] (.coreTrigger 0#32) = true ∧ (s.setWork .isr [.pollDone 0]).work .isr ≠ [] :=
  ⟨⟨⟨rfl, by decide⟩, rfl, rfl⟩, ⟨by decide +kernel, rfl, rfl, rfl, rfl⟩, ⟨rfl, by decide⟩, by decide +kernel, ⟨rfl, by decide⟩,
    by decide +kernel, List.cons_ne_nil _ _⟩

theorem witness_QuietTriggerRuns :
    let s := withRegs (by_ .isr s13) fun r => { r with icr := 0xFFFFFF6B#32 }
    s.Ready 11 ∧ s.cur = .isr ∧ s.work .isr = [] ∧ s.regs.icr &&& 0x00000094#32 = 0#32 :=
  ⟨⟨rfl, by decide⟩, rfl, rfl, by decide +kernel⟩

/-- LSC with every bit nothing claims; RXT0 alone, with the descriptor at the cursor not done; and every bit at once. -/
theorem witness_TriggerActsOnCauses :
    let l := withRegs (by_ .isr s13) fun r => { r with icr := 0xFFFFFF6F#32 }
    let t := withRegs (by_ .isr s13) fun r => { r with icr := 0x80#32 }
    let b := withRegs (by_ .isr s13) fun r => { r with icr := 0xFFFFFFFF#32 }
    (l.Ready 11 ∧ l.cur = .isr ∧ l.work .isr = [] ∧ l.regs.icr.getLsbD 2 = true ∧ l.regs.icr &&& 0x00000090#32 = 0#32 ∧
      .setLinkUp ∈ l.params.features ∧ .group .dc ∈ l.params.features ∧ l.Untouched .ctrl) ∧
    (t.Ready 11 ∧ t.cur = .isr ∧ t.work .isr = [] ∧ t.regs.icr.getLsbD 2 = false ∧ t.regs.icr &&& 0x00000090#32 ≠ 0#32 ∧
      t.drv.rxCur < t.params.nRx ∧ (t.descByte .rx t.drv.rxCur 12).getLsbD 0 = false) ∧
    (b.Ready 11 ∧ b.cur = .isr ∧ b.work .isr = [] ∧ b.regs.icr.getLsbD 2 = true ∧ b.regs.icr &&& 0x00000090#32 ≠ 0#32 ∧
      .setLinkUp ∈ b.params.features ∧ .group .dc ∈ b.params.features ∧ b.Untouched .ctrl ∧ b.drv.rxCur < b.params.nRx ∧
      (b.descByte .rx b.drv.rxCur 12).getLsbD 0 = false) :=
  ⟨⟨⟨rfl, by decide⟩, rfl, rfl, by decide +kernel, by decide +kernel, by decide +kernel, by decide +kernel, rfl⟩,
    ⟨⟨rfl, by decide⟩, rfl, rfl, by decide +kernel, by decide +kernel, by decide +kernel, by decide +kernel⟩,
    ⟨rfl, by decide⟩, rfl, rfl, by decide +kernel, by decide +kernel, by decide +kernel, by decide +kernel, rfl,
    by decide +kernel, by decide +kernel⟩

theorem witness_BottomHalfPublishes :
    let s := by_ .bh s13
    let q := withDrv s fun d => { d with queue := [⟨0xC0400000#32, 100#16⟩] }
    (s.Ready 11 ∧ s.cur = .bh ∧ s.work .bh = [] ∧ s.drv.queue = []) ∧ q.Ready 11 ∧ q.cur = .bh ∧ q.work .bh = [] ∧
    q.drv.queue = [⟨0xC0400000#32, 100#16⟩] :=
  ⟨⟨⟨rfl, by decide⟩, rfl, rfl, rfl⟩, ⟨rfl, by decide⟩, rfl, rfl, rfl⟩

/-- A frame of one byte and one of 16288, with the link up; and the link down under DISCARD. -/
theorem witness_TransmitStepCompletes :
    let s := sending 0x2B#8 1
    let long := { sending 0x2B#8 16288 with dma := [⟨0x100000, 0x1000, .pinned⟩, ⟨0x400000, 16288, .sendBuffer⟩] }
    let down := { s with cable := false, params := { s.params with txNoLink := .discard } }
    let len := fun s : State => (s.mem.readByte 0x100008).toNat + 256 * (s.mem.readByte 0x100009).toNat
    (s.busMaster = true ∧ s.regs.tctl.getLsbD 1 = true ∧ 0 < s.regs.tdlen.toNat / 16 ∧ s.regs.tdh ≠ s.regs.tdt ∧
      (s.cable && s.regs.ctrl.getLsbD 6) = true ∧ s.lbm = 0 ∧ s.mem.wf = true ∧ s.ringBase .tx = 0x100000 ∧
      s.dmaLegal 0x100000 16 = true ∧ s.mem.readByte 0x10000B &&& 0xF5#8 = 0x21#8 ∧ len s = 1 ∧
      natOfBytes (s.mem.readBytes 0x100000 8) = 0x400000 ∧ s.dmaLegal 0x400000 1 = true) ∧
    (len long = 16288 ∧ long.dmaLegal 0x400000 16288 = true ∧ long.dmaLegal 0x100000 16 = true) ∧
    down.params.txNoLink = .discard := by
  refine ⟨?_, ?_, rfl⟩ <;> decide +kernel

/-- The longest frame, with the link down. -/
theorem witness_TransmitLoopback :
    let s := withRegs { sending 0x2B#8 16288 with
      cable := false, dma := [⟨0x100000, 0x1000, .pinned⟩, ⟨0x400000, 16288, .sendBuffer⟩] } fun r => { r with rctl := 0x80C2#32 }
    s.busMaster = true ∧ s.regs.tctl.getLsbD 1 = true ∧ 0 < s.regs.tdlen.toNat / 16 ∧ s.regs.tdh ≠ s.regs.tdt ∧ s.lbm = 3 ∧
    s.mem.wf = true ∧ s.ringBase .tx = 0x100000 ∧ s.dmaLegal 0x100000 16 = true ∧
    s.mem.readByte 0x10000B &&& 0xF5#8 = 0x21#8 ∧
    (s.mem.readByte 0x100008).toNat + 256 * (s.mem.readByte 0x100009).toNat = 16288 ∧
    natOfBytes (s.mem.readBytes 0x100000 8) = 0x400000 ∧ s.dmaLegal 0x400000 16288 = true := by decide +kernel

/-- The clauses of the filter: disabled, a reserved mode with either engine enabled, loopback 3 and 1, not accepted, lost, and
stored; frames of 18 and of 1522 bytes. -/
theorem witness_ReceiveFilter :
    let f := frameTo station 18
    18 ≤ f.length ∧ (frameTo station 1522).length ≤ 1522 ∧ quiet.regs.rctl.getLsbD 1 = false ∧
    s13.regs.rctl.getLsbD 1 = true ∧ (0x80C2#32).extractLsb' 6 2 = 3#2 ∧ (0x8042#32).extractLsb' 6 2 = 1#2 ∧
    (0x8042#32).getLsbD 1 = true ∧ s13.regs.rctl.extractLsb' 6 2 = 0#2 ∧ s13.cable = true ∧ s13.regs.ctrl.getLsbD 6 = true ∧
    s13.regs.rah0.getLsbD 31 = true ∧ s13.ra0 = f.take 6 ∧ s13.rxFifo.length ≠ s13.params.rxFifoCap ∧
    ([⟨f, 0#8⟩, ⟨f, 0#8⟩] : List RxFrame).length = s13.params.rxFifoCap ∧
    (s13.regs.tctl.getLsbD 1 = true ∧ (0x8040#32).getLsbD 1 = false ∧ (0x8080#32).extractLsb' 6 2 = 2#2) ∧
    quiet.regs.tctl.getLsbD 1 = false := by decide +kernel

/-- A step whose frame takes the last descriptor but one that hardware owns (7 of 8, `m` = 1), and one that reaches the
threshold. -/
theorem witness_ReceiveStepCounts :
    let e : RxFrame := ⟨frameTo station 100, 0#8⟩
    let s : State := { s13 with rxFifo := [e] }
    let low : State := withRegs s fun r => { r with rdh := 2#32 }
    s.rxFifo = e :: [] ∧ s.busMaster = true ∧ 0 < s.ndev .rx ∧ s.head .rx < s.ndev .rx ∧ s.tail .rx < s.ndev .rx ∧
    s.ndev .rx ≤ 65536 ∧ s.rxNeeds e ≤ s.hwCount .rx ∧
    (next (perform .rxe s) fun t => t.faults == s.faults && t.regs.icr == 0x80#32) = true ∧
    (next (perform .rxe low) fun t => t.faults == low.faults && t.regs.icr == 0x90#32) = true := by decide +kernel

/-- Three chunks of 256, 256 and 88 bytes; the reserved buffer size and threshold; a descriptor and a buffer outside the DMA
regions. -/
theorem witness_ReceiveStepWrites :
    let e : RxFrame := ⟨frameTo station 600, 0x84#8⟩
    let s : State := withRegs { s13 with rxFifo := [e] } fun r => { r with rctl := 0x00038002#32 }
    let a := fun j => s.ringBase .rx + 16 * ((s.head .rx + j) % s.ndev .rx)
    let addr := fun j => natOfBytes (s.mem.readBytes (a j) 8)
    let chunk := fun j => sliceBytes e.bytes (j * 256) 256
    (s.rxFifo = e :: [] ∧ s.rxeEnabled = true ∧ bufSize s.regs.rctl = some 256 ∧ s.rdmts ≠ 3 ∧ s.mem.wf = true ∧
      s.head .rx < s.ndev .rx ∧ s.tail .rx < s.ndev .rx ∧ s.ndev .rx ≤ 65536) ∧
    (∀ j, j < 3 → s.dmaLegal (a j) 8 = true ∧ (chunk j ≠ [] → s.dmaLegal (addr j) (chunk j).length = true) ∧
      ∀ p ∈ [(8, 2), (10, 2), (12, 1), (13, 1), (14, 2)], s.dmaLegal (a j + p.1) p.2 = true) ∧
    (∀ i, i < 3 → ∀ j, j < 3 → apart (addr i) (chunk i).length (a j) 16 = true) ∧
    (∀ i, i < 3 → ∀ j, j < 3 → i ≠ j → apart (addr i) (chunk i).length (addr j) (chunk j).length = true) ∧
    (bufSize 0x02008002#32 = none ∧ (withRegs s fun r => { r with rctl := 0x02008002#32 }).rxeEnabled = true) ∧
    (withRegs s fun r => { r with rctl := 0x00038302#32 }).rdmts = 3 ∧
    ({ s with dma := [] }.rxeEnabled = true ∧ { s with dma := [] }.dmaLegal (a 0) 8 = false) ∧
    (let w := { s with dma := [⟨0x101000, 4096, .pinned⟩] }
     w.dmaLegal (a 0) 8 = true ∧ chunk 0 ≠ [] ∧ w.dmaLegal (addr 0) (chunk 0).length = false) := by
  refine ⟨?_, ?_, ?_, ?_, ?_, ?_, ?_, ?_⟩ <;> decide +kernel

theorem witness_DmaStaysInRegions :
    s13.mem.wf = true ∧ (next (perform (.txe .none) (sending 0x2B#8 60)) fun t => t.faults.isEmpty) = true ∧
    s13.OutsideDma 0xFFFFF ∧ s13.OutsideDma 0x102000 := by
  refine ⟨by decide +kernel, by decide +kernel, ?_, ?_⟩ <;> simp only [State.OutsideDma] <;> decide +kernel

/-- The clauses on a TXE step: a reserved loopback mode, a descriptor and a buffer outside the regions, a command byte and two
lengths; each with the conditions before it false. Then each condition of R411 and R420 that fails: at the end a frame that needs 3
of the 2 descriptors that hardware owns. -/
theorem witness_DeviceFaultsHaveNoEffect :
    let s := sending 0x2B#8 60
    let fault := fun s : State => match perform (.txe .none) s with | .next t => t.faults.head?.map fun f => (f.code, f.rule) | _ => none
    s.txeEnabled = true ∧
    fault (withRegs s fun r => { r with rctl := 0x8082#32 }) = some (.reservedValue, 412) ∧
    fault { s with dma := [] } = some (.dmaWild, 110) ∧ fault (sending 0x6B#8 60) = some (.descFormat, 417) ∧
    fault (sending 0x2B#8 0) = some (.txLength, 417) ∧ fault (sending 0x2B#8 16289) = some (.txLength, 417) ∧
    fault { s with dma := [⟨0x100000, 4096, .pinned⟩] } = some (.dmaWild, 110) ∧
    { s13 with busMaster := false }.busMaster = false ∧
    (quiet.regs.tctl.getLsbD 1 = false ∧ State.reset.regs.tdlen.toNat / 16 = 0 ∧ s13.regs.tdh = s13.regs.tdt ∧
      ({ s with cable := false }.cable = false ∧ s.params.txNoLink = .stall ∧ s.regs.rctl.extractLsb' 6 2 ≠ 3#2)) ∧
    s13.rxFifo = [] ∧ State.reset.regs.rdlen.toNat / 16 = 0 ∧
    (let split : RxFrame := ⟨frameTo station 600, 0#8⟩
     let r := withRegs { s13 with rxFifo := [split] } fun r => { r with rctl := 0x00038002#32, rdh := 5#32 }
     r.rxFifo = split :: [] ∧ 5 < r.regs.rdlen.toNat / 16 ∧ r.regs.rdt.toNat < r.regs.rdlen.toNat / 16 ∧
       bufSize r.regs.rctl = some 256 ∧ 7 - 5 < max 1 ((split.bytes.length + 256 - 1) / 256)) := by decide +kernel

/-- S13 with an EEPROM read in progress, and a run in which EEC alone takes steps: it completes the read, and then nothing else
is enabled. -/
def reading : State := { s13 with ee := { s13.ee with busy := true } }

def readingRun : Nat → State
  | 0 => reading
  | _ + 1 => eecStep reading

theorem readingRun_isRun : IsRun readingRun fun _ => .eec := by
  intro n
  match n with
  | 0 => exact ⟨rfl, rfl⟩
  | _ + 1 => exact ⟨rfl, congrArg Host.Outcome.next (by decide +kernel : eecStep reading = eecStep (eecStep reading))⟩

theorem witness_EepromAndCableSteps :
    (let far : State := { s13 with ee := { s13.ee with busy := true, addr := 3#14 } }
     reading.ee.busy = true ∧ reading.params.eeprom[reading.ee.addr.toNat]? = some 0x5634#16 ∧ far.ee.busy = true ∧
       far.params.eeprom.length ≤ far.ee.addr.toNat ∧ s13.ee.busy = false) ∧
    WeaklyFair readingRun (fun _ => .eec) ∧ (readingRun 0).ee.busy = true := by
  refine ⟨by decide +kernel, ⟨readingRun_isRun, fun a n => ⟨n + 1, by omega, ?_⟩⟩, rfl⟩
  cases a <;> first
    | exact .inr rfl
    | (refine .inl ?_; simp only [readingRun, State.Enabled]; decide +kernel)

theorem witness_FaultStopsMachine :
    (s13.raise ⟨.index, .host, 146, 8⟩).faults = ⟨.index, .host, 146, 8⟩ :: [] ∧
    (next (step (s13.withFetchWord 32 0)) fun t => t.faults.isEmpty) = true ∧
    (next (step (s13.withFetchWord 32 2)) fun t => t.faults.length == 1) = true :=
  ⟨rfl, by decide +kernel, by decide +kernel⟩

/-- A request; `core.loadmac` at its place; a state in which ISR's `core.trigger` is refused; and a turn of DISPATCH. -/
theorem witness_StepRunsDecoded :
    let req := Request.host [0x01, 0x05, 0]
    let s : State := { s13 with script := [.issue .host req s13.reply] }
    let m : State := { (atStep 8).setWork .host [.loadMac] with script := [.issue .host (.host [0x02, 0x07]) s13.reply] }
    let d : State := { withRegs s13 fun r => { r with icr := 4#32 } with script := [.dispatch 5#32] }
    s.faults = [] ∧ s.script = .issue .host req s13.reply :: [] ∧
    (hostDecodes [0x01, 0x05, 0] (.ringCurrent .tx) && hostDecodes [0x02, 0x07] .coreLoadmac) = true ∧
    (Instr.ringCurrent .tx).wf = true ∧ s.mayRun .host = true ∧ s.work .host = [] ∧ (m.mayRun .host = true ∧ inStep9 m = true) ∧
    ¬ (atStep 10).Ready 11 ∧
    (d.faults = [] ∧ d.script = .dispatch 5#32 :: [] ∧ d.regs.icr &&& d.regs.ims ≠ 0#32 ∧ d.drv.irqAllowed = true ∧
      d.drv.handlerAssigned = true ∧ d.drv.isrActive = false ∧ d.work .isr = []) :=
  ⟨rfl, rfl, by decide +kernel, rfl, by decide +kernel, rfl, ⟨by decide +kernel, by decide +kernel⟩,
    fun h => absurd h.2 (by decide), rfl, rfl, by decide +kernel, rfl, rfl, rfl, rfl⟩

/-- S13 with the MMIO window at 0xE0000000. -/
def windowed : State := withDrv s13 fun d => { d with base := 0xE0000000#32 }

/-- A register of the window, its last byte, which is misaligned, a hole, memory apart from the device, and bytes that hardware
owns: a whole descriptor, and the last byte of one; by physical address, a first byte of one, and the top of memory. -/
theorem witness_HostAccessesReachDevice :
    let s := windowed
    let mapped := fun va : Word =>
      3 ≤ s.drv.initStep ∧ s.drv.base.toNat ≤ va.toNat ∧ va.toNat < s.drv.base.toNat + 0x20000
    let off := fun va : Word => va.toNat - s.drv.base.toNat
    s.mayRun .bh = true ∧ s.work .bh = [] ∧ s.params.offsets.wf = true ∧
    (mapped 0xE0005404#32 ∧ pOffsets s.params.offsets .rah0 = off 0xE0005404#32) ∧
    (mapped 0xE001FFFF#32 ∧ off 0xE001FFFF#32 % 4 ≠ 0) ∧
    (mapped 0xE001FFFC#32 ∧ off 0xE001FFFC#32 % 4 = 0 ∧ ∀ r, pOffsets s.params.offsets r ≠ off 0xE001FFFC#32) ∧
    (¬ mapped 0xE0020000#32 ∧ ¬ mapped 0xC0101000#32 ∧ s.mem.wf = true) ∧
    ¬ s.SoftwareOwns (s.phys 0xC0101000#32) 16 ∧ ¬ s.SoftwareOwns (s.phys 0xC010106F#32) 1 ∧
    s.SoftwareOwns (s.phys 0xC0101070#32) 16 ∧ s.SoftwareOwns (s.phys 0xC0400000#32) 4 ∧ 16 ≤ 2 ^ 32 ∧
    ¬ s.SoftwareOwns (0x00101000#32).toNat 1 ∧ s.SoftwareOwns (0xFFFFFFFF#32).toNat 2 :=
  ⟨by decide +kernel, rfl, by decide +kernel, by decide +kernel, by decide +kernel,
    ⟨by decide +kernel, by decide +kernel, fun r => by cases r <;> decide +kernel⟩, by decide +kernel,
    hardwareOwns _ _ _ (by decide +kernel), hardwareOwns _ _ _ (by decide +kernel), softwareOwns _ _ _ (by decide +kernel),
    softwareOwns _ _ _ (by decide +kernel), by decide, hardwareOwns _ _ _ (by decide +kernel),
    softwareOwns _ _ _ (by decide +kernel)⟩

theorem witness_PowerOnState : Config.launch.wf = true := by decide +kernel

theorem witness_StepKeepsInvariants :
    s13.mem.wf = true ∧ s13.DeviceInv ∧ s13.MapperInv ∧ s13.DriverInv ∧ s13.RingInv ∧
    (next (step (s13.withFetchWord 32 0x80000000)) fun t => t.regs.ctrl == 0#32) = true :=
  ⟨by decide +kernel, s13_deviceInv, s13_mapperInv, s13_driverInv, s13_ringInv, by decide +kernel⟩

theorem witness_HistoryOnlyGrows :
    failed.drv.initFailed = true ∧ s13.busMaster = true ∧
    (next (step (failed.withFetchWord 16 0x0501)) fun t => t.drv.initFailed && t.busMaster) = true :=
  ⟨rfl, rfl, by decide +kernel⟩

end Sys2Proof.Tests
end

section
/-! PROOF of `DecodeEncodeAgree`: each operand's bytes carry it whatever follows, so each form of request decodes back. -/

namespace Sys2Proof

/-! ### Numbers in bytes -/

/-- Taking back the low bytes of a number. -/
theorem takeNat_bytesOfNat (n v : Nat) (rest : List Byte) :
    takeNat n (bytesOfNat n v ++ rest) = some (v % 256 ^ n, rest) := by
  induction n generalizing v with
  | zero => simp [takeNat, bytesOfNat, Nat.mod_one]
  | succ n ih =>
    rw [bytesOfNat, List.cons_append, takeNat, ih, Nat.pow_succ', Nat.mod_mul]
    simp

/-! ### Operands (R146; log entry 8) -/

/-- `take` reads the operand `x` from the bytes `bs`, and leaves whatever follows them. -/
def Carries {α : Type} (take : List Byte → Option (α × List Byte)) (bs : List Byte) (x : α) : Prop :=
  ∀ rest, take (bs ++ rest) = some (x, rest)

/-- Where nothing follows, nothing is left. -/
theorem Carries.whole {α : Type} {take : List Byte → Option (α × List Byte)} {bs : List Byte} {x : α}
    (h : Carries take bs x) : take bs = some (x, []) := by simpa using h []

/-- A number that fits its bytes is carried whole. -/
theorem carries_nat {n v : Nat} (h : v < 256 ^ n) : Carries (takeNat n) (bytesOfNat n v) v := fun rest => by
  rw [takeNat_bytesOfNat, Nat.mod_eq_of_lt h]

theorem carries_reg (r : Reg) : Carries takeReg (regByte r) r := fun _ => by cases r <;> rfl

theorem carries_group (g : Group) : Carries takeGroup (groupByte g) g := fun _ => by cases g <;> rfl

theorem carries_ring (t : Ring) : Carries takeRing (ringByte t) t := fun _ => by cases t <;> rfl

theorem carries_bool (b : Bool) : Carries takeBool (boolByte b) b := fun _ => by cases b <;> rfl

/-- The bytes of a 32-bit word, read as a number. -/
theorem carries_wordNat (w : Word) : Carries (takeNat 4) (wordBytes w) w.toNat := carries_nat w.isLt

theorem carries_word (w : Word) : Carries takeWord (wordBytes w) w := fun rest => by
  rw [takeWord, carries_wordNat w rest, Option.map_some, BitVec.ofNat_toNat, BitVec.setWidth_eq]

theorem carries_count {n : Nat} (h : fitsNat n = true) : Carries takeCount (countBytes n) n :=
  carries_nat (of_decide_eq_true h)

/-- Two's complement in 64 bits gives back every integer in its range. -/
theorem toInt_ofInt_of_fitsInt {v : Int} (h : fitsInt v = true) : (BitVec.ofInt 64 v).toInt = v := by
  obtain ⟨hlo, hhi⟩ : -2 ^ 63 ≤ v ∧ v < 2 ^ 63 := by simpa [fitsInt] using h
  exact BitVec.toInt_ofInt_eq_self (by decide) hlo hhi

theorem carries_int {v : Int} (h : fitsInt v = true) : Carries takeInt (intBytes v) v := fun rest => by
  rw [takeInt, intBytes, carries_nat (BitVec.isLt _) rest, Option.map_some, BitVec.ofNat_toNat, BitVec.setWidth_eq,
    toInt_ofInt_of_fitsInt h]

/-! An instruction is read back from its operands' bytes one after another. -/

section Forms
variable {α β γ : Type} {takeA : List Byte → Option (α × List Byte)} {takeB : List Byte → Option (β × List Byte)}
  {takeC : List Byte → Option (γ × List Byte)} {as bs cs : List Byte} {a : α} {b : β} {c : γ}

theorem decode1_of_carries {mk : α → Instr} (ha : Carries takeA as a) : decode1 takeA mk as = some (mk a) := by
  rw [decode1, ha.whole, Option.map_some]

theorem decode2_of_carries {mk : α → β → Instr} (ha : Carries takeA as a) (hb : Carries takeB bs b) :
    decode2 takeA takeB mk (as ++ bs) = some (mk a b) := by
  rw [decode2, ha]
  exact decode1_of_carries hb

theorem decode3_of_carries {mk : α → β → γ → Instr} (ha : Carries takeA as a) (hb : Carries takeB bs b)
    (hc : Carries takeC cs c) : decode3 takeA takeB takeC mk (as ++ bs ++ cs) = some (mk a b c) := by
  rw [decode3, List.append_assoc, ha]
  exact decode2_of_carries hb hc

end Forms

/-! ### Host operations (R145) -/

/-- The words of the table of R145 are distinct: each spells its own operation. -/
theorem hostOpOfWord_word (op : HostOp) : hostOpOfWord op.word = some op := by cases op <;> rfl

/-- An operation's word fits 16 bits. -/
theorem HostOp.word_lt (op : HostOp) : op.word < 256 ^ 2 := by cases op <;> decide

/-- The decoder finds the operation that the encoder wrote, so the request decodes as its operands do. -/
theorem decode_encodeHost (o : Offsets) {op : HostOp} {bs : List Byte} {i : Instr} (h : decodeOperands op bs = some i) :
    decode o (encodeHost op bs) = .ok i := by
  simp only [encodeHost, decode, decodeHost, carries_nat op.word_lt bs, hostOpOfWord_word, h]

/-! ### Bus requests (R140 to R142) -/

section BusRequests
variable {o : Offsets}

/-- The fields of a request word (R140): it has 32 bits, its direction, `A` and `Z` zero, and the register's offset. -/
theorem requestWord_fields (ho : o.wf = true) (write : Bool) (r : Reg) :
    requestWord o write r < 256 ^ 4 ∧ isWrite (requestWord o write r) = write ∧ requestWord o write r % 4 = 0 ∧
      requestWord o write r / 2 ^ 17 % 2 ^ 14 = 0 ∧ requestWord o write r % 2 ^ 17 = pOffsets o r := by
  obtain ⟨halign, hlt⟩ := pOffsets_wf ho r
  cases write <;> simp [requestWord, isWrite] <;> omega

/-- A read request decodes to the read of its register (R142). -/
theorem decode_encodeRead (ho : o.wf = true) (r : Reg) : decode o (encodeRead o r) = .ok (readInstr r) := by
  obtain ⟨hlt, hdir, halign, hzero, hoff⟩ := requestWord_fields ho false r
  simp [-Nat.reducePow, encodeRead, decode, decodeMmio, decodeRequestWord, (carries_nat hlt).whole, hdir, halign, hzero, hoff,
    regAtOffset_pOffsets ho]

/-- A write request decodes to the write of its register with its data word (R142). -/
theorem decode_encodeWrite (ho : o.wf = true) (r : Reg) (data : Word) :
    decode o (encodeWrite o r data) = .ok (writeInstr r data) := by
  obtain ⟨hlt, hdir, halign, hzero, hoff⟩ := requestWord_fields ho true r
  simp [-Nat.reducePow, encodeWrite, decode, decodeMmio, decodeRequestWord, carries_nat hlt (wordBytes data), hdir, halign,
    hzero, hoff, regAtOffset_pOffsets ho, (carries_wordNat data).whole]

end BusRequests

/-! ### Every instruction, by the form of its request -/

/-- Settles O1, form by form: reads, writes, and host operations by the operands they take. -/
theorem decodeEncodeAgree : Obligations.DecodeEncodeAgree := by
  intro o i ho hi
  cases i with
  | mmioRCtrl | mmioRStatus | mmioREerd | mmioRIcr | mmioRIms | mmioRImc | mmioRRctl | mmioRTctl | mmioRRdbal | mmioRRdbah
  | mmioRRdlen | mmioRRdh | mmioRRdt | mmioRTdbal | mmioRTdbah | mmioRTdlen | mmioRTdh | mmioRTdt | mmioRRal0 | mmioRRah0 =>
    exact decode_encodeRead ho _
  | mmioWCtrl d | mmioWStatus d | mmioWEerd d | mmioWIcr d | mmioWIms d | mmioWImc d | mmioWRctl d | mmioWTctl d
  | mmioWRdbal d | mmioWRdbah d | mmioWRdlen d | mmioWRdh d | mmioWRdt d | mmioWTdbal d | mmioWTdbah d | mmioWTdlen d
  | mmioWTdh d | mmioWTdt d | mmioWRal0 d | mmioWRah0 d => exact decode_encodeWrite ho _ d
  | regSet r v m =>
    exact decode_encodeHost o (decode3_of_carries (carries_reg r) (carries_word v) (carries_word m))
  | regDecide r v b =>
    exact decode_encodeHost o (decode3_of_carries (carries_reg r) (carries_word v) (carries_bool b))
  | txdWriteaddress n pa | rxdWriteaddress n pa =>
    exact decode_encodeHost o (decode2_of_carries (carries_count hi) (carries_word pa))
  | txdWritelength n len =>
    obtain ⟨hn, hlen⟩ := Bool.and_eq_true_iff.1 hi
    exact decode_encodeHost o (decode2_of_carries (carries_count hn) (carries_count hlen))
  | txSend pa len => exact decode_encodeHost o (decode2_of_carries (carries_word pa) (carries_count hi))
  | regConfirm r | regReaddirect r => exact decode_encodeHost o (decode1_of_carries (carries_reg r))
  | grpManage g => exact decode_encodeHost o (decode1_of_carries (carries_group g))
  | ringCurrent t | ringSetnext t | hwringInit t | hwringMovetail t =>
    exact decode_encodeHost o (decode1_of_carries (carries_ring t))
  | dcSetlinkup b | dcAutospeed b | rcEnable b | rcBroadcast b | tcEnable b | tcPadshort b =>
    exact decode_encodeHost o (decode1_of_carries (carries_bool b))
  | rcLoopback v | rcBufsize v | rcMinthreshold v | tcCollthresh v | tcColldist v =>
    exact decode_encodeHost o (decode1_of_carries (carries_int hi))
  | ieEnable w | idDisable w | coreTrigger w => exact decode_encodeHost o (decode1_of_carries (carries_word w))
  | txdWritecommand n | txdIsdone n | rxdGetpacketaddress n | rxdReadlength n | rxdIseop n | rxdClearstatus n
  | rxdHaserrors n | rxdDone n => exact decode_encodeHost o (decode1_of_carries (carries_count hi))
  | icReadclear | icLinkchanged | icOverrun | icMinthreshold | icRxtimer | icMdiodone | icUnhandled | rxPoll
  | coreInitialize | coreLoadmac | coreHasdata | coreParse => exact decode_encodeHost o rfl

end Sys2Proof
end

section
/-! PROOF of `HistoryOnlyGrows`: every primitive effect keeps or extends what the statement names, so every
step does (`Closed`). -/

namespace Sys2Proof.Machine

/-- The part of the state that no step takes back. -/
structure History where
  params     : Params
  initFailed : Bool
  busMaster  : Bool
  log        : List LogRecord
  trace      : List TraceEvent
  wireOut    : List (List Byte)
  published  : List Event

/-- The history that a state holds. -/
def State.history (s : State) : History :=
  ⟨s.params, s.drv.initFailed, s.busMaster, s.drv.log, s.trace, s.wireOut, s.drv.published⟩

/-- The history of `t` is that of `s`, or grew from it. -/
structure Grows (s t : State) : Prop where
  params     : t.params = s.params
  initFailed : s.drv.initFailed = true → t.drv.initFailed = true
  busMaster  : s.busMaster = true → t.busMaster = true
  log        : s.drv.log <+: t.drv.log
  trace      : s.trace <+: t.trace
  wireOut    : s.wireOut <+: t.wireOut
  published  : s.drv.published <+: t.drv.published

/-- `phys` is the launch's: it depends on the parameters alone (20_memory.md R102). -/
theorem State.phys_of_params {s t : State} (h : t.params = s.params) (va : Word) : t.phys va = s.phys va := by
  simp only [State.phys, State.rangeAt, h]

/-! ### What leaves the history -/

@[simp] theorem State.history_setNext (s : State) (t : Ring) : (s.setNext t).history = s.history := by cases t <;> rfl

@[simp] theorem State.history_setTailShadow (s : State) (t : Ring) (n : Nat) :
    (s.setTailShadow t n).history = s.history := by cases t <;> rfl

@[simp] theorem State.history_setCursor (s : State) (t : Ring) (c : Nat) : (s.setCursor t c).history = s.history := by
  cases t <;> rfl

@[simp] theorem history_claim (k : Nat) (s : State) : (claim k s).2.history = s.history := by
  unfold claim
  split <;> rfl

@[simp] theorem State.history_setCauseIf (s : State) (c : Bool) (k : Nat) : (s.setCauseIf c k).history = s.history := by
  cases c <;> rfl

@[simp] theorem State.history_rxStore (s : State) (f : List Byte) (b : Bool) (e : Byte) :
    (s.rxStore f b e).history = s.history := by
  rcases s.rxStore_cases f b e with ⟨_, h⟩ | ⟨_, h⟩ <;> rw [h] <;> rfl

@[simp] theorem history_eecStep (s : State) : (eecStep s).history = s.history := by
  unfold eecStep
  split
  · split <;> rfl
  · rfl

@[simp] theorem State.history_linkEval (s : State) : s.linkEval.history = s.history :=
  s.history_setCauseIf _ lsc

theorem history_writeReg {a : HostAgent} {r : Reg} {v : Word} {s t : State} (h : writeReg a r v s = .ok t) :
    t.history = s.history := by
  rw [writeReg_ok h]; rfl

theorem history_callAlloc {what : AllocFor} {s t : State} {p : List Micro} (h : callAlloc what s = .run t p) :
    t.history = s.history := by
  simp only [callAlloc] at h
  split at h <;> cases h
  cases what <;> rfl

@[simp] theorem history_cableStep (s : State) : (cableStep s).history = s.history :=
  State.history_linkEval { s with cable := !s.cable }

/-- The end of a TXE step: the write-back, the head and the causes. -/
theorem State.history_retired (s : State) (w : TxWork) (o : Collision) :
    ((s.txWriteBack w o).txRetire w).history = s.history := by
  simp only [State.txRetire, State.txCauses, State.history_setCauseIf, State.txWriteBack]
  split <;> rfl

@[simp] theorem State.history_rxRetire (s : State) (before m : Nat) : (s.rxRetire before m).history = s.history := by
  simp only [State.rxRetire, State.rxCauses, State.history_setCauseIf]
  rfl

/-! ### What extends it -/

namespace Grows

variable {s t u : State}

theorem refl (s : State) : Grows s s :=
  ⟨rfl, id, id, List.prefix_rfl, List.prefix_rfl, List.prefix_rfl, List.prefix_rfl⟩

/-- A change outside the history. -/
theorem of_history_eq (h : Grows s t) (e : u.history = t.history) : Grows s u := by
  obtain ⟨hparams, hfailed, hmaster, hlog, htrace, hwire, hpub⟩ := History.mk.inj e
  exact ⟨hparams ▸ h.params, hfailed ▸ h.initFailed, hmaster ▸ h.busMaster, hlog ▸ h.log, htrace ▸ h.trace,
    hwire ▸ h.wireOut, hpub ▸ h.published⟩

theorem addLog (h : Grows s t) (k : LogKind) (v : Nat) : Grows s (t.addLog k v) :=
  { h with log := h.log.trans (List.prefix_append _ _) }

theorem addTrace (h : Grows s t) (k : TraceCode) (v : Nat) : Grows s (t.addTrace k v) :=
  { h with trace := h.trace.trans (List.prefix_append _ _) }

theorem drop (h : Grows s t) (kind : LogKind) (code : TraceCode) (c : Nat) : Grows s (t.drop kind code c) := by
  refine addTrace (addLog (h.of_history_eq ?_) _ _) _ _
  cases kind <;> rfl

theorem publish (h : Grows s t) (e : Event) :
    Grows s { t with drv := { t.drv with published := t.drv.published ++ [e] } } :=
  { h with published := h.published.trans (List.prefix_append _ _) }

/-! ### The device's engines -/

theorem rxmacAccept (h : Grows s t) (env : Bool) (f : List Byte) (b : Bool) (e : Byte) :
    (rxmacAccept env f b e t).All (Grows s) := by
  rcases rxmacAccept_cases env f b e t with h1 | h1 | ⟨r, h1⟩ <;> rw [h1]
  · exact h
  · exact h.of_history_eq (t.history_rxStore f b e)
  · exact h

/-- TXE puts at most one frame behind those on the wire (46_dma_sequencer.md R415). -/
theorem emit (h : Grows s t) (f : List Byte) (o : Collision) : (emit f o t).All (Grows s) := by
  unfold Machine.emit loopFrame
  split
  · split
    · dsimp only
      split
      · refine rxmacAccept ?_ _ _ _ _
        exact h.of_history_eq rfl
      · exact h.of_history_eq rfl
    · exact h.rxmacAccept _ _ _ _
  · split
    · exact { h with wireOut := h.wireOut.trans (List.prefix_append _ _) }
    · exact h

theorem txeStep (h : Grows s t) (o : Collision) : (txeStep o t).All (Grows s) := by
  unfold Machine.txeStep
  split
  · split
    · exact h
    · rename_i w _
      exact Flow.all_andThen (h.emit _ _) fun u hu => hu.of_history_eq (u.history_retired w _)
  · exact h

theorem rxmacStep (h : Grows s t) (f : List Byte) (b : Bool) (e : Byte) : (rxmacStep f b e t).All (Grows s) := by
  unfold Machine.rxmacStep
  split
  · exact h
  · exact h.rxmacAccept _ _ _ _

theorem rxeStep (h : Grows s t) : (rxeStep t).All (Grows s) := by
  unfold Machine.rxeStep
  split
  · exact h
  · split
    · split
      · exact h
      · split
        · exact h
        · split
          · exact h
          · rename_i u hu
            exact h.of_history_eq (by rw [State.history_rxRetire, rxWriteChunks_ok hu]; rfl)
    · exact h

/-- Every primitive effect keeps or extends the history of a state before it. -/
theorem closed (s : State) : Closed (Grows s) fun _ => True where
  setWork _ _ _ h _ := h.of_history_eq rfl
  setRet _ _ _ h := h.of_history_eq rfl
  work _ _ _ _ _ := trivial
  frame _ _ := trivial
  turn _ _ _ _ _ h := h.of_history_eq rfl
  draw _ h := h.of_history_eq rfl
  raise _ _ h := h.of_history_eq rfl
  trace _ k v h := h.addTrace k v
  clearIcr _ h := h.of_history_eq rfl
  write _ _ _ _ _ h e := h.of_history_eq (history_writeReg e)
  regSet _ _ _ _ _ h := stage_all h (h.of_history_eq rfl)
  regDecide _ _ _ b _ h := by cases b <;> exact stage_all h (h.of_history_eq rfl)
  inConfirm _ _ _ h := h.of_history_eq rfl
  confirmed _ _ _ h := h.of_history_eq rfl
  objects _ h := h.of_history_eq rfl
  bytes _ _ _ h _ := h.of_history_eq rfl
  next t r h := h.of_history_eq (t.history_setNext r)
  moved _ _ _ := trivial
  tail t r n h _ := h.of_history_eq (t.history_setTailShadow r n)
  ringReady t r h := h.of_history_eq (by simp)
  snapshot _ _ h := h.of_history_eq rfl
  claim k t h := h.of_history_eq (history_claim k t)
  done _ h := h.of_history_eq rfl
  drop _ kind code c h _ _ := h.drop kind code c
  unhandled _ v h := h.addLog .unhandled v
  overrun _ h := by
    refine addLog ?_ _ _
    exact h.of_history_eq rfl
  push _ _ h _ := h.of_history_eq rfl
  pop _ _ _ h _ := h.of_history_eq rfl
  publish _ e h := h.publish e
  sendStart _ _ _ h := h.of_history_eq rfl
  sendEnd _ _ _ h := h.of_history_eq rfl
  busMaster _ h := { h with busMaster := fun _ => rfl }
  base _ _ h := h.of_history_eq rfl
  registered _ h := h.of_history_eq rfl
  irqAllowed _ h := h.of_history_eq rfl
  assigned _ h := h.of_history_eq rfl
  node _ _ h := h.of_history_eq rfl
  mac _ _ h := h.of_history_eq rfl
  initStep _ _ h := h.of_history_eq rfl
  failed _ h := { h with initFailed := fun _ => rfl }
  alloc _ _ _ _ h e := h.of_history_eq (history_callAlloc e)
  enter _ h := h.of_history_eq rfl
  leave _ h := h.of_history_eq rfl
  txe o _ h := h.txeStep o
  rxmac f b e _ h := h.rxmacStep f b e
  rxe _ h := h.rxeStep
  eec t h := h.of_history_eq (history_eecStep t)
  cable t h := h.of_history_eq (history_cableStep t)

end Grows

/-- Settles O60: every step lets the history grow at its end, and `phys` rests on the parameters. -/
theorem historyOnlyGrows : Obligations.HistoryOnlyGrows := by
  intro s t hstep
  obtain ⟨hparams, hfailed, hmaster, hlog, htrace, hwire, hpub⟩ := (Grows.closed s).step (Grows.refl s) hstep
  exact ⟨hparams, State.phys_of_params hparams, hfailed, hmaster, hlog, htrace, hwire, hpub⟩

end Sys2Proof.Machine
end

section
/-! SUPPORT. The device's invariant `State.DeviceInv`: what each register rule and each engine's step does to it. -/

namespace Sys2Proof.Machine

/-! ### Words under a mask (10_state.md R35 to R48) -/

/-- A word stored under a mask has no bit outside it. -/
theorem mask_and_eq_zero (v : Word) {m k : Word} (h : m &&& k = 0#32 := by decide) : v &&& m &&& k = 0#32 := by
  rw [BitVec.and_assoc, h, BitVec.and_zero]

/-- A word below 2^16 has no bit outside a mask of the low half. -/
theorem and_eq_zero_of_lt {v k : Word} (h : v.toNat < 2 ^ 16) (hk : 0x0000FFFF#32 &&& k = 0#32 := by decide) :
    v &&& k = 0#32 := by
  have hv : v = v &&& 0x0000FFFF#32 := by
    apply BitVec.eq_of_toNat_eq
    rw [BitVec.toNat_and, show (0x0000FFFF#32).toNat = 2 ^ 16 - 1 from rfl, Nat.and_two_pow_sub_one_eq_mod,
      Nat.mod_eq_of_lt h]
  rw [hv, mask_and_eq_zero v hk]

/-- A word without a bit outside a mask is at most the mask. -/
theorem toNat_le_of_and_not_eq_zero {v m : Word} (h : v &&& ~~~m = 0#32) : v.toNat ≤ m.toNat := by
  have hv : v = v &&& m := by
    ext i hi
    simpa [hi] using congrArg (·.getLsbD i) h
  rw [hv, BitVec.toNat_and]
  exact Nat.and_le_right

/-- Clearing bits of a word that keeps out of a mask. -/
theorem clear_and_eq_zero {v w k : Word} (h : v &&& k = 0#32) : v &&& w &&& k = 0#32 := by
  rw [BitVec.and_assoc, BitVec.and_comm w, ← BitVec.and_assoc, h, BitVec.zero_and]

/-- A bit joins a word that keeps out of a mask, where the bit does. -/
theorem or_and_eq_zero {v b k : Word} (h : v &&& k = 0#32) (hb : b &&& k = 0#32) : (v ||| b) &&& k = 0#32 := by
  rw [BitVec.and_or_distrib_right, h, hb]; rfl

/-! ### What a register write may do (40_mmio_registers.md R214 to R236) -/

/-- A control register's write: the fault of R214 and R216, or the value stored. -/
theorem writeRctl_all {P : State → Prop} {a : HostAgent} {v : Word} {s : State} (h : P s)
    (hw : P { s with regs := { s.regs with rctl := v } }) : (writeRctl a v s).All P := by
  unfold writeRctl
  split
  · exact h
  · exact hw

theorem writeTctl_all {P : State → Prop} {a : HostAgent} {v : Word} {s : State} (h : P s)
    (hw : P { s with regs := { s.regs with tctl := v } }) : (writeTctl a v s).All P := by
  unfold writeTctl
  split
  · exact h
  · exact hw

/-- A write that needs the engine off: the fault, or the write. -/
theorem whileDisabled_all {P : State → Prop} {a : HostAgent} {n : Nat} {r : Reg} {enabled : Bool} {s : State} {go : Flow}
    (h : P s) (hgo : go.All P) : (whileDisabled a n r enabled s go).All P := by
  unfold whileDisabled
  split
  · exact h
  · exact hgo

/-- A write of an index: the fault, or the write of its 16 bits. -/
theorem inRange_all {P : State → Prop} {a : HostAgent} {n k : Nat} {v : Word} {s : State} {go : Word → Flow} (h : P s)
    (hgo : (go (v &&& 0x0000FFFF#32)).All P) : (inRange a n k v s go).All P := by
  unfold inRange
  split
  · exact h
  · exact hgo

/-! ### The device (10_state.md R35 to R52) -/

namespace State.DeviceInv

variable {s t : State}

/-- Latching one of the causes that the device sets (R39). -/
theorem setCauseIf (h : s.DeviceInv) (c : Bool) (k : Nat) (hk : bit k &&& ~~~0xD7#32 = 0#32 := by decide) :
    (s.setCauseIf c k).DeviceInv := by
  cases c with
  | false => exact h
  | true => exact { h with causes := or_and_eq_zero h.causes hk }

/-- Evaluating the link settles `luPrev`, whatever it was (R52, 46_dma_sequencer.md R432). -/
theorem linkEval (h : ({ s with luPrev := s.lu } : State).DeviceInv) : s.linkEval.DeviceInv := by
  have heq : s.linkEval = ({ s with luPrev := s.lu } : State).setCauseIf (s.lu != s.luPrev) lsc := by
    unfold State.linkEval State.setCauseIf
    split <;> rfl
  rw [heq]
  exact h.setCauseIf _ _

/-- Device reset meets the invariant from every state (70_reset_and_hazards.md R491). -/
theorem deviceReset (s : State) : s.deviceReset.DeviceInv where
  rst := by simp [State.deviceReset, DevRegs.afterReset, bit]
  causes := BitVec.zero_and
  rdbal := mask_and_eq_zero _
  tdbal := mask_and_eq_zero _
  rdlen := BitVec.zero_and
  tdlen := BitVec.zero_and
  rdh := BitVec.zero_and
  rdt := BitVec.zero_and
  tdh := BitVec.zero_and
  tdt := BitVec.zero_and
  rah0 := by
    refine or_and_eq_zero (by decide) (and_eq_zero_of_lt ?_)
    rw [BitVec.toNat_setWidth]
    exact Nat.lt_of_le_of_lt (Nat.mod_le _ _) (BitVec.isLt _)
  link := rfl
  fifo := Nat.zero_le _
  eeprom h := nomatch h
  eeAddr _ := (by decide : (0#14).toNat < 256)

/-- Storing a frame keeps the FIFO within its capacity (R50, 46_dma_sequencer.md R418, R419). -/
theorem rxStore (h : s.DeviceInv) (f : List Byte) (b : Bool) (e : Byte) : (s.rxStore f b e).DeviceInv := by
  rcases s.rxStore_cases f b e with ⟨_, hst⟩ | ⟨hcap, hst⟩ <;> rw [hst]
  · exact h.setCauseIf true rxo
  · refine { h with fifo := ?_ }
    have hle := h.fifo
    rw [List.length_append, List.length_singleton]
    exact Nat.lt_of_le_of_ne hle hcap

/-- A ring the device knows has fewer than 2^16 descriptors: its length register is below 2^20 (R46). -/
theorem ndev_lt (h : s.DeviceInv) (r : Ring) : s.ndev r < 2 ^ 16 := by
  have hbound : (0x000FFF80#32).toNat = 0xFFF80 := rfl
  cases r with
  | tx => have := toNat_le_of_and_not_eq_zero h.tdlen; simp only [State.ndev]; omega
  | rx => have := toNat_le_of_and_not_eq_zero h.rdlen; simp only [State.ndev]; omega

/-- An index of a ring the device knows is a 16-bit head (R47). -/
theorem index_masked (h : s.DeviceInv) {r : Ring} (hn : 0 < s.ndev r) (i : Nat) :
    BitVec.ofNat 32 (i % s.ndev r) &&& ~~~0x0000FFFF#32 = 0#32 := by
  refine and_eq_zero_of_lt ?_
  rw [BitVec.toNat_ofNat]
  exact Nat.lt_of_le_of_lt (Nat.mod_le _ _) (Nat.lt_trans (Nat.mod_lt _ hn) (h.ndev_lt r))

/-- The head moves and the causes are latched (46_dma_sequencer.md R412, R414). -/
theorem txRetire (h : s.DeviceInv) (hn : 0 < s.ndev .tx) (w : TxWork) : (s.txRetire w).DeviceInv := by
  have hhead : State.DeviceInv { s with
      regs := { s.regs with tdh := BitVec.ofNat 32 (nextIndex (s.head .tx) (s.ndev .tx)) } } :=
    { h with tdh := h.index_masked hn _ }
  exact (hhead.setCauseIf _ txdw).setCauseIf _ txqe

/-- The head moves, the frame leaves the FIFO and the causes are latched (46_dma_sequencer.md R421, R425). -/
theorem rxRetire (h : s.DeviceInv) (hn : 0 < s.ndev .rx) (before m : Nat) : (s.rxRetire before m).DeviceInv := by
  have hhead : State.DeviceInv { s with
      regs := { s.regs with rdh := BitVec.ofNat 32 ((s.head .rx + m) % s.ndev .rx) }
      rxFifo := s.rxFifo.tail } :=
    { h with
      rdh := h.index_masked hn _
      fifo := Nat.le_trans (by rw [List.length_tail]; exact Nat.sub_le _ _) h.fifo }
  exact (hhead.setCauseIf true rxt0).setCauseIf _ rxdmt0

/-- An EEPROM read that ends is done and no longer busy (R51, 46_dma_sequencer.md R431). -/
theorem eecStep (h : s.DeviceInv) : (eecStep s).DeviceInv := by
  unfold Machine.eecStep
  split
  · split <;> exact { h with eeprom := nofun }
  · exact h

/-! Writes of a register (40_mmio_registers.md R202 to R240). -/

/-- A CTRL write stores no RST, and evaluates the link (R202). -/
theorem writeCtrl (h : s.DeviceInv) (v : Word) : (writeCtrl v s).All State.DeviceInv := by
  unfold Machine.writeCtrl
  split
  · exact linkEval (deviceReset s)
  · rename_i hrst
    exact linkEval { h with rst := by simpa using hrst, link := rfl }


/-- The address that a write of EERD stores fits its layout (R38, R206). -/
theorem eerdAddr_lt (v : Word) : (eerdAddr .l540 v).toNat < 256 := by
  simp only [eerdAddr, BitVec.toNat_setWidth, BitVec.extractLsb'_toNat]
  omega

/-- An EERD write starts a read or stores its address (R206). -/
theorem writeEerd (h : s.DeviceInv) (a : HostAgent) (v : Word) : (writeEerd a v s).All State.DeviceInv := by
  have haddr : s.layout = .l540 → (eerdAddr s.layout v).toNat < 256 := fun hl => hl ▸ eerdAddr_lt v
  unfold Machine.writeEerd
  split
  · split
    · exact h
    · exact { h with eeprom := fun _ => rfl, eeAddr := haddr }
  · exact { h with eeAddr := haddr }

/-- Every register's write rule keeps the device's invariant. -/
theorem writeRule (h : s.DeviceInv) (a : HostAgent) (r : Reg) (v : Word) : (writeRule a r v s).All State.DeviceInv := by
  unfold Machine.writeRule
  cases r with
  | ctrl => exact h.writeCtrl v
  | status => exact h
  | eerd => exact h.writeEerd a v
  | icr => exact { h with causes := clear_and_eq_zero h.causes }
  | ims | imc | ral0 => exact { h with }
  | rctl => exact writeRctl_all h { h with }
  | tctl => exact writeTctl_all h { h with }
  | rdbal => exact whileDisabled_all h { h with rdbal := mask_and_eq_zero v }
  | rdbah | tdbah => exact whileDisabled_all h { h with }
  | rdlen => exact whileDisabled_all h { h with rdlen := mask_and_eq_zero v }
  | rdh =>
    refine whileDisabled_all h (inRange_all h ?_)
    exact { h with rdh := mask_and_eq_zero v }
  | rdt =>
    refine inRange_all h ?_
    exact { h with rdt := mask_and_eq_zero v }
  | tdbal => exact whileDisabled_all h { h with tdbal := mask_and_eq_zero v }
  | tdlen => exact whileDisabled_all h { h with tdlen := mask_and_eq_zero v }
  | tdh =>
    refine whileDisabled_all h (inRange_all h ?_)
    exact { h with tdh := mask_and_eq_zero v }
  | tdt =>
    refine inRange_all h ?_
    exact { h with tdt := mask_and_eq_zero v }
  | rah0 => exact { h with rah0 := mask_and_eq_zero v }

theorem writeReg (h : s.DeviceInv) {a : HostAgent} {r : Reg} {v : Word} (e : writeReg a r v s = .ok t) : t.DeviceInv := by
  have hall : (Machine.writeReg a r v s).All State.DeviceInv := by
    unfold Machine.writeReg
    split
    · exact h
    · exact h.writeRule a r v
  rwa [e] at hall

end State.DeviceInv
end Sys2Proof.Machine
end

section
/-! SUPPORT. The invariants of the mapper and the driver, what each effect does to the one it reaches, and the part of the state
that each invariant reads. -/

namespace Sys2Proof.Machine

/-! ### Register objects (10_state.md R60, 41_register_mapper.md R260 to R262) -/

/-- What `State.MapperInv` says of one Register object. -/
def RegObj.Inv (o : RegObj) : Prop :=
  o.onMask &&& o.offMask = 0#32 ∧ (o.stagedBy = none ↔ o.onMask = 0#32 ∧ o.offMask = 0#32)

namespace RegObj

variable {o : RegObj}

/-- Staging gives the masks an owner exactly where one is not empty. -/
theorem inv_withMasks {on off : Word} (a : HostAgent) (h : on &&& off = 0#32) : (o.withMasks a on off).Inv := by
  refine ⟨h, ?_⟩
  show (if on = 0#32 ∧ off = 0#32 then none else some a) = none ↔ on = 0#32 ∧ off = 0#32
  split
  · rename_i hempty; exact ⟨fun _ => hempty, fun _ => rfl⟩
  · rename_i hsome; exact ⟨nofun, fun hempty => absurd hempty hsome⟩

/-- The masks after a set are disjoint: under the mask one is the complement of the other, elsewhere both are as they were. -/
theorem set_disjoint {on off : Word} (h : on &&& off = 0#32) (v m : Word) :
    ((on &&& ~~~m) ||| (v &&& m)) &&& ((off &&& ~~~m) ||| (~~~v &&& m)) = 0#32 := by
  ext i hi
  have hbit := congrArg (·[i]) h
  simp only [BitVec.getElem_and, BitVec.getElem_or, BitVec.getElem_not, BitVec.getElem_zero] at hbit ⊢
  cases v[i] <;> cases m[i] <;> simp [hbit]

/-- The masks after a decision to enable are disjoint. -/
theorem decide_disjoint {on off : Word} (h : on &&& off = 0#32) (v : Word) : (on ||| v) &&& (off &&& ~~~v) = 0#32 := by
  ext i hi
  have hbit := congrArg (·[i]) h
  simp only [BitVec.getElem_and, BitVec.getElem_or, BitVec.getElem_not, BitVec.getElem_zero] at hbit ⊢
  cases v[i] <;> simp [hbit]

theorem inv_empty : RegObj.empty.Inv := ⟨BitVec.zero_and, by simp [RegObj.empty]⟩

theorem inv_confirmed (a : HostAgent) : (o.confirmed a).Inv := ⟨BitVec.zero_and, by simp [RegObj.confirmed]⟩

end RegObj

namespace State.MapperInv

variable {s : State}

/-- Replacing one Register object by another that is in order. -/
theorem setRegObj (h : s.MapperInv) (r : Reg) {o : RegObj} (ho : o.Inv) : (s.setRegObj r o).MapperInv := by
  intro q
  by_cases hq : q = r
  · subst hq; rw [State.regObj_setRegObj]; exact ho
  · rw [State.regObj_setRegObj_ne s o hq]; exact h q

end State.MapperInv

/-! ### The driver's records (10_state.md R61, R64, R72) -/

@[simp] theorem State.logged_addLog (s : State) (kind : LogKind) (v : Nat) (k : LogKind) :
    (s.addLog kind v).logged k = s.logged k + if kind = k then 1 else 0 := by
  simp only [State.logged, State.addLog, List.filter_append, List.length_append]
  congr 1
  by_cases hk : kind = k <;> simp [hk]

@[simp] theorem State.logged_drop (s : State) (kind : LogKind) (code : TraceCode) (c : Nat) (k : LogKind) :
    (s.drop kind code c).logged k = s.logged k + if kind = k then 1 else 0 := by
  rw [← State.logged_addLog s kind c k]
  cases kind <;> rfl

/-! Dropping a descriptor adds one to the counter of its kind (R355). -/

@[simp] theorem State.drop_dropRunt (s : State) (kind : LogKind) (code : TraceCode) (c : Nat) :
    (s.drop kind code c).drv.dropRunt = s.drv.dropRunt + if kind = .dropRunt then 1 else 0 := by cases kind <;> rfl

@[simp] theorem State.drop_dropNotEop (s : State) (kind : LogKind) (code : TraceCode) (c : Nat) :
    (s.drop kind code c).drv.dropNotEop = s.drv.dropNotEop + if kind = .dropNotEop then 1 else 0 := by cases kind <;> rfl

@[simp] theorem State.drop_dropErrors (s : State) (kind : LogKind) (code : TraceCode) (c : Nat) :
    (s.drop kind code c).drv.dropErrors = s.drv.dropErrors + if kind = .dropErrors then 1 else 0 := by cases kind <;> rfl

@[simp] theorem State.drop_dropQueueFull (s : State) (kind : LogKind) (code : TraceCode) (c : Nat) :
    (s.drop kind code c).drv.dropQueueFull = s.drv.dropQueueFull + if kind = .dropQueueFull then 1 else 0 := by
  cases kind <;> rfl

@[simp] theorem State.drop_overrunCount (s : State) (kind : LogKind) (code : TraceCode) (c : Nat) :
    (s.drop kind code c).drv.overrunCount = s.drv.overrunCount := by cases kind <;> rfl

@[simp] theorem State.drop_snap (s : State) (kind : LogKind) (code : TraceCode) (c : Nat) :
    (s.drop kind code c).drv.snap = s.drv.snap := by cases kind <;> rfl

@[simp] theorem State.drop_icState (s : State) (kind : LogKind) (code : TraceCode) (c : Nat) :
    (s.drop kind code c).drv.icState = s.drv.icState := by cases kind <;> rfl

namespace State.DriverInv

variable {s : State}

/-- A dropped descriptor is counted and logged once, as the same kind. -/
theorem drop (h : s.DriverInv) {kind : LogKind} (hk : kind ≠ .overrun) (code : TraceCode) (c : Nat) :
    (s.drop kind code c).DriverInv where
  snap := by simpa using h.snap
  overrunCount := by simp [hk, h.overrunCount]
  dropRunt := by simp [h.dropRunt]
  dropNotEop := by simp [h.dropNotEop]
  dropErrors := by simp [h.dropErrors]
  dropQueueFull := by simp [h.dropQueueFull]

/-- An unhandled cause is logged and not counted (42_interrupt_cause.md R307). -/
theorem unhandled (h : s.DriverInv) (v : Nat) : (s.addLog .unhandled v).DriverInv where
  snap := h.snap
  overrunCount := by simpa using h.overrunCount
  dropRunt := by simpa using h.dropRunt
  dropNotEop := by simpa using h.dropNotEop
  dropErrors := by simpa using h.dropErrors
  dropQueueFull := by simpa using h.dropQueueFull

/-- An overrun is counted and logged once (45_core.md R387). -/
theorem overrun (h : s.DriverInv) : State.DriverInv
    ({ s with drv := { s.drv with overrunCount := s.drv.overrunCount + 1 } }.addLog .overrun (s.drv.overrunCount + 1)) where
  snap := h.snap
  overrunCount := by rw [State.logged_addLog]; exact congrArg (· + 1) h.overrunCount
  dropRunt := by rw [State.logged_addLog]; exact h.dropRunt
  dropNotEop := by rw [State.logged_addLog]; exact h.dropNotEop
  dropErrors := by rw [State.logged_addLog]; exact h.dropErrors
  dropQueueFull := by rw [State.logged_addLog]; exact h.dropQueueFull

/-- A snapshot loses bits while it is handled, and an idle decoder keeps none (42_interrupt_cause.md R302). -/
theorem claim (h : s.DriverInv) (k : Nat) : (claim k s).2.DriverInv := by
  unfold Machine.claim
  split
  · exact h
  · rename_i hic
    exact { h with snap := fun hidle => absurd (hic.symm.trans hidle) nofun }

end State.DriverInv

/-! ### Cursors, tails and Q (10_state.md R62, R63) -/

/-- A frame that will store a tail will store an index of its ring. -/
def State.FrameIn (s : State) (m : Micro) : Prop := ∀ t n, m = .tailEnd t n → n < s.ringSize t

theorem nextIndex_lt {i n : Nat} (h : i < n) : nextIndex i n < n := Nat.mod_lt _ (Nat.zero_lt_of_lt h)

/-- After an agent's work was replaced, a frame left to do is one of the new ones or was left to do before. -/
theorem State.mem_work_setWork {s : State} {a b : HostAgent} {w : List Micro} {m : Micro} (h : m ∈ (s.setWork a w).work b) :
    m ∈ w ∨ m ∈ s.work b := by
  by_cases hb : b = a
  · subst hb; rw [State.work_setWork] at h; exact .inl h
  · simp only [State.work, State.setWork, ByAgent.get_set_ne _ _ hb] at h; exact .inr h

namespace State.RingInv

variable {s : State}

theorem tailShadow_lt (h : s.RingInv) (t : Ring) : s.tailShadow t < s.ringSize t := by
  cases t
  · exact h.txTail
  · exact h.rxTail

theorem setWork (h : s.RingInv) (a : HostAgent) {w : List Micro} (hw : ∀ m ∈ w, s.FrameIn m) : (s.setWork a w).RingInv :=
  { h with
    tails := fun b t n hm => (State.mem_work_setWork hm).elim (fun hm => hw _ hm t n rfl) (h.tails b t n) }

theorem setNext (h : s.RingInv) (t : Ring) : (s.setNext t).RingInv := by
  cases t
  · exact { h with txCur := nextIndex_lt h.txCur }
  · exact { h with rxCur := nextIndex_lt h.rxCur }

theorem setTailShadow (h : s.RingInv) {t : Ring} {n : Nat} (hn : n < s.ringSize t) : (s.setTailShadow t n).RingInv := by
  cases t
  · exact { h with txTail := hn }
  · exact { h with rxTail := hn }

/-- `hwring.init` starts at index 0, and leaves an index of the ring as its tail (43_descriptors.md R341, R342). -/
theorem ringReady (h : s.RingInv) (t : Ring) : ((s.setTailShadow t (s.initialTail t)).setCursor t 0).RingInv := by
  cases t
  · exact { h with txTail := Nat.zero_lt_of_lt h.txCur, txCur := Nat.zero_lt_of_lt h.txCur }
  · exact { h with
      rxTail := Nat.sub_lt (Nat.zero_lt_of_lt h.rxCur) Nat.one_pos
      rxCur := Nat.zero_lt_of_lt h.rxCur }

/-- A push to a `Q` that is not full (R63). -/
theorem push (h : s.RingInv) (hq : s.drv.queue.length < s.params.qCap) {e : QEntry} :
    State.RingInv { s with drv := { s.drv with queue := s.drv.queue ++ [e] } } :=
  { h with queue := by rw [List.length_append, List.length_singleton]; exact hq }

theorem pop (h : s.RingInv) {e : QEntry} {q : List QEntry} (hq : s.drv.queue = e :: q) :
    State.RingInv { s with drv := { s.drv with queue := q } } := by
  have hlen := h.queue
  rw [hq, List.length_cons] at hlen
  exact { h with queue := Nat.le_of_succ_le hlen }

end State.RingInv

/-! ### The part of the state that each invariant reads -/

/-- What `State.DeviceInv` reads. -/
structure DevicePart where
  params : Params
  regs   : DevRegs
  rxFifo : List RxFrame
  ee     : Eeprom
  luPrev : Bool
  cable  : Bool

/-- What `State.DriverInv` reads. -/
structure RecordPart where
  icState       : IcState
  snap          : Word
  overrunCount  : Nat
  dropRunt      : Nat
  dropNotEop    : Nat
  dropErrors    : Nat
  dropQueueFull : Nat
  log           : List LogRecord

/-- What `State.RingInv` reads. -/
structure RingPart where
  params : Params
  txCur  : Nat
  txTail : Nat
  rxCur  : Nat
  rxTail : Nat
  queue  : List QEntry
  work   : ByAgent (List Micro)

/-- What the invariants read. -/
structure InvParts where
  mem     : Memory
  device  : DevicePart
  mapper  : PerReg RegObj
  records : RecordPart
  rings   : RingPart

def State.devicePart (s : State) : DevicePart := ⟨s.params, s.regs, s.rxFifo, s.ee, s.luPrev, s.cable⟩

def State.recordPart (s : State) : RecordPart :=
  ⟨s.drv.icState, s.drv.snap, s.drv.overrunCount, s.drv.dropRunt, s.drv.dropNotEop, s.drv.dropErrors, s.drv.dropQueueFull,
    s.drv.log⟩

def State.ringPart (s : State) : RingPart :=
  ⟨s.params, s.drv.txCur, s.drv.txTail, s.drv.rxCur, s.drv.rxTail, s.drv.queue, ⟨s.work .host, s.work .isr, s.work .bh⟩⟩

def State.invParts (s : State) : InvParts := ⟨s.mem, s.devicePart, s.mapper, s.recordPart, s.ringPart⟩

section
variable {s t : State}

theorem State.DeviceInv.of_part (h : s.DeviceInv) (e : t.devicePart = s.devicePart) : t.DeviceInv := by
  cases s; cases t
  obtain ⟨rfl, rfl, rfl, rfl, rfl, rfl⟩ := DevicePart.mk.inj e
  exact { h with }

theorem State.MapperInv.of_part (h : s.MapperInv) (e : t.mapper = s.mapper) : t.MapperInv := fun r => by
  have hobj : t.regObj r = s.regObj r := congrArg (·.get r) e
  rw [hobj]
  exact h r

theorem State.DriverInv.of_part (h : s.DriverInv) (e : t.recordPart = s.recordPart) : t.DriverInv := by
  obtain ⟨hic, hsnap, hover, hrunt, heop, herr, hfull, hlog⟩ := RecordPart.mk.inj e
  have hlogged : ∀ k, t.logged k = s.logged k := fun k => by rw [State.logged, hlog, State.logged]
  exact ⟨hic ▸ hsnap ▸ h.snap, by rw [hover, hlogged, h.overrunCount], by rw [hrunt, hlogged, h.dropRunt],
    by rw [heop, hlogged, h.dropNotEop], by rw [herr, hlogged, h.dropErrors], by rw [hfull, hlogged, h.dropQueueFull]⟩

theorem State.RingInv.of_part (h : s.RingInv) (e : t.ringPart = s.ringPart) : t.RingInv := by
  obtain ⟨hp, htc, htt, hrc, hrt, hq, hw⟩ := RingPart.mk.inj e
  obtain ⟨hhost, hisr, hbh⟩ := ByAgent.mk.inj hw
  have hwork : ∀ a, t.work a = s.work a := fun a => by cases a <;> assumption
  have hsize : ∀ r, t.ringSize r = s.ringSize r := fun r => by cases r <;> simp only [State.ringSize, hp]
  exact ⟨by rw [htc, hp]; exact h.txCur, by rw [htt, hp]; exact h.txTail, by rw [hrc, hp]; exact h.rxCur,
    by rw [hrt, hp]; exact h.rxTail, fun a r n hm => by rw [hsize]; exact h.tails a r n (hwork a ▸ hm),
    by rw [hq, hp]; exact h.queue⟩

end

end Sys2Proof.Machine
end

section
/-! PROOF of `StepKeepsMemoryForm`, `StepKeepsDeviceInvariant` and `StepKeepsHostInvariants`: every primitive effect changes
the part of the state that one invariant reads (an engine's step also memory), and keeps that invariant; so every step keeps
each of them (`Closed`). -/

namespace Sys2Proof.Machine

/-- The invariants that held of `s` hold of `t`, under the same launch parameters. -/
structure Kept (s t : State) : Prop where
  params : t.params = s.params
  memory : s.mem.wf = true → t.mem.wf = true
  device : s.DeviceInv → t.DeviceInv
  mapper : s.MapperInv → t.MapperInv
  driver : s.DriverInv → t.DriverInv
  rings  : s.RingInv → t.RingInv

namespace Kept

variable {s t u : State}

theorem refl (s : State) : Kept s s := ⟨rfl, id, id, id, id, id⟩

theorem ringSize (h : Kept s t) (r : Ring) : t.ringSize r = s.ringSize r := by
  cases r <;> simp only [State.ringSize, h.params]

/-! ### A change of one part -/

/-- A change of the device and of memory. -/
theorem of_engine (h : Kept s t) (e : u.invParts = { t.invParts with mem := u.mem, device := u.devicePart })
    (hmem : t.mem.wf = true → u.mem.wf = true) (hdev : t.DeviceInv → u.DeviceInv) : Kept s u := by
  obtain ⟨-, -, hmap, hrec, hring⟩ := InvParts.mk.inj e
  exact ⟨(congrArg RingPart.params hring).trans h.params, hmem ∘ h.memory, hdev ∘ h.device, fun hs => (h.mapper hs).of_part hmap,
    fun hs => (h.driver hs).of_part hrec, fun hs => (h.rings hs).of_part hring⟩

theorem of_device (h : Kept s t) (e : u.invParts = { t.invParts with device := u.devicePart })
    (hdev : t.DeviceInv → u.DeviceInv) : Kept s u := by
  have hmem : u.mem = t.mem := congrArg InvParts.mem e
  exact h.of_engine (hmem ▸ e) (fun ht => hmem ▸ ht) hdev

theorem of_memory (h : Kept s t) (e : u.invParts = { t.invParts with mem := u.mem })
    (hmem : t.mem.wf = true → u.mem.wf = true) : Kept s u := by
  have hdev : u.devicePart = t.devicePart := congrArg InvParts.device e
  exact h.of_engine (hdev ▸ e) hmem fun ht => ht.of_part hdev

/-- A change that no invariant reads. -/
theorem of_eq (h : Kept s t) (e : u.invParts = t.invParts) : Kept s u := by
  have hmem : u.mem = t.mem := congrArg InvParts.mem e
  exact h.of_memory (hmem ▸ e) fun ht => hmem ▸ ht

theorem of_mapper (h : Kept s t) (e : u.invParts = { t.invParts with mapper := u.mapper })
    (hmap : t.MapperInv → u.MapperInv) : Kept s u := by
  obtain ⟨hmem, hdev, -, hrec, hring⟩ := InvParts.mk.inj e
  exact ⟨(congrArg RingPart.params hring).trans h.params, fun hs => hmem ▸ h.memory hs, fun hs => (h.device hs).of_part hdev,
    hmap ∘ h.mapper, fun hs => (h.driver hs).of_part hrec, fun hs => (h.rings hs).of_part hring⟩

theorem of_driver (h : Kept s t) (e : u.invParts = { t.invParts with records := u.recordPart })
    (hdrv : t.DriverInv → u.DriverInv) : Kept s u := by
  obtain ⟨hmem, hdev, hmap, -, hring⟩ := InvParts.mk.inj e
  exact ⟨(congrArg RingPart.params hring).trans h.params, fun hs => hmem ▸ h.memory hs, fun hs => (h.device hs).of_part hdev,
    fun hs => (h.mapper hs).of_part hmap, hdrv ∘ h.driver, fun hs => (h.rings hs).of_part hring⟩

/-- A change of the cursors, the tails, Q or the work left to do: what the new values rest on may be known of `s`. -/
theorem of_rings (h : Kept s t) (e : u.invParts = { t.invParts with rings := u.ringPart })
    (hring : s.RingInv → u.RingInv) : Kept s u := by
  obtain ⟨hmem, hdev, hmap, hrec, -⟩ := InvParts.mk.inj e
  exact ⟨(congrArg DevicePart.params hdev).trans h.params, fun hs => hmem ▸ h.memory hs, fun hs => (h.device hs).of_part hdev,
    fun hs => (h.mapper hs).of_part hmap, fun hs => (h.driver hs).of_part hrec, hring⟩

/-! ### Effects of the host -/

theorem setRet (h : Kept s t) (a : HostAgent) (r : Ret) : Kept s (t.setRet a r) := h.of_eq (by cases a <;> rfl)

/-- A frame that fits the rings of `s` fits those of `t`. -/
theorem frameIn (h : Kept s t) {m : Micro} (hm : s.FrameIn m) : t.FrameIn m := fun r n e =>
  h.ringSize r ▸ hm r n e

theorem setWork (h : Kept s t) (a : HostAgent) {w : List Micro} (hw : ∀ m ∈ w, s.RingInv → s.FrameIn m) :
    Kept s (t.setWork a w) :=
  h.of_rings rfl fun hs => (h.rings hs).setWork a fun m hm => h.frameIn (hw m hm hs)

theorem setTailShadow (h : Kept s t) (r : Ring) (n : Nat) (hn : s.RingInv → s.FrameIn (.tailEnd r n)) :
    Kept s (t.setTailShadow r n) :=
  h.of_rings (by cases r <;> rfl) fun hs => (h.rings hs).setTailShadow (h.frameIn (hn hs) r n rfl)

theorem putBytes (h : Kept s t) (a : Nat) (bs : List Byte) : Kept s (t.putBytes a bs) :=
  h.of_memory rfl Memory.wf_writeBytes

theorem setRegObj (h : Kept s t) (r : Reg) {o : RegObj} (ho : (t.regObj r).Inv → o.Inv) : Kept s (t.setRegObj r o) :=
  h.of_mapper rfl fun ht => ht.setRegObj r (ho (ht r))

theorem stage (h : Kept s t) (a : HostAgent) (r : Reg) {on off : Word}
    (hd : (t.regObj r).onMask &&& (t.regObj r).offMask = 0#32 → on &&& off = 0#32) :
    (stage a r on off t).All (Kept s) :=
  stage_all h <| h.setRegObj r fun ho => by
    obtain ⟨hdisjoint, _⟩ := ho
    exact RegObj.inv_withMasks a (hd hdisjoint)

theorem regSet (h : Kept s t) (a : HostAgent) (r : Reg) (v m : Word) : (regSet a r v m t).All (Kept s) :=
  h.stage a r fun hd => RegObj.set_disjoint hd v m

theorem regDecide (h : Kept s t) (a : HostAgent) (r : Reg) (v : Word) (b : Bool) : (regDecide a r v b t).All (Kept s) := by
  cases b with
  | true => exact h.stage a r fun hd => RegObj.decide_disjoint hd v
  | false =>
    refine h.stage a r fun hd => ?_
    rw [BitVec.and_comm] at hd ⊢
    exact RegObj.decide_disjoint hd v

/-- An allocation changes memory, and what no invariant reads (45_core.md R380). -/
theorem callAlloc (h : Kept s t) {what : AllocFor} {p : List Micro} (e : callAlloc what t = .run u p) : Kept s u := by
  simp only [Machine.callAlloc] at e
  split at e <;> cases e
  refine putBytes (h.of_eq ?_) _ _
  cases what <;> rfl

/-! ### The device's engines -/

theorem writeReg (h : Kept s t) {a : HostAgent} {r : Reg} {v : Word} (e : writeReg a r v t = .ok u) : Kept s u :=
  h.of_device (by rw [writeReg_ok e]; rfl) fun ht => ht.writeReg e

theorem rxmacAccept (h : Kept s t) (env : Bool) (f : List Byte) (b : Bool) (x : Byte) :
    (rxmacAccept env f b x t).All (Kept s) := by
  rcases rxmacAccept_cases env f b x t with e | e | ⟨r, e⟩ <;> rw [e]
  · exact h
  · refine h.of_device ?_ fun ht => ht.rxStore f b x
    rcases t.rxStore_cases f b x with ⟨_, hst⟩ | ⟨_, hst⟩ <;> rw [hst] <;> rfl
  · exact h

theorem emit (h : Kept s t) (f : List Byte) (o : Collision) : (emit f o t).All (Kept s) := by
  unfold Machine.emit loopFrame
  split
  · split
    · dsimp only
      split
      · refine rxmacAccept ?_ _ _ _ _
        exact h.of_eq rfl
      · exact h.of_eq rfl
    · exact h.rxmacAccept _ _ _ _
  · split
    · exact h.of_eq rfl
    · exact h

theorem txRetire (h : Kept s t) (hn : 0 < t.ndev .tx) (w : TxWork) : Kept s (t.txRetire w) :=
  h.of_device (by simp only [State.txRetire, State.txCauses, State.setCauseIf_eq]; rfl) fun ht => ht.txRetire hn w

theorem rxRetire (h : Kept s t) (hn : 0 < t.ndev .rx) (before m : Nat) : Kept s (t.rxRetire before m) :=
  h.of_device (by simp only [State.rxRetire, State.rxCauses, State.setCauseIf_eq]; rfl) fun ht => ht.rxRetire hn before m

theorem txeStep (h : Kept s t) (o : Collision) : (txeStep o t).All (Kept s) := by
  unfold Machine.txeStep
  split
  · rename_i hen
    have hn : 0 < t.ndev .tx := by
      simp only [State.txeEnabled, Bool.and_eq_true, decide_eq_true_eq] at hen
      omega
    split
    · exact h
    · rename_i w _
      dsimp only
      generalize (if t.lbm = 3 then Collision.none else o) = out
      have hemit := h.emit (txFrame (t.regs.tctl.getLsbD 3) w.cmd w.buf) out
      cases e : Machine.emit (txFrame (t.regs.tctl.getLsbD 3) w.cmd w.buf) out t with
      | raised u f => exact absurd e emit_not_raised
      | ok u =>
        rw [e] at hemit
        have hu : u.ndev .tx = t.ndev .tx := by rw [emit_ok e]; rfl
        obtain ⟨hback, hring⟩ : Kept s (u.txWriteBack w out) ∧ (u.txWriteBack w out).ndev .tx = u.ndev .tx := by
          unfold State.txWriteBack
          split
          · exact ⟨putBytes hemit _ _, rfl⟩
          · exact ⟨hemit, rfl⟩
        exact hback.txRetire (by rw [hring, hu]; exact hn) w
  · exact h

theorem rxmacStep (h : Kept s t) (f : List Byte) (b : Bool) (x : Byte) : (rxmacStep f b x t).All (Kept s) := by
  unfold Machine.rxmacStep
  split
  · exact h
  · exact h.rxmacAccept _ _ _ _

/-- RXE's chunks are stored as bytes are. -/
theorem wf_rxWriteChunks {err : Byte} {bytes : List Byte} {b m k j : Nat}
    (e : rxWriteChunks err bytes b m k j t = .ok u) (ht : t.mem.wf = true) : u.mem.wf = true := by
  induction k generalizing j t with
  | zero => simp only [rxWriteChunks] at e; cases e; exact ht
  | succ k ih =>
    simp only [rxWriteChunks] at e
    split at e
    · cases e
    · rename_i v hv
      refine ih e ?_
      simp only [rxWriteChunk] at hv
      split at hv <;> cases hv
      exact Memory.wf_writeBytes (Memory.wf_writeBytes ht)

theorem rxeStep (h : Kept s t) : (rxeStep t).All (Kept s) := by
  unfold Machine.rxeStep
  split
  · exact h
  · rename_i hfifo
    split
    · rename_i hen
      have hn : 0 < t.ndev .rx := by
        simp only [State.rxeEnabled, hfifo, Bool.and_eq_true, decide_eq_true_eq] at hen
        omega
      split
      · exact h
      · split
        · exact h
        · split
          · exact h
          · rename_i u hu
            have hchunks : u = { t with mem := u.mem, draws := u.draws } := rxWriteChunks_ok hu
            have hkept : Kept s u := h.of_memory (by rw [hchunks]; rfl) (wf_rxWriteChunks hu)
            have hring : u.ndev .rx = t.ndev .rx := by rw [hchunks]; rfl
            exact hkept.rxRetire (hring ▸ hn) _ _
    · exact h

theorem eecStep (h : Kept s t) : Kept s (eecStep t) := by
  refine h.of_device ?_ fun ht => ht.eecStep
  unfold Machine.eecStep
  split
  · split <;> rfl
  · rfl

theorem cableStep (h : Kept s t) : Kept s (cableStep t) :=
  h.of_device (by simp only [Machine.cableStep, State.linkEval, State.setCauseIf_eq]; rfl) fun ht =>
    .linkEval { ht with link := rfl }

/-- Every primitive effect keeps the invariants that hold of a state before it. -/
theorem closed (s : State) : Closed (Kept s) fun m => s.RingInv → s.FrameIn m where
  setWork _ a _ h hw := h.setWork a hw
  setRet _ a r h := h.setRet a r
  work t a m h hm hs r n e := by
    subst e
    exact h.ringSize r ▸ (h.rings hs).tails a r n hm
  frame _ hm _ r n e := absurd e (hm r n)
  turn _ _ _ _ _ h := h.of_eq rfl
  draw _ h := h.of_eq rfl
  raise _ _ h := h.of_eq rfl
  trace _ _ _ h := h.of_eq rfl
  clearIcr _ h := h.of_device rfl fun ht => { ht with causes := BitVec.zero_and }
  write _ _ _ _ _ h e := h.writeReg e
  regSet a r v m _ h := h.regSet a r v m
  regDecide a r v b _ h := h.regDecide a r v b
  inConfirm _ r _ h := h.setRegObj r id
  confirmed _ r a h := h.setRegObj r fun _ => RegObj.inv_confirmed a
  objects _ h := h.of_mapper rfl fun _ r => by cases r <;> exact RegObj.inv_empty
  bytes _ addr bs h _ := h.putBytes addr bs
  next t r h := h.of_rings (by cases r <;> rfl) fun hs => (h.rings hs).setNext r
  moved t r h hs r' n e := by
    cases e
    exact h.ringSize r ▸ nextIndex_lt ((h.rings hs).tailShadow_lt r)
  tail _ r n h hn := h.setTailShadow r n hn
  ringReady t r h := h.of_rings (by cases r <;> rfl) fun hs => (h.rings hs).ringReady r
  snapshot _ _ h := h.of_driver rfl fun ht => { ht with snap := nofun }
  claim k t h := h.of_driver (by unfold Machine.claim; split <;> rfl) fun ht => ht.claim k
  done _ h := h.of_driver rfl fun ht => { ht with snap := fun _ => rfl }
  drop _ kind code c h _ hk := h.of_driver (by cases kind <;> rfl) fun ht => ht.drop hk code c
  unhandled _ v h := h.of_driver rfl fun ht => ht.unhandled v
  overrun _ h := h.of_driver rfl fun ht => ht.overrun
  push _ _ h hq := h.of_rings rfl fun hs => (h.rings hs).push hq
  pop _ _ _ h hq := h.of_rings rfl fun hs => (h.rings hs).pop hq
  publish _ _ h := h.of_eq rfl
  sendStart _ _ _ h := h.of_eq rfl
  sendEnd _ _ _ h := h.of_eq rfl
  busMaster _ h := h.of_eq rfl
  base _ _ h := h.of_eq rfl
  registered _ h := h.of_eq rfl
  irqAllowed _ h := h.of_eq rfl
  assigned _ h := h.of_eq rfl
  node _ _ h := h.of_eq rfl
  mac _ _ h := h.of_eq rfl
  initStep _ _ h := h.of_eq rfl
  failed _ h := h.of_eq rfl
  alloc _ _ _ _ h e := h.callAlloc e
  enter _ h := h.of_eq rfl
  leave _ h := h.of_eq rfl
  txe o _ h := h.txeStep o
  rxmac f b x _ h := h.rxmacStep f b x
  rxe _ h := h.rxeStep
  eec _ h := h.eecStep
  cable _ h := h.cableStep

/-- Every step keeps every invariant. -/
theorem step (e : step s = .next t) : Kept s t := (closed s).step (refl s) e

end Kept

/-- Settles O57: every store goes through `Memory.writeBytes`, which keeps the canonical form. -/
theorem stepKeepsMemoryForm : Obligations.StepKeepsMemoryForm := fun _ _ hs e => (Kept.step e).memory hs

/-- Settles O58: every register rule and every engine's step keeps the device's invariant. -/
theorem stepKeepsDeviceInvariant : Obligations.StepKeepsDeviceInvariant := fun _ _ hs e => (Kept.step e).device hs

/-- Settles O59: every effect of the mapper and of the driver keeps its own invariant, and no other effect reaches it. -/
theorem stepKeepsHostInvariants : Obligations.StepKeepsHostInvariants := fun _ _ e =>
  ⟨(Kept.step e).mapper, (Kept.step e).driver, (Kept.step e).rings⟩

end Sys2Proof.Machine
end

section
/-! PROOF of `DmaStaysInRegions`: every byte that TXE or RXE stores lies in an access that the step found legal, and a legal
access lies in one DMA region (20_memory.md R110). -/

namespace Sys2Proof.Machine

/-! ### Legal accesses (20_memory.md R110) -/

/-- A legal access ends below 2^32. -/
theorem State.dmaLegal_end_le {s : State} {a n : Nat} (h : s.dmaLegal a n = true) : a + n ≤ physSize := by
  simp only [State.dmaLegal, Bool.and_eq_true, decide_eq_true_eq] at h
  obtain ⟨⟨-, hend⟩, -⟩ := h
  exact hend

/-- A legal access holds no address outside the DMA regions. -/
theorem State.OutsideDma.outside_legal {s : State} {x a n : Nat} (hx : s.OutsideDma x) (h : s.dmaLegal a n = true) :
    x < a ∨ a + n ≤ x := by
  simp only [State.dmaLegal, Bool.and_eq_true, decide_eq_true_eq, List.any_eq_true] at h
  obtain ⟨-, r, hr, hlo, hhi⟩ := h
  have := hx r hr
  omega

/-- RXE finds no wild access in a chunk exactly where its address read, its bytes and its write-back are all legal (R421). -/
theorem State.rxWild_eq_none {s : State} {a addr n : Nat} : s.rxWild a addr n = none ↔
    s.dmaLegal a 8 = true ∧ (n ≠ 0 → s.dmaLegal addr n = true) ∧
      ∀ p ∈ rxWriteBackSpans, s.dmaLegal (a + p.1) p.2 = true := by
  unfold State.rxWild
  cases s.dmaLegal a 8 with
  | false => simp
  | true => by_cases hn : n = 0 <;> cases s.dmaLegal addr n <;> simp [hn]

/-- The five accesses of a write-back are the second half of the descriptor (R421). -/
theorem State.rxWriteBackSpans_cover {s : State} {a : Nat} (h : ∀ p ∈ rxWriteBackSpans, s.dmaLegal (a + p.1) p.2 = true) :
    a + 8 + 8 ≤ physSize ∧ ∀ x, s.OutsideDma x → x < a + 8 ∨ a + 8 + 8 ≤ x := by
  simp only [rxWriteBackSpans, List.forall_mem_cons] at h
  obtain ⟨hlen, hsum, hstatus, herr, hspecial, -⟩ := h
  have hend : a + 14 + 2 ≤ physSize := s.dmaLegal_end_le hspecial
  refine ⟨by omega, fun x hx => ?_⟩
  have := hx.outside_legal hlen
  have := hx.outside_legal hsum
  have := hx.outside_legal hstatus
  have := hx.outside_legal herr
  have := hx.outside_legal hspecial
  omega

@[simp] theorem length_rxWriteBackBytes (len : Nat) (checksum : Half) (last : Bool) (err : Byte) (special : Half) :
    (rxWriteBackBytes len checksum last err special).length = 8 := by
  simp [rxWriteBackBytes, halfBytes]

/-- TXE goes on only where the 16 bytes of its descriptor are a legal access (46_dma_sequencer.md R412). -/
theorem txeFetch_dmaLegal {s : State} {w : TxWork} (h : txeFetch s = .ok w) : s.dmaLegal w.addr 16 = true := by
  simp only [txeFetch] at h
  split at h
  · cases h
  · split at h
    · cases h
    · rename_i hlegal
      split at h
      · cases h
      · split at h
        · cases h
        · split at h
          · cases h
          · cases h
            simpa using hlegal

/-! ### Stores inside the regions -/

/-- From `s` to `t`, memory changed inside the DMA regions alone, and the regions stayed. -/
structure ChangesDmaOnly (s t : State) : Prop where
  dma     : t.dma = s.dma
  memory  : s.mem.wf = true → t.mem.wf = true
  outside : s.mem.wf = true → ∀ x, s.OutsideDma x → t.mem.readByte x = s.mem.readByte x

namespace ChangesDmaOnly

variable {s t u : State}

theorem of_mem_eq (hmem : t.mem = s.mem) (hdma : t.dma = s.dma) : ChangesDmaOnly s t :=
  ⟨hdma, fun h => hmem ▸ h, fun _ _ _ => by rw [hmem]⟩

theorem trans (h : ChangesDmaOnly s t) (g : ChangesDmaOnly t u) : ChangesDmaOnly s u where
  dma := g.dma.trans h.dma
  memory := g.memory ∘ h.memory
  outside hs x hx := by
    have hxt : t.OutsideDma x := fun r hr => hx r (h.dma ▸ hr)
    rw [g.outside (h.memory hs) x hxt, h.outside hs x hx]

/-- Bytes stored where no address outside the regions is. -/
theorem putBytes {a : Nat} {bs : List Byte} (hend : a + bs.length ≤ physSize)
    (hout : ∀ x, s.OutsideDma x → x < a ∨ a + bs.length ≤ x) : ChangesDmaOnly s (s.putBytes a bs) :=
  ⟨rfl, Memory.wf_writeBytes, fun hs x hx => Memory.readByte_writeBytes_outside hs hend (hout x hx)⟩

/-- Bytes stored by a legal access; no bytes need no access. -/
theorem putBytes_of_legal {a : Nat} {bs : List Byte} (h : bs.length ≠ 0 → s.dmaLegal a bs.length = true) :
    ChangesDmaOnly s (s.putBytes a bs) := by
  by_cases hlen : bs.length = 0
  · rw [List.eq_nil_of_length_eq_zero hlen]
    exact of_mem_eq rfl rfl
  · exact putBytes (s.dmaLegal_end_le (h hlen)) fun _ hx => hx.outside_legal (h hlen)

/-! ### The engines (46_dma_sequencer.md R412, R421) -/

/-- The status write-back is the byte at 12 of the descriptor. -/
theorem txWriteBack {w : TxWork} (h : s.dmaLegal w.addr 16 = true) (o : Collision) :
    ChangesDmaOnly s (s.txWriteBack w o) := by
  unfold State.txWriteBack
  split
  · have hend := s.dmaLegal_end_le h
    refine putBytes (by simp only [List.length_singleton]; omega) fun x hx => ?_
    have := hx.outside_legal h
    simp only [List.length_singleton]
    omega
  · exact of_mem_eq rfl rfl

theorem txeStep (s : State) (o : Collision) : (txeStep o s).All (ChangesDmaOnly s) := by
  have same : ChangesDmaOnly s s := of_mem_eq rfl rfl
  unfold Machine.txeStep
  split
  · split
    · exact same
    · rename_i w hw
      dsimp only
      generalize (if s.lbm = 3 then Collision.none else o) = out
      cases e : emit (txFrame (s.regs.tctl.getLsbD 3) w.cmd w.buf) out s with
      | raised u f => exact absurd e emit_not_raised
      | ok u =>
        have hemit : ChangesDmaOnly s u := of_mem_eq (by rw [emit_ok e]) (by rw [emit_ok e])
        have hlegal : u.dmaLegal w.addr 16 = true := by
          rw [emit_ok e]
          exact txeFetch_dmaLegal hw
        have hretire : ChangesDmaOnly (u.txWriteBack w out) ((u.txWriteBack w out).txRetire w) :=
          of_mem_eq (by simp only [State.txRetire, State.txCauses, State.setCauseIf_eq])
            (by simp only [State.txRetire, State.txCauses, State.setCauseIf_eq])
        exact (hemit.trans (txWriteBack hlegal out)).trans hretire
  · exact same

/-- A chunk of a frame goes to its buffer, then the fields to the second half of its descriptor. -/
theorem rxWriteChunk {err : Byte} {j m : Nat} {chunk : List Byte} (e : rxWriteChunk s err j m chunk = .ok t) :
    ChangesDmaOnly s t := by
  simp only [Machine.rxWriteChunk] at e
  split at e
  · cases e
  · rename_i hwild
    obtain ⟨-, hchunk, hspans⟩ := State.rxWild_eq_none.1 hwild
    cases e
    have hbuffer := putBytes_of_legal hchunk
    obtain ⟨hend, hcover⟩ := State.rxWriteBackSpans_cover hspans
    refine (hbuffer.trans (putBytes ?_ ?_)).trans (of_mem_eq rfl rfl)
    · rw [length_rxWriteBackBytes]
      exact hend
    · rw [length_rxWriteBackBytes]
      exact hcover

theorem rxWriteChunks {err : Byte} {bytes : List Byte} {b m k j : Nat} (e : rxWriteChunks err bytes b m k j s = .ok t) :
    ChangesDmaOnly s t := by
  induction k generalizing j s with
  | zero =>
    simp only [Machine.rxWriteChunks] at e
    cases e
    exact of_mem_eq rfl rfl
  | succ k ih =>
    simp only [Machine.rxWriteChunks] at e
    split at e
    · cases e
    · rename_i hchunk
      exact (rxWriteChunk hchunk).trans (ih e)

theorem rxeStep (s : State) : (rxeStep s).All (ChangesDmaOnly s) := by
  have same : ChangesDmaOnly s s := of_mem_eq rfl rfl
  unfold Machine.rxeStep
  split
  · exact same
  · split
    · split
      · exact same
      · split
        · exact same
        · split
          · exact same
          · rename_i hchunks
            refine (rxWriteChunks hchunks).trans (of_mem_eq ?_ ?_) <;>
              simp only [State.rxRetire, State.rxCauses, State.setCauseIf_eq] <;> rfl
    · exact same

/-- A fault's record is not in memory. -/
theorem of_out {x : Flow} (h : x.All (ChangesDmaOnly s)) (e : x.out = .next t) : ChangesDmaOnly s t := by
  cases e
  cases x with
  | ok u => exact h
  | raised u f => exact trans h (of_mem_eq rfl rfl)

end ChangesDmaOnly

/-- Settles O50: each store of an engine is made by an access that the step checked, and so lies in a region. -/
theorem dmaStaysInRegions : Obligations.DmaStaysInRegions := by
  intro s t turn hturn hs e x hx
  have hchanges : ChangesDmaOnly s t := by
    rcases hturn with rfl | ⟨o, rfl⟩
    · exact .of_out (ChangesDmaOnly.rxeStep s) e
    · exact .of_out (ChangesDmaOnly.txeStep s o) e
  exact hchanges.outside hs x hx

end Sys2Proof.Machine
end

section
/-! SUPPORT. Which bus requests the decoder rejects and for what, what an issued request does, and a store of any number of
bytes, whose addresses may wrap. -/

namespace Sys2Proof

/-! ### Bus requests (30_encoding.md R140 to R144) -/

/-- The low bytes of a number spell it back. -/
theorem natOfBytes_bytesOfNat (n v : Nat) : natOfBytes (bytesOfNat n v) = v % 256 ^ n := by
  induction n generalizing v with
  | zero => simp [natOfBytes, bytesOfNat, Nat.mod_one]
  | succ n ih =>
    rw [bytesOfNat, natOfBytes, ih, Nat.pow_succ', Nat.mod_mul]
    simp

/-- A request of another width is rejected, whatever its bytes (R144). -/
theorem decodeMmio_of_width_ne {o : Offsets} {width : Nat} {bytes : List Byte} (h : width ≠ 32) :
    decodeMmio o width bytes = .error .width := if_pos h

/-- A whole request of 32 bits decodes by its word (R140). -/
theorem decodeMmio_word {o : Offsets} {w : Nat} {rest : List Byte} (hw : w < 256 ^ 4)
    (hrest : isWrite w = true → 4 ≤ rest.length) :
    decodeMmio o 32 (bytesOfNat 4 w ++ rest) = decodeRequestWord o w rest := by
  have hwhole : (isWrite w && decide (rest.length < 4)) = false := by
    cases hwrite : isWrite w with
    | false => rfl
    | true => exact decide_eq_false (Nat.not_lt.2 (hrest hwrite))
  simp only [decodeMmio, carries_nat hw rest, hwhole]
  rfl

/-- A word that is no multiple of 4 is misaligned (R144). -/
theorem decodeRequestWord_misaligned {o : Offsets} {w : Nat} {rest : List Byte} (h : w % 4 ≠ 0) :
    decodeRequestWord o w rest = .error .misaligned := if_pos h

/-- An aligned word with bits above the offset, or at no register's offset, is unmodelled (R144). -/
theorem decodeRequestWord_unmodelled {o : Offsets} {w : Nat} {rest : List Byte} (halign : w % 4 = 0)
    (h : w / 2 ^ 17 % 2 ^ 14 ≠ 0 ∨ ∀ r, pOffsets o r ≠ w % 2 ^ 17) :
    decodeRequestWord o w rest = .error .unmodelledOffset := by
  unfold decodeRequestWord
  rw [if_neg (not_not_intro halign)]
  by_cases hz : w / 2 ^ 17 % 2 ^ 14 = 0
  · have hnone : regAtOffset o (w % 2 ^ 17) = none := by
      have hr := h.resolve_left (not_not_intro hz)
      simp [-Nat.reducePow, regAtOffset, List.find?_eq_none, hr]
    rw [if_neg (not_not_intro hz), hnone]
  · rw [if_pos hz]

end Sys2Proof

namespace Sys2Proof.Machine

/-! ### Issued requests -/

section Issue
variable {s : State} {a : HostAgent} {req : Request} (reply : Reply)

/-- A request that decodes is executed, where its agent may move and has nothing in progress; `core.trigger` is DISPATCH's. -/
theorem issue_of_decode {i : Instr} (hrun : s.mayRun a = true) (hidle : s.work a = [])
    (hi : ∀ frame, i ≠ .coreTrigger frame) (hd : decode s.params.offsets req = .ok i) :
    issue a req reply s = exec i (s.asAgent a reply) := by
  have hstart : s.startsTrigger a i = false := by
    unfold State.startsTrigger
    split
    · exact absurd rfl (hi _)
    · rfl
  have hcan : s.canIssue a i = true := by simp [State.canIssue, hrun, hidle, hstart]
  simp only [issue, hd, hcan, if_true]

/-- A request that does not decode is rejected, where its agent may move and has nothing in progress (R144, R147). -/
theorem issue_of_decode_error {e : DecodeError} (hrun : s.mayRun a = true) (hidle : s.work a = [])
    (hd : decode s.params.offsets req = .error e) :
    issue a req reply s = .next (reject e req (s.asAgent a reply)) := by
  simp [issue, hd, hrun, hidle]

end Issue

theorem readInstr_ne_coreTrigger (r : Reg) (frame : Word) : readInstr r ≠ .coreTrigger frame := by cases r <;> nofun

theorem writeInstr_ne_coreTrigger (r : Reg) (v frame : Word) : writeInstr r v ≠ .coreTrigger frame := by cases r <;> nofun

/-! ### Memory (20_memory.md R100, R104) -/

/-- The bytes that a read gives (log entry 11). -/
theorem Memory.getElem_readBytes {m : Memory} {a n k : Nat} (h : k < (m.readBytes a n).length) :
    (m.readBytes a n)[k] = m.readByte ((a + k) % physSize) := by
  induction n generalizing a k with
  | zero => exact absurd h (Nat.not_lt_zero _)
  | succ n ih =>
    cases k with
    | zero => rfl
    | succ k =>
      simp only [Memory.readBytes, List.getElem_cons_succ, ih]
      rw [show a + 1 + k = a + (k + 1) by omega]

/-- Storing no more bytes than there are addresses stores each of them, and nothing else; the addresses may wrap. -/
theorem Memory.stored_writeBytes {m : Memory} {a : Nat} {bs : List Byte} (h : m.wf = true) (hlen : bs.length ≤ 2 ^ 32) :
    m.Stored (m.writeBytes a bs) a bs := by
  induction bs generalizing m a with
  | nil => exact ⟨nofun, fun _ _ => rfl⟩
  | cons b bs ih =>
    rw [List.length_cons] at hlen
    have hfirst : (m.writeByte (a % physSize) b).wf = true := Memory.wf_writeByte h (Nat.mod_lt _ (by decide))
    obtain ⟨hin, hout⟩ := ih (a := a + 1) hfirst (by omega)
    refine ⟨fun k hk => ?_, fun x hx => ?_⟩
    · cases k with
      | zero =>
        rw [Memory.writeBytes, hout _ fun k hk => by omega, Memory.readByte_writeByte h]
        exact if_pos rfl
      | succ k =>
        have hk' := hin k (Nat.lt_of_succ_lt_succ hk)
        rwa [show a + 1 + k = a + (k + 1) by omega] at hk'
    · rw [Memory.writeBytes, hout x fun k hk => ?_, Memory.readByte_writeByte h]
      · exact if_neg (hx 0 (by simp))
      · rw [show a + 1 + k = a + (k + 1) by omega]
        exact hx (k + 1) (by simpa using hk)

end Sys2Proof.Machine
end

section
/-! PROOF of `HostAccessesReachDevice`: in the window an access is a bus request, which the decoder takes or rejects by its word;
elsewhere it reads or stores memory (20_memory.md R102 to R104). -/

namespace Sys2Proof

/-! ### The request that an access to the window is (20_memory.md R103) -/

/-- The bytes an access moves. -/
def Access.size : Access → Nat
  | .load n => n
  | .store bytes => bytes.length

/-- The request word of an access at an offset: bit 31 tells a store (30_encoding.md R140). -/
def Access.word (off : Nat) : Access → Nat
  | .load _ => off
  | .store _ => 2 ^ 31 + off

/-- What a store sends behind its request word. -/
def Access.data : Access → List Byte
  | .load _ => []
  | .store bytes => bytes

/-- The request that an access at an offset of the window is. -/
def Access.request (off : Nat) (acc : Access) : Request := .mmio (8 * acc.size) (bytesOfNat 4 (acc.word off) ++ acc.data)

namespace Access

variable {acc : Access} {o : Offsets} {off : Nat}

/-- The word of an access at a 17-bit offset has 32 bits, and its fields are those of the offset (30_encoding.md R140). -/
theorem word_fields (hoff : off < 2 ^ 17) (acc : Access) :
    acc.word off < 256 ^ 4 ∧ acc.word off % 2 ^ 31 = off ∧ acc.word off % 2 ^ 17 = off ∧ acc.word off % 4 = off % 4 ∧
      acc.word off / 2 ^ 17 % 2 ^ 14 = 0 := by
  cases acc <;> refine ⟨?_, ?_, ?_, ?_, ?_⟩ <;> simp only [word] <;> omega

theorem decode_width (h : acc.size ≠ 4) : decode o (acc.request off) = .error .width := by
  rw [request, decode, decodeMmio_of_width_ne (by omega)]

/-- An access of 4 bytes decodes by its word. -/
theorem decode_request (hoff : off < 2 ^ 17) (h : acc.size = 4) :
    decode o (acc.request off) = decodeRequestWord o (acc.word off) acc.data := by
  obtain ⟨hlt, -⟩ := acc.word_fields hoff
  rw [request, h]
  refine decodeMmio_word hlt fun hwrite => ?_
  cases acc with
  | load n =>
    have hbit : off / 2 ^ 31 % 2 = 1 := beq_iff_eq.1 hwrite
    omega
  | store bytes => exact Nat.le_of_eq h.symm

theorem decode_misaligned (hoff : off < 2 ^ 17) (h : acc.size = 4) (halign : off % 4 ≠ 0) :
    decode o (acc.request off) = .error .misaligned := by
  obtain ⟨-, -, -, hfour, -⟩ := acc.word_fields hoff
  rw [decode_request hoff h, decodeRequestWord_misaligned (hfour ▸ halign)]

theorem decode_unmodelled (hoff : off < 2 ^ 17) (h : acc.size = 4) (halign : off % 4 = 0)
    (hnone : ∀ r, pOffsets o r ≠ off) : decode o (acc.request off) = .error .unmodelledOffset := by
  obtain ⟨-, -, hlow, hfour, -⟩ := acc.word_fields hoff
  rw [decode_request hoff h, decodeRequestWord_unmodelled (hfour ▸ halign) (.inr (hlow.symm ▸ hnone))]

/-- A load at a register's offset is the read request of that register. -/
theorem request_load (o : Offsets) (r : Reg) : (load 4).request (pOffsets o r) = encodeRead o r := by
  simp [request, size, word, data, encodeRead, requestWord]

/-- A store of a word at a register's offset is the write request of that register. -/
theorem request_store (o : Offsets) (r : Reg) (v : Word) :
    (store (wordBytes v)).request (pOffsets o r) = encodeWrite o r v := by
  simp [request, size, word, data, encodeWrite, requestWord]

theorem decode_load (ho : o.wf = true) {r : Reg} (hr : pOffsets o r = off) :
    decode o ((load 4).request off) = .ok (readInstr r) := by
  rw [← hr, request_load, decode_encodeRead ho]

theorem decode_store (ho : o.wf = true) {r : Reg} (hr : pOffsets o r = off) (v : Word) :
    decode o ((store (wordBytes v)).request off) = .ok (writeInstr r v) := by
  rw [← hr, request_store, decode_encodeWrite ho]

end Access

end Sys2Proof

namespace Sys2Proof.Machine

/-! ### The window (20_memory.md R103) -/

/-- The window, written out. -/
theorem State.inWindow_iff {s : State} {va : Word} : s.inWindow va = true ↔
    3 ≤ s.drv.initStep ∧ s.drv.base.toNat ≤ va.toNat ∧ va.toNat < s.drv.base.toNat + 0x20000 := by
  simp only [State.inWindow, Bool.and_eq_true, decide_eq_true_eq, and_assoc]
  rfl

theorem State.windowRequest_of_inWindow {s : State} {va : Word} (h : s.inWindow va = true) (acc : Access) :
    s.windowRequest va acc = some (acc.request (va.toNat - s.drv.base.toNat)) := by
  cases acc <;> simp [State.windowRequest, h, Access.request, Access.size, Access.word, Access.data]

theorem State.windowRequest_of_outside {s : State} {va : Word} (h : s.inWindow va = false) (acc : Access) :
    s.windowRequest va acc = none := by simp [State.windowRequest, h]

section Window
variable {s : State} {a : HostAgent} {va : Word} {acc : Access}

/-- The detail of a rejected access is its offset (log entry 9). -/
theorem requestOffset_request {off : Nat} (hoff : off < 2 ^ 17) (acc : Access) : requestOffset (acc.request off) = off := by
  obtain ⟨hlt, hdetail, -⟩ := acc.word_fields hoff
  rw [Access.request, requestOffset, List.take_left' (length_bytesOfNat _ _), natOfBytes_bytesOfNat, Nat.mod_eq_of_lt hlt,
    hdetail]

/-- An access to the window is the issue of its request. -/
theorem perform_access_of_inWindow (hw : s.inWindow va = true) (acc : Access) :
    perform (.access a va acc) s = issue a (acc.request (va.toNat - s.drv.base.toNat)) s.reply s := by
  simp only [perform, hostAccess, State.windowRequest_of_inWindow hw]

/-- An access to the window that decodes is executed by its agent. -/
theorem perform_access_exec {i : Instr} (hrun : s.mayRun a = true) (hidle : s.work a = []) (hw : s.inWindow va = true)
    (hi : ∀ frame, i ≠ .coreTrigger frame)
    (hd : decode s.params.offsets (acc.request (va.toNat - s.drv.base.toNat)) = .ok i) :
    perform (.access a va acc) s = exec i { s with cur := a } := by
  rw [perform_access_of_inWindow hw, issue_of_decode s.reply hrun hidle hi hd]
  rfl

/-- An access to the window that the decoder rejects with a fault raises it, with the offset. -/
theorem perform_access_raises {e : DecodeError} {c : FaultCode} (hrun : s.mayRun a = true) (hidle : s.work a = [])
    (hw : s.inWindow va = true)
    (hc : ∀ req t, reject e req t = t.raise ⟨c, t.cur.toAgent, 144, requestOffset req⟩)
    (hd : decode s.params.offsets (acc.request (va.toNat - s.drv.base.toNat)) = .error e) :
    perform (.access a va acc) s =
      .next (State.raise { s with cur := a } ⟨c, a.toAgent, 144, va.toNat - s.drv.base.toNat⟩) := by
  obtain ⟨-, hlo, hhi⟩ := State.inWindow_iff.1 hw
  rw [perform_access_of_inWindow hw, issue_of_decode_error s.reply hrun hidle hd, hc,
    requestOffset_request (by omega)]
  rfl

end Window

/-! ### Outside the window (20_memory.md R104, R119) -/

section Outside
variable {s : State} {a : HostAgent}

theorem State.mayAccess_of (hrun : s.mayRun a = true) (hidle : s.work a = []) : s.mayAccess a = true := by
  simp [State.mayAccess, hrun, hidle]

theorem perform_load_of_outside {va : Word} (hacc : s.mayAccess a = true) (hw : s.inWindow va = false) (n : Nat) :
    perform (.access a va (.load n)) s = .next (s.setRet a (.bytes (s.mem.readBytes (s.phys va) n))) := by
  simp only [perform, hostAccess, State.windowRequest_of_outside hw, hacc, if_true]

theorem perform_store_of_outside {va : Word} (hacc : s.mayAccess a = true) (hw : s.inWindow va = false) (bytes : List Byte) :
    perform (.access a va (.store bytes)) s = (storeStep a (s.phys va) bytes s).out := by
  simp only [perform, hostAccess, State.windowRequest_of_outside hw, hacc, if_true]

theorem perform_store {addr : Word} (hacc : s.mayAccess a = true) (bytes : List Byte) :
    perform (.store a addr bytes) s = (storeStep a addr.toNat bytes s).out := by simp only [perform, hacc, if_true]

/-- A store where software owns every byte stores the bytes, and changes nothing else but the answer. -/
theorem storeStep_stored {addr : Nat} {bytes : List Byte} (hs : s.mem.wf = true) (hlen : bytes.length ≤ 2 ^ 32)
    (ho : s.SoftwareOwns addr bytes.length) :
    ∃ m, (storeStep a addr bytes s).out = .next (State.setRet { s with mem := m } a .unit) ∧ m.wf = true ∧
      s.mem.Stored m addr bytes := by
  rcases storeStep_cases a addr bytes s with ⟨-, e⟩ | ⟨hn, -⟩
  · rw [e]
    exact ⟨_, rfl, Memory.wf_writeBytes hs, Memory.stored_writeBytes hs hlen⟩
  · exact absurd ho hn

/-- A store that meets a byte hardware owns raises `F_DESC_RACE`, and has no other effect. -/
theorem storeStep_races {addr : Nat} {bytes : List Byte} (ho : ¬ s.SoftwareOwns addr bytes.length) :
    (storeStep a addr bytes s).out = .next (s.raise ⟨.descRace, a.toAgent, 119, addr % 2 ^ 32⟩) := by
  rcases storeStep_cases a addr bytes s with ⟨hy, -⟩ | ⟨-, e⟩
  · exact absurd hy ho
  · rw [e]
    rfl

end Outside

/-- Settles O55: in the window by the request's decoding, elsewhere by the one store. -/
theorem hostAccessesReachDevice : Obligations.HostAccessesReachDevice := by
  intro s a va hrun hidle mapped off raises stores
  have hacc : s.mayAccess a = true := State.mayAccess_of hrun hidle
  have hwin : mapped → s.inWindow va = true := State.inWindow_iff.2
  have hout : ¬ mapped → s.inWindow va = false := fun h => Bool.eq_false_iff.2 fun hw => h (State.inWindow_iff.1 hw)
  have hoff : mapped → off < 2 ^ 17 := fun ⟨_, _, _⟩ => by simp only [off]; omega
  have hstores : ∀ turn addr bytes, s.mem.wf = true → perform turn s = (storeStep a addr bytes s).out →
      stores turn addr bytes := fun turn addr bytes hs e =>
    ⟨fun ho hlen => e ▸ storeStep_stored hs hlen ho, fun ho => e ▸ storeStep_races ho⟩
  have hwidth : mapped → ∀ acc : Access, acc.size ≠ 4 → raises acc .width := fun hm _ hn =>
    perform_access_raises hrun hidle (hwin hm) (fun _ _ => rfl) (Access.decode_width hn)
  have hmisaligned : mapped → off % 4 ≠ 0 → ∀ acc : Access, acc.size = 4 → raises acc .misaligned :=
    fun hm halign _ hn =>
      perform_access_raises hrun hidle (hwin hm) (fun _ _ => rfl) (Access.decode_misaligned (hoff hm) hn halign)
  have hunmodelled : mapped → off % 4 = 0 → (∀ r, pOffsets s.params.offsets r ≠ off) → ∀ acc : Access, acc.size = 4 →
      raises acc .unmodelledOffset := fun hm halign hnone _ hn =>
    perform_access_raises hrun hidle (hwin hm) (fun _ _ => rfl) (Access.decode_unmodelled (hoff hm) hn halign hnone)
  refine ⟨fun hm ho r hr => ⟨?_, fun v => ?_⟩, fun hm => ⟨fun n => hwidth hm (.load n), fun bytes => hwidth hm (.store bytes)⟩,
    fun hm ha => ⟨hmisaligned hm ha (.load 4) rfl, fun bytes => hmisaligned hm ha (.store bytes)⟩,
    fun hm ha hr => ⟨hunmodelled hm ha hr (.load 4) rfl, fun bytes => hunmodelled hm ha hr (.store bytes)⟩, fun hm n => ?_,
    fun hm hs bytes => ?_, fun hs addr bytes => ?_⟩
  · exact perform_access_exec hrun hidle (hwin hm) (readInstr_ne_coreTrigger r) (Access.decode_load ho hr)
  · exact perform_access_exec hrun hidle (hwin hm) (writeInstr_ne_coreTrigger r v) (Access.decode_store ho hr v)
  · exact ⟨_, Memory.length_readBytes .., fun k hk => Memory.getElem_readBytes hk, perform_load_of_outside hacc (hout hm) n⟩
  · exact hstores _ _ _ hs (perform_store_of_outside hacc (hout hm) bytes)
  · exact hstores _ _ _ hs (perform_store hacc bytes)

end Sys2Proof.Machine
end

section
/-! PROOF of `TableWordsDecode` and `RejectedRequests`: the bytes of a word are its fields one after another, and the
decoder reads each field whatever bytes follow. -/

namespace Sys2Proof

/-! ### Bytes of a number in two parts (20_memory.md R104) -/

/-- The bytes of a low part and a high part stand one after the other. -/
theorem bytesOfNat_append {m lo : Nat} (n hi : Nat) (h : lo < 256 ^ m) :
    bytesOfNat (m + n) (lo + 256 ^ m * hi) = bytesOfNat m lo ++ bytesOfNat n hi := by
  induction m generalizing lo with
  | zero => simp_all [bytesOfNat]
  | succ m ih =>
    rw [Nat.pow_succ'] at h
    have hhead : BitVec.ofNat 8 (lo + 256 ^ (m + 1) * hi) = BitVec.ofNat 8 lo := by
      rw [Nat.pow_succ', Nat.mul_assoc]
      exact BitVec.eq_of_toNat_eq (by simp)
    have htail : (lo + 256 ^ (m + 1) * hi) / 256 = lo / 256 + 256 ^ m * hi := by
      rw [Nat.pow_succ', Nat.mul_assoc, Nat.add_mul_div_left _ _ (by decide)]
    rw [Nat.add_right_comm, bytesOfNat, hhead, htail, ih (by omega), bytesOfNat, List.cons_append]

/-! ### Request words of a register (30_encoding.md R140 to R142) -/

section RequestWords
variable {o : Offsets}

/-- The read request word of a register decodes to its read, whatever follows. -/
theorem decodeRequestWord_read (ho : o.wf = true) (r : Reg) (rest : List Byte) :
    decodeRequestWord o (requestWord o false r) rest = .ok (readInstr r) := by
  obtain ⟨-, hdir, halign, hzero, hoff⟩ := requestWord_fields ho false r
  simp [-Nat.reducePow, decodeRequestWord, hdir, halign, hzero, hoff, regAtOffset_pOffsets ho]

/-- The write request word of a register decodes to its write of the data word behind it, whatever follows. -/
theorem decodeRequestWord_write (ho : o.wf = true) (r : Reg) (data : Word) (rest : List Byte) :
    decodeRequestWord o (requestWord o true r) (wordBytes data ++ rest) = .ok (writeInstr r data) := by
  obtain ⟨-, hdir, halign, hzero, hoff⟩ := requestWord_fields ho true r
  simp [-Nat.reducePow, decodeRequestWord, hdir, halign, hzero, hoff, regAtOffset_pOffsets ho, carries_wordNat data rest]

end RequestWords

/-! ### Table words (R142, R145) -/

/-- The table of 10_state.md R33 has one aligned 17-bit offset for each register. -/
theorem wf_configOffsets : Config.offsets.wf = true := by decide

/-- A table word of a bus request decodes by its low 32 bits, with the bits above them as the bytes behind. -/
theorem decodeTableWord_mmio {nbits w hi : Nat} {i : Instr} (hn : 16 < nbits) (hw : w < 256 ^ 4)
    (hfit : w + 256 ^ 4 * hi < 2 ^ nbits) (hd : decodeRequestWord Config.offsets w (bytesOfNat 12 hi) = .ok i) :
    decodeTableWord nbits (w + 256 ^ 4 * hi) = some i := by
  have hreq : requestOfWord nbits (w + 256 ^ 4 * hi) = .mmio 32 (bytesOfNat 4 w ++ bytesOfNat 12 hi) := by
    rw [requestOfWord, Nat.mod_eq_of_lt hfit, ← bytesOfNat_append 12 hi hw]
    exact if_neg (Nat.not_le.2 hn)
  rw [decodeTableWord, hreq, decode, decodeMmio_word hw fun _ => by simp, hd]

/-- A 32-bit table word is the read request of a register. -/
theorem decodeTableWord_read (r : Reg) :
    decodeTableWord 32 (requestWord Config.offsets false r) = some (readInstr r) := by
  obtain ⟨hlt, -⟩ := requestWord_fields wf_configOffsets false r
  exact decodeTableWord_mmio (hi := 0) (by decide) hlt hlt (decodeRequestWord_read wf_configOffsets r _)

/-- A table word is the write request of a register, with its data word in bits 63:32. -/
theorem decodeTableWord_write {nbits : Nat} (r : Reg) (data : Word) (hn : 16 < nbits)
    (hfit : requestWord Config.offsets true r + 256 ^ 4 * data.toNat < 2 ^ nbits) :
    decodeTableWord nbits (requestWord Config.offsets true r + 256 ^ 4 * data.toNat) = some (writeInstr r data) := by
  obtain ⟨hlt, -⟩ := requestWord_fields wf_configOffsets true r
  have hdata : bytesOfNat 12 data.toNat = wordBytes data ++ bytesOfNat 8 0 := bytesOfNat_append 8 0 data.isLt
  exact decodeTableWord_mmio hn hlt hfit (hdata ▸ decodeRequestWord_write wf_configOffsets r data _)

/-- A 16-bit table word is its operation with operand bytes 0. -/
theorem decodeTableWord_host {op : HostOp} {i : Instr} (h : decodeOperands op (bytesOfNat 14 0) = some i) :
    decodeTableWord 16 op.word = some i := by
  have hreq : requestOfWord 16 op.word = encodeHost op (bytesOfNat 14 0) := by
    rw [requestOfWord, show op.word % 2 ^ 16 = op.word from Nat.mod_eq_of_lt op.word_lt, encodeHost,
      ← bytesOfNat_append 14 0 op.word_lt]
    rfl
  rw [decodeTableWord, hreq, decode_encodeHost _ h]

/-- Settles O2: each word is the table word of its register or operation. -/
theorem tableWordsDecode : Obligations.TableWordsDecode :=
  ⟨decodeTableWord_read .ctrl, decodeTableWord_read .icr, decodeTableWord_write .ims 4#32 (by decide) (by decide),
    decodeTableWord_write .rah0 0#32 (by decide) (by decide), decodeTableWord_host (op := .icReadclear) rfl,
    decodeTableWord_host (op := .ringSetnext) rfl, decodeTableWord_host (op := .coreParse) rfl⟩

/-! ### Words the decoder rejects (R144, R147) -/

section Rejected
variable {o : Offsets} {w : Word} {rest : List Byte}

/-- A request of another width is rejected for it, whatever its bytes (R144). -/
theorem decode_of_width_ne {width : Nat} {bytes : List Byte} (h : width ≠ 32) :
    decode o (.mmio width bytes) = .error .width := decodeMmio_of_width_ne h

/-- A request word with its data word behind it decodes by its fields. -/
theorem decode_wordBytes (o : Offsets) (w data : Word) :
    decode o (.mmio 32 (wordBytes w ++ wordBytes data)) = decodeRequestWord o w.toNat (wordBytes data) :=
  decodeMmio_word w.isLt fun _ => by simp

/-- A word whose alignment bits are not 0 is misaligned. -/
theorem decodeRequestWord_alignBits (h : w.extractLsb' 0 2 ≠ 0#2) :
    decodeRequestWord o w.toNat rest = .error .misaligned :=
  decodeRequestWord_misaligned fun hmod => h (BitVec.eq_of_toNat_eq (by simpa using hmod))

/-- An aligned word with a bit set above the offset, or whose offset is no register's, is unmodelled. -/
theorem decodeRequestWord_offsetBits (halign : w.extractLsb' 0 2 = 0#2)
    (h : w.extractLsb' 17 14 ≠ 0#14 ∨ ∀ r, pOffsets o r ≠ (w.extractLsb' 0 17).toNat) :
    decodeRequestWord o w.toNat rest = .error .unmodelledOffset := by
  have hlow : w.toNat % 4 = 0 := by simpa using congrArg BitVec.toNat halign
  rcases h with hzero | hnone
  · exact decodeRequestWord_unmodelled hlow
      (.inl fun hdiv => hzero (BitVec.eq_of_toNat_eq (by simpa [Nat.shiftRight_eq_div_pow] using hdiv)))
  · exact decodeRequestWord_unmodelled hlow (.inr (by simpa using hnone))

/-- A word that is in no row of R145 spells no operation. -/
theorem hostOpOfWord_eq_none {w : Nat} (h : ∀ op : HostOp, op.word ≠ w) : hostOpOfWord w = none := by
  simp [hostOpOfWord, List.find?_eq_none, h]

/-- The request of a word that is in no row of R145 is rejected, whatever operand bytes follow. -/
theorem decode_noSuchOperation {w : Half} (h : ∀ op : HostOp, op.word ≠ w.toNat) (operands : List Byte) :
    decode o (.host (halfBytes w ++ operands)) = .error .noSuchOperation := by
  rw [decode, decodeHost, halfBytes, carries_nat w.isLt operands]
  simp only [hostOpOfWord_eq_none h]

end Rejected

end Sys2Proof

namespace Sys2Proof.Machine

/-- The detail of a rejected request is its word without the direction bit (log entry 9). -/
theorem requestOffset_wordBytes (width : Nat) (w : Word) (rest : List Byte) :
    requestOffset (.mmio width (wordBytes w ++ rest)) = w.toNat % 2 ^ 31 := by
  rw [requestOffset, List.take_left' (length_wordBytes w), wordBytes, natOfBytes_bytesOfNat,
    show w.toNat % 256 ^ 4 = w.toNat from Nat.mod_eq_of_lt w.isLt]

/-- An issued bus request that the decoder rejects with a fault raises it, with its word's detail (R144; log entry 9). -/
theorem perform_issue_raises {s : State} {a : HostAgent} {width : Nat} {w : Word} {rest : List Byte} {e : DecodeError}
    {c : FaultCode} (reply : Reply) (hrun : s.mayRun a = true) (hidle : s.work a = [])
    (hc : ∀ req t, reject e req t = t.raise ⟨c, t.cur.toAgent, 144, requestOffset req⟩)
    (hd : decode s.params.offsets (.mmio width (wordBytes w ++ rest)) = .error e) :
    perform (.issue a (.mmio width (wordBytes w ++ rest)) reply) s =
      .next ((s.asAgent a reply).raise ⟨c, a.toAgent, 144, w.toNat % 2 ^ 31⟩) := by
  rw [perform, issue_of_decode_error reply hrun hidle hd, hc, requestOffset_wordBytes, State.asAgent_cur]

/-- Settles O3: by what the decoder answers for the request, in the order of its checks. -/
theorem rejectedRequests : Obligations.RejectedRequests := by
  refine ⟨fun s a reply width w data hrun hidle => ⟨fun hwidth => ?_, ?_, ?_⟩,
    fun s a reply w operands hrun hidle hnone => ?_⟩
  · exact perform_issue_raises reply hrun hidle (fun _ _ => rfl) (decode_of_width_ne hwidth)
  · rintro rfl hbits
    exact perform_issue_raises reply hrun hidle (fun _ _ => rfl)
      ((decode_wordBytes _ w data).trans (decodeRequestWord_alignBits hbits))
  · rintro rfl halign hoff
    exact perform_issue_raises reply hrun hidle (fun _ _ => rfl)
      ((decode_wordBytes _ w data).trans (decodeRequestWord_offsetBits halign hoff))
  · exact issue_of_decode_error reply hrun hidle (decode_noSuchOperation hnone operands)

end Sys2Proof.Machine
end

section
/-! PROOF of `StepRunsDecoded`: a step takes the head of the script, and the turn's agent executes what its request decodes to. -/

namespace Sys2Proof.Machine

/-- Where no fault is recorded, a step takes the turn at the head of the script (60_exceptions.md R451; log entry 2). -/
theorem step_of_script {s : State} {t : Turn} {more : List Turn} (hf : s.faults = []) (hs : s.script = t :: more) :
    step s = perform t { s with script := more } := by
  simp only [step, hf, State.nextTurn, hs]

/-- An operation is refused just where it is not ready (R452). -/
theorem State.refuses_iff {s : State} {n : Nat} : s.refuses n = true ↔ ¬ s.Ready n := by
  rw [State.refuses, State.Ready]
  cases s.drv.initFailed with
  | true => simp
  | false => simp

/-- An issue starts `trigger` only where ISR issues it and it is not refused (45_core.md R387; log entry 21). -/
theorem State.startsTrigger_eq_false {s : State} {a : HostAgent} {i : Instr}
    (h : ∀ frame, i = .coreTrigger frame → a = .isr → ¬ s.Ready 11) : s.startsTrigger a i = false := by
  unfold State.startsTrigger
  split
  · next frame => simpa [State.refuses_iff] using h frame rfl
  · rfl

/-- An agent that may move may issue with nothing in progress, or `core.loadmac` in its place (R384), but not start `trigger`. -/
theorem State.canIssue_of {s : State} {a : HostAgent} {i : Instr} (hrun : s.mayRun a = true)
    (hwork : s.work a = [] ∨ (a = .host ∧ i = .coreLoadmac ∧ inStep9 s = true))
    (htrigger : ∀ frame, i = .coreTrigger frame → a = .isr → ¬ s.Ready 11) : s.canIssue a i = true := by
  rw [State.canIssue, hrun, State.startsTrigger_eq_false htrigger]
  rcases hwork with hidle | ⟨rfl, rfl, hstep9⟩
  · simp [hidle]
  · simp [hstep9]

/-- DISPATCH delivers under the four conditions of 60_exceptions.md R462, where ISR has nothing in progress (log entry 21). -/
theorem State.deliverable_of {s : State} (hline : s.regs.icr &&& s.regs.ims ≠ 0#32) (hallowed : s.drv.irqAllowed = true)
    (hassigned : s.drv.handlerAssigned = true) (hactive : s.drv.isrActive = false) (hidle : s.work .isr = []) :
    s.deliverable = true := by
  simp [State.deliverable, State.irq, hline, hallowed, hassigned, hactive, hidle]

/-- Settles O54: for an issued request by what it decodes to, for DISPATCH by its conditions. -/
theorem stepRunsDecoded : Obligations.StepRunsDecoded := by
  refine ⟨fun s a req reply more i hf hs hd _ hrun hwork htrigger => ?_,
    fun s frame more hf hs hline hallowed hassigned hactive hidle => ?_⟩
  · have hcan : State.canIssue { s with script := more } a i = true := State.canIssue_of hrun hwork htrigger
    simp only [step_of_script hf hs, perform, issue, hd, hcan, if_true]
    rfl
  · have hdeliver : State.deliverable { s with script := more } = true :=
      State.deliverable_of hline hallowed hassigned hactive hidle
    simp only [step_of_script hf hs, perform, deliver, hdeliver, if_true]
    rfl

end Sys2Proof.Machine
end

section
/-! SUPPORT. The bus request of each register: its word (30_encoding.md R142), and what its read and its write do once the
register's rule is known (40_mmio_registers.md R200). -/

namespace Sys2Proof.Machine

/-! ### Words (30_encoding.md R142) -/

/-- The word that the table of 10_state.md R33 gives a register's read is that read. -/
theorem isReadWord {w : Word} (r : Reg) (h : w.toNat = requestWord Config.offsets false r := by decide) :
    IsReadWord w (readInstr r) := by
  rw [IsReadWord, wordBytes, h]
  exact decode_encodeRead wf_configOffsets r

/-- The word that the table gives a register's write is, with the data word behind it, that write. -/
theorem isWriteWord {w : Word} (r : Reg) (h : w.toNat = requestWord Config.offsets true r := by decide) :
    IsWriteWord w (writeInstr r) := fun data => by
  rw [wordBytes, h]
  exact decode_encodeWrite wf_configOffsets r data

/-! ### Meanings (40_mmio_registers.md R200) -/

theorem exec_readInstr (r : Reg) (s : State) : exec (readInstr r) s = mmioRead r s := by cases r <;> rfl

theorem exec_writeInstr (r : Reg) (v : Word) (s : State) : exec (writeInstr r v) s = mmioWrite r v s := by cases r <;> rfl

/-- A read answers what the read rule gives, in the state that it leaves. -/
theorem exec_read (r : Reg) {s t : State} {v : Word} (h : readReg r s = (v, t)) :
    exec (readInstr r) s = .next (t.setRet s.cur (.word v)) := by rw [exec_readInstr, mmioRead, h]

/-- The check of 41_register_mapper.md R263 (b) lets an agent write just where no other one is inside a confirm. -/
theorem State.confirmedByOther_eq_false {s : State} {r : Reg} {a : HostAgent} :
    s.confirmedByOther r a = false ↔ s.Unraced r a := by
  have hall : s.Unraced r a ↔ (.host ≠ a → (s.regObj r).inConfirm.host = false) ∧
      (.isr ≠ a → (s.regObj r).inConfirm.isr = false) ∧ (.bh ≠ a → (s.regObj r).inConfirm.bh = false) :=
    ⟨fun h => ⟨h .host, h .isr, h .bh⟩, fun ⟨hhost, hisr, hbh⟩ b => by
      cases b with
      | host => exact hhost
      | isr => exact hisr
      | bh => exact hbh⟩
  rw [hall]
  cases a <;> simp [State.confirmedByOther, State.regObj]

theorem writeReg_of_unraced {s : State} {r : Reg} {a : HostAgent} (hu : s.Unraced r a) (v : Word) :
    writeReg a r v s = writeRule a r v s := by
  rw [writeReg, State.confirmedByOther_eq_false.2 hu]
  rfl

section Writes
variable {s : State} (r : Reg) {v : Word} (hu : s.Unraced r s.cur)
include hu

/-- A write that its rule takes leaves the state of the rule, and returns nothing. -/
theorem exec_write_ok {t : State} (h : writeRule s.cur r v s = .ok t) :
    exec (writeInstr r v) s = .next (t.setRet s.cur .unit) := by
  rw [exec_writeInstr, mmioWrite, writeReg_of_unraced hu, h]
  rfl

/-- A write that its rule faults on raises that fault, and has no other effect. -/
theorem exec_write_raised {f : FaultRecord} (h : writeRule s.cur r v s = .raised s f) :
    exec (writeInstr r v) s = .next (s.raise f) := by
  rw [exec_writeInstr, mmioWrite, writeReg_of_unraced hu, h]
  rfl

end Writes

end Sys2Proof.Machine
end

section
/-! PROOF of `ControlRegistersRead`, `RingRegistersRead` and `IcrStatusImcRead`: each register by its read rule. -/

namespace Sys2Proof.Machine

/-- EERD in layout L540: the word address in bits 15:8, DONE in bit 4 (40_mmio_registers.md R205). -/
theorem readReg_eerd_l540 {s : State} (h : s.params.variant.eerdLayout = .l540) :
    readReg .eerd s = ((s.ee.data.setWidth 32 <<< 16) ||| (s.ee.addr.setWidth 32 <<< 8) |||
      (if s.ee.done then bit 4 else 0#32), s) := by
  rw [readReg, State.layout, h]
  rfl

/-- EERD in layout L541: the word address in bits 15:2, DONE in bit 1 (R205). -/
theorem readReg_eerd_l541 {s : State} (h : s.params.variant.eerdLayout = .l541) :
    readReg .eerd s = ((s.ee.data.setWidth 32 <<< 16) ||| (s.ee.addr.setWidth 32 <<< 2) |||
      (if s.ee.done then bit 1 else 0#32), s) := by
  rw [readReg, State.layout, h]
  rfl

/-- Settles O5: one read rule for each register, EERD's by its layout. -/
theorem controlRegistersRead : Obligations.ControlRegistersRead :=
  ⟨⟨isReadWord .ctrl, isReadWord .eerd, isReadWord .ims, isReadWord .rctl, isReadWord .tctl, isReadWord .ral0,
      isReadWord .rah0⟩,
    fun _ => ⟨exec_read .ctrl rfl, fun h => exec_read .eerd (readReg_eerd_l540 h),
      fun h => exec_read .eerd (readReg_eerd_l541 h), exec_read .ims rfl, exec_read .rctl rfl, exec_read .tctl rfl,
      exec_read .ral0 rfl, exec_read .rah0 rfl⟩⟩

/-- The low half of a word, by its mask and by its bits. -/
theorem and_lowHalf (v : Word) : v &&& 0x0000FFFF#32 = (v.extractLsb' 0 16).setWidth 32 := by
  apply BitVec.eq_of_toNat_eq
  rw [BitVec.toNat_and, show (0x0000FFFF#32).toNat = 2 ^ 16 - 1 from rfl, Nat.and_two_pow_sub_one_eq_mod,
    BitVec.toNat_setWidth, BitVec.extractLsb'_toNat]
  omega

/-- A head or tail reads as its low half (R223, R225, R233, R235). -/
theorem exec_readIndex (r : Reg) {s : State} {v : Word} (h : readReg r s = (v &&& 0x0000FFFF#32, s)) :
    exec (readInstr r) s = .next (s.setRet s.cur (.word ((v.extractLsb' 0 16).setWidth 32))) :=
  exec_read r (and_lowHalf v ▸ h)

/-- Settles O6: one read rule for each register, and the low half of heads and tails. -/
theorem ringRegistersRead : Obligations.RingRegistersRead :=
  ⟨⟨isReadWord .rdbal, isReadWord .rdbah, isReadWord .rdlen, isReadWord .rdh, isReadWord .rdt, isReadWord .tdbal,
      isReadWord .tdbah, isReadWord .tdlen, isReadWord .tdh, isReadWord .tdt⟩,
    fun _ => ⟨exec_read .rdbal rfl, exec_read .rdbah rfl, exec_read .rdlen rfl, exec_readIndex .rdh rfl,
      exec_readIndex .rdt rfl, exec_read .tdbal rfl, exec_read .tdbah rfl, exec_read .tdlen rfl, exec_readIndex .tdh rfl,
      exec_readIndex .tdt rfl⟩⟩

/-- With no cause latched the interrupt line is low (46_dma_sequencer.md R433). -/
theorem State.irq_of_icr_zero {s : State} (h : s.regs.icr = 0#32) : s.irq = false := by simp [State.irq, h]

/-- Settles O7: the read rules of ICR, STATUS and IMC, and the line of a cleared ICR. -/
theorem icrStatusImcRead : Obligations.IcrStatusImcRead :=
  ⟨⟨isReadWord .icr, isReadWord .status, isReadWord .imc⟩,
    fun _ => ⟨⟨exec_read .icr rfl, State.irq_of_icr_zero rfl⟩, ⟨_, exec_read .status rfl⟩, ⟨_, exec_read .imc rfl⟩⟩⟩

end Sys2Proof.Machine
end

section
/-! PROOF of `PlainRegistersWrite`, `CtrlWritesOrResets` and `EerdWriteStartsRead`: each register by its write rule, CTRL
through the link evaluation and the device reset. -/

namespace Sys2Proof.Machine

/-- Settles O8: one write rule for each register. -/
theorem plainRegistersWrite : Obligations.PlainRegistersWrite :=
  ⟨⟨isWriteWord .status, isWriteWord .icr, isWriteWord .ims, isWriteWord .imc, isWriteWord .ral0, isWriteWord .rah0⟩,
    fun _ _ => ⟨fun hu => exec_write_ok .status hu rfl, fun hu => exec_write_ok .icr hu rfl,
      fun hu => exec_write_ok .ims hu rfl, fun hu => exec_write_ok .imc hu rfl, fun hu => exec_write_ok .ral0 hu rfl,
      fun hu => exec_write_ok .rah0 hu rfl⟩⟩

/-! ### CTRL (40_mmio_registers.md R202, 70_reset_and_hazards.md R491) -/

/-- `LinkEval` latches LSC where LU changed, and records LU (46_dma_sequencer.md R432). -/
theorem State.linkEval_eq (s : State) : s.linkEval =
    { s with
      regs := { s.regs with icr := if s.lu = s.luPrev then s.regs.icr else s.regs.icr ||| bit 2 }, luPrev := s.lu } := by
  rw [State.linkEval]
  by_cases h : s.lu = s.luPrev
  · simp [State.setCauseIf, h]
  · simp [State.setCauseIf, State.setCause, lsc, h]

/-- `LinkEval` has no effect where the recorded LU is the present one. -/
theorem State.linkEval_of_luPrev {s : State} (h : s.luPrev = s.lu) : s.linkEval = s := by
  rw [State.linkEval_eq, if_pos h.symm, ← h]

theorem writeCtrl_store {s : State} {v : Word} (h : v.getLsbD 26 = false) :
    writeCtrl v s = .ok (State.linkEval { s with regs := { s.regs with ctrl := v } }) := by
  rw [writeCtrl, h]
  rfl

/-- The reset of the device evaluates the link itself, so the evaluation behind it adds nothing. -/
theorem writeCtrl_reset {s : State} {v : Word} (h : v.getLsbD 26 = true) : writeCtrl v s = .ok s.deviceReset := by
  rw [writeCtrl, if_pos h, State.linkEval_of_luPrev (State.DeviceInv.deviceReset s).link]

/-- A ring base is 16-byte aligned by its mask and by its bits (10_state.md R45). -/
theorem extractLsb'_of_aligned {v : Word} (h : v &&& 0xF#32 = 0#32) : v.extractLsb' 0 4 = 0#4 := by
  have hlow := congrArg (BitVec.extractLsb' 0 4) h
  rwa [BitVec.extractLsb'_and, show BitVec.extractLsb' 0 4 0xF#32 = BitVec.allOnes 4 by decide, BitVec.and_allOnes] at hlow

/-- The transmitter is disabled by a reset (R44). -/
theorem State.txEnabled_deviceReset (s : State) : s.deviceReset.txEnabled = false := by
  simp [State.txEnabled, State.deviceReset, DevRegs.afterReset, bit]

/-- Settles O9: by bit 26, the link evaluation or the reset, whose drawn values are those of the reset state. -/
theorem ctrlWritesOrResets : Obligations.CtrlWritesOrResets := by
  refine ⟨isWriteWord .ctrl, fun s v hu hbit => ?_, fun s v hu hbit => ?_⟩
  · exact exec_write_ok .ctrl hu ((writeCtrl_store hbit).trans (congrArg Flow.ok (State.linkEval_eq _)))
  · have hreset := State.DeviceInv.deviceReset s
    let fresh := s.deviceReset.regs
    exact ⟨fresh.ctrl, fresh.tctl, fresh.rdbal, fresh.rdbah, fresh.tdbal, fresh.tdbah, Config.draw16 s.draws,
      s.deviceReset.draws, hreset.rst, s.txEnabled_deviceReset, extractLsb'_of_aligned hreset.rdbal,
      extractLsb'_of_aligned hreset.tdbal, exec_write_ok .ctrl hu (writeCtrl_reset hbit)⟩

/-! ### EERD (R206) -/

theorem eerdAddr_eq (l : EerdLayout) (v : Word) :
    eerdAddr l v = if l = .l540 then (v.extractLsb' 8 8).setWidth 14 else v.extractLsb' 2 14 := by cases l <;> rfl

section Eerd
variable {s : State} {a : HostAgent} {v : Word} {addr : BitVec 14} (haddr : eerdAddr s.layout v = addr)
include haddr

theorem writeEerd_store (h : v.getLsbD 0 = false) :
    writeEerd a v s = .ok { s with ee := { s.ee with addr := addr } } := by
  rw [writeEerd, h, haddr]
  rfl

theorem writeEerd_start (h : v.getLsbD 0 = true) (hidle : s.ee.busy = false) :
    writeEerd a v s = .ok { s with ee := { s.ee with addr := addr, busy := true, done := false } } := by
  rw [writeEerd, h, hidle, haddr]
  rfl

theorem writeEerd_busy (h : v.getLsbD 0 = true) (hbusy : s.ee.busy = true) :
    writeEerd a v s = .raised s ⟨.eerdBusy, a.toAgent, 206, addr.toNat⟩ := by
  rw [writeEerd, h, hbusy, haddr]
  rfl

end Eerd

/-- Settles O10: by START and the engine. -/
theorem eerdWriteStartsRead : Obligations.EerdWriteStartsRead := by
  refine ⟨isWriteWord .eerd, fun s v hu => ?_⟩
  have haddr := eerdAddr_eq s.layout v
  exact ⟨fun h => exec_write_ok .eerd hu (writeEerd_store haddr h),
    fun h hidle => exec_write_ok .eerd hu (writeEerd_start haddr h hidle),
    fun h hbusy => exec_write_raised .eerd hu (writeEerd_busy haddr h hbusy)⟩

end Sys2Proof.Machine
end

section
/-! PROOF of `EnablesNeedRingLength`, `RingProgramming` and `HeadsAndTailsWrite`: each of the three checks of the ring
registers' write rules once, for both rings. -/

namespace Sys2Proof.Machine

section Checks
variable {s : State} {a : HostAgent} {rule : Nat} {r : Reg} {enabled : Bool} {len v : Word}

/-! ### The checks (40_mmio_registers.md R214 to R236) -/

theorem initOrderFault_of_early (h : enabled = false ∧ v.getLsbD 1 = true ∧ len = 0#32) :
    initOrderFault s a rule r enabled len v = some ⟨.initOrder, a.toAgent, rule, s.off r⟩ := by
  obtain ⟨henabled, hv, hlen⟩ := h
  simp [initOrderFault, henabled, hv, hlen]

theorem initOrderFault_of_not_early (h : ¬ (enabled = false ∧ v.getLsbD 1 = true ∧ len = 0#32)) :
    initOrderFault s a rule r enabled len v = none := by simpa [initOrderFault] using h

theorem whileDisabled_of_disabled {go : Flow} (h : enabled = false) : whileDisabled a rule r enabled s go = go := by
  rw [whileDisabled, h]
  rfl

theorem whileDisabled_of_enabled {go : Flow} (h : enabled = true) :
    whileDisabled a rule r enabled s go = .raised s ⟨.ringReprogram, a.toAgent, rule, s.off r⟩ := if_pos h

theorem inRange_of_lt {n : Nat} {go : Word → Flow} (h : ((v.extractLsb' 0 16).setWidth 32 : Word).toNat < max n 1) :
    inRange a rule n v s go = go ((v.extractLsb' 0 16).setWidth 32) := by
  rw [inRange, and_lowHalf, if_neg (Nat.not_le.2 h)]

theorem inRange_of_not_lt {n : Nat} {go : Word → Flow} (h : ¬ ((v.extractLsb' 0 16).setWidth 32 : Word).toNat < max n 1) :
    inRange a rule n v s go =
      .raised s ⟨.ringRegRange, a.toAgent, rule, ((v.extractLsb' 0 16).setWidth 32 : Word).toNat⟩ := by
  rw [inRange, and_lowHalf, if_pos (Nat.not_lt.1 h)]

end Checks

/-! ### Enables (R214, R216) -/

section Enables
variable {s : State} {a : HostAgent} {v : Word}

theorem writeRctl_early (h : s.regs.rctl.getLsbD 1 = false ∧ v.getLsbD 1 = true ∧ s.regs.rdlen = 0#32) :
    writeRctl a v s = .raised s ⟨.initOrder, a.toAgent, 214, s.off .rctl⟩ := by
  simp only [writeRctl, State.rxEnabled, initOrderFault_of_early h]

theorem writeRctl_store (h : ¬ (s.regs.rctl.getLsbD 1 = false ∧ v.getLsbD 1 = true ∧ s.regs.rdlen = 0#32)) :
    writeRctl a v s = .ok { s with regs := { s.regs with rctl := v } } := by
  simp only [writeRctl, State.rxEnabled, initOrderFault_of_not_early h]

theorem writeTctl_early (h : s.regs.tctl.getLsbD 1 = false ∧ v.getLsbD 1 = true ∧ s.regs.tdlen = 0#32) :
    writeTctl a v s = .raised s ⟨.initOrder, a.toAgent, 216, s.off .tctl⟩ := by
  simp only [writeTctl, State.txEnabled, initOrderFault_of_early h]

theorem writeTctl_store (h : ¬ (s.regs.tctl.getLsbD 1 = false ∧ v.getLsbD 1 = true ∧ s.regs.tdlen = 0#32)) :
    writeTctl a v s = .ok { s with regs := { s.regs with tctl := v } } := by
  simp only [writeTctl, State.txEnabled, initOrderFault_of_not_early h]

end Enables

/-- Settles O11: by the enable's check, for each engine. -/
theorem enablesNeedRingLength : Obligations.EnablesNeedRingLength :=
  ⟨⟨isWriteWord .rctl, isWriteWord .tctl⟩,
    fun _ _ => ⟨fun hu h => exec_write_ok .rctl hu (writeRctl_store h),
      fun hu h => exec_write_raised .rctl hu (writeRctl_early h),
      fun hu h => exec_write_ok .tctl hu (writeTctl_store h),
      fun hu h => exec_write_raised .tctl hu (writeTctl_early h)⟩⟩

/-! ### Bases, lengths, heads and tails (R218 to R236) -/

section RingWrites
variable {s : State} (r : Reg) {v : Word} {enabled : Bool} {rule n : Nat} (hu : s.Unraced r s.cur)
include hu

/-- A base or length is stored while its engine is disabled. -/
theorem exec_writeProgrammed {t : State} (hrule : writeRule s.cur r v s = whileDisabled s.cur rule r enabled s (.ok t)) :
    (enabled = false → exec (writeInstr r v) s = .next (t.setRet s.cur .unit)) ∧
    (enabled = true →
      exec (writeInstr r v) s = .next (s.raise ⟨.ringReprogram, s.cur.toAgent, rule, pOffsets s.params.offsets r⟩)) :=
  ⟨fun h => exec_write_ok r hu (hrule.trans (whileDisabled_of_disabled h)),
    fun h => exec_write_raised r hu (hrule.trans (whileDisabled_of_enabled h))⟩

/-- A tail is stored where it is in range. -/
theorem exec_writeTail {store : Word → State} (hrule : writeRule s.cur r v s = inRange s.cur rule n v s fun x => .ok (store x)) :
    let x : Word := (v.extractLsb' 0 16).setWidth 32
    (¬ x.toNat < max n 1 →
      exec (writeInstr r v) s = .next (s.raise ⟨.ringRegRange, s.cur.toAgent, rule, x.toNat⟩)) ∧
    (x.toNat < max n 1 → exec (writeInstr r v) s = .next ((store x).setRet s.cur .unit)) :=
  ⟨fun h => exec_write_raised r hu (hrule.trans (inRange_of_not_lt h)),
    fun h => exec_write_ok r hu (hrule.trans (inRange_of_lt h))⟩

/-- A head is stored while its engine is disabled, where it is in range. -/
theorem exec_writeHead {store : Word → State} (hrule : writeRule s.cur r v s =
      whileDisabled s.cur rule r enabled s (inRange s.cur rule n v s fun x => .ok (store x))) :
    let x : Word := (v.extractLsb' 0 16).setWidth 32
    (enabled = true →
      exec (writeInstr r v) s = .next (s.raise ⟨.ringReprogram, s.cur.toAgent, rule, pOffsets s.params.offsets r⟩)) ∧
    (enabled = false → ¬ x.toNat < max n 1 →
      exec (writeInstr r v) s = .next (s.raise ⟨.ringRegRange, s.cur.toAgent, rule, x.toNat⟩)) ∧
    (enabled = false → x.toNat < max n 1 → exec (writeInstr r v) s = .next ((store x).setRet s.cur .unit)) := by
  have htail := fun h : enabled = false => exec_writeTail r hu (hrule.trans (whileDisabled_of_disabled h))
  exact ⟨fun h => exec_write_raised r hu (hrule.trans (whileDisabled_of_enabled h)), fun h => (htail h).1,
    fun h => (htail h).2⟩

end RingWrites

/-- Settles O12: each register by the check of its engine. -/
theorem ringProgramming : Obligations.RingProgramming :=
  ⟨⟨isWriteWord .rdbal, isWriteWord .rdbah, isWriteWord .rdlen, isWriteWord .tdbal, isWriteWord .tdbah, isWriteWord .tdlen⟩,
    fun _ _ => ⟨fun hu => exec_writeProgrammed .rdbal hu rfl, fun hu => exec_writeProgrammed .rdbah hu rfl,
      fun hu => exec_writeProgrammed .rdlen hu rfl, fun hu => exec_writeProgrammed .tdbal hu rfl,
      fun hu => exec_writeProgrammed .tdbah hu rfl, fun hu => exec_writeProgrammed .tdlen hu rfl⟩⟩

/-- Settles O13: heads by both checks, tails by the range alone. -/
theorem headsAndTailsWrite : Obligations.HeadsAndTailsWrite :=
  ⟨⟨isWriteWord .rdh, isWriteWord .rdt, isWriteWord .tdh, isWriteWord .tdt⟩,
    fun s _ => ⟨fun hu => exec_writeHead .rdh hu (store := fun x => { s with regs := { s.regs with rdh := x } }) rfl,
      fun hu => exec_writeTail .rdt hu (store := fun x => { s with regs := { s.regs with rdt := x } }) rfl,
      fun hu => exec_writeHead .tdh hu (store := fun x => { s with regs := { s.regs with tdh := x } }) rfl,
      fun hu => exec_writeTail .tdt hu (store := fun x => { s with regs := { s.regs with tdt := x } }) rfl⟩⟩

end Sys2Proof.Machine
end

section
/-! SUPPORT. The register mapper's operations: what staging, a setter and each step of a confirm leave, and where they fault
(41_register_mapper.md R260 to R281). -/

namespace Sys2Proof.Machine

/-! ### Staging (R260, R261, R263 (a)) -/

section Staging
variable {s : State} {r : Reg}

theorem stage_of_mayStage (h : s.MayStage r s.cur) (on off : Word) : stage s.cur r on off s = .ok (s.staged r on off) := by
  rcases stage_cases s.cur r on off s with ⟨-, hstage⟩ | ⟨hnot, -⟩
  · exact hstage
  · exact absurd h hnot

/-- Another agent's pending masks stop a staging, which then has no effect. -/
theorem stage_of_not_mayStage (h : ¬ s.MayStage r s.cur) (on off : Word) :
    stage s.cur r on off s = .raised s ⟨.regRace, s.cur.toAgent, 263, pOffsets s.params.offsets r⟩ := by
  rcases stage_cases s.cur r on off s with ⟨hmay, -⟩ | ⟨-, hstage⟩
  · exact absurd hmay h
  · exact hstage

theorem regSet_of_mayStage (h : s.MayStage r s.cur) (values mask : Word) :
    regSet s.cur r values mask s = .ok (s.afterSet r values mask) := stage_of_mayStage h _ _

theorem regSet_of_not_mayStage (h : ¬ s.MayStage r s.cur) (values mask : Word) :
    regSet s.cur r values mask s = .raised s ⟨.regRace, s.cur.toAgent, 263, pOffsets s.params.offsets r⟩ :=
  stage_of_not_mayStage h _ _

theorem regDecide_of_mayStage (h : s.MayStage r s.cur) (values : Word) (enable : Bool) :
    regDecide s.cur r values enable s = .ok (s.afterDecide r values enable) := by
  cases enable with
  | true => exact stage_of_mayStage h _ _
  | false => exact stage_of_mayStage h _ _

theorem regDecide_of_not_mayStage (h : ¬ s.MayStage r s.cur) (values : Word) (enable : Bool) :
    regDecide s.cur r values enable s = .raised s ⟨.regRace, s.cur.toAgent, 263, pOffsets s.params.offsets r⟩ := by
  cases enable with
  | true => exact stage_of_not_mayStage h _ _
  | false => exact stage_of_not_mayStage h _ _

/-- An agent that has staged may stage again: the masks are its own, or empty (10_state.md R60). -/
theorem mayStage_staged (on off : Word) : (s.staged r on off).MayStage r s.cur := by
  rw [State.MayStage, State.staged, State.regObj_setRegObj]
  split
  · exact .inl rfl
  · exact .inr rfl

end Staging

/-! ### Operations of the mapper as they are issued (R260 to R262) -/

section Issued
variable {s : State} {r : Reg} {i : Instr} {op : HostOp}

/-- An operation of the mapper that is not refused does what its body does: any agent may issue it (60_exceptions.md R470). -/
theorem exec_of_body {body : State → Flow} (hi : ∀ s, exec i s = hostOp 6 anyAgent op body s) (hready : s.Ready 6) :
    exec i s = .next (body s).state := (hi s).trans (hostOp_body hready rfl)

/-- The three operations that stage or confirm a register return Refused on ICR (log entry 24). -/
theorem exec_unlessIcr {body : State → Flow}
    (hi : ∀ s, exec i s = hostOp 6 anyAgent op (fun s => if r = .icr then .ok s.refuse else body s) s) (hready : s.Ready 6) :
    (r = .icr → exec i s = .next (s.setRet s.cur .refused)) ∧ (r ≠ .icr → exec i s = .next (body s).state) := by
  rw [exec_of_body hi hready]
  exact ⟨fun hr => by rw [if_pos hr]; rfl, fun hr => by rw [if_neg hr]⟩

variable (hready : s.Ready 6)
include hready

theorem exec_regSet (values mask : Word) :
    (r = .icr → exec (.regSet r values mask) s = .next (s.setRet s.cur .refused)) ∧
    (r ≠ .icr → exec (.regSet r values mask) s =
      .next ((regSet s.cur r values mask s).andThen fun t => .ok (t.setRet s.cur .unit)).state) :=
  exec_unlessIcr (body := fun s => (regSet s.cur r values mask s).andThen fun t => .ok (t.setRet s.cur .unit))
    (fun _ => rfl) hready

theorem exec_regDecide (values : Word) (enable : Bool) :
    (r = .icr → exec (.regDecide r values enable) s = .next (s.setRet s.cur .refused)) ∧
    (r ≠ .icr → exec (.regDecide r values enable) s =
      .next ((regDecide s.cur r values enable s).andThen fun t => .ok (t.setRet s.cur .unit)).state) :=
  exec_unlessIcr (body := fun s => (regDecide s.cur r values enable s).andThen fun t => .ok (t.setRet s.cur .unit))
    (fun _ => rfl) hready

end Issued

/-! ### Setters (R266 to R280) -/

section Setters
variable {s : State} {st : Setting}

/-- Without its feature a setter does nothing, whatever its argument. -/
theorem settingOp_unsupported (h : st.feature ∉ s.params.features) :
    settingOp st s = .ok (s.setRet s.cur (.err .unsupported)) := by
  simp [settingOp, Setting.check, State.supports, h]

theorem settingOp_outside (h : st.feature ∈ s.params.features) (hst : st.staging = none) :
    settingOp st s = .ok (s.setRet s.cur (.err .config)) := by
  simp [settingOp, Setting.check, State.supports, h, hst]

theorem settingOp_inside {g : Staging} (h : st.feature ∈ s.params.features) (hst : st.staging = some g) :
    settingOp st s = (g.run s.cur s).andThen fun t => .ok (t.setRet s.cur .ok) := by
  simp [settingOp, Setting.check, State.supports, h, hst]

end Setters

section SetterInstr
variable {i : Instr} {op : HostOp} (st : Setting) (hi : ∀ s, exec i s = hostOp 6 anyAgent op (settingOp st) s)
include hi

theorem exec_setter {s t : State} (hready : s.Ready 6) (h : (settingOp st s).state = t) : exec i s = .next t := by
  rw [exec_of_body hi hready, h]

theorem rejectsArgument_of_staging (hst : st.staging = none) : RejectsArgument i st.feature := fun _ hready =>
  ⟨fun hf => exec_setter st hi hready (by rw [settingOp_outside hf hst]; rfl),
    fun hf => exec_setter st hi hready (by rw [settingOp_unsupported hf]; rfl)⟩

theorem stagesAs_of_run {g : Staging} {r : Reg} {after : State → State} (hst : st.staging = some g)
    (hmay : ∀ s : State, s.MayStage r s.cur → g.run s.cur s = .ok (after s))
    (hrace : ∀ s : State, ¬ s.MayStage r s.cur →
      g.run s.cur s = .raised s ⟨.regRace, s.cur.toAgent, 263, pOffsets s.params.offsets r⟩) :
    StagesAs i st.feature r after := fun s hready =>
  ⟨fun hf h => exec_setter st hi hready (by rw [settingOp_inside hf hst, hmay s h]; rfl),
    fun hf h => exec_setter st hi hready (by rw [settingOp_inside hf hst, hrace s h]; rfl),
    fun hf => exec_setter st hi hready (by rw [settingOp_unsupported hf]; rfl)⟩

theorem stagesAs_set {r : Reg} {values mask : Word} (hst : st.staging = some (.set r values mask)) :
    StagesAs i st.feature r (fun s => s.afterSet r values mask) :=
  stagesAs_of_run st hi hst (fun _ h => regSet_of_mayStage h values mask) fun _ h => regSet_of_not_mayStage h values mask

theorem stagesAs_decide {r : Reg} {values : Word} {enable : Bool} (hst : st.staging = some (.decide r values enable)) :
    StagesAs i st.feature r (fun s => s.afterDecide r values enable) :=
  stagesAs_of_run st hi hst (fun _ h => regDecide_of_mayStage h values enable) fun _ h =>
    regDecide_of_not_mayStage h values enable

end SetterInstr

/-! ### The first step of a confirm (R262) -/

/-- A read neither sees nor changes what the agents have left to do and their results. -/
theorem confirmLive_agents (r : Reg) (s : State) (p : ByAgent AgentState) :
    confirmLive r { s with agents := p } = ((confirmLive r s).1, { (confirmLive r s).2 with agents := p }) := by
  cases r <;> rfl

/-- What an agent has left to do and its result, in either order of their updates. -/
theorem State.setRet_setWork (s : State) (a : HostAgent) (w : List Micro) (p : Ret) :
    (s.setWork a w).setRet a p = { s with agents := s.agents.set a ⟨w, p⟩ } := by cases a <;> rfl

theorem State.setWork_setRet (s : State) (a : HostAgent) (w : List Micro) (p : Ret) :
    (s.setRet a p).setWork a w = { s with agents := s.agents.set a ⟨w, p⟩ } := by cases a <;> rfl

/-- The state between the two steps: the read's, with the agent inside the confirm and the write left to do. -/
theorem State.confirmStarted_eq (r : Reg) (s : State) :
    s.confirmStarted r =
      { (confirmLive r s).2.setInConfirm r s.cur true with
        agents := s.agents.set s.cur ⟨.confirmWrite r (confirmLive r s).1 :: s.work s.cur, .pending⟩ } := by
  have hagents : (confirmLive r s).2.agents = s.agents := by cases r <;> rfl
  rw [← hagents]
  exact State.setRet_setWork ((confirmLive r s).2.setInConfirm r s.cur true) s.cur _ _

/-- An agent whose next frame goes on. -/
theorem advance_of_run {a : HostAgent} {s t : State} {m : Micro} {rest push : List Micro} (hw : s.work a = m :: rest)
    (hm : m.run a s = .run t push) : advance a s = unwind a (push ++ rest) t := by
  simp only [advance, hw, hm]

/-- An agent whose next frame faults. -/
theorem advance_of_raised {a : HostAgent} {s t : State} {m : Micro} {rest : List Micro} {f : FaultRecord}
    (hw : s.work a = m :: rest) (hm : m.run a s = .raised t f) : advance a s = .raised t f := by
  simp only [advance, hw, hm]

/-- A confirm's first step is part of its issue. -/
theorem startOp_confirmRead (r : Reg) (s : State) : startOp [.confirmRead r] s = .ok (s.confirmStarted r) := by
  have hinstall : install s.cur [.confirmRead r] s =
      .ok ((s.setRet s.cur .pending).setWork s.cur (.confirmRead r :: s.work s.cur)) := unwind_step rfl
  rw [startOp, hinstall, Flow.ok_andThen, advance_of_run (State.work_setWork _ _ _) rfl, List.singleton_append,
    unwind_step rfl, State.setWork_setRet, confirmLive_agents, State.confirmStarted_eq]
  simp only [State.setWork, State.setInConfirm_agents, ByAgent.get_set_self, ByAgent.set_set]
  rfl

theorem exec_regConfirm {s : State} (r : Reg) (hready : s.Ready 6) :
    (r = .icr → exec (.regConfirm r) s = .next (s.setRet s.cur .refused)) ∧
    (r ≠ .icr → exec (.regConfirm r) s = .next (s.confirmStarted r)) := by
  have h := exec_unlessIcr (i := .regConfirm r) (body := startOp [.confirmRead r]) (fun _ => rfl) hready
  rwa [startOp_confirmRead] at h

/-! ### The second step of a confirm (R262) -/

/-- With nothing staged a confirm writes what it read. -/
theorem confirmValue_of_empty {o : RegObj} (hon : o.onMask = 0#32) (hoff : o.offMask = 0#32) (live : Word) :
    confirmValue o live = live := by
  rw [confirmValue, hon, hoff, BitVec.not_zero, BitVec.and_allOnes, BitVec.or_zero]

section ConfirmWrite
variable {a : HostAgent} {r : Reg} {live : Word} {s t : State} (hw : s.work a = [.confirmWrite r live])
include hw

/-- The write that the register takes is followed by the empty masks and the value written. -/
theorem advance_confirmWrite_ok (h : writeReg a r (confirmValue (s.regObj r) live) s = .ok t) :
    advance a s = .ok (((t.setRegObj r ((t.regObj r).confirmed a)).setRet a
      (.word (confirmValue (s.regObj r) live))).setWork a []) := by
  refine advance_of_run hw (push := []) ?_
  rw [Micro.run, confirmWrite, h]
  rfl

theorem advance_confirmWrite_raised {f : FaultRecord}
    (h : writeReg a r (confirmValue (s.regObj r) live) s = .raised t f) : advance a s = .raised t f := by
  refine advance_of_raised hw ?_
  rw [Micro.run, confirmWrite, h]
  rfl

end ConfirmWrite

theorem perform_resume {s : State} {a : HostAgent} (reply : Reply) (h : s.mayRun a = true) :
    perform (.resume a reply) s = .next (advance a (s.asAgent a reply)).state := if_pos h

end Sys2Proof.Machine
end

section
/-! PROOF of `WriteDuringConfirmRaces`, `SetAndDecideStage`, `BooleanSettersStage` and `SettersValidate`: each write by the
single-writer check, each staging by whose masks are pending, each setter by its feature and its argument. -/

namespace Sys2Proof.Machine

/-- Settles O14: the single-writer check comes before the register's rule, and finds the other agent. -/
theorem writeDuringConfirmRaces : Obligations.WriteDuringConfirmRaces := fun s r v hrace => by
  have hother : s.confirmedByOther r s.cur = true := by
    rwa [← State.confirmedByOther_eq_false, Bool.not_eq_false] at hrace
  rw [exec_writeInstr, mmioWrite, writeReg, hother]
  rfl

/-- Settles O15: by whose masks are pending; `set` keeps disjoint masks so. -/
theorem setAndDecideStage : Obligations.SetAndDecideStage := by
  refine ⟨fun s r values mask hready => ?_, fun s r values enable hready => ?_⟩
  · obtain ⟨hicr, hexec⟩ := exec_regSet (r := r) hready values mask
    refine ⟨⟨.regSet, rfl, by decide⟩, hicr, fun hr h => ?_, fun hr h => ⟨?_, fun hd => RegObj.set_disjoint hd values mask⟩⟩
    · rw [hexec hr, regSet_of_not_mayStage h]; rfl
    · rw [hexec hr, regSet_of_mayStage h]; rfl
  · obtain ⟨hicr, hexec⟩ := exec_regDecide (r := r) hready values enable
    refine ⟨⟨.regDecide, rfl, by decide⟩, hicr, fun hr h => ?_, fun hr h => ⟨?_, ?_⟩⟩
    · rw [hexec hr, regDecide_of_not_mayStage h]; rfl
    · rintro rfl
      rw [hexec hr, regDecide_of_mayStage h]; rfl
    · rintro rfl
      rw [hexec hr, regDecide_of_mayStage h]; rfl

/-- Settles O19: each setter decides its one bit. -/
theorem booleanSettersStage : Obligations.BooleanSettersStage := fun b =>
  ⟨stagesAs_decide (.linkUp b) (fun _ => rfl) rfl, stagesAs_decide (.autoSpeed b) (fun _ => rfl) rfl,
    stagesAs_decide (.rcEnable b) (fun _ => rfl) rfl, stagesAs_decide (.broadcast b) (fun _ => rfl) rfl,
    stagesAs_decide (.tcEnable b) (fun _ => rfl) rfl, stagesAs_decide (.padShort b) (fun _ => rfl) rfl⟩

/-! ### Domains (41_register_mapper.md R271 to R273, R277 to R280) -/

/-- A field value of a natural number stands `k` bits up. -/
theorem ofInt_natCast_shiftLeft (v k : Nat) : BitVec.ofInt 32 (v : Int) <<< k = BitVec.ofNat 32 (v * 2 ^ k) := by
  apply BitVec.eq_of_toNat_eq
  simp [Nat.shiftLeft_eq]

theorem staging_loopback_inside : ∀ p ∈ [((0 : Int), 0x00#32), (3, 0xC0#32)],
    (Setting.loopback p.1).staging = some (.set .rctl p.2 0x000000C0#32) := by decide

theorem staging_bufSize_inside :
    ∀ p ∈ [((2048 : Int), 0x00000000#32), (1024, 0x00010000#32), (512, 0x00020000#32), (256, 0x00030000#32),
      (16384, 0x02010000#32), (8192, 0x02020000#32), (4096, 0x02030000#32)],
    (Setting.bufSize p.1).staging = some (.set .rctl p.2 0x02030000#32) := by decide

theorem staging_minThreshold_inside : ∀ p ∈ [((2 : Int), 0x000#32), (4, 0x100#32), (8, 0x200#32)],
    (Setting.minThreshold p.1).staging = some (.set .rctl p.2 0x00000300#32) := by decide

theorem staging_collThresh_inside {v : Nat} (h : v ≤ 255) :
    (Setting.collThresh v).staging = some (.set .tctl (BitVec.ofNat 32 (v * 16)) 0x00000FF0#32) := by
  rw [Setting.staging, if_pos (by omega), ofInt_natCast_shiftLeft v 4, show 2 ^ 4 = 16 from rfl]

theorem staging_collDist_inside {v : Nat} (h : v ≤ 1023) :
    (Setting.collDist v).staging = some (.set .tctl (BitVec.ofNat 32 (v * 4096)) 0x003FF000#32) := by
  rw [Setting.staging, if_pos (by omega), ofInt_natCast_shiftLeft v 12, show 2 ^ 12 = 4096 from rfl]

theorem staging_bufSize_outside {size : Int} (h : size ∉ [(256 : Int), 512, 1024, 2048, 4096, 8192, 16384]) :
    (Setting.bufSize size).staging = none := by
  simp only [List.mem_cons, List.not_mem_nil, or_false, not_or] at h
  simp [Setting.staging, bufSizeCode, h]

theorem staging_minThreshold_outside {f : Int} (h : f ∉ [(2 : Int), 4, 8]) : (Setting.minThreshold f).staging = none := by
  simp only [List.mem_cons, List.not_mem_nil, or_false, not_or] at h
  simp [Setting.staging, minThresholdCode, h]

/-- The sets of causes that `ie.enable` and `id.disable` take: non-empty, and of modelled causes alone (R279, R280). -/
theorem causesOk_iff {causes : Word} : causesOk causes = true ↔ causes ≠ 0#32 ∧ causes &&& ~~~0x000002D7#32 = 0#32 := by
  simp [causesOk, modelledCauses]

/-- Settles O20: each setter by its domain, whose values have the field codes of the rules. -/
theorem settersValidate : Obligations.SettersValidate := by
  refine ⟨fun m code h => ?_, fun m h0 h3 => ?_, fun size code h => ?_, fun size h => ?_, fun f code h => ?_, fun f h => ?_,
    fun v h => ?_, fun v h => ?_, fun v h => ?_, fun v h => ?_, fun causes => ⟨fun hne hmod => ?_, fun h => ?_⟩⟩
  · exact stagesAs_set (.loopback m) (fun _ => rfl) (staging_loopback_inside _ h)
  · exact rejectsArgument_of_staging (.loopback m) (fun _ => rfl) (if_neg (not_or.2 ⟨h0, h3⟩))
  · exact stagesAs_set (.bufSize size) (fun _ => rfl) (staging_bufSize_inside _ h)
  · exact rejectsArgument_of_staging (.bufSize size) (fun _ => rfl) (staging_bufSize_outside h)
  · exact stagesAs_set (.minThreshold f) (fun _ => rfl) (staging_minThreshold_inside _ h)
  · exact rejectsArgument_of_staging (.minThreshold f) (fun _ => rfl) (staging_minThreshold_outside h)
  · exact stagesAs_set (.collThresh v) (fun _ => rfl) (staging_collThresh_inside h)
  · exact rejectsArgument_of_staging (.collThresh v) (fun _ => rfl) (if_neg (by omega))
  · exact stagesAs_set (.collDist v) (fun _ => rfl) (staging_collDist_inside h)
  · exact rejectsArgument_of_staging (.collDist v) (fun _ => rfl) (if_neg (by omega))
  · have hok : causesOk causes = true := causesOk_iff.2 ⟨hne, hmod⟩
    exact ⟨stagesAs_decide (.ieEnable causes) (fun _ => rfl) (if_pos hok),
      stagesAs_decide (.idDisable causes) (fun _ => rfl) (if_pos hok)⟩
  · have hbad : ¬ causesOk causes = true := fun hok =>
      have ⟨hne, hmod⟩ := causesOk_iff.1 hok
      h.elim hne fun hunmod => hunmod hmod
    exact ⟨rejectsArgument_of_staging (.ieEnable causes) (fun _ => rfl) (if_neg hbad),
      rejectsArgument_of_staging (.idDisable causes) (fun _ => rfl) (if_neg hbad)⟩

end Sys2Proof.Machine
end

section
/-! PROOF of `LastDecisionWins`, `ConfirmReadsThenWrites`, `ManageConfirmsGroup` and `ReadDirectReads`: one decision at a time,
and a confirm by its two steps. -/

namespace Sys2Proof.Machine

/-! ### Decisions (41_register_mapper.md R261, R265) -/

section Decisions
variable {s : State} {r : Reg}

@[simp] theorem State.regObj_setRet (s : State) (a : HostAgent) (p : Ret) (r : Reg) :
    (s.setRet a p).regObj r = s.regObj r := rfl

theorem regObj_afterDecide (values : Word) (enable : Bool) :
    (s.afterDecide r values enable).regObj r =
      (s.regObj r).withMasks s.cur
        (if enable then (s.regObj r).onMask ||| values else (s.regObj r).onMask &&& ~~~values)
        (if enable then (s.regObj r).offMask &&& ~~~values else (s.regObj r).offMask ||| values) := by
  cases enable with
  | true => exact State.regObj_setRegObj _ _ _
  | false => exact State.regObj_setRegObj _ _ _

/-- A decision leaves disjoint masks disjoint. -/
theorem disjoint_afterDecide (h : (s.regObj r).onMask &&& (s.regObj r).offMask = 0#32) (values : Word) (enable : Bool) :
    ((s.afterDecide r values enable).regObj r).onMask &&& ((s.afterDecide r values enable).regObj r).offMask = 0#32 := by
  rw [regObj_afterDecide]
  cases enable with
  | true => exact RegObj.decide_disjoint h values
  | false =>
    rw [BitVec.and_comm] at h ⊢
    exact RegObj.decide_disjoint h values

theorem getLsbD_confirmValue (o : RegObj) (initial : Word) {k : Nat} (hk : k < 32) :
    (confirmValue o initial).getLsbD k = (initial.getLsbD k && !o.offMask.getLsbD k || o.onMask.getLsbD k) := by
  simp [confirmValue, hk]

/-- A confirm writes the bits that a decision covers as decided, and every other bit as it would have before. -/
theorem confirmValue_afterDecide (values : Word) (enable : Bool) (initial : Word) {k : Nat} (hk : k < 32) :
    (confirmValue ((s.afterDecide r values enable).regObj r) initial).getLsbD k =
      if values.getLsbD k then enable else (confirmValue (s.regObj r) initial).getLsbD k := by
  rw [regObj_afterDecide, getLsbD_confirmValue _ _ hk, getLsbD_confirmValue _ _ hk]
  cases enable <;> cases hv : values.getLsbD k <;>
    simp [-BitVec.getLsbD_eq_getElem, RegObj.withMasks, hk, hv]

/-- A decision on masks that are the agent's own, or empty, completes. -/
theorem execAll_regDecide (hr : r ≠ .icr) (hready : s.Ready 6) (hmay : s.MayStage r s.cur) (values : Word) (enable : Bool)
    (is : List Instr) :
    execAll (.regDecide r values enable :: is) s = execAll is ((s.afterDecide r values enable).setRet s.cur .unit) := by
  have hexec : exec (.regDecide r values enable) s = .next ((s.afterDecide r values enable).setRet s.cur .unit) := by
    rw [(exec_regDecide hready values enable).2 hr, regDecide_of_mayStage hmay]
    rfl
  have hfaults : ((s.afterDecide r values enable).setRet s.cur .unit).faults = s.faults := by cases enable <;> rfl
  simp only [execAll, hexec, hfaults, if_true]

/-- The law of R265 from any masks that the agent may stage on: what a confirm would write before takes the place of the
initial value. -/
theorem execAll_decisions (decisions : List (Word × Bool)) (hr : r ≠ .icr) (hready : s.Ready 6) (hmay : s.MayStage r s.cur)
    (hdisj : (s.regObj r).onMask &&& (s.regObj r).offMask = 0#32) :
    ∃ t, execAll (decisions.map fun d => .regDecide r d.1 d.2) s = some t ∧
      (t.regObj r).onMask &&& (t.regObj r).offMask = 0#32 ∧
      ∀ (initial : Word) (k : Nat), k < 32 →
        (confirmValue (t.regObj r) initial).getLsbD k =
          match decisions.reverse.find? (fun d => d.1.getLsbD k) with
          | some d => d.2
          | none => (confirmValue (s.regObj r) initial).getLsbD k := by
  induction decisions generalizing s with
  | nil => exact ⟨s, rfl, hdisj, fun _ _ _ => rfl⟩
  | cons d ds ih =>
    obtain ⟨values, enable⟩ := d
    obtain ⟨t, hrun, hd, hbits⟩ := ih (s := (s.afterDecide r values enable).setRet s.cur .unit)
      (by cases enable <;> exact hready) (by cases enable <;> exact mayStage_staged _ _)
      (disjoint_afterDecide hdisj values enable)
    refine ⟨t, (execAll_regDecide hr hready hmay values enable _).trans hrun, hd, fun initial k hk => ?_⟩
    rw [hbits initial k hk, List.reverse_cons, List.find?_append]
    cases ds.reverse.find? (fun d => d.1.getLsbD k) with
    | some d => rfl
    | none =>
      simp only [State.regObj_setRet, confirmValue_afterDecide values enable initial hk]
      cases hv : values.getLsbD k <;> simp [hv]

end Decisions

/-- Settles O16: by induction on the decisions; empty masks leave the initial value. -/
theorem lastDecisionWins : Obligations.LastDecisionWins := fun s r decisions hr hready hempty => by
  have hmay : s.MayStage r s.cur := .inl (congrArg RegObj.stagedBy hempty)
  obtain ⟨t, hrun, hdisj, hbits⟩ := execAll_decisions decisions hr hready hmay (by rw [hempty]; decide)
  have hinitial : ∀ initial, confirmValue (s.regObj r) initial = initial :=
    confirmValue_of_empty (congrArg RegObj.onMask hempty) (congrArg RegObj.offMask hempty)
  simp only [hinitial] at hbits
  exact ⟨t, hrun, hdisj, hbits⟩

/-! ### The two steps of a confirm (R262) -/

/-- The Register object after a confirm is as R262 says, where the write left the mapper as it was. -/
theorem RegObj.afterConfirm_confirmed (o : RegObj) (a : HostAgent) : (o.confirmed a).AfterConfirm o a := ⟨rfl, rfl, rfl, rfl⟩

theorem regObj_of_writeReg {a : HostAgent} {r q : Reg} {v : Word} {s t : State} (h : writeReg a r v s = .ok t) :
    t.regObj q = s.regObj q := by
  rw [writeReg_ok h]
  rfl

theorem faults_of_writeReg {a : HostAgent} {r : Reg} {v : Word} {s t : State} (h : writeReg a r v s = .ok t) :
    t.faults = s.faults := by
  rw [writeReg_ok h]

/-- Settles O17: the first step is the issue's; the second by what the register's write answers. -/
theorem confirmReadsThenWrites : Obligations.ConfirmReadsThenWrites := by
  refine ⟨fun s r hready => ⟨⟨.regConfirm, rfl, by decide⟩, exec_regConfirm r hready⟩, fun s a reply r live hrun hw => ?_⟩
  have hw1 : (s.asAgent a reply).work a = [.confirmWrite r live] := hw
  intro v s1
  rw [exec_writeInstr, mmioWrite, perform_resume reply hrun]
  cases hwrite : writeReg a r v s1 with
  | ok t =>
    have hobj : t.regObj r = s1.regObj r := regObj_of_writeReg hwrite
    rw [show writeReg s1.cur r v s1 = .ok t from hwrite, advance_confirmWrite_ok hw1 hwrite]
    refine ⟨fun u hu _ => ?_, fun u hu hfault => ?_⟩ <;> cases hu
    · exact ⟨(t.regObj r).confirmed a, hobj ▸ RegObj.afterConfirm_confirmed _ a, by cases a <;> rfl⟩
    · exact absurd (faults_of_writeReg hwrite) hfault
  | raised t f =>
    rw [show writeReg s1.cur r v s1 = .raised t f from hwrite, advance_confirmWrite_raised hw1 hwrite, writeReg_raised hwrite]
    refine ⟨fun u hu hfault => ?_, fun u hu _ => ?_⟩ <;> cases hu
    · exact absurd hfault (by simp [s1])
    · rfl

/-! ### Groups and reads (R264, R267, R281) -/

/-- `grp.manage` is the first step of the confirm of the group's register, where the group is supported. -/
theorem exec_grpManage {s : State} (g : Group) (hready : s.Ready 6) :
    (.group g ∈ s.params.features → exec (.grpManage g) s = .next (s.confirmStarted (groupReg g))) ∧
    (.group g ∉ s.params.features → exec (.grpManage g) s = .next (s.setRet s.cur (.err .unsupported))) := by
  rw [exec_of_body (i := .grpManage g) (fun _ => rfl) hready, startOp_confirmRead]
  exact ⟨fun h => by simp [State.supports, h], fun h => by simp [State.supports, h]⟩

/-- Settles O21: both start the confirm of the group's register. -/
theorem manageConfirmsGroup : Obligations.ManageConfirmsGroup := fun s g r hready hg => by
  have hreg : ∀ p ∈ [(Group.dc, Reg.ctrl), (.rc, .rctl), (.tc, .tctl), (.ie, .ims), (.id, .imc)],
      p.2 = groupReg p.1 ∧ p.2 ≠ .icr := by decide
  obtain ⟨hr, hicr⟩ : r = groupReg g ∧ r ≠ .icr := hreg (g, r) hg
  subst hr
  obtain ⟨hsupported, hunsupported⟩ := exec_grpManage g hready
  exact ⟨⟨.grpManage, rfl, by decide⟩,
    fun h => ⟨hsupported h, (hsupported h).trans ((exec_regConfirm _ hready).2 hicr).symm⟩, hunsupported⟩

/-- Settles O22: both answer what the read rule gives, and a read changes at most ICR and the draws. -/
theorem readDirectReads : Obligations.ReadDirectReads := fun s r hready => by
  have hexec : exec (.regReaddirect r) s = mmioRead r s := exec_of_body (i := .regReaddirect r) (fun _ => rfl) hready
  refine ⟨⟨.regReaddirect, rfl, by decide⟩, hexec.trans (exec_readInstr r s).symm, _, hexec, ?_⟩
  have hicr : r = .icr → (readReg r s).2.regs.icr = 0#32 := by rintro rfl; rfl
  have hkeeps : (readReg r s).2.mapper = s.mapper ∧ (readReg r s).2.mem = s.mem ∧ (readReg r s).2.drv = s.drv := by
    rcases readReg_state r s with h | h | ⟨-, h⟩ <;> rw [h] <;> exact ⟨rfl, rfl, rfl⟩
  obtain ⟨hmapper, hmem, hdrv⟩ := hkeeps
  exact ⟨hmapper, hmem, hdrv, hicr, fun hr => readReg_regs hr s⟩

end Sys2Proof.Machine
end

section
/-! PROOF of `EmptyConfirmIsNoop`: what a register reads is what it holds, and storing that again changes nothing. -/

namespace Sys2Proof.Machine

/-! ### A word under its mask (10_state.md R35 to R48) -/

/-- A word without a bit outside a mask is itself under the mask. -/
theorem and_mask_of_masked {v m k : Word} (h : v &&& k = 0#32) (hk : k = ~~~m := by decide) : v &&& m = v := by
  have hsplit : v &&& m ||| v &&& k = v := by
    rw [← BitVec.and_or_distrib_left, hk, BitVec.or_not_self, BitVec.and_allOnes]
  rwa [h, BitVec.or_zero] at hsplit

/-- What is masked as it is read and again as it is stored. -/
theorem and_mask_twice_of_masked {v m k : Word} (h : v &&& k = 0#32) (hk : k = ~~~m := by decide) : v &&& m &&& m = v := by
  rw [and_mask_of_masked h hk, and_mask_of_masked h hk]

theorem getLsbD_bit (k : Nat) {j : Nat} (hj : j < 32) : (bit k).getLsbD j = decide (j = k) := by
  simp only [bit, BitVec.getLsbD_shiftLeft, BitVec.getLsbD_one, hj, decide_true, Bool.true_and]
  grind

/-- CTRL without RST is what it reads (40_mmio_registers.md R201, R202). -/
theorem and_not_bit_of_clear {v : Word} {k : Nat} (h : v.getLsbD k = false) : v &&& ~~~(bit k) = v := by
  apply BitVec.eq_of_getLsbD_eq
  intro j hj
  rw [BitVec.getLsbD_and, BitVec.getLsbD_not, getLsbD_bit k hj]
  by_cases hjk : j = k
  · rw [hjk, h, Bool.false_and]
  · simp [hj, hjk]

/-! ### EERD as it reads (R205) -/

theorem getLsbD_eerdWord (l : EerdLayout) (e : Eeprom) {j : Nat} (hj : j < 32) :
    (eerdWord l e).getLsbD j = (decide (16 ≤ j) && e.data.getLsbD (j - 16) ||
      decide (addrLo l ≤ j) && e.addr.getLsbD (j - addrLo l) || e.done && decide (j = doneBit l)) := by
  have hdone : (if e.done then bit (doneBit l) else 0#32).getLsbD j = (e.done && decide (j = doneBit l)) := by
    cases e.done with
    | true => rw [if_pos rfl, getLsbD_bit _ hj, Bool.true_and]
    | false => simp
  simp only [eerdWord, BitVec.getLsbD_or, BitVec.getLsbD_shiftLeft, BitVec.getLsbD_setWidth, hdone, hj]
  grind

/-- START reads 0. -/
theorem getLsbD_eerdWord_zero (l : EerdLayout) (e : Eeprom) : (eerdWord l e).getLsbD 0 = false := by
  rw [getLsbD_eerdWord l e (by decide)]
  cases l <;> simp [addrLo, doneBit]

/-- The address that EERD reads is the one that it stores, in a layout that has its width (10_state.md R38, R51). -/
theorem eerdAddr_eerdWord {l : EerdLayout} {e : Eeprom} (h : l = .l540 → e.addr.toNat < 256) :
    eerdAddr l (eerdWord l e) = e.addr := by
  apply BitVec.eq_of_getLsbD_eq
  intro i hi
  have hbit : addrLo l + i < 16 → (eerdWord l e).getLsbD (addrLo l + i) = e.addr.getLsbD i := fun hlow => by
    rw [getLsbD_eerdWord l e (by omega)]
    have hdone : addrLo l + i ≠ doneBit l := by cases l <;> simp only [addrLo, doneBit] <;> omega
    simp [hdone, Nat.not_le.2 hlow]
  cases l with
  | l540 =>
    simp only [eerdAddr, BitVec.getLsbD_setWidth, BitVec.getLsbD_extractLsb', hi]
    by_cases hi8 : i < 8
    · simpa [-BitVec.getLsbD_eq_getElem, hi8, addrLo] using hbit (by simp only [addrLo]; omega)
    · have hhigh : e.addr.getLsbD i = false :=
        Nat.testBit_lt_two_pow (Nat.lt_of_lt_of_le (h rfl) (Nat.pow_le_pow_right (n := 2) Nat.two_pos (Nat.not_lt.1 hi8)))
      simp [hi8, hhigh]
  | l541 =>
    simp only [eerdAddr, BitVec.getLsbD_extractLsb', hi]
    simpa [-BitVec.getLsbD_eq_getElem, addrLo] using hbit (by simp only [addrLo]; omega)

/-! ### Writing back what a register reads (40_mmio_registers.md R201 to R240) -/

section Rewrite
variable {s t : State} {r : Reg} {a : HostAgent}

theorem State.Rewritable.of_regs (h : s.Rewritable r) (e : t.regs = s.regs) : t.Rewritable r := by
  unfold State.Rewritable at h ⊢
  rwa [e]

/-- A ring base or length is stored as it is read, while its engine is disabled. -/
theorem whileDisabled_of_read {rule : Nat} {enabled : Bool} {v m k : Word} (go : Word → Flow) (hoff : enabled = false)
    (hm : v &&& k = 0#32) (hk : k = ~~~m := by decide) : whileDisabled a rule r enabled s (go (v &&& m &&& m)) = go v := by
  rw [whileDisabled_of_disabled hoff, and_mask_twice_of_masked hm hk]

/-- An index in range is stored as it is read. -/
theorem inRange_of_read {n rule : Nat} {v : Word} (go : Word → Flow) (hm : v &&& ~~~0x0000FFFF#32 = 0#32)
    (h : v.toNat < max n 1) : inRange a rule n (v &&& 0x0000FFFF#32) s go = go v := by
  rw [inRange, and_mask_twice_of_masked hm, if_neg (Nat.not_le.2 h)]

/-- A register that may be rewritten takes the value it reads, and the state is as it was. -/
theorem writeRule_confirmLive (hinv : s.DeviceInv) (h : s.Rewritable r) : writeRule a r (confirmLive r s).1 s = .ok s := by
  cases r with
  | icr => exact h.elim
  | status | ral0 => rfl
  | ctrl =>
    have hread : (confirmLive .ctrl s).1 = s.regs.ctrl := and_not_bit_of_clear hinv.rst
    rw [hread, writeRule, writeCtrl_store hinv.rst]
    exact congrArg Flow.ok (State.linkEval_of_luPrev hinv.link)
  | eerd => exact writeEerd_store (eerdAddr_eerdWord hinv.eeAddr) (getLsbD_eerdWord_zero _ _)
  | ims => exact congrArg (fun x => Flow.ok { s with regs := { s.regs with ims := x } }) BitVec.or_self
  | imc =>
    have hnone : s.regs.ims &&& ~~~0#32 = s.regs.ims := by rw [BitVec.not_zero, BitVec.and_allOnes]
    exact congrArg (fun x => Flow.ok { s with regs := { s.regs with ims := x } }) hnone
  | rctl => exact writeRctl_store fun ⟨hoff, hon, _⟩ => Bool.false_ne_true (hoff.symm.trans hon)
  | tctl => exact writeTctl_store fun ⟨hoff, hon, _⟩ => Bool.false_ne_true (hoff.symm.trans hon)
  | rdbah | tdbah => exact whileDisabled_of_disabled h
  | rah0 =>
    exact congrArg (fun x => Flow.ok { s with regs := { s.regs with rah0 := x } }) (and_mask_twice_of_masked hinv.rah0)
  | rdbal => exact whileDisabled_of_read (fun x => .ok { s with regs := { s.regs with rdbal := x } }) h hinv.rdbal
  | rdlen => exact whileDisabled_of_read (fun x => .ok { s with regs := { s.regs with rdlen := x } }) h hinv.rdlen
  | tdbal => exact whileDisabled_of_read (fun x => .ok { s with regs := { s.regs with tdbal := x } }) h hinv.tdbal
  | tdlen => exact whileDisabled_of_read (fun x => .ok { s with regs := { s.regs with tdlen := x } }) h hinv.tdlen
  | rdt => exact inRange_of_read (fun x => .ok { s with regs := { s.regs with rdt := x } }) hinv.rdt h
  | tdt => exact inRange_of_read (fun x => .ok { s with regs := { s.regs with tdt := x } }) hinv.tdt h
  | rdh =>
    obtain ⟨hoff, hin⟩ := h
    exact (whileDisabled_of_disabled hoff).trans
      (inRange_of_read (fun x => .ok { s with regs := { s.regs with rdh := x } }) hinv.rdh hin)
  | tdh =>
    obtain ⟨hoff, hin⟩ := h
    exact (whileDisabled_of_disabled hoff).trans
      (inRange_of_read (fun x => .ok { s with regs := { s.regs with tdh := x } }) hinv.tdh hin)

/-- What a confirm takes as live depends on the device alone, but for the free bits of STATUS. -/
theorem confirmLive_of_part (hr : r ≠ .status) (e : t.devicePart = s.devicePart) :
    (confirmLive r t).1 = (confirmLive r s).1 := by
  obtain ⟨hparams, hregs, -, hee, -, -⟩ := DevicePart.mk.inj e
  cases r with
  | status => exact absurd rfl hr
  | imc => rfl
  | eerd => simp [confirmLive, readReg, State.layout, hparams, hee]
  | _ => simp [confirmLive, readReg, readIcr, hregs]

/-- The second step of a confirm with nothing staged writes to no effect, where the device is as the first step found it. -/
theorem writeRule_confirmLive_of_part (hinv : s.DeviceInv) (h : s.Rewritable r) (e : t.devicePart = s.devicePart) :
    writeRule a r (confirmLive r s).1 t = .ok t := by
  by_cases hr : r = .status
  · subst hr; rfl
  · rw [← confirmLive_of_part hr e]
    exact writeRule_confirmLive (hinv.of_part e) (h.of_regs (congrArg DevicePart.regs e))

end Rewrite

/-! ### The two steps (R262) -/

/-- What the second step of a confirm with nothing staged finds: the state before the first, but for the draws, the reply, the
agent's write left to do and its mark on the register. -/
def State.midConfirm (s : State) (r : Reg) (reply : Reply) : State :=
  { s with
    draws := (confirmLive r s).2.draws
    mapper := s.mapper.set r { RegObj.empty with inConfirm := RegObj.empty.inConfirm.set s.cur true }
    agents := s.agents.set s.cur ⟨[.confirmWrite r (confirmLive r s).1], .pending⟩
    reply := reply }

section MidConfirm
variable {s : State} {r : Reg} (reply : Reply)

theorem confirmLive_state (hr : r ≠ .icr) : (confirmLive r s).2 = { s with draws := (confirmLive r s).2.draws } := by
  cases r with
  | icr => exact absurd rfl hr
  | _ => rfl

theorem State.confirmStarted_asAgent (hr : r ≠ .icr) (hempty : s.Untouched r) (hidle : s.work s.cur = []) :
    (s.confirmStarted r).asAgent s.cur reply = s.midConfirm r reply := by
  have hobj : s.mapper.get r = RegObj.empty := hempty
  rw [State.confirmStarted_eq, confirmLive_state hr, hidle]
  simp only [State.asAgent, State.midConfirm, State.setInConfirm, State.setRegObj, State.regObj, hobj]

@[simp] theorem State.regObj_midConfirm :
    (s.midConfirm r reply).regObj r = { RegObj.empty with inConfirm := RegObj.empty.inConfirm.set s.cur true } :=
  PerReg.get_set_self _ _ _

@[simp] theorem State.work_midConfirm :
    (s.midConfirm r reply).work s.cur = [.confirmWrite r (confirmLive r s).1] := by
  simp [State.work, State.midConfirm]

theorem State.unraced_midConfirm : (s.midConfirm r reply).Unraced r s.cur := fun b hb => by
  rw [State.regObj_midConfirm, ByAgent.get_set_ne _ _ hb]
  cases b <;> rfl

/-- The agent's mark goes with its confirm. -/
theorem RegObj.confirmed_empty (a : HostAgent) :
    RegObj.confirmed { RegObj.empty with inConfirm := RegObj.empty.inConfirm.set a true } a = RegObj.empty := by
  cases a <;> rfl

theorem advance_midConfirm (hinv : s.DeviceInv) (h : s.Rewritable r) (hempty : s.Untouched r) :
    advance s.cur (s.midConfirm r reply) =
      .ok { s with
        draws := (confirmLive r s).2.draws
        agents := s.agents.set s.cur ⟨[], .word (confirmLive r s).1⟩
        reply := reply } := by
  have hobj : s.mapper.set r RegObj.empty = s.mapper := hempty ▸ PerReg.set_get_self s.mapper r
  have hvalue : confirmValue ((s.midConfirm r reply).regObj r) (confirmLive r s).1 = (confirmLive r s).1 :=
    confirmValue_of_empty (by rw [State.regObj_midConfirm]; rfl) (by rw [State.regObj_midConfirm]; rfl) _
  have hwrite : writeReg s.cur r (confirmValue ((s.midConfirm r reply).regObj r) (confirmLive r s).1)
      (s.midConfirm r reply) = .ok (s.midConfirm r reply) := by
    rw [hvalue, writeReg_of_unraced (State.unraced_midConfirm reply)]
    exact writeRule_confirmLive_of_part hinv h rfl
  rw [advance_confirmWrite_ok (State.work_midConfirm reply) hwrite, hvalue, State.regObj_midConfirm,
    RegObj.confirmed_empty, State.setWork_setRet]
  simp [State.setRegObj, State.midConfirm, hobj]

end MidConfirm

/-- Settles O18: the first step is the issue's; the second writes back the value read, which changes nothing, and removes the
agent's mark. -/
theorem emptyConfirmIsNoop : Obligations.EmptyConfirmIsNoop := fun s r reply h hready hinv hempty hrun hidle => by
  have hr : r ≠ .icr := by rintro rfl; exact h
  have hrun1 : (s.confirmStarted r).mayRun s.cur = true := by
    rw [State.confirmStarted_eq, confirmLive_state hr]
    exact hrun
  refine ⟨_, _, (exec_regConfirm r hready).2 hr, perform_resume reply hrun1, ?_⟩
  rw [State.confirmStarted_asAgent reply hr hempty hidle, advance_midConfirm reply hinv h hempty, Flow.state_ok]
  exact ⟨rfl, by simp [State.work], fun b hb => ByAgent.get_set_ne _ _ hb⟩

end Sys2Proof.Machine
end

section
/-! SUPPORT. The interrupt-cause decoder's operations as they are issued (42_interrupt_cause.md R301 to R310): who may issue
them, and the state each leaves. -/

namespace Sys2Proof.Machine

/-! ### The checks of a decoder operation (R310, 60_exceptions.md R452, R470) -/

/-- The model's agent check is the row that the seven operations share in the table of R470. -/
theorem decoderAgent_eq_true {s : State} : decoderAgent s = true ↔ HostOp.icReadclear.allows s := by
  simp [decoderAgent, HostOp.allows]

section Issued
variable {s : State} {i : Instr} {op : HostOp} {body : State → Flow}
  (hi : ∀ s, exec i s = hostOp 6 decoderAgent op body s)
include hi

theorem exec_decoder_refused (h : s.drv.initStep < 6) : exec i s = .next (s.setRet s.cur .refused) :=
  (hi s).trans (hostOp_refused (.inr h))

theorem exec_decoder_context (hready : s.Ready 6) (h : ¬ HostOp.icReadclear.allows s) :
    exec i s = .next (s.raise ⟨.context, s.cur.toAgent, 470, op.word⟩) :=
  (hi s).trans (hostOp_context hready (Bool.eq_false_iff.2 (mt decoderAgent_eq_true.1 h)))

theorem exec_decoder_body (hready : s.Ready 6) (h : HostOp.icReadclear.allows s) : exec i s = .next (body s).state :=
  (hi s).trans (hostOp_body hready (decoderAgent_eq_true.2 h))

end Issued

/-- Each of the five predicates is issued as the claim of its bit. -/
theorem exec_predicate : ∀ p ∈ predicates,
    ∃ op, ∀ s, exec p s = hostOp 6 decoderAgent op (claimOp (predicateBit p)) s := by
  simp only [predicates, List.forall_mem_cons]
  exact ⟨⟨_, fun _ => rfl⟩, ⟨_, fun _ => rfl⟩, ⟨_, fun _ => rfl⟩, ⟨_, fun _ => rfl⟩, ⟨_, fun _ => rfl⟩, nofun⟩

/-! ### The state that each operation leaves (R301 to R307) -/

/-- After `ic.readclear`: the causes are the snapshot, and ICR is clear (R301). -/
def State.causesTaken (s : State) : State :=
  State.setRet { s with regs := { s.regs with icr := 0#32 }, drv := { s.drv with snap := s.regs.icr, icState := .handling } }
    s.cur (.word s.regs.icr)

/-- After a predicate in HANDLING: its bit is the answer, and no longer in the snapshot (R302). -/
def State.claimed (s : State) (k : Nat) : State :=
  State.setRet { s with drv := { s.drv with snap := s.drv.snap &&& ~~~(bit k) } } s.cur (.bool (s.drv.snap.getLsbD k))

theorem claimOp_of_handling {s : State} (h : s.drv.icState = .handling) (k : Nat) : claimOp k s = .ok (s.claimed k) := by
  rw [claimOp, claim, h]
  rfl

theorem claimOp_of_idle {s : State} (h : s.drv.icState = .idle) (k : Nat) :
    claimOp k s = .ok (s.setRet s.cur (.bool false)) := by
  rw [claimOp, claim, h]

/-- Bits are left unhandled where the decoder is in HANDLING and its snapshot is not empty (R307). -/
theorem unhandled_eq (s : State) : unhandled s = decide (s.drv.icState = .handling ∧ s.drv.snap ≠ 0#32) := by
  rw [unhandled, Bool.decide_and, decide_not]
  rfl

section Allowed
variable {s : State} (hready : s.Ready 6) (hallows : HostOp.icReadclear.allows s)
include hready hallows

theorem exec_icReadclear : exec .icReadclear s = .next s.causesTaken :=
  exec_decoder_body (i := .icReadclear) (fun _ => rfl) hready hallows

theorem exec_icUnhandled : exec .icUnhandled s = .next (s.setRet s.cur (.bool (unhandled s))) :=
  exec_decoder_body (i := .icUnhandled) (fun _ => rfl) hready hallows

theorem exec_predicate_of_handling {p : Instr} (hp : p ∈ predicates) (h : s.drv.icState = .handling) :
    exec p s = .next (s.claimed (predicateBit p)) := by
  obtain ⟨op, hissued⟩ := exec_predicate p hp
  rw [exec_decoder_body hissued hready hallows, claimOp_of_handling h]
  rfl

theorem exec_predicate_of_idle {p : Instr} (hp : p ∈ predicates) (h : s.drv.icState = .idle) :
    exec p s = .next (s.setRet s.cur (.bool false)) := by
  obtain ⟨op, hissued⟩ := exec_predicate p hp
  rw [exec_decoder_body hissued hready hallows, claimOp_of_idle h]
  rfl

end Allowed

/-- The word of 30_encoding.md R145 for an operation is that operation's. -/
theorem isOpWord {i : Instr} {op : HostOp} (h : i.hostOp? = some op) : IsOpWord op.word i := ⟨op, h, hostOpOfWord_word op⟩

end Sys2Proof.Machine
end

section
/-! PROOF of `DecoderOperations` and `EveryCauseClaimedOnce`: a run of predicates takes their bits out of the snapshot, and
each bit is still there when its predicate asks. -/

namespace Sys2Proof.Machine

/-- Settles O23: the checks are those of every decoder operation; what is left is each operation's own state. -/
theorem decoderOperations : Obligations.DecoderOperations := by
  refine ⟨⟨isOpWord (op := .icReadclear) rfl, fun s => ⟨exec_decoder_refused (i := .icReadclear) fun _ => rfl,
      exec_icReadclear, exec_decoder_context (i := .icReadclear) fun _ => rfl⟩⟩,
    ⟨isOpWord (op := .icLinkchanged) rfl, isOpWord (op := .icOverrun) rfl, isOpWord (op := .icMinthreshold) rfl,
      isOpWord (op := .icRxtimer) rfl, isOpWord (op := .icMdiodone) rfl, isOpWord (op := .icUnhandled) rfl⟩,
    fun s => ⟨fun hstep => List.forall_mem_cons.2 ⟨?_, fun p hp => ?_⟩, fun hready hallows => ⟨fun p hp => ⟨?_, ?_⟩, ?_⟩⟩⟩
  · exact exec_decoder_refused (i := .icUnhandled) (fun _ => rfl) hstep
  · obtain ⟨op, hissued⟩ := exec_predicate p hp
    exact exec_decoder_refused hissued hstep
  · exact exec_predicate_of_handling hready hallows hp
  · exact exec_predicate_of_idle hready hallows hp
  · rw [exec_icUnhandled hready hallows, unhandled_eq]

/-! ### Runs of instructions -/

/-- An instruction that raises no fault is followed by the rest of its run. -/
theorem execAll_cons {i : Instr} {is : List Instr} {s t : State} (h : exec i s = .next t) (hf : t.faults = s.faults) :
    execAll (i :: is) s = execAll is t := by
  simp only [execAll, h, hf, if_true]

/-- A run is followed by the run of what comes after it. -/
theorem execAll_append {is js : List Instr} {s t : State} (h : execAll is s = some t) :
    execAll (is ++ js) s = execAll js t := by
  induction is generalizing s with
  | nil => cases h; rfl
  | cons i is ih =>
    rw [List.cons_append]
    simp only [execAll] at h ⊢
    split at h
    · split at h
      · next hf => rw [if_pos hf]; exact ih h
      · cases h
    · cases h

/-! ### Runs of predicates (R308) -/

/-- ISR has taken the causes and may ask for them. -/
structure State.Asking (s : State) : Prop where
  cur : s.cur = .isr
  ready : s.Ready 6
  handling : s.drv.icState = .handling

namespace State.Asking
variable {s : State}

theorem causesTaken (hcur : s.cur = .isr) (hready : s.Ready 6) : s.causesTaken.Asking := ⟨hcur, hready, rfl⟩

theorem claimed (h : s.Asking) (k : Nat) : (s.claimed k).Asking := ⟨h.cur, h.ready, h.handling⟩

theorem allows (h : s.Asking) : HostOp.icReadclear.allows s := .inl h.cur

theorem execAll_predicate (h : s.Asking) {p : Instr} (hp : p ∈ predicates) (ps : List Instr) :
    execAll (p :: ps) s = execAll ps (s.claimed (predicateBit p)) :=
  execAll_cons (exec_predicate_of_handling h.ready h.allows hp h.handling) rfl

/-- Predicates asked one after another leave the snapshot without their bits. -/
theorem execAll_predicates (h : s.Asking) {ps : List Instr} (hps : ps ⊆ predicates) :
    ∃ t, execAll ps s = some t ∧ t.Asking ∧
      ∀ k < 32, t.drv.snap.getLsbD k = (s.drv.snap.getLsbD k && decide (k ∉ ps.map predicateBit)) := by
  induction ps generalizing s with
  | nil => exact ⟨s, rfl, h, fun k _ => by simp⟩
  | cons p ps ih =>
    obtain ⟨hp, hrest⟩ := List.cons_subset.1 hps
    obtain ⟨t, hrun, ht, hbits⟩ := ih (h.claimed (predicateBit p)) hrest
    refine ⟨t, (h.execAll_predicate hp ps).trans hrun, ht, fun k hk => ?_⟩
    have hclaimed : (s.claimed (predicateBit p)).drv.snap.getLsbD k =
        (s.drv.snap.getLsbD k && decide (k ≠ predicateBit p)) := by
      rw [State.claimed, State.setRet_drv, BitVec.getLsbD_and, BitVec.getLsbD_not, getLsbD_bit _ hk]
      simp [hk]
    rw [hbits k hk, hclaimed, Bool.and_assoc, ← Bool.decide_and]
    simp only [List.map_cons, List.mem_cons, not_or]

end State.Asking

/-- The mask of R308 holds the bits that have a predicate, and no other. -/
theorem getLsbD_claimMask : ∀ k < 32, (0x000002D4#32).getLsbD k = decide (k ∈ predicates.map predicateBit) := by decide

/-- No two predicates claim one bit, in whatever order they are asked. -/
theorem nodup_map_predicateBit {order : List Instr} (h : order.Perm predicates) : (order.map predicateBit).Nodup :=
  (h.map predicateBit).nodup_iff.2 (by decide)

/-- Settles O24: all five take the mask's bits out of the snapshot; those before one do not take its bit. -/
theorem everyCauseClaimedOnce : Obligations.EveryCauseClaimedOnce := fun s order hcur hready hperm => by
  have hstart : s.causesTaken.Asking := .causesTaken hcur hready
  have hread : ∀ is, execAll (.icReadclear :: is) s = execAll is s.causesTaken := fun is =>
    execAll_cons (exec_icReadclear hready (.inl hcur)) rfl
  refine ⟨?_, fun before p after horder => ?_⟩
  · obtain ⟨t, hrun, ht, hbits⟩ := hstart.execAll_predicates hperm.subset
    have hsnap : t.drv.snap = s.regs.icr &&& ~~~0x000002D4#32 := by
      apply BitVec.eq_of_getLsbD_eq
      intro k hk
      rw [hbits k hk, BitVec.getLsbD_and, BitVec.getLsbD_not, getLsbD_claimMask k hk, decide_eq_true hk, Bool.true_and,
        ← decide_not, decide_eq_decide.2 (not_congr (hperm.map predicateBit).mem_iff)]
      rfl
    refine ⟨t, _, (hread order).trans hrun, hsnap, exec_icUnhandled ht.ready ht.allows, ?_⟩
    rw [ht.cur, State.ret_setRet, unhandled, ht.handling, hsnap]
    rfl
  · subst horder
    have hunasked : predicateBit p ∉ before.map predicateBit := by
      have hnodup := nodup_map_predicateBit hperm
      rw [List.map_append, List.nodup_append] at hnodup
      obtain ⟨-, -, hdisjoint⟩ := hnodup
      exact fun hmem => hdisjoint _ hmem _ (List.mem_map_of_mem List.mem_cons_self) rfl
    have hp : p ∈ predicates := hperm.subset (by simp)
    obtain ⟨t, hrun, ht, hbits⟩ := hstart.execAll_predicates
      fun q hq => hperm.subset (List.mem_append_left _ hq)
    refine ⟨t.claimed (predicateBit p), ?_, ?_⟩
    · rw [hread, execAll_append hrun, ht.execAll_predicate hp]
      rfl
    · have hlt : ∀ q ∈ predicates, predicateBit q < 32 := by decide
      rw [State.claimed, ht.cur, State.ret_setRet, hbits _ (hlt p hp), decide_eq_true hunasked, Bool.and_true]
      rfl

end Sys2Proof.Machine
end

section
/-! SUPPORT. The descriptor accessors: the bytes of a field and of a slot's address, what the index check and a field's write
answer, and what each accessor does as it is issued (43_descriptors.md R320 to R331). -/

namespace Sys2Proof

/-! ### The bytes of a field (30_encoding.md R150, R151) -/

/-- A byte of a word, as a number's. -/
theorem extractLsb'_byte {w : Nat} (v : BitVec w) (k : Nat) : v.extractLsb' k 8 = BitVec.ofNat 8 (v.toNat / 2 ^ k) := by
  rw [← Nat.shiftRight_eq_div_pow]
  rfl

theorem bytesOfNat_half (v : Half) : bytesOfNat 2 v.toNat = [v.extractLsb' 0 8, v.extractLsb' 8 8] := by
  simp only [bytesOfNat, extractLsb'_byte, Nat.pow_zero, Nat.div_one] <;> rfl

theorem wordBytes_bits (v : Word) :
    wordBytes v = [v.extractLsb' 0 8, v.extractLsb' 8 8, v.extractLsb' 16 8, v.extractLsb' 24 8] := by
  simp only [wordBytes, bytesOfNat, extractLsb'_byte, Nat.pow_zero, Nat.div_one, Nat.div_div_eq_div_mul] <;>
    rfl

/-- An address field is the address word with four zero bytes above it (R321). -/
theorem bytesOfNat_address (pa : Word) : bytesOfNat 8 pa.toNat = Machine.addressBytes pa := by
  have h : bytesOfNat (4 + 4) (pa.toNat + 256 ^ 4 * 0) = wordBytes pa ++ bytesOfNat 4 0 := bytesOfNat_append 4 0 pa.isLt
  rw [wordBytes_bits] at h
  exact h

@[simp] theorem Machine.length_addressBytes (pa : Word) : (Machine.addressBytes pa).length = 8 := rfl

/-- The two bytes of a 16-bit field, least significant first. -/
theorem ofNat_natOfBytes_pair (lo hi : Byte) : BitVec.ofNat 16 (natOfBytes [lo, hi]) = hi ++ lo := by
  apply BitVec.eq_of_toNat_eq
  rw [BitVec.toNat_append, ← Nat.shiftLeft_add_eq_or_of_lt lo.isLt, Nat.shiftLeft_eq, BitVec.toNat_ofNat]
  simp only [natOfBytes]
  omega

end Sys2Proof

namespace Sys2Proof.Machine

/-! ### The index check and a field's write (R320, 20_memory.md R119) -/

section Fields
variable {s : State} {a : HostAgent} {t : Ring} {i off : Nat} {bs : List Byte}

theorem checkIndex_inside (h : i < s.ringSize t) : checkIndex a t i s = .ok s := by
  rcases checkIndex_cases a t i s with ⟨-, e⟩ | ⟨hout, -⟩
  · exact e
  · omega

theorem checkIndex_outside (h : s.ringSize t ≤ i) : checkIndex a t i s = .raised s ⟨.index, a.toAgent, 146, i⟩ := by
  rcases checkIndex_cases a t i s with ⟨hin, -⟩ | ⟨-, e⟩
  · omega
  · exact e

theorem descWrite_outside (h : s.ringSize t ≤ i) : descWrite a t i off bs s = .raised s ⟨.index, a.toAgent, 146, i⟩ := by
  rw [descWrite, checkIndex_outside h, Flow.raised_andThen]

theorem descWrite_store (h : i < s.ringSize t) (ho : s.SoftwareOwns (s.descAddr t i off) bs.length) :
    descWrite a t i off bs s = .ok (s.putBytes (s.descAddr t i off) bs) := by
  rcases descWrite_cases a t i off bs s with ⟨-, -, e⟩ | ⟨hout, -⟩ | ⟨-, hn, -⟩
  · exact e
  · omega
  · exact absurd ho hn

theorem descWrite_race (h : i < s.ringSize t) (ho : ¬ s.SoftwareOwns (s.descAddr t i off) bs.length) :
    descWrite a t i off bs s = .raised s ⟨.descRace, a.toAgent, 119, s.descAddr t i off % 2 ^ 32⟩ := by
  rcases descWrite_cases a t i off bs s with ⟨-, hy, -⟩ | ⟨hout, -⟩ | ⟨-, -, e⟩
  · exact absurd hy ho
  · omega
  · exact e

/-- Software owns each part of what it owns. -/
theorem State.SoftwareOwns.part {b n c m : Nat} (h : s.SoftwareOwns b n) (hb : b ≤ c) (hn : c + m ≤ b + n) :
    s.SoftwareOwns c m := fun k hk => by
  have := h (c - b + k) (by omega)
  rwa [show b + (c - b + k) = c + k by omega] at this

/-- Software owns each field of a descriptor that it owns. -/
theorem State.SoftwareOwns.field {n : Nat} (h : s.SoftwareOwns (s.ringPhys t + 16 * i) 16) (hn : off + n ≤ 16) :
    s.SoftwareOwns (s.descAddr t i off) n := h.part (Nat.le_add_right _ _) (by rw [State.descAddr]; omega)

/-- The command byte and the cleared status byte next to it, as one store (R323). -/
theorem writeCommand_store (h : i < s.ringSize .tx) (ho : s.SoftwareOwns (s.descAddr .tx i 11) 2) :
    writeCommand a i s = .ok (s.putBytes (s.descAddr .tx i 11) [Config.txCmd, 0#8]) := by
  rw [writeCommand, descWrite_store h (ho.part (Nat.le_refl _) (Nat.le_succ _)), Flow.ok_andThen]
  exact descWrite_store (bs := [0#8]) h (ho.part (Nat.le_succ _) (Nat.le_refl _))

end Fields

/-! ### Accessors as they are issued (60_exceptions.md R452, R470) -/

section Issued
variable {s : State} {i : Instr} {op : HostOp} {go : HostAgent → State → Flow}

/-- An accessor that is not refused does what its body does: any agent may issue it. -/
theorem exec_accessor {body : State → Flow} (hi : ∀ s, exec i s = hostOp 5 anyAgent op body s) (hready : s.Ready 5) :
    exec i s = .next (body s).state := (hi s).trans (hostOp_body hready rfl)

theorem exec_accessor_refused {body : State → Flow} (hi : ∀ s, exec i s = hostOp 5 anyAgent op body s)
    (h : s.drv.initStep < 5) : exec i s = .next (s.setRet s.cur .refused) := (hi s).trans (hostOp_refused (.inr h))

/-- A write that its field takes stores the bytes, and nothing else. -/
theorem storesBytes_of_writeOp {a : Nat} {bs : List Byte} (hexec : exec i s = .next (writeOp go s).state)
    (hs : s.mem.wf = true) (hlen : bs.length ≤ 2 ^ 32) (h : go s.cur s = .ok (s.putBytes a bs)) : StoresBytes i s a bs :=
  ⟨s.mem.writeBytes a bs, by rw [hexec, writeOp, h]; rfl, Memory.wf_writeBytes hs, Memory.stored_writeBytes hs hlen⟩

/-- A write that faults has no other effect. -/
theorem exec_writeOp_raised {f : FaultRecord} (hexec : exec i s = .next (writeOp go s).state)
    (h : go s.cur s = .raised s f) : exec i s = .next (s.raise f) := by
  rw [hexec, writeOp, h]
  rfl

variable {t : Ring} {k : Nat} {value : State → Ret} (hi : ∀ s, exec i s = hostOp 5 anyAgent op (readOp t k value) s)
  (hready : s.Ready 5)
include hi hready

theorem exec_readOp (h : k < s.ringSize t) : exec i s = .next (s.setRet s.cur (value s)) := by
  rw [exec_accessor hi hready, readOp, checkIndex_inside h]
  rfl

theorem exec_readOp_outside (h : s.ringSize t ≤ k) : exec i s = .next (s.raise ⟨.index, s.cur.toAgent, 146, k⟩) := by
  rw [exec_accessor hi hready, readOp, checkIndex_outside h]
  rfl

end Issued

/-! ### `txd.writelength`, whose length has a check of its own (R322, log entry 33) -/

section WriteLength
variable {s : State} {i len : Nat} (hready : s.Ready 5)
include hready

theorem exec_txdWritelength_outside (h : s.ringSize .tx ≤ i) :
    exec (.txdWritelength i len) s = .next (s.raise ⟨.index, s.cur.toAgent, 146, i⟩) := by
  rw [exec_accessor (i := .txdWritelength i len) (fun _ => rfl) hready, checkIndex_outside h]
  rfl

theorem exec_txdWritelength_long (h : i < s.ringSize .tx) (hlen : 2 ^ 16 ≤ len) :
    exec (.txdWritelength i len) s = .next (s.raise ⟨.txLength, s.cur.toAgent, 146, len⟩) := by
  rw [exec_accessor (i := .txdWritelength i len) (fun _ => rfl) hready, checkIndex_inside h, Flow.ok_andThen, if_neg]
  · rfl
  · simpa [lenOk] using hlen

theorem exec_txdWritelength_short (h : i < s.ringSize .tx) (hlen : len < 2 ^ 16) :
    exec (.txdWritelength i len) s = .next (writeOp (fun a => writeLength a i len) s).state := by
  rw [exec_accessor (i := .txdWritelength i len) (fun _ => rfl) hready, checkIndex_inside h, Flow.ok_andThen, if_pos]
  simpa [lenOk] using hlen

end WriteLength

end Sys2Proof.Machine
end

section
/-! PROOF of `DescriptorWritesStore`, `DescriptorReadsAnswer` and `DescriptorFaults`: each accessor by the index check, and each
write by who owns its bytes. -/

namespace Sys2Proof.Machine

/-- Settles O25: each write stores its field, which lies inside the descriptor. -/
theorem descriptorWritesStore : Obligations.DescriptorWritesStore := by
  intro s i pa len hready hs
  refine ⟨?_, ?_⟩
  · intro hi d ho
    refine ⟨?_, ?_, ?_⟩
    · rw [← bytesOfNat_address]
      exact storesBytes_of_writeOp (exec_accessor (fun _ => rfl) hready) hs (by simp)
        (descWrite_store (off := 0) hi (ho.field (by simp)))
    · rw [← bytesOfNat_half]
      exact storesBytes_of_writeOp (exec_txdWritelength_short hready hi len.isLt) hs (by simp)
        (descWrite_store hi (ho.field (by simp)))
    · exact storesBytes_of_writeOp (exec_accessor (fun _ => rfl) hready) hs (by simp)
        (writeCommand_store hi (ho.field (by omega)))
  · intro hi d ho
    refine ⟨?_, ?_⟩
    · rw [← bytesOfNat_address]
      exact storesBytes_of_writeOp (exec_accessor (fun _ => rfl) hready) hs (by simp)
        (descWrite_store (off := 0) hi (ho.field (by simp)))
    · exact storesBytes_of_writeOp (exec_accessor (fun _ => rfl) hready) hs (by simp)
        (descWrite_store hi (ho.field (by simp)))

/-- Settles O26: behind the index check each answers from its bytes. -/
theorem descriptorReadsAnswer : Obligations.DescriptorReadsAnswer := by
  intro s i hready returns
  refine ⟨fun hi => ?_, fun hi => ⟨fun slot hslot => ?_, ?_, ?_, ?_, ?_⟩⟩
  · exact (exec_readOp (i := .txdIsdone i) (fun _ => rfl) hready hi).trans rfl
  · rw [exec_readOp (i := .rxdGetpacketaddress i) (fun _ => rfl) hready hi, State.slotVirt, hslot]
    rfl
  · rw [exec_readOp (i := .rxdReadlength i) (fun _ => rfl) hready hi]
    exact congrArg (fun v => Host.Outcome.next (s.setRet s.cur (.half v))) (ofNat_natOfBytes_pair _ _)
  · exact (exec_readOp (i := .rxdIseop i) (fun _ => rfl) hready hi).trans rfl
  · exact (exec_readOp (i := .rxdHaserrors i) (fun _ => rfl) hready hi).trans rfl
  · exact (exec_readOp (i := .rxdDone i) (fun _ => rfl) hready hi).trans rfl

/-- Settles O27: the index is checked first, then the length, then who owns the bytes. -/
theorem descriptorFaults : Obligations.DescriptorFaults := fun s i pa len hready => by
  have ⟨_, hstep⟩ := hready
  refine ⟨fun hi => ?_, fun hi => ?_, exec_txdWritelength_long hready, fun hi => ⟨fun ho => ?_, fun hlen ho => ?_, fun ho => ?_⟩,
    fun hi => ⟨fun ho => ?_, fun ho => ?_⟩, fun hi ho off hoff => ?_, fun hi ho off hoff => ?_⟩
  · simp only [List.forall_mem_cons]
    exact ⟨exec_writeOp_raised (exec_accessor (fun _ => rfl) hready) (descWrite_outside hi),
      exec_txdWritelength_outside hready hi,
      exec_writeOp_raised (exec_accessor (fun _ => rfl) hready) (by rw [writeCommand, descWrite_outside hi]; rfl),
      exec_readOp_outside (fun _ => rfl) hready hi, nofun⟩
  · simp only [List.forall_mem_cons]
    exact ⟨exec_writeOp_raised (exec_accessor (fun _ => rfl) hready) (descWrite_outside hi),
      exec_readOp_outside (fun _ => rfl) hready hi, exec_readOp_outside (fun _ => rfl) hready hi,
      exec_readOp_outside (fun _ => rfl) hready hi,
      exec_writeOp_raised (exec_accessor (fun _ => rfl) hready) (descWrite_outside hi),
      exec_readOp_outside (fun _ => rfl) hready hi, exec_readOp_outside (fun _ => rfl) hready hi, nofun⟩
  · exact exec_writeOp_raised (exec_accessor (fun _ => rfl) hready) (descWrite_race hi ho)
  · exact exec_writeOp_raised (exec_txdWritelength_short hready hi hlen) (descWrite_race hi ho)
  · exact exec_writeOp_raised (exec_accessor (fun _ => rfl) hready) (by rw [writeCommand, descWrite_race hi ho]; rfl)
  · exact exec_writeOp_raised (exec_accessor (fun _ => rfl) hready) (descWrite_race hi ho)
  · exact exec_writeOp_raised (exec_accessor (fun _ => rfl) hready) (descWrite_race hi ho)
  · exact ⟨.tx, i, off, ho, hoff, .inr ⟨Nat.le_of_succ_le hstep, hi, rfl⟩⟩
  · exact ⟨.rx, i, off, ho, hoff, .inr ⟨Nat.le_of_succ_le hstep, hi, rfl⟩⟩

end Sys2Proof.Machine
end

section
/-! PROOF of `HardwareOwnsHeadToTail` and `CursorOperations`: the cyclic distance of two indices of a ring, and the cursor one
step at a time. -/

namespace Sys2Proof.Machine

/-! ### Cyclic intervals (00_scope.md R12) -/

section Cyclic
variable {n a b : Nat}

/-- The distance from one index of a ring to another, without the remainders. -/
theorem count_of_lt (ha : a < n) (hb : b < n) : count a b n = if a ≤ b then b - a else b + n - a := by
  rw [count, if_neg (by omega), Nat.mod_eq_of_lt ha, Nat.mod_eq_of_lt hb]
  split
  · rw [show b + n - a = b - a + n by omega, Nat.add_mod_right, Nat.mod_eq_of_lt (by omega)]
  · exact Nat.mod_eq_of_lt (by omega)

theorem count_lt (ha : a < n) (hb : b < n) : count a b n < n := by
  rw [count_of_lt ha hb]
  split <;> omega

/-- Going the distance to an index leads to it. -/
theorem add_count_mod (ha : a < n) (hb : b < n) : (a + count a b n) % n = b := by
  rw [count_of_lt ha hb]
  split
  · rw [Nat.add_sub_cancel' ‹_›, Nat.mod_eq_of_lt hb]
  · rw [Nat.add_sub_cancel' (by omega), Nat.add_mod_right, Nat.mod_eq_of_lt hb]

/-- The distance to the index that `k` steps lead to is `k`. -/
theorem count_add_mod {k : Nat} (ha : a < n) (hk : k < n) : count a ((a + k) % n) n = k := by
  have hn : 0 < n := by omega
  rw [count_of_lt ha (Nat.mod_lt _ hn)]
  rcases Nat.lt_or_ge (a + k) n with h | h
  · rw [Nat.mod_eq_of_lt h, if_pos (by omega)]
    omega
  · rw [Nat.mod_eq_sub_mod h, Nat.mod_eq_of_lt (by omega), if_neg (by omega)]
    omega

/-- An index lies in a cyclic interval exactly when fewer steps than its length lead to it. -/
theorem inCyc_iff {i : Nat} (ha : a < n) (hb : b < n) :
    inCyc i a b n = true ↔ ∃ k, i = (a + k) % n ∧ k < count a b n := by
  rw [inCyc, Bool.and_eq_true, decide_eq_true_eq, decide_eq_true_eq]
  constructor
  · rintro ⟨hi, hlt⟩
    exact ⟨count a i n, (add_count_mod ha hi).symm, hlt⟩
  · rintro ⟨k, rfl, hk⟩
    have hkn : k < n := Nat.lt_trans hk (count_lt ha hb)
    exact ⟨Nat.mod_lt _ (by omega), by rwa [count_add_mod ha hkn]⟩

end Cyclic

/-- Settles O28: ownership is membership in the cyclic interval from the head to the tail. -/
theorem hardwareOwnsHeadToTail : Obligations.HardwareOwnsHeadToTail := fun s t i hhead htail => by
  rw [State.hwOwned, inCyc_iff hhead htail, count_of_lt hhead htail]

/-! ### The cursor (R333 to R335) -/

section Cursor
variable {s : State} {t : Ring}

theorem exec_ringSetnext (hready : s.Ready 5) :
    exec (.ringSetnext t) s = .next ((s.setNext t).setRet s.cur .unit) :=
  exec_accessor (i := .ringSetnext t) (fun _ => rfl) hready

theorem State.cursor_setNext : (s.setNext t).cursor t = (s.cursor t + 1) % s.ringSize t := by cases t <;> rfl

theorem State.ready_setNext {n : Nat} (h : s.Ready n) : (s.setNext t).Ready n := by cases t <;> exact h

/-- The cursor after `k` calls of `ring.setnext`. -/
theorem execAll_ringSetnext (k : Nat) (hready : s.Ready 5) (hcursor : s.cursor t < s.ringSize t) :
    ∃ u, execAll (List.replicate k (.ringSetnext t)) s = some u ∧ u.cursor t = (s.cursor t + k) % s.ringSize t := by
  induction k generalizing s with
  | zero => exact ⟨s, rfl, (Nat.mod_eq_of_lt hcursor).symm⟩
  | succ k ih =>
    have hnext : ((s.setNext t).setRet s.cur .unit).cursor t = (s.cursor t + 1) % s.ringSize t := State.cursor_setNext
    have hsize : ((s.setNext t).setRet s.cur .unit).ringSize t = s.ringSize t := by cases t <;> rfl
    obtain ⟨u, hrun, hu⟩ := ih (s := (s.setNext t).setRet s.cur .unit) (State.ready_setNext hready)
      (by rw [hnext, hsize]; exact Nat.mod_lt _ (by omega))
    refine ⟨u, (execAll_cons (exec_ringSetnext hready) (by simp)).trans hrun, ?_⟩
    rw [hu, hnext, hsize, Nat.mod_add_mod, Nat.add_assoc, Nat.add_comm 1 k]

end Cursor

/-- Going `k` steps around a ring leads back exactly when the ring's size divides `k`. -/
theorem add_mod_eq_self_iff {c k n : Nat} (hc : c < n) : (c + k) % n = c ↔ n ∣ k := by
  constructor
  · intro h
    have hdiv := Nat.div_add_mod (c + k) n
    rw [h, Nat.add_comm] at hdiv
    exact ⟨(c + k) / n, (Nat.add_left_cancel hdiv).symm⟩
  · rintro ⟨q, rfl⟩
    rw [Nat.add_mul_mod_self_left, Nat.mod_eq_of_lt hc]

/-- Settles O29: by one call at a time. -/
theorem cursorOperations : Obligations.CursorOperations := by
  refine ⟨fun s t => ⟨isOpWord (op := .ringCurrent) rfl, isOpWord (op := .ringSetnext) rfl, fun hstep => ?_, fun hready => ?_⟩,
    fun s t k hready hcursor => ?_⟩
  · exact ⟨exec_accessor_refused (i := .ringCurrent t) (fun _ => rfl) hstep,
      exec_accessor_refused (i := .ringSetnext t) (fun _ => rfl) hstep⟩
  · exact ⟨exec_accessor (i := .ringCurrent .tx) (fun _ => rfl) hready,
      exec_accessor (i := .ringCurrent .rx) (fun _ => rfl) hready, exec_ringSetnext hready, exec_ringSetnext hready⟩
  · obtain ⟨u, hrun, hu⟩ := execAll_ringSetnext k hready hcursor
    exact ⟨u, hrun, hu, by rw [hu, add_mod_eq_self_iff hcursor]⟩

end Sys2Proof.Machine
end

section
/-! SUPPORT. Runs of one agent with no other between its steps: frames one after another, `writereg` by its two steps
(30_encoding.md R160), and the host operations that run to their end. -/

namespace Sys2Proof.Machine

/-! ### An agent's own record -/

/-- The state with another record of what an agent has left to do and what was returned to it. -/
def State.withAgent (s : State) (a : HostAgent) (p : AgentState) : State := { s with agents := s.agents.set a p }

section WithAgent
variable (s : State) (a : HostAgent) (p : AgentState)

@[simp] theorem State.setWork_withAgent (w : List Micro) : (s.withAgent a p).setWork a w = s.withAgent a ⟨w, p.ret⟩ := by
  cases a <;> rfl

@[simp] theorem State.setRet_withAgent (v : Ret) : (s.withAgent a p).setRet a v = s.withAgent a ⟨p.work, v⟩ := by
  cases a <;> rfl

@[simp] theorem State.setTailShadow_withAgent (t : Ring) (k : Nat) :
    (s.withAgent a p).setTailShadow t k = (s.setTailShadow t k).withAgent a p := by cases t <;> rfl

@[simp] theorem State.setCursor_withAgent (t : Ring) (k : Nat) :
    (s.withAgent a p).setCursor t k = (s.setCursor t k).withAgent a p := by cases t <;> rfl

@[simp] theorem State.initialTail_withAgent (t : Ring) : (s.withAgent a p).initialTail t = s.initialTail t := by
  cases t <;> rfl

@[simp] theorem State.withAgent_self : s.withAgent a (s.agents.get a) = s := by cases a <;> rfl

@[simp] theorem State.ret_withAgent : (s.withAgent a p).ret a = p.ret := by cases a <;> rfl

variable {s a}

theorem State.get_agents_withAgent {b : HostAgent} (h : b ≠ a) : (s.withAgent a p).agents.get b = s.agents.get b :=
  ByAgent.get_set_ne _ _ h

theorem State.setRet_of_idle (h : s.work a = []) (v : Ret) : s.setRet a v = s.withAgent a ⟨[], v⟩ := by
  rw [← h]
  rfl

end WithAgent

/-! ### Runs -/

/-- A flow that completes has completed each of its parts. -/
theorem Flow.andThen_eq_ok {x : Flow} {f : State → Flow} {t : State} (h : x.andThen f = .ok t) :
    ∃ s, x = .ok s ∧ f s = .ok t := by
  cases x with
  | ok s => exact ⟨s, rfl, h⟩
  | raised s r => cases h

theorem Flow.andThen_assoc (x : Flow) (f g : State → Flow) :
    (x.andThen f).andThen g = x.andThen fun s => (f s).andThen g := by cases x <;> rfl

section Runs
variable {a : HostAgent} {m : Micro} {push rest : List Micro} {n : Nat} {s t : State}

@[simp] theorem runs_zero : runs a rest 0 s = unwind a rest s := by
  rw [runs]
  cases unwind a rest s <;> rfl

/-- A step is followed by what it puts in front, and by the rest. -/
theorem runs_step {p : AgentState} (hm : m.isStep = true)
    (hrun : m.run a (s.withAgent a ⟨m :: rest, p.ret⟩) = .run t push) :
    runs a (m :: rest) (n + 1) (s.withAgent a p) = runs a (push ++ rest) n t := by
  rw [← State.setWork_withAgent] at hrun
  rw [runs, unwind_step hm, Flow.ok_andThen, advances, advance_of_run (State.work_setWork _ _ _) hrun]
  rfl

/-- A local continuation that puts nothing in front. -/
theorem runs_local (hm : m.isStep = false) (hrun : m.run a s = .run t []) : runs a (m :: rest) n s = runs a rest n t := by
  simp only [runs, unwind, hm, hrun, Bool.false_eq_true, if_false]

/-- A local continuation that puts a step in front. -/
theorem runs_start {p : Micro} (hm : m.isStep = false) (hp : p.isStep = true) (hrun : m.run a s = .run t (p :: push)) :
    runs a (m :: rest) n s = runs a (p :: push ++ rest) n t := by
  simp only [runs, unwind, hm, hp, hrun, Bool.false_eq_true, if_false, if_true, List.cons_append]

end Runs

/-! ### Frames that lead from one state to another -/

/-- Run with no other agent between, `frames` take `n` steps and lead from `s` to `t`, whatever the agent's own record, and
whatever is left to do behind them. -/
def Leads (a : HostAgent) (frames : List Micro) (n : Nat) (s t : State) : Prop :=
  ∀ p rest k, ∃ q, runs a (frames ++ rest) (n + k) (s.withAgent a p) = runs a rest k (t.withAgent a q)

/-- They lead from `s` to `t`, and end with the return of an operation that gives no value. -/
def Completes (a : HostAgent) (frames : List Micro) (n : Nat) (s t : State) : Prop :=
  ∀ p rest k, ∃ w, runs a (frames ++ rest) (n + k) (s.withAgent a p) = runs a rest k (t.withAgent a ⟨w, .unit⟩)

section Compose
variable {a : HostAgent} {f g : List Micro} {m : Micro} {n k : Nat} {s t u : State}

theorem Leads.refl (a : HostAgent) (s : State) : Leads a [] 0 s s := fun p rest k =>
  ⟨p, by rw [List.nil_append, Nat.zero_add]⟩

theorem Leads.trans (h : Leads a f n s t) (h' : Leads a g k t u) : Leads a (f ++ g) (n + k) s u := fun p rest j => by
  obtain ⟨q, hq⟩ := h p (g ++ rest) (k + j)
  obtain ⟨r, hr⟩ := h' q rest j
  exact ⟨r, by rw [List.append_assoc, Nat.add_assoc, hq, hr]⟩

theorem Leads.completes (h : Leads a f n s t) (h' : Completes a g k t u) : Completes a (f ++ g) (n + k) s u :=
  fun p rest j => by
    obtain ⟨q, hq⟩ := h p (g ++ rest) (k + j)
    obtain ⟨w, hw⟩ := h' q rest j
    exact ⟨w, by rw [List.append_assoc, Nat.add_assoc, hq, hw]⟩

/-- A step that puts nothing in front. -/
theorem Leads.step (hm : m.isStep = true) (hrun : ∀ p, m.run a (s.withAgent a p) = .run (t.withAgent a p) []) :
    Leads a [m] 1 s t := fun p rest k =>
  ⟨⟨m :: rest, p.ret⟩, by
    rw [List.singleton_append, Nat.add_comm, runs_step hm (hrun _), List.nil_append]⟩

/-- The local end of an operation. -/
theorem Completes.last (hm : m.isStep = false)
    (hrun : ∀ p, m.run a (s.withAgent a p) = .run (t.withAgent a ⟨p.work, .unit⟩) []) : Completes a [m] 0 s t :=
  fun p rest k => ⟨p.work, by rw [List.singleton_append, Nat.zero_add, runs_local hm (hrun p)]⟩

/-- The local head of an operation or of its loop. -/
theorem Completes.start {q : Micro} (hm : m.isStep = false) (hq : q.isStep = true)
    (hrun : ∀ p, m.run a (s.withAgent a p) = .run (s.withAgent a p) (q :: f)) (h : Completes a (q :: f) n s t) :
    Completes a [m] n s t := fun p rest k => by
  rw [List.singleton_append, runs_start hm hq (hrun p)]
  exact h p rest k

end Compose

/-! ### `writereg` (30_encoding.md R160, 41_register_mapper.md R260, R262) -/

/-- Reading `r` has no effect, and its rule takes the value `v` where the registers are `x`, and leaves `y`. -/
structure Takes (a : HostAgent) (r : Reg) (v : Word) (x y : DevRegs) : Prop where
  read  : ∀ u : State, (confirmLive r u).2 = u
  write : ∀ u : State, u.regs = x → writeRule a r v u = .ok { u with regs := y }

/-- An empty Register object with every bit staged by an agent, as `writereg` leaves it for its confirm. -/
def RegObj.wholly (a : HostAgent) (v : Word) : RegObj := RegObj.empty.withMasks a v (~~~v)

/-- The same, with the confirm between its two steps. -/
def RegObj.whollyInConfirm (a : HostAgent) (v : Word) : RegObj :=
  { RegObj.wholly a v with inConfirm := RegObj.empty.inConfirm.set a true }

section WriteReg
variable {a : HostAgent} {r : Reg} {v : Word} {s : State} {y : DevRegs}

/-- A confirm with every bit staged writes the value staged, whatever it read. -/
theorem confirmValue_wholly (live : Word) : confirmValue (RegObj.whollyInConfirm a v) live = v := by
  show live &&& ~~~(~~~v) ||| v = v
  ext i hi
  cases hv : v[i] <;> simp [hv]

theorem confirmed_wholly : (RegObj.whollyInConfirm a v).confirmed a = RegObj.empty := by cases a <;> rfl

/-- The only mark between the two steps is that of the agent itself. -/
theorem unraced_wholly : (s.setRegObj r (RegObj.whollyInConfirm a v)).Unraced r a := fun b hb => by
  rw [State.regObj_setRegObj, RegObj.whollyInConfirm, ByAgent.get_set_ne _ _ hb]
  cases b <;> rfl

theorem State.setRegObj_self (hempty : s.Untouched r) : s.setRegObj r RegObj.empty = s := by
  have hobj : s.mapper.get r = RegObj.empty := hempty
  rw [State.setRegObj, ← hobj, PerReg.set_get_self]

theorem startWriteReg_untouched (hempty : s.Untouched r) (after : List Micro) :
    startWriteReg a r v after s = .run (s.setRegObj r (RegObj.wholly a v)) (.confirmRead r :: after) := by
  have hobj : s.regObj r = RegObj.empty := hempty
  have hmask : ∀ m w : Word, (0#32 &&& m) ||| (w &&& BitVec.allOnes 32) = w := fun m w => by
    rw [BitVec.zero_and, BitVec.and_allOnes, BitVec.zero_or]
  have hset : regSet a r v 0xFFFFFFFF#32 s = stage a r v (~~~v) s := by
    rw [regSet, hobj]
    exact congrFun (congr (congrArg (stage a r) (hmask _ _)) (hmask _ _)) s
  rcases stage_cases a r v (~~~v) s with ⟨-, hstage⟩ | ⟨hnot, -⟩
  · rw [startWriteReg, hset, hstage, hobj, Flow.ok_go, RegObj.wholly]
  · exact absurd (.inl (congrArg RegObj.stagedBy hobj)) hnot

theorem run_confirmRead_wholly (h : Takes a r v s.regs y) (p : AgentState) :
    ∃ live, (Micro.confirmRead r).run a ((s.setRegObj r (RegObj.wholly a v)).withAgent a p) =
      .run ((s.setRegObj r (RegObj.whollyInConfirm a v)).withAgent a p) [.confirmWrite r live] := by
  refine ⟨(confirmLive r ((s.setRegObj r (RegObj.wholly a v)).withAgent a p)).1, ?_⟩
  rw [Micro.run, confirmRead, h.read]
  simp [State.withAgent, State.setInConfirm, State.setRegObj, State.regObj, RegObj.whollyInConfirm, RegObj.wholly,
    RegObj.withMasks]

theorem run_confirmWrite_wholly (hempty : s.Untouched r) (h : Takes a r v s.regs y) (live : Word) (p : AgentState) :
    (Micro.confirmWrite r live).run a ((s.setRegObj r (RegObj.whollyInConfirm a v)).withAgent a p) =
      .run (State.withAgent { s with regs := y } a ⟨p.work, .word v⟩) [] := by
  let after : State := State.setRegObj { s with regs := y } r (RegObj.whollyInConfirm a v)
  have hobj : ((s.setRegObj r (RegObj.whollyInConfirm a v)).withAgent a p).regObj r = RegObj.whollyInConfirm a v :=
    PerReg.get_set_self _ _ _
  have hobj_after : (after.withAgent a p).regObj r = RegObj.whollyInConfirm a v := PerReg.get_set_self _ _ _
  have hwrite : Machine.writeReg a r v ((s.setRegObj r (RegObj.whollyInConfirm a v)).withAgent a p) =
      .ok (after.withAgent a p) :=
    (writeReg_of_unraced (s := (s.setRegObj r (RegObj.whollyInConfirm a v)).withAgent a p) unraced_wholly v).trans
      (h.write _ rfl)
  have hend : (after.withAgent a p).setRegObj r RegObj.empty = State.withAgent { s with regs := y } a p :=
    congrArg (State.withAgent · a p)
      ((State.setRegObj_setRegObj _ _ _ _).trans (State.setRegObj_self (s := { s with regs := y }) hempty))
  rw [Micro.run, confirmWrite, hobj, confirmValue_wholly, hwrite, Flow.ok_andThen, hobj_after, confirmed_wholly, hend,
    State.setRet_withAgent, Flow.ok_go]

/-- `writereg` stores the value that the register's rule takes, in two steps, and leaves the Register object empty. -/
theorem Leads.writeReg (hempty : s.Untouched r) (h : Takes a r v s.regs y) :
    Leads a [.writeReg r v] 2 s { s with regs := y } := fun p rest k => by
  obtain ⟨live, hread⟩ := run_confirmRead_wholly h ⟨.confirmRead r :: rest, p.ret⟩
  have hwrite := run_confirmWrite_wholly hempty h live ⟨.confirmWrite r live :: rest, p.ret⟩
  refine ⟨⟨.confirmWrite r live :: rest, .word v⟩, ?_⟩
  calc runs a (.writeReg r v :: rest) (2 + k) (s.withAgent a p)
      = runs a (.confirmRead r :: rest) (1 + k + 1) ((s.setRegObj r (RegObj.wholly a v)).withAgent a p) := by
        rw [show 2 + k = 1 + k + 1 by omega]
        exact runs_start (m := .writeReg r v) rfl rfl (startWriteReg_untouched (s := s.withAgent a p) hempty [])
    _ = runs a (.confirmWrite r live :: rest) (1 + k)
          ((s.setRegObj r (RegObj.whollyInConfirm a v)).withAgent a ⟨.confirmRead r :: rest, p.ret⟩) :=
        runs_step rfl hread
    _ = runs a rest k (State.withAgent { s with regs := y } a ⟨.confirmWrite r live :: rest, .word v⟩) := by
        rw [Nat.add_comm]
        exact runs_step (push := []) rfl hwrite

/-- A local continuation that goes on with `writereg` is followed as by that. -/
theorem Completes.startWriteReg {m : Micro} {after : List Micro} {n : Nat} {t : State} (hm : m.isStep = false)
    (hempty : s.Untouched r) (h : Completes a (.writeReg r v :: after) n s t)
    (hrun : ∀ p, m.run a (s.withAgent a p) = Machine.startWriteReg a r v after (s.withAgent a p)) :
    Completes a [m] n s t := fun p rest k => by
  have hstart := fun l => startWriteReg_untouched (a := a) (v := v) (s := s.withAgent a p) hempty l
  have hsame : runs a (m :: rest) (n + k) (s.withAgent a p) =
      runs a (.writeReg r v :: (after ++ rest)) (n + k) (s.withAgent a p) :=
    (runs_start hm rfl ((hrun p).trans (hstart after))).trans
      (runs_start (m := .writeReg r v) (push := []) rfl rfl (hstart [])).symm
  obtain ⟨w, hw⟩ := h p rest k
  exact ⟨w, hsame.trans hw⟩

end WriteReg

/-! ### Several registers one after another -/

/-- The registers `y` that writing each value in turn leaves, from the registers `x`. -/
def Programs (a : HostAgent) : List (Reg × Word) → DevRegs → DevRegs → Prop
  | [], x, y => x = y
  | (r, v) :: ws, x, y => ∃ z, Takes a r v x z ∧ Programs a ws z y

/-- The frames of these writes. -/
def writeFrames (ws : List (Reg × Word)) : List Micro := ws.map fun w => .writeReg w.1 w.2

theorem Leads.program {a : HostAgent} {ws : List (Reg × Word)} {s : State} {y : DevRegs}
    (hempty : ∀ w ∈ ws, s.Untouched w.1) (h : Programs a ws s.regs y) :
    Leads a (writeFrames ws) (2 * ws.length) s { s with regs := y } := by
  induction ws generalizing s with
  | nil => cases h; exact .refl a s
  | cons w ws ih =>
    obtain ⟨z, htakes, hrest⟩ := h
    have hfirst := Leads.writeReg (hempty w List.mem_cons_self) htakes
    have hthen := ih (s := { s with regs := z }) (fun w hw => hempty w (List.mem_cons_of_mem _ hw)) hrest
    rw [List.length_cons, Nat.mul_succ, Nat.add_comm]
    exact hfirst.trans hthen

/-! ### Operations that run to their end, issued or inside another (60_exceptions.md R452, 45_core.md R381) -/

/-- Frames that complete, started where some are left to do behind them, are followed by those. -/
theorem Completes.runs_eq_unwind {a : HostAgent} {frames : List Micro} {n : Nat} {s t : State} (h : Completes a frames n s t)
    (rest : List Micro) : ∃ w, runs a (frames ++ rest) n s = unwind a rest (t.withAgent a ⟨w, .unit⟩) := by
  obtain ⟨w, hw⟩ := h (s.agents.get a) rest 0
  rw [State.withAgent_self, runs_zero] at hw
  exact ⟨w, hw⟩

/-- An operation whose frames complete in `n + 1` steps takes the first as it is issued, and returns after `n` more. -/
theorem exec_of_completes {i : Instr} {op : HostOp} {minStep n : Nat} {frames : List Micro} {s t : State}
    (hi : ∀ s, exec i s = hostOp minStep anyAgent op (startOp frames) s) (hready : s.Ready minStep)
    (hidle : s.work s.cur = []) (h : Completes s.cur frames (n + 1) s t) (hidle' : t.work s.cur = []) :
    ∃ s1, exec i s = .next s1 ∧ advances s.cur n s1 = .ok (t.setRet s.cur .unit) := by
  obtain ⟨w, hw⟩ := h ⟨[], .pending⟩ [] 0
  have hstart : (startOp frames s).andThen (advances s.cur n) = .ok (t.setRet s.cur .unit) := by
    rw [startOp, install, hidle, Flow.andThen_assoc, State.setRet_of_idle hidle, State.setRet_of_idle hidle']
    rw [runs_zero, unwind_nil, State.setWork_withAgent] at hw
    exact hw
  obtain ⟨s1, hs1, hadvances⟩ := Flow.andThen_eq_ok hstart
  exact ⟨s1, by rw [hi, hostOp_body hready rfl, hs1, Flow.state_ok], hadvances⟩

end Sys2Proof.Machine
end

section
/-! SUPPORT. The values that the driver programs into a ring's registers, and the registers that each write leaves
(40_mmio_registers.md R218 to R236). -/

namespace Sys2Proof.Machine

/-! ### The sizes of the driver's rings (00_scope.md R9) -/

theorem State.ringSize_of_wf {s : State} (h : s.params.wf = true) (t : Ring) :
    s.ringSize t % 8 = 0 ∧ 8 ≤ s.ringSize t ∧ s.ringSize t ≤ 65528 := by
  simp only [Params.wf, Bool.and_eq_true, beq_iff_eq, decide_eq_true_eq] at h
  cases t <;> simp only [State.ringSize] <;> omega

/-- The length of such a ring fits the bits of its register. -/
theorem ringLength_and_mask {n : Nat} (hn : n % 8 = 0) (hmax : n ≤ 65528) :
    BitVec.ofNat 32 (16 * n) &&& 0x000FFF80#32 = BitVec.ofNat 32 (16 * n) := by
  have hlow : 16 * n = (n / 8) <<< 7 := by rw [Nat.shiftLeft_eq]; omega
  have hmask : (0x000FFF80#32).toNat = (2 ^ 13 - 1) <<< 7 := rfl
  apply BitVec.eq_of_toNat_eq
  rw [BitVec.toNat_and, BitVec.toNat_ofNat, Nat.mod_eq_of_lt (by omega), hmask, hlow, ← Nat.shiftLeft_and_distrib,
    Nat.and_two_pow_sub_one_eq_mod, Nat.mod_eq_of_lt (by omega)]

theorem toNat_ringLength_div {n : Nat} (hmax : n ≤ 65528) : (BitVec.ofNat 32 (16 * n)).toNat / 16 = n := by
  rw [BitVec.toNat_ofNat]
  omega

/-! ### The registers that a write leaves -/

/-- An index below the bound is stored as it is. -/
theorem inRange_of_index {a : HostAgent} {rule n k : Nat} {s : State} {go : Word → Flow} (hk : k < max n 1) (hmax : k < 2 ^ 16) :
    inRange a rule n (BitVec.ofNat 32 k) s go = go (BitVec.ofNat 32 k) := by
  have hlow : (BitVec.ofNat 32 k) &&& 0x0000FFFF#32 = BitVec.ofNat 32 k := by
    apply BitVec.eq_of_toNat_eq
    rw [BitVec.toNat_and, BitVec.toNat_ofNat, show (0x0000FFFF#32).toNat = 2 ^ 16 - 1 from rfl,
      Nat.and_two_pow_sub_one_eq_mod]
    omega
  rw [inRange, hlow, BitVec.toNat_ofNat, if_neg (by omega)]

section Takes
variable {a : HostAgent} {x : DevRegs} {k : Nat}

theorem takes_tdbal (h : x.tctl.getLsbD 1 = false) (v : Word) :
    Takes a .tdbal v x { x with tdbal := v &&& 0xFFFFFFF0#32 } :=
  ⟨fun _ => rfl, by rintro u rfl; exact whileDisabled_of_disabled h⟩

theorem takes_tdbah (h : x.tctl.getLsbD 1 = false) (v : Word) : Takes a .tdbah v x { x with tdbah := v } :=
  ⟨fun _ => rfl, by rintro u rfl; exact whileDisabled_of_disabled h⟩

theorem takes_tdlen (h : x.tctl.getLsbD 1 = false) {v : Word} (hv : v &&& 0x000FFF80#32 = v) :
    Takes a .tdlen v x { x with tdlen := v } :=
  ⟨fun _ => rfl, by rintro u rfl; rw [writeRule, hv]; exact whileDisabled_of_disabled h⟩

theorem takes_tdh (h : x.tctl.getLsbD 1 = false) (hk : k < max (x.tdlen.toNat / 16) 1) (hmax : k < 2 ^ 16) :
    Takes a .tdh (BitVec.ofNat 32 k) x { x with tdh := BitVec.ofNat 32 k } :=
  ⟨fun _ => rfl, by rintro u rfl; exact (whileDisabled_of_disabled h).trans (inRange_of_index hk hmax)⟩

theorem takes_tdt (hk : k < max (x.tdlen.toNat / 16) 1) (hmax : k < 2 ^ 16) :
    Takes a .tdt (BitVec.ofNat 32 k) x { x with tdt := BitVec.ofNat 32 k } :=
  ⟨fun _ => rfl, by rintro u rfl; rw [writeRule]; exact inRange_of_index hk hmax⟩

theorem takes_rdbal (h : x.rctl.getLsbD 1 = false) (v : Word) :
    Takes a .rdbal v x { x with rdbal := v &&& 0xFFFFFFF0#32 } :=
  ⟨fun _ => rfl, by rintro u rfl; exact whileDisabled_of_disabled h⟩

theorem takes_rdbah (h : x.rctl.getLsbD 1 = false) (v : Word) : Takes a .rdbah v x { x with rdbah := v } :=
  ⟨fun _ => rfl, by rintro u rfl; exact whileDisabled_of_disabled h⟩

theorem takes_rdlen (h : x.rctl.getLsbD 1 = false) {v : Word} (hv : v &&& 0x000FFF80#32 = v) :
    Takes a .rdlen v x { x with rdlen := v } :=
  ⟨fun _ => rfl, by rintro u rfl; rw [writeRule, hv]; exact whileDisabled_of_disabled h⟩

theorem takes_rdh (h : x.rctl.getLsbD 1 = false) (hk : k < max (x.rdlen.toNat / 16) 1) (hmax : k < 2 ^ 16) :
    Takes a .rdh (BitVec.ofNat 32 k) x { x with rdh := BitVec.ofNat 32 k } :=
  ⟨fun _ => rfl, by rintro u rfl; exact (whileDisabled_of_disabled h).trans (inRange_of_index hk hmax)⟩

theorem takes_rdt (hk : k < max (x.rdlen.toNat / 16) 1) (hmax : k < 2 ^ 16) :
    Takes a .rdt (BitVec.ofNat 32 k) x { x with rdt := BitVec.ofNat 32 k } :=
  ⟨fun _ => rfl, by rintro u rfl; rw [writeRule]; exact inRange_of_index hk hmax⟩

end Takes

/-! ### The five writes of `hwring.init` (43_descriptors.md R341, R342) -/

section Program
variable {a : HostAgent} {x : DevRegs} {n : Nat}

/-- The transmit ring of `n` descriptors at `base`, empty. -/
def txProgram (base : Word) (n : Nat) : List (Reg × Word) :=
  [(.tdbal, base), (.tdbah, 0#32), (.tdlen, BitVec.ofNat 32 (16 * n)), (.tdh, BitVec.ofNat 32 0), (.tdt, BitVec.ofNat 32 0)]

theorem programs_tx (h : x.tctl.getLsbD 1 = false) (hn : n % 8 = 0) (hmax : n ≤ 65528) (base : Word) :
    Programs a (txProgram base n) x
      { x with tdbal := base &&& 0xFFFFFFF0#32, tdbah := 0#32, tdlen := BitVec.ofNat 32 (16 * n), tdh := 0#32,
               tdt := 0#32 } :=
  ⟨_, takes_tdbal h base, _, takes_tdbah (by exact h) _, _, takes_tdlen (by exact h) (ringLength_and_mask hn hmax), _,
    takes_tdh (by exact h) (by omega) (by decide), _, takes_tdt (by omega) (by decide), rfl⟩

/-- The receive ring of `n` descriptors at `base`, with all but the last handed to hardware. -/
def rxProgram (base : Word) (n : Nat) : List (Reg × Word) :=
  [(.rdbal, base), (.rdbah, 0#32), (.rdlen, BitVec.ofNat 32 (16 * n)), (.rdh, BitVec.ofNat 32 0),
   (.rdt, BitVec.ofNat 32 (n - 1))]

theorem programs_rx (h : x.rctl.getLsbD 1 = false) (hn : n % 8 = 0) (hmin : 8 ≤ n) (hmax : n ≤ 65528) (base : Word) :
    Programs a (rxProgram base n) x
      { x with rdbal := base &&& 0xFFFFFFF0#32, rdbah := 0#32, rdlen := BitVec.ofNat 32 (16 * n), rdh := 0#32,
               rdt := BitVec.ofNat 32 (n - 1) } := by
  have hlen : n - 1 < max ((BitVec.ofNat 32 (16 * n)).toNat / 16) 1 := by
    rw [toNat_ringLength_div hmax]
    omega
  exact ⟨_, takes_rdbal h base, _, takes_rdbah (by exact h) _, _, takes_rdlen (by exact h) (ringLength_and_mask hn hmax), _,
    takes_rdh (by exact h) (by omega) (by decide), _, takes_rdt hlen (by omega), rfl⟩

end Program

end Sys2Proof.Machine
end

section
/-! PROOF of `TransmitRingInit` and `MoveTailHandsOff`: the writes of each one after another, then its local end. -/

namespace Sys2Proof.Machine

/-! ### The ends of `hwring.init` and `hwring.movetail` (R341 to R343) -/

theorem Completes.ringInitEnd (a : HostAgent) (t : Ring) (s : State) :
    Completes a [.ringInitEnd t] 0 s ((s.setTailShadow t (s.initialTail t)).setCursor t 0) :=
  Completes.last rfl fun p => by
    rw [Micro.run, Machine.ringInitEnd, State.initialTail_withAgent, State.setTailShadow_withAgent,
      State.setCursor_withAgent, State.setRet_withAgent]

theorem Completes.tailEnd (a : HostAgent) (t : Ring) (k : Nat) (s : State) :
    Completes a [.tailEnd t k] 0 s (s.setTailShadow t k) :=
  Completes.last rfl fun p => by
    rw [Micro.run, Machine.tailEnd, State.setTailShadow_withAgent, State.setRet_withAgent]

/-! ### `hwring.init TX` (R341) -/

/-- The state after `hwring.init TX`. -/
def State.txRingReady (s : State) : State :=
  { s with
    regs := { s.regs with tdbal := s.drv.txPhys &&& 0xFFFFFFF0#32, tdbah := 0#32,
                          tdlen := BitVec.ofNat 32 (16 * s.params.nTx), tdh := 0#32, tdt := 0#32 },
    drv := { s.drv with txTail := 0, txCur := 0 } }

theorem Completes.txInit {s : State} (a : HostAgent) (hwf : s.params.wf = true) (hoff : s.regs.tctl.getLsbD 1 = false)
    (hempty : ∀ r ∈ [Reg.tdbal, .tdbah, .tdlen, .tdh, .tdt], s.Untouched r) :
    Completes a [.txInit] 10 s s.txRingReady := by
  obtain ⟨hn, -, hmax⟩ := State.ringSize_of_wf hwf .tx
  have hprogram := Leads.program (a := a) (ws := txProgram s.drv.txPhys s.params.nTx) (by simpa [txProgram] using hempty)
    (programs_tx hoff hn hmax s.drv.txPhys)
  exact Completes.startWriteReg rfl (hempty .tdbal List.mem_cons_self) (hprogram.completes (.ringInitEnd a .tx _))
    fun _ => rfl

/-- Settles O30: the five writes and the end, issued or inside step 7. -/
theorem transmitRingInit : Obligations.TransmitRingInit := by
  refine ⟨fun s hready hwf hidle hoff hempty => ?_, fun s a rest hwf hoff hempty => ?_⟩
  · obtain ⟨s1, hexec, hadvances⟩ := exec_of_completes (i := .hwringInit .tx) (fun _ => rfl) hready hidle
      (Completes.txInit s.cur hwf hoff hempty) hidle
    exact ⟨s1, _, hexec, hadvances, rfl⟩
  · obtain ⟨w, hw⟩ := (Completes.txInit a hwf hoff hempty).runs_eq_unwind rest
    exact ⟨_, hw, rfl, State.ret_withAgent _ _ _, fun b hb => State.get_agents_withAgent _ hb⟩

/-! ### `hwring.movetail` (R343) -/

theorem Completes.moveTail {s : State} {a : HostAgent} {t : Ring} {y : DevRegs} (hempty : s.Untouched (tailReg t))
    (h : Takes a (tailReg t) (BitVec.ofNat 32 (nextIndex (s.tailShadow t) (s.ringSize t))) s.regs y) :
    Completes a [.moveTail t] 2 s
      (State.setTailShadow { s with regs := y } t (nextIndex (s.tailShadow t) (s.ringSize t))) :=
  Completes.startWriteReg rfl hempty ((Leads.writeReg hempty h).completes (.tailEnd a t _ _)) fun _ => by cases t <;> rfl

/-- Settles O32: the write and the end, for each ring. -/
theorem moveTailHandsOff : Obligations.MoveTailHandsOff := by
  intro s hready hwf hidle
  have hsmall : ∀ t k, k % s.ringSize t < 2 ^ 16 := fun t k => by
    obtain ⟨-, hmin, hmax⟩ := State.ringSize_of_wf hwf t
    have := Nat.mod_lt k (show 0 < s.ringSize t by omega)
    omega
  refine ⟨?_, ?_⟩ <;> intro tail hempty htail
  · exact exec_of_completes (i := .hwringMovetail .tx) (fun _ => rfl) hready hidle
      (Completes.moveTail (t := .tx) hempty (takes_tdt htail (hsmall .tx _))) hidle
  · exact exec_of_completes (i := .hwringMovetail .rx) (fun _ => rfl) hready hidle
      (Completes.moveTail (t := .rx) hempty (takes_rdt htail (hsmall .rx _))) hidle

end Sys2Proof.Machine
end

section
/-! PROOF of `ReceiveRingInit`: the memory that the first descriptors leave, one descriptor at a time, then the five writes and
the end. -/

namespace Sys2Proof.Machine

/-! ### The descriptors in memory (43_descriptors.md R342) -/

/-- Memory after the first descriptors of the receive ring have their slot's address and a clear status. -/
def State.rxFilled (s : State) : Nat → Memory
  | 0 => s.mem
  | i + 1 => ((s.rxFilled i).writeBytes (s.descAddr .rx i 0) (addressBytes (s.slotPhys i))).writeBytes (s.descAddr .rx i 12) [0#8]

/-- An address outside the two fields that are written of descriptor `i`. -/
def State.OutsideFields (s : State) (i x : Nat) : Prop :=
  (x < s.descAddr .rx i 0 ∨ s.descAddr .rx i 0 + 8 ≤ x) ∧ x ≠ s.descAddr .rx i 12

/-- The bytes of one descriptor lie outside the fields of every other. -/
theorem State.outsideFields_of_ne (s : State) {i j off : Nat} (h : i ≠ j) (hoff : off < 16) :
    s.OutsideFields j (s.descAddr .rx i off) := by
  simp only [State.OutsideFields, State.descAddr]
  omega

section Filled
variable {s : State}

theorem State.wf_rxFilled (hs : s.mem.wf = true) (n : Nat) : (s.rxFilled n).wf = true := by
  induction n with
  | zero => exact hs
  | succ n ih => exact Memory.wf_writeBytes (Memory.wf_writeBytes ih)

variable (hs : s.mem.wf = true) (hend : s.drv.rxPhys.toNat + 16 * s.params.nRx ≤ 2 ^ 32)
include hend

/-- No descriptor of a block below 2^32 wraps. -/
theorem State.descAddr_add_le {i off n : Nat} (hi : i < s.params.nRx) (hn : off + n ≤ 16) :
    s.descAddr .rx i off + n ≤ physSize := by
  simp only [State.descAddr, State.ringPhys, physSize]
  omega

include hs

/-- A descriptor changes its own two fields, and no other byte. -/
theorem State.readByte_rxFilled_outside {i x : Nat} (hi : i < s.params.nRx) (hx : s.OutsideFields i x) :
    (s.rxFilled (i + 1)).readByte x = (s.rxFilled i).readByte x := by
  obtain ⟨haddress, hstatus⟩ := hx
  have hwf := State.wf_rxFilled hs i
  rw [State.rxFilled, Memory.readByte_writeBytes_outside (Memory.wf_writeBytes hwf) (State.descAddr_add_le hend hi (by simp))
      (by rw [List.length_singleton]; omega),
    Memory.readByte_writeBytes_outside hwf (State.descAddr_add_le hend hi (by simp)) haddress]

/-- Descriptors change no byte outside their fields. -/
theorem State.readByte_rxFilled_of_outside {n m x : Nat} (hnm : n ≤ m) (hm : m ≤ s.params.nRx)
    (hx : ∀ i, n ≤ i → i < m → s.OutsideFields i x) : (s.rxFilled m).readByte x = (s.rxFilled n).readByte x := by
  induction hnm with
  | refl => rfl
  | @step m hnm ih =>
    rw [State.readByte_rxFilled_outside hs hend hm (hx m hnm (Nat.lt_succ_self m))]
    exact ih (Nat.le_of_succ_le hm) fun i hi him => hx i hi (Nat.lt_succ_of_lt him)

/-- A descriptor's bytes stay as it leaves them. -/
theorem State.readByte_rxFilled_descAddr {i off : Nat} (hi : i < s.params.nRx) (hoff : off < 16) :
    (s.rxFilled s.params.nRx).readByte (s.descAddr .rx i off) = (s.rxFilled (i + 1)).readByte (s.descAddr .rx i off) :=
  State.readByte_rxFilled_of_outside hs hend hi (Nat.le_refl _) fun _ hj _ => s.outsideFields_of_ne (by omega) hoff

theorem State.readByte_rxFilled_address {i k : Nat} (hi : i < s.params.nRx) (hk : k < 8) :
    (s.rxFilled s.params.nRx).readByte (s.descAddr .rx i k) = (addressBytes (s.slotPhys i))[k] := by
  have hwf := State.wf_rxFilled hs i
  rw [State.readByte_rxFilled_descAddr hs hend hi (by omega), State.rxFilled,
    Memory.readByte_writeBytes_outside (Memory.wf_writeBytes hwf) (State.descAddr_add_le hend hi (by simp))
      (.inl (by simp only [State.descAddr]; omega))]
  exact Memory.readByte_writeBytes_inside hwf (State.descAddr_add_le hend hi (by simp)) hk

theorem State.readByte_rxFilled_status {i : Nat} (hi : i < s.params.nRx) :
    (s.rxFilled s.params.nRx).readByte (s.descAddr .rx i 12) = 0#8 := by
  rw [State.readByte_rxFilled_descAddr hs hend hi (by decide), State.rxFilled]
  exact Memory.readByte_writeBytes_inside (k := 0) (Memory.wf_writeBytes (State.wf_rxFilled hs i))
    (State.descAddr_add_le hend hi (by simp)) (by simp)

end Filled

/-! ### `hwring.init RX` (R342) -/

/-- The state after `hwring.init RX`. -/
def State.rxRingReady (s : State) : State :=
  { s with
    regs := { s.regs with rdbal := s.drv.rxPhys &&& 0xFFFFFFF0#32, rdbah := 0#32,
                          rdlen := BitVec.ofNat 32 (16 * s.params.nRx), rdh := 0#32,
                          rdt := BitVec.ofNat 32 (s.params.nRx - 1) },
    drv := { s.drv with rxTail := s.params.nRx - 1, rxCur := 0 },
    mem := s.rxFilled s.params.nRx }

/-- The state with another memory. -/
def State.withMem (s : State) (m : Memory) : State := { s with mem := m }

/-- Software owns each field of a block of descriptors that it owns. -/
theorem State.SoftwareOwns.blockField {s : State} {t : Ring} {i off n : Nat}
    (h : s.SoftwareOwns (s.ringPhys t) (16 * s.ringSize t)) (hi : i < s.ringSize t) (hn : off + n ≤ 16) :
    s.SoftwareOwns (s.descAddr t i off) n := by
  refine h.part ?_ ?_ <;> rw [State.descAddr] <;> omega

/-- A step that writes a field of a descriptor of which software owns the bytes; who owns them does not depend on memory. -/
theorem Leads.fieldWrite {s : State} {a : HostAgent} {m : Micro} {t : Ring} {i off : Nat} {bs : List Byte} {mem : Memory}
    (hm : m.isStep = true) (hi : i < s.ringSize t) (ho : s.SoftwareOwns (s.descAddr t i off) bs.length)
    (hrun : ∀ u : State, u.drv = s.drv → m.run a u = (descWrite a t i off bs u).go []) :
    Leads a [m] 1 (s.withMem mem) (s.withMem (mem.writeBytes (s.descAddr t i off) bs)) :=
  Leads.step hm fun p => by
    rw [hrun ((s.withMem mem).withAgent a p) rfl, descWrite_store (s := (s.withMem mem).withAgent a p) hi ho]
    rfl

section Init
variable {s : State} (a : HostAgent) (ho : s.SoftwareOwns s.drv.rxPhys.toNat (16 * s.params.nRx))
include ho

theorem Leads.fillDescriptor {i : Nat} (hi : i < s.params.nRx) :
    Leads a [.rxAddr i, .rxClear i] 2 (s.withMem (s.rxFilled i)) (s.withMem (s.rxFilled (i + 1))) := by
  have howns : s.SoftwareOwns (s.ringPhys .rx) (16 * s.ringSize .rx) := ho
  have haddress : Leads a [.rxAddr i] 1 (s.withMem (s.rxFilled i)) _ :=
    Leads.fieldWrite (off := 0) (bs := addressBytes (s.slotPhys i)) rfl hi (howns.blockField hi (by simp))
      fun u hu => by rw [Micro.run, writeAddress, bytesOfNat_address, State.slotPhys, hu, State.slotPhys]
  have hstatus : Leads a [.rxClear i] 1 (s.withMem _) (s.withMem (s.rxFilled (i + 1))) :=
    Leads.fieldWrite (off := 12) (bs := [0#8]) rfl hi (howns.blockField hi (by simp)) fun _ _ => rfl
  exact haddress.trans hstatus

variable (hwf : s.params.wf = true) (hoff : s.regs.rctl.getLsbD 1 = false)
  (hempty : ∀ r ∈ [Reg.rdbal, .rdbah, .rdlen, .rdh, .rdt], s.Untouched r)
include hwf hoff hempty

/-- From descriptor `i` on, with `k` descriptors left: those, then the five writes and the end. -/
theorem Completes.rxInitFrom (k : Nat) : ∀ i, i + k = s.params.nRx →
    Completes a [.rxInitFrom i] (2 * k + 10) (s.withMem (s.rxFilled i)) s.rxRingReady := by
  induction k with
  | zero =>
    intro i hi
    obtain rfl : i = s.params.nRx := hi
    obtain ⟨hn, hmin, hmax⟩ := State.ringSize_of_wf hwf .rx
    have huntouched : ∀ w ∈ rxProgram s.drv.rxPhys s.params.nRx, s.Untouched w.1 := by simpa [rxProgram] using hempty
    have hprogram := Leads.program (a := a) (s := s.withMem (s.rxFilled s.params.nRx)) huntouched
      (programs_rx hoff hn hmin hmax s.drv.rxPhys)
    exact Completes.startWriteReg rfl (hempty .rdbal List.mem_cons_self) (hprogram.completes (.ringInitEnd a .rx _))
      fun p => if_neg (Nat.lt_irrefl _)
  | succ k ih =>
    intro i hi
    have hlt : i < s.params.nRx := by omega
    have hrest := (Leads.fillDescriptor a ho hlt).completes (ih (i + 1) (by omega))
    rw [show 2 * (k + 1) + 10 = 2 + (2 * k + 10) by omega]
    exact Completes.start (f := [.rxClear i, .rxInitFrom (i + 1)]) rfl rfl (fun _ => if_pos hlt) hrest

end Init

/-- Settles O31: from the first descriptor on, issued or inside step 7; the bytes are those of the filled memory. -/
theorem receiveRingInit : Obligations.ReceiveRingInit := by
  intro s hwf hoff hs hslots hend ho hempty filled regs drv
  have hcompletes := fun a => Completes.rxInitFrom a ho hwf hoff hempty s.params.nRx 0 (Nat.zero_add _)
  have hfilled : filled s.rxRingReady.mem := by
    refine ⟨fun i hi k hk => ?_, fun i hi => State.readByte_rxFilled_status hs hend hi, fun x hx => ?_⟩
    · have hslot : s.slotPhys i = s.drv.slots[i].phys := by simp [State.slotPhys, hi]
      simp only [← hslot]
      exact State.readByte_rxFilled_address hs hend (hslots ▸ hi) hk
    · exact State.readByte_rxFilled_of_outside hs hend (Nat.zero_le _) (Nat.le_refl _) fun i _ hi => hx i hi
  refine ⟨fun hready hidle => ?_, fun a rest => ?_⟩
  · obtain ⟨s1, hexec, hadvances⟩ := exec_of_completes (i := .hwringInit .rx) (fun _ => rfl) hready hidle (hcompletes s.cur)
      hidle
    exact ⟨s1, _, hexec, hadvances, rfl, hfilled⟩
  · obtain ⟨w, hw⟩ := (hcompletes a).runs_eq_unwind rest
    exact ⟨_, hw, rfl, hfilled, State.ret_withAgent _ _ _, fun b hb => State.get_agents_withAgent _ hb⟩

end Sys2Proof.Machine
end

section
/-! SUPPORT. Runs of an agent from where it stands, whose next frame is a step, and operations that wait after their first
frames (spec/60_exceptions.md R464). -/

namespace Sys2Proof.Machine

section Standing
variable {a : HostAgent} {m m' : Micro} {push rest : List Micro} {n : Nat} {s t : State}

@[simp] theorem State.work_withAgent (s : State) (a : HostAgent) (p : AgentState) : (s.withAgent a p).work a = p.work := by
  cases a <;> rfl

theorem State.setWork_of_work {w : List Micro} (h : s.work a = w) : s.setWork a w = s := by
  subst h
  cases a <;> rfl

/-- The steps of an agent that stands before a step are those of a run of its work. -/
theorem advances_eq_runs (hw : s.work a = m :: rest) (hm : m.isStep = true) : advances a n s = runs a (m :: rest) n s := by
  rw [runs, unwind_step hm, Flow.ok_andThen, State.setWork_of_work hw]

/-- A step that puts one step in front, whatever is left to do behind it, and that leaves the agent's own record. -/
theorem runs_step_to (hm : m.isStep = true) (hm' : m'.isStep = true)
    (hrun : ∀ w, m.run a (s.setWork a w) = .run (t.setWork a w) [m']) :
    runs a (m :: rest) (n + 1) s = runs a (m' :: rest) n t := by
  rw [runs, unwind_step hm, Flow.ok_andThen, advances, advance_of_run (State.work_setWork _ _ _) (hrun _), runs,
    List.singleton_append, unwind_step hm', unwind_step hm', State.setWork_setWork]

/-- The same, for a run that ends before the step put in front. -/
theorem runs_one_step (hm : m.isStep = true) (hm' : m'.isStep = true)
    (hrun : ∀ w, m.run a (s.setWork a w) = .run (t.setWork a w) [m']) :
    runs a (m :: rest) 1 s = .ok (t.setWork a (m' :: rest)) := by
  rw [runs_step_to hm hm' hrun, runs_zero, unwind_step hm']

/-- An operation as it is issued and the steps behind it are a run of its frames. -/
theorem startOp_andThen_advances (frames : List Micro) (n : Nat) (s : State) :
    (startOp frames s).andThen (advances s.cur n) =
      runs s.cur (frames ++ s.work s.cur) (n + 1) (s.withAgent s.cur ⟨s.work s.cur, .pending⟩) := by
  rw [startOp, install, Flow.andThen_assoc]
  rfl

/-- An operation whose first frames complete in `n + 1` steps, and whose next frame is a step, stands before that. -/
theorem startOp_of_completes {frames : List Micro} (h : Completes s.cur frames (n + 1) s t) (hm : m.isStep = true)
    (hidle : s.work s.cur = []) :
    ∃ s1, startOp (frames ++ [m]) s = .ok s1 ∧ advances s.cur n s1 = .ok (t.withAgent s.cur ⟨[m], .unit⟩) := by
  obtain ⟨w, hw⟩ := h ⟨[], .pending⟩ [m] 0
  refine Flow.andThen_eq_ok ?_
  rw [startOp_andThen_advances, hidle, List.append_nil]
  exact hw.trans (by rw [runs_zero, unwind_step hm, State.setWork_withAgent])

end Standing

end Sys2Proof.Machine
end

section
/-! PROOF of `SendChecksInOrder`, `SendProgramsThenHandsOff` and `SendReturnsOnlyWhenDone`: the checks of `tx.send` one by one,
the descriptor it leaves in memory, and its poll by the descriptor's status. -/

namespace Sys2Proof.Machine

/-! ### The checks of `tx.send` (44_ring_operations.md R350) -/

section Checks
variable {s : State} {pa : Word} {len : Nat}

/-- HOST and BH may issue `tx.send` (60_exceptions.md R470). -/
theorem exec_txSend (hready : s.Ready 13) (hcur : s.cur = .host ∨ s.cur = .bh) :
    exec (.txSend pa len) s = .next (sendBody pa len s).state :=
  hostOp_body hready (by simpa [notIsr] using hcur)

theorem sendBody_busy (h : s.drv.txBusy = true) :
    sendBody pa len s = .raised s ⟨.sendReentered, s.cur.toAgent, 350, 0⟩ := by
  rw [sendBody, if_pos h]

theorem sendBody_badLength (h : s.drv.txBusy = false) (hlen : len = 0 ∨ 16288 < len) :
    sendBody pa len s = .raised s ⟨.txLength, s.cur.toAgent, 350, len⟩ := by
  rw [sendBody, if_neg (by simp [h]), if_pos (by simp only [Config.txMaxLen]; omega)]

variable (h : s.drv.txBusy = false) (hmin : 1 ≤ len) (hmax : len ≤ 16288)
include h hmin hmax

/-- A send with a good length claims its buffer, then asks who owns the descriptor (log entry 19). -/
theorem sendBody_claims :
    sendBody pa len s =
      if s.hwOwned .tx s.drv.txCur then .raised (sendClaim pa len s) ⟨.sendNotOwned, s.cur.toAgent, 350, s.drv.txCur⟩
      else startOp (sendFrames s.drv.txCur pa len) (sendClaim pa len s) := by
  rw [sendBody, if_neg (by simp [h]), if_neg (by simp only [Config.txMaxLen]; omega)]

theorem sendBody_notOwned (howned : s.hwOwned .tx s.drv.txCur = true) :
    sendBody pa len s = .raised (sendClaim pa len s) ⟨.sendNotOwned, s.cur.toAgent, 350, s.drv.txCur⟩ := by
  rw [sendBody_claims h hmin hmax, if_pos howned]

theorem sendBody_starts (howned : s.hwOwned .tx s.drv.txCur = false) :
    sendBody pa len s = startOp (sendFrames s.drv.txCur pa len) (sendClaim pa len s) := by
  rw [sendBody_claims h hmin hmax, if_neg (by simp [howned])]

end Checks

/-- Settles O33: each check answers once those before it pass. -/
theorem sendChecksInOrder : Obligations.SendChecksInOrder := by
  intro s pa len hready hcur claimed
  refine ⟨fun hbusy => ?_, fun hfree hlen => ?_, fun hfree hmin hmax howned => ?_⟩ <;> rw [exec_txSend hready hcur]
  · rw [sendBody_busy hbusy, Flow.state_raised]
  · rw [sendBody_badLength hfree hlen, Flow.state_raised]
  · rw [sendBody_notOwned hfree hmin hmax howned, Flow.state_raised]
    rfl

/-! ### The descriptor that `tx.send` writes (R350 steps 2 to 4, 43_descriptors.md R321 to R323) -/

/-- Memory after the address, the length, the command and a clear status are stored in the descriptor at `d`. -/
def Memory.sendStored (m : Memory) (d : Nat) (pa : Word) (len : Nat) : Memory :=
  ((m.writeBytes d (addressBytes pa)).writeBytes (d + 8) (bytesOfNat 2 len)).writeBytes (d + 11) [Config.txCmd, 0#8]

section Stored
variable {m : Memory} {d k x : Nat} {pa : Word} {len : Nat} (hm : m.wf = true) (hend : d + 16 ≤ physSize)
include hm hend

/-- The command and the status change no byte outside their fields. -/
theorem Memory.readByte_sendStored_before (h : x < d + 11 ∨ d + 13 ≤ x) :
    (m.sendStored d pa len).readByte x =
      ((m.writeBytes d (addressBytes pa)).writeBytes (d + 8) (bytesOfNat 2 len)).readByte x :=
  Memory.readByte_writeBytes_outside (Memory.wf_writeBytes (Memory.wf_writeBytes hm)) (show d + 11 + 2 ≤ physSize by omega) h

theorem Memory.readByte_sendStored_address (hk : k < 8) : (m.sendStored d pa len).readByte (d + k) = (addressBytes pa)[k] := by
  rw [Memory.readByte_sendStored_before hm hend (by omega),
    Memory.readByte_writeBytes_outside (Memory.wf_writeBytes hm) (show d + 8 + 2 ≤ physSize by omega) (by omega)]
  exact Memory.readByte_writeBytes_inside hm (show d + 8 ≤ physSize by omega) hk

theorem Memory.readByte_sendStored_length (hk : k < 2) :
    (m.sendStored d pa len).readByte (d + 8 + k) = (bytesOfNat 2 len)[k]'hk := by
  rw [Memory.readByte_sendStored_before hm hend (by omega)]
  exact Memory.readByte_writeBytes_inside (Memory.wf_writeBytes hm) (show d + 8 + 2 ≤ physSize by omega) hk

theorem Memory.readByte_sendStored_command (hk : k < 2) :
    (m.sendStored d pa len).readByte (d + 11 + k) = [Config.txCmd, 0#8][k] :=
  Memory.readByte_writeBytes_inside (Memory.wf_writeBytes (Memory.wf_writeBytes hm)) (show d + 11 + 2 ≤ physSize by omega) hk

/-- No byte but those of the four fields changes; byte 10 lies between them. -/
theorem Memory.readByte_sendStored_outside (hx : x < d ∨ x = d + 10 ∨ d + 13 ≤ x) :
    (m.sendStored d pa len).readByte x = m.readByte x := by
  have hlength : x < d + 8 ∨ d + 8 + 2 ≤ x := by omega
  have haddress : x < d ∨ d + 8 ≤ x := by omega
  rw [Memory.readByte_sendStored_before hm hend (by omega),
    Memory.readByte_writeBytes_outside (Memory.wf_writeBytes hm) (show d + 8 + 2 ≤ physSize by omega) hlength,
    Memory.readByte_writeBytes_outside hm (show d + 8 ≤ physSize by omega) haddress]

end Stored

/-! ### `tx.send` up to its poll (R350, R351) -/

/-- The descriptor writes of `tx.send`, where software owns the descriptor. -/
theorem Leads.sendStored {s : State} {a : HostAgent} {c : Nat} (hc : c < s.params.nTx)
    (ho : s.SoftwareOwns (s.descAddr .tx c 0) 16) (pa : Word) (len : Nat) :
    Leads a [.txAddr c pa, .txLen c len, .txCmd c] 3 s (s.withMem (s.mem.sendStored (s.descAddr .tx c 0) pa len)) := by
  have haddress : Leads a [.txAddr c pa] 1 (s.withMem s.mem) _ :=
    Leads.fieldWrite (t := .tx) (off := 0) (bs := addressBytes pa) rfl hc (ho.field (by simp))
      fun _ _ => by rw [Micro.run, writeAddress, bytesOfNat_address]
  have hlength := fun mem =>
    Leads.fieldWrite (a := a) (m := .txLen c len) (t := .tx) (off := 8) (bs := bytesOfNat 2 len) (mem := mem) rfl hc
      (ho.field (by simp)) fun _ _ => rfl
  have hcommand : ∀ mem, Leads a [.txCmd c] 1 (s.withMem mem)
      (s.withMem (mem.writeBytes (s.descAddr .tx c 11) [Config.txCmd, 0#8])) := fun mem =>
    Leads.step rfl fun p => by
      rw [Micro.run, writeCommand_store (s := (s.withMem mem).withAgent a p) hc (ho.field (by omega))]
      rfl
  exact (haddress.trans (hlength _)).trans (hcommand _)

/-- The state in which `tx.send` begins to poll. -/
def State.sendPolling (s : State) (pa : Word) (len : Nat) : State :=
  let tail := (s.drv.txTail + 1) % s.params.nTx
  { s with
    regs := { s.regs with tdt := BitVec.ofNat 32 tail }, drv := { s.drv with txBusy := true, txTail := tail },
    dma := s.dma ++ [⟨pa.toNat, len, .sendBuffer⟩],
    mem := s.mem.sendStored (s.descAddr .tx s.drv.txCur 0) pa len }

/-- An index of a ring of the driver fits a tail register. -/
theorem State.mod_ringSize_lt {s : State} (hwf : s.params.wf = true) (t : Ring) (k : Nat) : k % s.ringSize t < 2 ^ 16 := by
  obtain ⟨-, hmin, hmax⟩ := State.ringSize_of_wf hwf t
  have := Nat.mod_lt k (show 0 < s.ringSize t by omega)
  omega

/-- The descriptor writes, then the tail. -/
theorem Completes.sendPolling {s : State} (a : HostAgent) (hwf : s.params.wf = true) (hc : s.drv.txCur < s.params.nTx)
    (ho : s.SoftwareOwns (s.descAddr .tx s.drv.txCur 0) 16) (hempty : s.Untouched .tdt)
    (htail : (s.drv.txTail + 1) % s.params.nTx < max (s.regs.tdlen.toNat / 16) 1) (pa : Word) (len : Nat) :
    Completes a [.txAddr s.drv.txCur pa, .txLen s.drv.txCur len, .txCmd s.drv.txCur, .moveTail .tx] 5 (sendClaim pa len s)
      (s.sendPolling pa len) := by
  have hmove := Completes.moveTail (a := a) (t := .tx)
    (s := (sendClaim pa len s).withMem (s.mem.sendStored (s.descAddr .tx s.drv.txCur 0) pa len)) hempty
    (takes_tdt htail (State.mod_ringSize_lt hwf .tx _))
  exact (Leads.sendStored (s := sendClaim pa len s) hc ho pa len).completes hmove

/-- Settles O34: the run of its frames up to the poll, and the bytes of the memory that they leave. -/
theorem sendProgramsThenHandsOff : Obligations.SendProgramsThenHandsOff := by
  intro s pa len hready hcur hwf hidle hs hfree hmin hmax hc howned ho hblock hempty htail tail d
  have hd : d + 16 ≤ physSize := Nat.le_trans (by omega) hblock
  obtain ⟨s1, hstart, hadvances⟩ := startOp_of_completes (m := .txPoll s.drv.txCur pa len) (s := sendClaim pa len s)
    (Completes.sendPolling s.cur hwf hc ho hempty htail pa len) rfl hidle
  refine ⟨s1, _, ?_, hadvances, rfl, State.work_withAgent _ _ _, fun k hk => Memory.readByte_sendStored_address hs hd hk,
    Memory.readByte_sendStored_length (k := 0) hs hd (by omega), Memory.readByte_sendStored_length (k := 1) hs hd (by omega),
    Memory.readByte_sendStored_command (k := 0) hs hd (by omega), Memory.readByte_sendStored_command (k := 1) hs hd (by omega),
    fun x hx => Memory.readByte_sendStored_outside hs hd hx, fun b hb => State.get_agents_withAgent _ hb⟩
  rw [exec_txSend hready hcur, sendBody_starts hfree hmin hmax howned]
  exact congrArg (fun x => Host.Outcome.next x.state) hstart

/-! ### The poll of `tx.send` (R350 step 5, R352, R353) -/

section Poll
variable {s : State} {a : HostAgent} {c : Nat} {pa : Word} {len : Nat} (hc : c < s.params.nTx)
include hc

theorem run_txPoll_pending (h : s.descByte .tx c 12 &&& 0x07#8 = 0#8) :
    (Micro.txPoll c pa len).run a s = .run s [.txPoll c pa len] := by
  have hdone : txStatusDone (s.status .tx c) = false := bne_eq_false_iff_eq.2 h
  rw [Micro.run, txPoll, checkIndex_inside hc, Flow.ok_thenGo, hdone]
  rfl

theorem run_txPoll_done (h : s.descByte .tx c 12 &&& 0x07#8 ≠ 0#8) :
    (Micro.txPoll c pa len).run a s = .run (sendEnd a pa len (s.descByte .tx c 12) c s) [] := by
  have hdone : txStatusDone (s.status .tx c) = true := bne_iff_ne.2 h
  rw [Micro.run, txPoll, checkIndex_inside hc, Flow.ok_thenGo, hdone]
  rfl

end Poll

/-- The return of `tx.send`, with the event that a collision leaves. -/
theorem sendEnd_eq (a : HostAgent) (pa : Word) (len : Nat) (sta : Byte) (c : Nat) (s : State) :
    sendEnd a pa len sta c s =
      State.setRet
        { s with
          drv := { s.drv with txBusy := false, txCur := (s.drv.txCur + 1) % s.params.nTx },
          dma := s.dma.erase ⟨pa.toNat, len, .sendBuffer⟩,
          trace := if sta &&& 0x06#8 = 0#8 then s.trace else s.trace ++ [⟨.txCollisionAsSuccess, c⟩] } a .ok := by
  by_cases h : sta &&& 0x06#8 = 0#8
  · rw [sendEnd, h, if_pos rfl]
    rfl
  · rw [sendEnd, if_pos (bne_iff_ne.2 h), if_neg h]
    rfl

/-- Settles O35: a poll of a descriptor that is not done changes nothing, and the first of one that is returns. -/
theorem sendReturnsOnlyWhenDone : Obligations.SendReturnsOnlyWhenDone := by
  intro s a c pa len hc hw sta
  refine ⟨fun hpending => ?_, fun hdone => ?_⟩
  · rw [advance_of_run hw (run_txPoll_pending hc hpending), List.append_nil, unwind_step rfl, State.setWork_of_work hw]
  · rw [advance_of_run hw (run_txPoll_done hc hdone), List.append_nil, unwind_nil, sendEnd_eq]

end Sys2Proof.Machine
end

section
/-! PROOF of `PollClassifiesDescriptor` and `PollStartsAndAdvances`: each access of a turn of `rx.poll`'s loop and the frame that
its test puts in front, then the turn's end. -/

namespace Sys2Proof.Machine

/-! ### The accesses of a turn and their tests (44_ring_operations.md R355) -/

/-- The length field of a receive descriptor, from its two bytes. -/
theorem State.rxLength_eq (s : State) (c : Nat) : s.rxLength c = s.descByte .rx c 9 ++ s.descByte .rx c 8 :=
  ofNat_natOfBytes_pair _ _

section Accesses
variable {s : State} {a : HostAgent} {k c : Nat} {ptr : Word} {len : Half}

theorem run_pollDone (hc : s.drv.rxCur < s.params.nRx) :
    (Micro.pollDone k).run a s =
      if (s.descByte .rx s.drv.rxCur 12).getLsbD 0 then .run s [.pollLen k s.drv.rxCur] else .run (s.setRet a .unit) [] := by
  rw [Micro.run, pollDone, checkIndex_inside hc]
  rfl

theorem run_pollLen (hc : c < s.params.nRx) :
    (Micro.pollLen k c).run a s =
      if (s.rxLength c).toNat < 64 then .run (s.drop .dropRunt .dropRunt c) [.pollClear k c]
      else .run s [.pollEop k c (s.slotVirt c) (s.rxLength c)] := by
  rw [Micro.run, pollLen, checkIndex_inside hc]
  rfl

theorem run_pollEop (hc : c < s.params.nRx) :
    (Micro.pollEop k c ptr len).run a s =
      if (s.descByte .rx c 12).getLsbD 1 then .run s [.pollErrors k c ptr len]
      else .run (s.drop .dropNotEop .dropNotEop c) [.pollClear k c] := by
  rw [Micro.run, pollEop, checkIndex_inside hc]
  rfl

theorem run_pollErrors (hc : c < s.params.nRx) :
    (Micro.pollErrors k c ptr len).run a s =
      if s.descByte .rx c 13 &&& 0x86#8 ≠ 0#8 then .run (s.drop .dropErrors .dropErrors c) [.pollClear k c]
      else .run s [.pollPush k c ptr len] := by
  rw [Micro.run, pollErrors, checkIndex_inside hc]
  exact ite_congr (propext bne_iff_ne) (fun _ => rfl) fun _ => rfl

theorem run_pollPush :
    (Micro.pollPush k c ptr len).run a s =
      if s.params.qCap ≤ s.drv.queue.length then .run (s.drop .dropQueueFull .dropQueueFull c) [.pollClear k c]
      else .run { s with drv := { s.drv with queue := s.drv.queue ++ [⟨ptr, len⟩] } } [.pollClear k c] := by
  rw [Micro.run, pollPush, ← ite_not]
  exact ite_congr (propext Nat.not_lt) (fun _ => rfl) fun _ => rfl

end Accesses

/-! ### The tests that a descriptor has passed (R355) -/

section Passed
variable {s : State} {k n : Nat} {rest : List Micro} (hc : s.drv.rxCur < s.params.nRx)
  (hw : s.work .isr = .pollDone k :: rest) (hdone : (s.descByte .rx s.drv.rxCur 12).getLsbD 0 = true)
include hc hw hdone

/-- A descriptor that is done is asked for its length. -/
theorem advances_pollDone : advances .isr (n + 1) s = runs .isr (.pollLen k s.drv.rxCur :: rest) n s := by
  rw [advances_eq_runs hw rfl]
  exact runs_step_to rfl rfl fun w => (run_pollDone (s := s.setWork .isr w) hc).trans (if_pos hdone)

variable (hlen : 64 ≤ (s.rxLength s.drv.rxCur).toNat)
include hlen

/-- One that is no runt is asked for its end of packet. -/
theorem advances_pollLen :
    advances .isr (n + 2) s =
      runs .isr (.pollEop k s.drv.rxCur (s.slotVirt s.drv.rxCur) (s.rxLength s.drv.rxCur) :: rest) n s := by
  rw [advances_pollDone hc hw hdone]
  exact runs_step_to rfl rfl fun w => (run_pollLen (s := s.setWork .isr w) hc).trans (if_neg (Nat.not_lt.2 hlen))

variable (heop : (s.descByte .rx s.drv.rxCur 12).getLsbD 1 = true)
include heop

/-- One that ends its packet is asked for its errors. -/
theorem advances_pollEop :
    advances .isr (n + 3) s =
      runs .isr (.pollErrors k s.drv.rxCur (s.slotVirt s.drv.rxCur) (s.rxLength s.drv.rxCur) :: rest) n s := by
  rw [advances_pollLen hc hw hdone hlen]
  exact runs_step_to rfl rfl fun w => (run_pollEop (s := s.setWork .isr w) hc).trans (if_pos heop)

/-- One without errors is to be pushed. -/
theorem advances_pollErrors (hnone : ¬ s.descByte .rx s.drv.rxCur 13 &&& 0x86#8 ≠ 0#8) :
    advances .isr (n + 4) s =
      runs .isr (.pollPush k s.drv.rxCur (s.slotVirt s.drv.rxCur) (s.rxLength s.drv.rxCur) :: rest) n s := by
  rw [advances_pollEop hc hw hdone hlen heop]
  exact runs_step_to rfl rfl fun w => (run_pollErrors (s := s.setWork .isr w) hc).trans (if_neg hnone)

end Passed

/-- Settles O36: the tests passed before, then the one that decides. -/
theorem pollClassifiesDescriptor : Obligations.PollClassifiesDescriptor := by
  intro s k rest hc hw c len done eop errors full leaves log event
  have hlength : s.rxLength c = len := s.rxLength_eq c
  refine ⟨fun hdone => ?_, fun hdone hrunt => ?_, fun hdone hlen heop => ?_, fun hdone hlen heop herr => ?_,
    fun hdone hlen heop hnone hfull => ?_, fun hdone hlen heop hnone hroom slot hslot => ?_⟩
  · exact advance_of_run hw ((run_pollDone hc).trans (if_neg (Bool.eq_false_iff.1 hdone)))
  · refine (advances_pollDone hc hw hdone).trans (runs_one_step rfl rfl fun w => ?_)
    exact (run_pollLen (s := s.setWork .isr w) hc).trans (if_pos (hlength ▸ hrunt))
  · refine (advances_pollLen hc hw hdone (hlength ▸ hlen)).trans (runs_one_step rfl rfl fun w => ?_)
    exact (run_pollEop (s := s.setWork .isr w) hc).trans (if_neg (Bool.eq_false_iff.1 heop))
  · refine (advances_pollEop hc hw hdone (hlength ▸ hlen) heop).trans (runs_one_step rfl rfl fun w => ?_)
    exact (run_pollErrors (s := s.setWork .isr w) hc).trans (if_pos herr)
  · refine (advances_pollErrors hc hw hdone (hlength ▸ hlen) heop hnone).trans (runs_one_step rfl rfl fun w => ?_)
    exact (run_pollPush (s := s.setWork .isr w)).trans (if_pos hfull)
  · have hptr : s.slotVirt c = slot.virt := by rw [State.slotVirt, hslot]; rfl
    refine (advances_pollErrors hc hw hdone (hlength ▸ hlen) heop hnone).trans (runs_one_step rfl rfl fun w => ?_)
    rw [hptr, hlength]
    exact (run_pollPush (s := s.setWork .isr w)).trans (if_neg hroom)

/-! ### The head of the loop and the end of a turn (R355, R356) -/

/-- The head of the loop looks at the next descriptor, or after `N_RX` of them ends the call. -/
theorem unwind_pollFrom (a : HostAgent) (k : Nat) (rest : List Micro) (s : State) :
    unwind a (.pollFrom k :: rest) s =
      if k < s.params.nRx then .ok (s.setWork a (.pollDone k :: rest)) else unwind a rest (s.setRet a .unit) := by
  have hlocal : (Micro.pollFrom k).isStep = false := rfl
  by_cases h : k < s.params.nRx <;> simp [unwind, hlocal, Micro.run, pollFrom, h]

/-- The first step of `rx.poll` tests the descriptor at the cursor. -/
theorem exec_rxPoll {s : State} (hready : s.Ready 11) (hcur : s.cur = .isr) (hidle : s.work .isr = [])
    (hn : 0 < s.params.nRx) :
    exec .rxPoll s = .next (advance .isr ((s.setRet .isr .pending).setWork .isr [.pollDone 0])).state := by
  have hinstall : install .isr [.pollFrom 0] s = .ok ((s.setRet .isr .pending).setWork .isr [.pollDone 0]) := by
    rw [install, hidle, List.append_nil, unwind_pollFrom]
    exact if_pos hn
  have hbody : exec .rxPoll s = .next (startOp [.pollFrom 0] s).state := hostOp_body hready (by simpa [onlyIsr] using hcur)
  rw [hbody, startOp, hcur, hinstall, Flow.ok_andThen]

/-- The state after the clear status of a turn, with the cursor one further. -/
def State.pollCleared (s : State) : State := (s.putBytes (s.descAddr .rx s.drv.rxCur 12) [0#8]).setNext .rx

/-- The state after a turn of the loop: a clear status byte, and the cursor and the tail one further. -/
def State.pollTurned (s : State) : State :=
  let tail := (s.drv.rxTail + 1) % s.params.nRx
  { s with
    regs := { s.regs with rdt := BitVec.ofNat 32 tail },
    drv := { s.drv with rxCur := (s.drv.rxCur + 1) % s.params.nRx, rxTail := tail },
    mem := s.mem.writeBytes (s.descAddr .rx s.drv.rxCur 12) [0#8] }

section TurnEnd
variable {s : State} {a : HostAgent} {k : Nat} (hc : s.drv.rxCur < s.params.nRx)
  (ho : s.SoftwareOwns (s.descAddr .rx s.drv.rxCur 12) 1)
include hc ho

theorem run_pollClear :
    (Micro.pollClear k s.drv.rxCur).run a s = .run s.pollCleared [.moveTail .rx, .pollFrom (k + 1)] := by
  rw [Micro.run, pollClear, clearStatus, descWrite_store hc ho]
  rfl

/-- The end of a turn: the status, the cursor and the tail, and then the head of the loop. -/
theorem runs_pollClear (hwf : s.params.wf = true) (hempty : s.Untouched .rdt)
    (htail : (s.drv.rxTail + 1) % s.params.nRx < max (s.regs.rdlen.toNat / 16) 1) (rest : List Micro) :
    ∃ w, runs a (.pollClear k s.drv.rxCur :: rest) 3 s =
      unwind a (.pollFrom (k + 1) :: rest) (s.pollTurned.withAgent a ⟨w, .unit⟩) := by
  have hclear : ∀ p, (Micro.pollClear k s.drv.rxCur).run a (s.withAgent a p) =
      .run (s.pollCleared.withAgent a p) [.moveTail .rx, .pollFrom (k + 1)] :=
    fun p => run_pollClear (s := s.withAgent a p) hc ho
  have hmove := Completes.moveTail (s := s.pollCleared) (a := a) (t := .rx) hempty
    (takes_rdt htail (State.mod_ringSize_lt hwf .rx _))
  obtain ⟨w, hw⟩ := hmove ⟨.pollClear k s.drv.rxCur :: rest, s.ret a⟩ (.pollFrom (k + 1) :: rest) 0
  have hrun := (runs_step (p := s.agents.get a) rfl (hclear _)).trans hw
  rw [State.withAgent_self, runs_zero] at hrun
  exact ⟨w, hrun⟩

end TurnEnd

/-- Settles O37: the first step by the descriptor at the cursor; the end of a turn by how many descriptors it has seen. -/
theorem pollStartsAndAdvances : Obligations.PollStartsAndAdvances := by
  refine ⟨fun s hready hcur hidle hn hc => ⟨fun hdone => ?_, fun hdone => ?_⟩,
    fun s k rest hwf hs hw hc ho hempty htail => ?_⟩
  · have hrun := (run_pollDone (a := .isr) (k := 0) (s := (s.setRet .isr .pending).setWork .isr [.pollDone 0]) hc).trans
      (if_neg (Bool.eq_false_iff.1 hdone))
    rw [exec_rxPoll hready hcur hidle hn, advance_of_run (State.work_setWork _ _ _) hrun, List.append_nil, unwind_nil,
      State.setRet_of_idle hidle, State.setRet_of_idle hidle, State.setWork_withAgent, State.setRet_withAgent,
      State.setWork_withAgent, Flow.state_ok]
  · have hrun := (run_pollDone (a := .isr) (k := 0) (s := (s.setRet .isr .pending).setWork .isr [.pollDone 0]) hc).trans
      (if_pos hdone)
    rw [exec_rxPoll hready hcur hidle hn, advance_of_run (State.work_setWork _ _ _) hrun, List.append_nil, unwind_step rfl,
      State.setWork_setWork]
    rfl
  · intro tail
    obtain ⟨w, hrun⟩ := runs_pollClear (a := .isr) (k := k) hc ho hwf hempty htail rest
    rw [← advances_eq_runs hw rfl, unwind_pollFrom, State.setRet_withAgent] at hrun
    exact ⟨_, fun hmore => hrun.trans (if_pos hmore), fun hlast => hrun.trans (if_neg (Nat.not_lt.2 hlast)), rfl,
      Memory.stored_writeBytes hs (by simp), State.ret_withAgent _ _ _, fun b hb => State.get_agents_withAgent _ hb⟩

end Sys2Proof.Machine
end

section
/-! SUPPORT. Runs that lead an agent from what it has left to do to what is left behind it, one frame at a time. -/

namespace Sys2Proof.Machine

/-- Run with no other agent between, an agent with `f` left to do in state `s` has after `n` steps `g` left to do in state `t`;
what the two states themselves record as left to do does not matter. -/
def Reaches (a : HostAgent) (f : List Micro) (n : Nat) (s : State) (g : List Micro) (t : State) : Prop :=
  ∀ w k, ∃ w', runs a f (n + k) (s.setWork a w) = runs a g k (t.setWork a w')

/-- A result and what is left to do are stored in either order. -/
theorem State.setWork_setRet_comm (s : State) (a : HostAgent) (w : List Micro) (v : Ret) :
    (s.setWork a w).setRet a v = (s.setRet a v).setWork a w := by cases a <;> rfl

theorem State.setWork_work (s : State) (a : HostAgent) : s.setWork a (s.work a) = s := State.setWork_of_work rfl

section Reaches
variable {a : HostAgent} {f g h rest push : List Micro} {m p : Micro} {n k : Nat} {s t u : State}

theorem Reaches.refl (a : HostAgent) (f : List Micro) (s : State) : Reaches a f 0 s f s := fun w k =>
  ⟨w, by rw [Nat.zero_add]⟩

theorem Reaches.trans (hf : Reaches a f n s g t) (hg : Reaches a g k t h u) : Reaches a f (k + n) s h u := fun w j => by
  obtain ⟨w', hw⟩ := hf w (k + j)
  obtain ⟨w'', hw'⟩ := hg w' j
  exact ⟨w'', by rw [Nat.add_comm k, Nat.add_assoc, hw, hw']⟩

/-- An atomic step, then what it puts in front. -/
theorem Reaches.step (hm : m.isStep = true) (hrun : ∀ w, m.run a (s.setWork a w) = .run (t.setWork a w) push)
    (hthen : Reaches a (push ++ rest) n t g u) : Reaches a (m :: rest) (n + 1) s g u := fun w k => by
  obtain ⟨w', hw⟩ := hthen (m :: rest) k
  refine ⟨w', ?_⟩
  rw [runs, unwind_step hm, Flow.ok_andThen, State.setWork_setWork, Nat.add_right_comm, advances,
    advance_of_run (State.work_setWork _ _ _) (hrun _), ← hw]
  rfl

/-- A local frame that puts nothing in front. -/
theorem Reaches.pass (hm : m.isStep = false) (hrun : ∀ w, m.run a (s.setWork a w) = .run (t.setWork a w) [])
    (hthen : Reaches a rest n t g u) : Reaches a (m :: rest) n s g u := fun w k => by
  obtain ⟨w', hw⟩ := hthen w k
  exact ⟨w', by rw [runs_local hm (hrun w), hw]⟩

/-- A local frame that puts a step in front. -/
theorem Reaches.start (hm : m.isStep = false) (hp : p.isStep = true)
    (hrun : ∀ w, m.run a (s.setWork a w) = .run (t.setWork a w) (p :: push))
    (hthen : Reaches a (p :: push ++ rest) n t g u) : Reaches a (m :: rest) n s g u := fun w k => by
  obtain ⟨w', hw⟩ := hthen w k
  exact ⟨w', by rw [runs_start hm hp (hrun w), hw]⟩

/-- Such a run, and any number of further steps. -/
theorem Reaches.runs_add (hf : Reaches a f n s g t) (k : Nat) : ∃ w, runs a f (n + k) s = runs a g k (t.setWork a w) := by
  obtain ⟨w, hw⟩ := hf (s.work a) k
  exact ⟨w, by rwa [State.setWork_work] at hw⟩

theorem Reaches.runs_eq_unwind (hf : Reaches a f n s g t) : ∃ w, runs a f n s = unwind a g (t.setWork a w) := by
  obtain ⟨w, hw⟩ := hf.runs_add 0
  exact ⟨w, by rwa [runs_zero] at hw⟩

/-- A run that stands before a step. -/
theorem Reaches.stands (hf : Reaches a f n s (m :: rest) t) (hm : m.isStep = true) :
    runs a f n s = .ok (t.setWork a (m :: rest)) := by
  obtain ⟨w, hw⟩ := hf.runs_eq_unwind
  rw [hw, unwind_step hm, State.setWork_setWork]

/-- A run to the end of the work of an agent that had none. -/
theorem Reaches.ends (hf : Reaches a f n s [] t) (hidle : t.work a = []) : runs a f n s = .ok t := by
  obtain ⟨w, hw⟩ := hf.runs_eq_unwind
  rw [hw, unwind_nil, State.setWork_setWork, State.setWork_of_work hidle]

end Reaches

end Sys2Proof.Machine
end

section
/-! PROOF of `BottomHalfPublishes`: `core.parse` by its three steps. -/

namespace Sys2Proof.Machine

section Issued
variable {s : State} (hready : s.Ready 11) (hcur : s.cur = .bh)
include hready hcur

/-- Only BH issues `core.hasdata` and `core.parse` (60_exceptions.md R470). -/
theorem exec_coreHasdata : exec .coreHasdata s = .next (s.setRet .bh (.bool !s.drv.queue.isEmpty)) := by
  rw [← hcur]
  exact hostOp_body (op := .coreHasdata) (body := fun s => .ok (s.setRet s.cur (.bool !s.drv.queue.isEmpty))) hready
    (decide_eq_true hcur)

theorem exec_coreParse : exec .coreParse s = .next (startOp [.parsePop] s).state :=
  hostOp_body hready (decide_eq_true hcur)

end Issued

section Parse
variable {s : State} {a : HostAgent}

theorem run_parsePop_empty (h : s.drv.queue = []) : Micro.parsePop.run a s = .run s [.parsePop] := by
  rw [Micro.run, parsePop, h]

theorem run_parsePop_cons {e : QEntry} {rest : List QEntry} (h : s.drv.queue = e :: rest) :
    Micro.parsePop.run a s = .run { s with drv := { s.drv with queue := rest } } [.parseCopy e.ptr e.len] := by
  rw [Micro.run, parsePop, h]

/-- The state after the head `e` of Q is popped and published. -/
def State.parsed (s : State) (e : QEntry) (rest : List QEntry) : State :=
  { s with drv := { s.drv with
      queue := rest, published := s.drv.published ++ [⟨s.mem.readBytes (s.phys e.ptr) e.len.toNat, e.len⟩] } }

/-- The pop, the copy and the publish (45_core.md R390). -/
theorem Reaches.parse {e : QEntry} {rest : List QEntry} (h : s.drv.queue = e :: rest) (more : List Micro) :
    Reaches a (.parsePop :: more) 3 s more ((s.parsed e rest).setRet a .unit) := by
  let popped : State := { s with drv := { s.drv with queue := rest } }
  refine .step (t := popped) rfl (fun w => run_parsePop_cons (s := s.setWork a w) h) ?_
  refine .step (t := popped) (push := [.parsePublish (s.mem.readBytes (s.phys e.ptr) e.len.toNat) e.len]) rfl
    (fun _ => rfl) ?_
  exact .step rfl (fun w => congrArg (Go.run · []) (State.setWork_setRet_comm (s.parsed e rest) a w .unit)) (.refl _ _ _)

end Parse

/-- Settles O44: the test of Q, the wait on an empty one, and the three steps on the head of another. -/
theorem bottomHalfPublishes : Obligations.BottomHalfPublishes := by
  refine ⟨fun s hready hcur => ?_, fun s hready hcur hidle hempty => ?_, fun s e rest hready hcur hidle hqueue => ?_⟩
  · rw [exec_coreHasdata hready hcur]
    cases s.drv.queue <;> rfl
  · have hinstall : install .bh [.parsePop] s = .ok ((s.setRet .bh .pending).setWork .bh [.parsePop]) := by
      rw [install, hidle]
      exact unwind_step rfl
    have hpop := run_parsePop_empty (a := .bh) (s := (s.setRet .bh .pending).setWork .bh [.parsePop]) hempty
    rw [exec_coreParse hready hcur, startOp, hcur, hinstall, Flow.ok_andThen, advance_of_run (State.work_setWork _ _ _) hpop,
      List.append_nil, unwind_step rfl, State.setWork_setWork, Flow.state_ok]
  · have hrun := (Reaches.parse (a := .bh) (s := s.setRet .bh .pending) hqueue []).ends hidle
    have hissue := startOp_andThen_advances [.parsePop] 2 s
    rw [hcur, hidle, ← State.setRet_of_idle hidle] at hissue
    obtain ⟨s1, hstart, hadvances⟩ := Flow.andThen_eq_ok (hissue.trans hrun)
    refine ⟨s1, s.mem.readBytes (s.phys e.ptr) e.len.toNat, ?_, Memory.length_readBytes _ _ _,
      fun k hk => Memory.getElem_readBytes hk, hadvances.trans ?_⟩
    · rw [exec_coreParse hready hcur, hstart, Flow.state_ok]
    · exact congrArg Flow.ok (State.setRet_setRet (s.parsed e rest) .bh .pending .unit)

end Sys2Proof.Machine
end

section
/-! SUPPORT. Local frames as an agent unwinds them, and `coreInitialize` where a piece of it fails (45_core.md R382). -/

namespace Sys2Proof.Machine

section Unwind
variable {a : HostAgent} {m p : Micro} {rest push : List Micro} {s t : State} {e : Err}

/-- A local frame that puts nothing in front. -/
theorem unwind_pass (hm : m.isStep = false) (hrun : m.run a s = .run t []) : unwind a (m :: rest) s = unwind a rest t := by
  rw [← runs_zero, runs_local hm hrun, runs_zero]

/-- A local frame that puts a step in front. -/
theorem unwind_start (hm : m.isStep = false) (hp : p.isStep = true) (hrun : m.run a s = .run t (p :: push)) :
    unwind a (m :: rest) s = .ok (t.setWork a (p :: push ++ rest)) := by
  rw [← runs_zero, runs_start hm hp hrun, runs_zero, List.cons_append, unwind_step hp]

/-- What a failed `coreInitialize` leaves: its own record, and nothing left to do (R382). -/
theorem failInit_eq (a : HostAgent) (s : State) (e : Err) :
    failInit a s e = (State.setRet
      { s with drv := { s.drv with initFailed := true, registered := false, handlerAssigned := false } } a (.err e)).setWork a
      [] := State.setWork_setRet_comm _ _ _ _

theorem unwind_of_abort (hm : m.isStep = false) (hrun : m.run a s = .abort t e) :
    unwind a (m :: rest) s = .ok (failInit a t e) := by
  rw [unwind, hm, hrun]
  rfl

theorem advance_of_abort (hw : s.work a = m :: rest) (hrun : m.run a s = .abort t e) :
    advance a s = .ok (failInit a t e) := by
  simp only [advance, hw, hrun]

end Unwind

end Sys2Proof.Machine
end

section
/-! PROOF of `InitializeSteps`: each external call by ENV's answer, and each local frame by itself. -/

namespace Sys2Proof.Machine

/-! ### External calls (45_core.md R380, R382) -/

section Calls
variable {s : State} {a : HostAgent}

theorem run_callBusMaster_of_ok (h : s.reply.ok = true) : Micro.callBusMaster.run a s = .run { s with busMaster := true } [] :=
  if_pos h

theorem callMapIo_of_ok (h : s.reply.ok = true) (hend : s.reply.va.toNat + 0x20000 ≤ 2 ^ 32) :
    callMapIo s = .run { s with drv := { s.drv with base := s.reply.va } } [] := by
  have hwindow : s.reply.va.toNat + Config.bar0Size ≤ physSize := hend
  exact if_pos (by simp [mapOffered, h, hwindow])

theorem callMapIo_of_fail (h : s.reply.ok = false) : callMapIo s = .abort s .initFailed := if_neg (by simp [mapOffered, h])

theorem callAlloc_of_fail (h : s.reply.ok = false) (what : AllocFor) : callAlloc what s = .abort s .initFailed :=
  if_neg (by simp [State.allocOffered, h])

/-- Every external call fails by the answer alone, and has no effect of its own (log entry 14). -/
theorem run_call_of_fail (h : s.reply.ok = false) :
    ∀ call ∈ [Micro.callBusMaster, .callMapIo, .callAlloc .txBlock, .callAlloc .rxBlock, .callAlloc .slot, .callRegister,
      .callAllow, .callAssign, .callCreateDirectory, .callAddNode], call.run a s = .abort s .initFailed := by
  have hservice : ¬ s.reply.ok = true := Bool.eq_false_iff.1 h
  simp only [List.forall_mem_cons]
  exact ⟨if_neg hservice, callMapIo_of_fail h, callAlloc_of_fail h _, callAlloc_of_fail h _, callAlloc_of_fail h _,
    if_neg hservice, if_neg hservice, if_neg hservice, if_neg hservice, if_neg hservice, nofun⟩

/-! ### Allocations (R380, R381; 20_memory.md R102) -/

/-- The state after an allocation of `n` bytes that leaves the driver's record `drv`. -/
def State.allocated (s : State) (n : Nat) (drv : Driver) : State :=
  { s with
    dma := s.dma ++ [⟨s.reply.pa.toNat, n, .pinned⟩], maps := s.maps ++ [⟨s.reply.va, s.reply.pa, n⟩], drv := drv,
    mem := s.mem.writeBytes s.reply.pa.toNat (s.reply.contents.take n) }

theorem callAlloc_of_offered {what : AllocFor} {n : Nat} (hn : s.allocLen what = n)
    (h : s.allocOffered s.reply n = true) :
    callAlloc what s = .run (s.allocated n (s.keepAlloc what s.reply.va s.reply.pa).drv) [] := by
  subst hn
  rw [callAlloc, if_pos h]
  cases what <;> rfl

/-- An offered range lies below 2^32, physical and virtual, and `phys` takes the one to the other. -/
theorem State.bounds_of_allocOffered {n : Nat} (h : s.allocOffered s.reply n = true) :
    s.reply.pa.toNat + n ≤ 2 ^ 32 ∧ s.reply.va.toNat + n ≤ 2 ^ 32 ∧ s.translates s.reply.va s.reply.pa n = true := by
  simp only [State.allocOffered, Bool.and_eq_true, decide_eq_true_eq] at h
  obtain ⟨⟨⟨⟨⟨⟨-, hpa⟩, hva⟩, htranslates⟩, -⟩, -⟩, -⟩ := h
  exact ⟨hpa, hva, htranslates⟩

/-- What an allocation does: its region, its mapping and its contents, at addresses that `phys` joins byte by byte. -/
theorem advance_callAlloc {what : AllocFor} {rest : List Micro} {n : Nat} (hw : s.work a = .callAlloc what :: rest)
    (hn : s.allocLen what = n) (h : s.allocOffered s.reply n = true) (hs : s.mem.wf = true) :
    ∃ m, advance a s = unwind a rest { s with
          dma := s.dma ++ [⟨s.reply.pa.toNat, n, .pinned⟩], maps := s.maps ++ [⟨s.reply.va, s.reply.pa, n⟩],
          drv := (s.keepAlloc what s.reply.va s.reply.pa).drv, mem := m } ∧
      m.wf = true ∧ s.mem.Stored m s.reply.pa.toNat (s.reply.contents.take n) ∧
      ∀ k, k < n → s.phys (s.reply.va + BitVec.ofNat 32 k) = s.reply.pa.toNat + k := by
  obtain ⟨hpa, hva, htranslates⟩ := State.bounds_of_allocOffered h
  have hlen : (s.reply.contents.take n).length ≤ 2 ^ 32 := by
    rw [List.length_take]
    omega
  exact ⟨_, advance_of_run hw (callAlloc_of_offered hn h), Memory.wf_writeBytes hs, Memory.stored_writeBytes hs hlen,
    fun k hk => State.phys_of_translates htranslates hk hva⟩

end Calls

/-! ### The first step (R381) -/

/-- The state with `k` steps of `coreInitialize` complete. -/
def State.stepsDone (s : State) (k : Nat) : State := { s with drv := { s.drv with initStep := k } }

/-- The state in which `coreInitialize` stands before its first step, with one step complete. -/
def State.initStarted (s : State) : State :=
  ((s.stepsDone 1).setRet .host .pending).setWork .host (.callBusMaster :: .initDone 2 :: .callMapIo :: afterMapIo)

/-- `coreInitialize` is issued by HOST once, and starts with the call of its step 2. -/
theorem exec_coreInitialize {s : State} (hcur : s.cur = .host) (hstep : s.drv.initStep = 0)
    (hfailed : s.drv.initFailed = false) (hidle : s.work .host = []) :
    exec .coreInitialize s = .next (advance .host s.initStarted).state := by
  have hbody : exec .coreInitialize s = .next (startOp initFrames s).state :=
    (if_neg (fun h => h hstep)).trans (hostOp_body ⟨hfailed, Nat.zero_le _⟩ (decide_eq_true hcur))
  have hinstall : install .host initFrames s = .ok s.initStarted := by
    rw [install, hidle, List.append_nil]
    exact (unwind_pass rfl rfl).trans (unwind_step rfl)
  rw [hbody, startOp, hcur, hinstall, Flow.ok_andThen]

/-! ### Local frames (R381) -/

section Local
variable {a : HostAgent} {i : Nat} {rest : List Micro} {t : State}

theorem unwind_slotsFrom_lt (h : i < t.params.nRx) :
    unwind a (.slotsFrom i :: rest) t = .ok (t.setWork a (.callAlloc .slot :: .slotsFrom (i + 1) :: rest)) :=
  unwind_start (push := [.slotsFrom (i + 1)]) rfl rfl (if_pos h)

theorem unwind_slotsFrom_le (h : t.params.nRx ≤ i) : unwind a (.slotsFrom i :: rest) t = unwind a rest t :=
  unwind_pass rfl (if_neg (Nat.not_lt.2 h))

theorem unwind_initDone_ne (h : i ≠ 13) :
    unwind a (.initDone i :: rest) t = unwind a rest (t.stepsDone i) :=
  unwind_pass rfl (congrArg (Go.run · []) (if_neg h))

end Local

/-- Settles O38: the first step by ENV's answer, each further call by the answer to it, each local frame by itself. -/
theorem initializeSteps : Obligations.InitializeSteps := by
  refine ⟨fun s hcur hstep hfailed hidle => ?_, fun s a call rest hw hfail hcall => ?_, fun s a call rest hw hok => ?_,
    fun t a i rest => ⟨unwind_slotsFrom_lt, unwind_slotsFrom_le, unwind_pass rfl rfl, unwind_initDone_ne, unwind_pass rfl rfl,
      fun hw => advance_of_run hw rfl, fun hw => advance_of_run hw rfl⟩⟩
  · rw [exec_coreInitialize hcur hstep hfailed hidle]
    refine ⟨fun hok => ?_, fun hfail => ?_⟩
    · rw [advance_of_run (s := s.initStarted) rfl (run_callBusMaster_of_ok hok), List.nil_append,
        unwind_initDone_ne (by decide), unwind_step rfl]
      rfl
    · have hcall := run_call_of_fail (s := s.initStarted) (a := .host) hfail .callBusMaster List.mem_cons_self
      rw [advance_of_abort (s := s.initStarted) rfl hcall, failInit_eq]
      rfl
  · rw [advance_of_abort hw (run_call_of_fail hfail call hcall), failInit_eq]
  · intro r goesOn page allocates
    have hpage : ∀ n, (n + Config.pageSize - 1) / Config.pageSize * Config.pageSize = page n := fun n => Nat.mul_comm _ _
    refine ⟨?_, ?_, ?_, ?_, ?_, ?_, ?_, ?_, ?_⟩ <;> rintro rfl
    · exact fun hend => advance_of_run hw (callMapIo_of_ok hok hend)
    · exact advance_callAlloc hw (hpage _)
    · exact advance_callAlloc hw (hpage _)
    · exact advance_callAlloc hw rfl
    · exact advance_of_run hw (if_pos hok)
    · exact advance_of_run hw (if_pos hok)
    · exact advance_of_run hw (if_pos hok)
    · exact advance_of_run hw (if_pos hok)
    · exact advance_of_run hw (if_pos hok)

end Sys2Proof.Machine
end

section
/-! SUPPORT. Masks that an agent has pending on a register, and the confirm that writes them, inside the runs of that agent
(41_register_mapper.md R260 to R262). -/

namespace Sys2Proof.Machine

/-! ### Words and their fields -/

/-- Clearing a field before some of its bits are set needs not clear those. -/
theorem clear_or_eq {m n k : Word} (x : Word) (h : m ||| n = k) : x &&& ~~~m ||| n = x &&& ~~~k ||| n := by
  subst h
  ext i hi
  cases hn : n[i] <;> simp [hn]

theorem clear_none (x : Word) : x &&& ~~~0#32 = x := by rw [BitVec.not_zero, BitVec.and_allOnes]

/-! ### Pending masks (R260, R261) -/

/-- The state with masks of an agent pending on a register, and nothing else in its Register object. -/
def State.pending (s : State) (a : HostAgent) (r : Reg) (on off : Word) : State :=
  s.setRegObj r (RegObj.empty.withMasks a on off)

section Pending
variable {s : State} {a : HostAgent} {r : Reg} {on off : Word}

theorem State.pending_none (hempty : s.Untouched r) : s.pending a r 0#32 0#32 = s := State.setRegObj_self hempty

/-- An agent stages on its own masks. -/
theorem stage_pending (on' off' : Word) : stage a r on' off' (s.pending a r on off) = .ok (s.pending a r on' off') := by
  have hobj : (s.pending a r on off).regObj r = RegObj.empty.withMasks a on off := State.regObj_setRegObj _ _ _
  rcases stage_cases a r on' off' (s.pending a r on off) with ⟨-, hstage⟩ | ⟨hnot, -⟩
  · rw [hstage, hobj, State.pending, State.setRegObj_setRegObj]
    rfl
  · refine absurd ?_ hnot
    rw [State.MayStage, hobj, RegObj.withMasks]
    split
    · exact .inl rfl
    · exact .inr rfl

theorem regDecide_pending (values : Word) : regDecide a r values true (s.pending a r on off) =
    .ok (s.pending a r (on ||| values) (off &&& ~~~values)) := by
  have hobj : (s.pending a r on off).regObj r = RegObj.empty.withMasks a on off := State.regObj_setRegObj _ _ _
  rw [regDecide, hobj]
  exact stage_pending _ _

theorem regSet_pending (values mask : Word) : regSet a r values mask (s.pending a r on off) =
    .ok (s.pending a r ((on &&& ~~~mask) ||| (values &&& mask)) ((off &&& ~~~mask) ||| (~~~values &&& mask))) := by
  have hobj : (s.pending a r on off).regObj r = RegObj.empty.withMasks a on off := State.regObj_setRegObj _ _ _
  rw [regSet, hobj]
  exact stage_pending _ _

end Pending

/-! ### What a register's rules do, whatever the mapper and the agents hold -/

/-- Reading `r` gives `live`, and has no effect. -/
def ReadsAs (r : Reg) (live : Word) (s : State) : Prop :=
  ∀ (x : PerReg RegObj) (p : ByAgent AgentState),
    confirmLive r { s with mapper := x, agents := p } = (live, { s with mapper := x, agents := p })

/-- The rule of `r` takes `v`, and leads from `s` to `t`. -/
structure Stores (a : HostAgent) (r : Reg) (v : Word) (s t : State) : Prop where
  write  : ∀ (x : PerReg RegObj) (p : ByAgent AgentState),
    writeRule a r v { s with mapper := x, agents := p } = .ok { t with mapper := x, agents := p }
  mapper : t.mapper = s.mapper
  agents : t.agents = s.agents

section Confirm
variable {s t : State} {a : HostAgent} {r : Reg} {live v on off : Word} {o : RegObj}

theorem Stores.writeReg (h : Stores a r v s t) (hu : s.Unraced r a) : Machine.writeReg a r v s = .ok t := by
  have hsame : { t with mapper := s.mapper, agents := s.agents } = t := by rw [← h.mapper, ← h.agents]
  exact (writeReg_of_unraced hu v).trans ((h.write s.mapper s.agents).trans (congrArg Flow.ok hsame))

/-- The second step of a confirm (R262). -/
theorem run_confirmWrite (hobj : s.regObj r = o) (hu : s.Unraced r a) (hv : confirmValue o live = v) (h : Stores a r v s t) :
    (Micro.confirmWrite r live).run a s = .run ((t.setRegObj r (o.confirmed a)).setRet a (.word v)) [] := by
  have hobj' : t.regObj r = o := by rw [← hobj, State.regObj, h.mapper]; rfl
  rw [Micro.run, confirmWrite, hobj, hv, h.writeReg hu, Flow.ok_andThen, hobj', Flow.ok_go]

/-- A confirm writes the pending masks over what it reads, and leaves the Register object empty. -/
theorem Reaches.confirm {rest g : List Micro} {n : Nat} {u : State} (hempty : s.Untouched r) (hread : ReadsAs r live s)
    (hv : live &&& ~~~off ||| on = v) (h : Stores a r v s t) (hthen : Reaches a rest n (t.setRet a (.word v)) g u) :
    Reaches a (.confirmRead r :: rest) (n + 2) (s.pending a r on off) g u := by
  let o : RegObj := { RegObj.empty.withMasks a on off with inConfirm := RegObj.empty.inConfirm.set a true }
  let between : State := s.setRegObj r o
  have hobj : ∀ w, (between.setWork a w).regObj r = o := fun w => State.regObj_setRegObj _ _ _
  have hfirst : ∀ w, (Micro.confirmRead r).run a ((s.pending a r on off).setWork a w) =
      .run (between.setWork a w) [.confirmWrite r live] := fun w => by
    have hlive : confirmLive r ((s.pending a r on off).setWork a w) = (live, (s.pending a r on off).setWork a w) :=
      hread _ _
    have hpending : ((s.pending a r on off).setWork a w).regObj r = RegObj.empty.withMasks a on off :=
      State.regObj_setRegObj _ _ _
    rw [Micro.run, confirmRead, hlive, State.setInConfirm, hpending]
    exact congrArg (Go.run · _) (congrArg (State.setWork · a w) (State.setRegObj_setRegObj _ _ _ _))
  have hunraced : ∀ w, (between.setWork a w).Unraced r a := fun w b hb => by
    rw [hobj, ByAgent.get_set_ne _ _ hb]
    cases b <;> rfl
  have hsecond : ∀ w, (Micro.confirmWrite r live).run a (between.setWork a w) = .run ((t.setRet a (.word v)).setWork a w) [] :=
    fun w => by
    have hstores : Stores a r v (between.setWork a w)
        { t with mapper := between.mapper, agents := (between.setWork a w).agents } := ⟨h.write, rfl, rfl⟩
    have hmapper : (s.mapper.set r o).set r (o.confirmed a) = t.mapper := by
      have hself : s.mapper.get r = o.confirmed a := hempty.trans (by cases a <;> rfl)
      rw [PerReg.set_set, ← hself, PerReg.set_get_self, h.mapper]
    have hend : State.setRegObj { t with mapper := between.mapper, agents := (between.setWork a w).agents } r
        (o.confirmed a) = t.setWork a w := by
      show { t with mapper := (s.mapper.set r o).set r (o.confirmed a), agents := _ } = _
      rw [hmapper, State.setWork_agents, show between.agents = t.agents from h.agents.symm]
      rfl
    rw [run_confirmWrite (hobj w) (hunraced w) hv hstores, ← State.setWork_setRet_comm, hend]
  exact .step rfl hfirst (.step rfl hsecond hthen)

end Confirm

end Sys2Proof.Machine
end

section
/-! PROOF of `ConfigurationRuns`: the four groups of step 8 one after another, each by its setters and its confirm; and the lines
that fail. -/

namespace Sys2Proof.Machine

/-! ### Setters and groups inside a run (41_register_mapper.md R266, R281; 45_core.md R383) -/

section Lines
variable {s t u : State} {a : HostAgent} {st : Setting} {r : Reg} {values mask on off on' off' : Word} {rest h : List Micro}
  {n : Nat}

theorem run_setting {g : Staging} (hf : st.feature ∈ s.params.features) (hst : st.staging = some g) :
    (Micro.setting st).run a s = (g.run a s).go [] := by
  simp [Micro.run, settingLine, Setting.check, State.supports, hf, hst]

/-- A setter that decides bits adds them to its agent's pending masks. -/
theorem Reaches.decides (hf : st.feature ∈ s.params.features) (hst : st.staging = some (.decide r values true))
    (hon : on ||| values = on' := by decide) (hoff : off &&& ~~~values = off' := by decide)
    (hthen : Reaches a rest n (s.pending a r on' off') h u) :
    Reaches a (.setting st :: rest) n (s.pending a r on off) h u :=
  .pass rfl (fun w => by
    rw [run_setting (s := (s.pending a r on off).setWork a w) hf hst, Staging.run]
    exact (congrArg (Flow.go · []) (regDecide_pending (s := s.setWork a w) values)).trans (by rw [hon, hoff]; rfl)) hthen

/-- A setter of a field replaces the field in its agent's pending masks. -/
theorem Reaches.sets (hf : st.feature ∈ s.params.features) (hst : st.staging = some (.set r values mask))
    (hon : (on &&& ~~~mask) ||| (values &&& mask) = on' := by decide)
    (hoff : (off &&& ~~~mask) ||| (~~~values &&& mask) = off' := by decide)
    (hthen : Reaches a rest n (s.pending a r on' off') h u) :
    Reaches a (.setting st :: rest) n (s.pending a r on off) h u :=
  .pass rfl (fun w => by
    rw [run_setting (s := (s.pending a r on off).setWork a w) hf hst, Staging.run]
    exact (congrArg (Flow.go · []) (regSet_pending (s := s.setWork a w) values mask)).trans (by rw [hon, hoff]; rfl)) hthen

/-- A supported group starts the confirm of its register. -/
theorem Reaches.manages {g : Group} (hg : .group g ∈ s.params.features)
    (hthen : Reaches a (.confirmRead (groupReg g) :: rest) n s h u) : Reaches a (.manage g :: rest) n s h u :=
  .start (push := []) rfl rfl (fun _ => if_pos (List.contains_iff_mem.2 hg)) hthen

end Lines

/-! ### The writes of the four registers (40_mmio_registers.md R202, R210, R214, R216) -/

section Stores
variable {s : State} {a : HostAgent} {v : Word}

/-- The state with SLU set in CTRL and the link evaluated (46_dma_sequencer.md R432). -/
def State.withLinkUp (s : State) (ctrl : Word) : State :=
  { s with
    regs := { s.regs with ctrl := ctrl, icr := if s.cable = s.luPrev then s.regs.icr else s.regs.icr ||| bit 2 },
    luPrev := s.cable }

theorem stores_ctrl (hrst : v.getLsbD 26 = false) (hslu : v.getLsbD 6 = true) : Stores a .ctrl v s (s.withLinkUp v) := by
  refine ⟨fun x p => (writeCtrl_store hrst).trans (congrArg Flow.ok ?_), rfl, rfl⟩
  have hlu : (s.cable && v.getLsbD 6) = s.cable := by rw [hslu, Bool.and_true]
  rw [State.linkEval_eq]
  simp only [State.lu, hlu]
  rfl

theorem stores_ims : Stores a .ims v s { s with regs := { s.regs with ims := s.regs.ims ||| v } } :=
  ⟨fun _ _ => rfl, rfl, rfl⟩

theorem stores_tctl (hlen : s.regs.tdlen ≠ 0#32) : Stores a .tctl v s { s with regs := { s.regs with tctl := v } } :=
  ⟨fun _ _ => writeTctl_store fun ⟨_, _, h⟩ => hlen h, rfl, rfl⟩

theorem stores_rctl (hlen : s.regs.rdlen ≠ 0#32) : Stores a .rctl v s { s with regs := { s.regs with rctl := v } } :=
  ⟨fun _ _ => writeRctl_store fun ⟨_, _, h⟩ => hlen h, rfl, rfl⟩

end Stores

/-! ### The four groups (45_core.md R383) -/

section Groups
variable {s u : State} {a : HostAgent} {rest h : List Micro} {n : Nat}

theorem Reaches.configureCtrl (hempty : s.Untouched .ctrl)
    (hf : ∀ f ∈ [Feature.setLinkUp, .autoSpeed, .group .dc], f ∈ s.params.features)
    (hthen : Reaches a rest n
      ((s.withLinkUp ((s.regs.ctrl &&& ~~~(bit 26)) ||| 0x00000060#32)).setRet a
        (.word ((s.regs.ctrl &&& ~~~(bit 26)) ||| 0x00000060#32))) h u) :
    Reaches a (.setting (.linkUp true) :: .setting (.autoSpeed true) :: .manage .dc :: rest) (n + 2) s h u := by
  simp only [List.forall_mem_cons] at hf
  obtain ⟨hlink, hspeed, hgroup, -⟩ := hf
  have hrst : ((s.regs.ctrl &&& ~~~(bit 26)) ||| 0x00000060#32).getLsbD 26 = false := by
    simp [bit]
  have hslu : ((s.regs.ctrl &&& ~~~(bit 26)) ||| 0x00000060#32).getLsbD 6 = true := by
    simp
  rw [← State.pending_none (a := a) hempty]
  refine .decides (on' := 0x40#32) (off' := 0#32) hlink rfl (hthen := ?_)
  refine .decides (on' := 0x60#32) (off' := 0#32) hspeed rfl (hthen := ?_)
  refine .manages (by exact hgroup) ?_
  exact .confirm hempty (fun _ _ => rfl) (by rw [clear_none]) (stores_ctrl hrst hslu) hthen

theorem Reaches.configureIms (hempty : s.Untouched .ims) (hf : ∀ f ∈ [Feature.ieEnable, .group .ie], f ∈ s.params.features)
    (hthen : Reaches a rest n (State.setRet { s with regs := { s.regs with ims := s.regs.ims ||| 0x000000D4#32 } } a
      (.word (s.regs.ims ||| 0x000000D4#32))) h u) :
    Reaches a (.setting (.ieEnable 0x000000D4#32) :: .manage .ie :: rest) (n + 2) s h u := by
  simp only [List.forall_mem_cons] at hf
  obtain ⟨henable, hgroup, -⟩ := hf
  have hstores : Stores a .ims (s.regs.ims ||| 0x000000D4#32) s _ := stores_ims
  rw [← BitVec.or_assoc, BitVec.or_self] at hstores
  rw [← State.pending_none (a := a) hempty]
  refine .decides (values := 0xD4#32) (on' := 0xD4#32) (off' := 0#32) henable (by decide) (hthen := ?_)
  refine .manages (by exact hgroup) ?_
  exact .confirm hempty (fun _ _ => rfl) (by rw [clear_none]) hstores hthen

theorem Reaches.configureTctl (hempty : s.Untouched .tctl) (hlen : s.regs.tdlen ≠ 0#32)
    (hf : ∀ f ∈ [Feature.tcEnable, .padShort, .collThresh, .collDist, .group .tc], f ∈ s.params.features)
    (hthen : Reaches a rest n
      (State.setRet { s with regs := { s.regs with tctl := (s.regs.tctl &&& ~~~0x003FFFFA#32) ||| 0x000400FA#32 } } a
        (.word ((s.regs.tctl &&& ~~~0x003FFFFA#32) ||| 0x000400FA#32))) h u) :
    Reaches a (.setting (.tcEnable true) :: .setting (.padShort true) :: .setting (.collThresh 15) ::
      .setting (.collDist 64) :: .manage .tc :: rest) (n + 2) s h u := by
  simp only [List.forall_mem_cons] at hf
  obtain ⟨henable, hpad, hthresh, hdist, hgroup, -⟩ := hf
  rw [← State.pending_none (a := a) hempty]
  refine .decides (on' := 0x2#32) (off' := 0#32) henable rfl (hthen := ?_)
  refine .decides (on' := 0xA#32) (off' := 0#32) hpad rfl (hthen := ?_)
  refine .sets (on' := 0xFA#32) (off' := 0xF00#32) hthresh (staging_collThresh_inside (v := 15) (by decide)) (hthen := ?_)
  refine .sets (on' := 0x400FA#32) (off' := 0x3BFF00#32) hdist (staging_collDist_inside (v := 64) (by decide)) (hthen := ?_)
  refine .manages (by exact hgroup) ?_
  exact .confirm hempty (fun _ _ => rfl) (clear_or_eq _ (by decide)) (stores_tctl hlen) hthen

theorem Reaches.configureRctl (hempty : s.Untouched .rctl) (hlen : s.regs.rdlen ≠ 0#32)
    (hf : ∀ f ∈ [Feature.loopback, .bufSize, .minThreshold, .broadcast, .rcEnable, .group .rc], f ∈ s.params.features)
    (hthen : Reaches a rest n
      (State.setRet { s with regs := { s.regs with rctl := (s.regs.rctl &&& ~~~0x020383C2#32) ||| 0x00008002#32 } } a
        (.word ((s.regs.rctl &&& ~~~0x020383C2#32) ||| 0x00008002#32))) h u) :
    Reaches a (.setting (.loopback 0) :: .setting (.bufSize 2048) :: .setting (.minThreshold 2) ::
      .setting (.broadcast true) :: .setting (.rcEnable true) :: .manage .rc :: rest) (n + 2) s h u := by
  simp only [List.forall_mem_cons] at hf
  obtain ⟨hloopback, hsize, hthreshold, hbroadcast, henable, hgroup, -⟩ := hf
  rw [← State.pending_none (a := a) hempty]
  refine .sets (on' := 0#32) (off' := 0xC0#32) hloopback (staging_loopback_inside (0, 0x00#32) (by simp)) (hthen := ?_)
  refine .sets (on' := 0#32) (off' := 0x020300C0#32) hsize (staging_bufSize_inside (2048, 0#32) (by simp)) (hthen := ?_)
  refine .sets (on' := 0#32) (off' := 0x020303C0#32) hthreshold (staging_minThreshold_inside (2, 0#32) (by simp))
    (hthen := ?_)
  refine .decides (on' := 0x8000#32) (off' := 0x020303C0#32) hbroadcast rfl (hthen := ?_)
  refine .decides (on' := 0x8002#32) (off' := 0x020303C0#32) henable rfl (hthen := ?_)
  refine .manages (by exact hgroup) ?_
  exact .confirm hempty (fun _ _ => rfl) (clear_or_eq _ (by decide)) (stores_rctl hlen) hthen

end Groups

/-! ### Lines that fail (45_core.md R382) -/

section Fails
variable {s : State} {a : HostAgent} {rest : List Micro}

theorem unwind_setting_of_error {st : Setting} {e : Err} (h : st.check s = .error e) :
    unwind a (.setting st :: rest) s = .ok (failInit a s e) :=
  unwind_of_abort rfl (by rw [Micro.run, settingLine, h])

theorem check_unsupported {st : Setting} (h : st.feature ∉ s.params.features) : st.check s = .error .unsupported := by
  simp [Setting.check, State.supports, h]

theorem unwind_manage_of_unsupported {g : Group} (h : .group g ∉ s.params.features) :
    unwind a (.manage g :: rest) s = .ok (failInit a s .unsupported) :=
  unwind_of_abort rfl (if_neg (by simpa [State.supports] using h))

end Fails

/-- Settles O39: the four groups, then the step's record; and the lines that fail. -/
theorem configurationRuns : Obligations.ConfigurationRuns := by
  refine ⟨fun s a rest hf hempty htdlen hrdlen => ?_, fun s a rest => ?_⟩
  · intro rctl
    have hfeatures : ∀ {fs : List Feature}, fs ⊆ [Feature.setLinkUp, .autoSpeed, .ieEnable, .tcEnable, .padShort,
        .collThresh, .collDist, .loopback, .bufSize, .minThreshold, .broadcast, .rcEnable, .group .dc, .group .ie, .group .tc,
        .group .rc] → ∀ f ∈ fs, f ∈ s.params.features := fun h f hfs => hf f (h hfs)
    simp only [List.forall_mem_cons] at hempty
    obtain ⟨hctrl, hims, htctl, hrctl, -⟩ := hempty
    have hrun : Reaches a (configuration ++ .initDone 8 :: .loadMac :: rest) 8 s (.initDone 8 :: .loadMac :: rest) _ :=
      .configureCtrl hctrl (hfeatures (by decide)) <|
      .configureIms hims (hfeatures (by decide)) <|
      .configureTctl htctl htdlen (hfeatures (by decide)) <|
      .configureRctl hrctl hrdlen (hfeatures (by decide)) <|
      .refl _ _ _
    obtain ⟨w, hw⟩ := hrun.runs_eq_unwind
    rw [hw, unwind_initDone_ne (by decide), unwind_step rfl]
    cases a <;> rfl
  · intro fails
    have hfeatures : ∀ p ∈ [(Setting.linkUp true, Feature.setLinkUp), (.autoSpeed true, .autoSpeed),
        (.ieEnable 0x000000D4#32, .ieEnable), (.tcEnable true, .tcEnable), (.padShort true, .padShort),
        (.collThresh 15, .collThresh), (.collDist 64, .collDist), (.loopback 0, .loopback), (.bufSize 2048, .bufSize),
        (.minThreshold 2, .minThreshold), (.broadcast true, .broadcast), (.rcEnable true, .rcEnable)],
        p.1.feature = p.2 := by decide
    refine ⟨fun st f hmem hf => ?_, fun st e h => ?_, fun g h => ?_⟩
    · have hfeature : st.feature = f := hfeatures (st, f) hmem
      exact (unwind_setting_of_error (check_unsupported (hfeature ▸ hf))).trans (congrArg Flow.ok (failInit_eq _ _ _))
    · exact (unwind_setting_of_error h).trans (congrArg Flow.ok (failInit_eq _ _ _))
    · exact (unwind_manage_of_unsupported h).trans (congrArg Flow.ok (failInit_eq _ _ _))

end Sys2Proof.Machine
end

section
/-! PROOF of `LoadMacReads`: the two reads of the registers, and the words of the EEPROM one after another, each started by a
`writereg` of EERD and read by a poll. -/

namespace Sys2Proof.Machine

/-! ### Issued as step 9 of `coreInitialize` (45_core.md R384) -/

theorem exec_coreLoadmac {s : State} {rest : List Micro} (hcur : s.cur = .host) (hfailed : s.drv.initFailed = false)
    (hstep : s.drv.initStep = 8) (hw : s.work .host = .loadMac :: rest) :
    exec .coreLoadmac s = .next (advance .host s).state := by
  have hplace : inStep9 s = true := by simp [inStep9, hstep, hw]
  have hbody : exec .coreLoadmac s = .next (advance s.cur s).state :=
    (if_pos hplace).trans (hostOp_body ⟨hfailed, Nat.le_of_eq hstep.symm⟩ (decide_eq_true hcur))
  rwa [hcur] at hbody

/-! ### From the MMIO registers (R386) -/

section Mmio
variable {s : State} {a : HostAgent}

theorem run_loadMac_mmio (h : s.params.macSource = .mmio) : Micro.loadMac.run a s = .run s [.macHigh s.regs.ral0] := by
  rw [Micro.run, loadMac, h]
  rfl

/-- The two low bytes of RAH0 are stored bits of it (10_state.md R48). -/
theorem rah0_bytes (v : Word) : bytesOfNat 2 (v &&& 0x8003FFFF#32).toNat = [v.extractLsb' 0 8, v.extractLsb' 8 8] := by
  have hkept : ∀ k ∈ [0, 8], (v &&& 0x8003FFFF#32).extractLsb' k 8 = v.extractLsb' k 8 := by
    simp only [List.forall_mem_cons, BitVec.extractLsb'_and]
    exact ⟨BitVec.and_allOnes, BitVec.and_allOnes, nofun⟩
  rw [← hkept 0 (by simp), ← hkept 8 (by simp), extractLsb'_byte, extractLsb'_byte, Nat.pow_zero, Nat.div_one]
  rfl

theorem run_macHigh (lo : Word) : (Micro.macHigh lo).run a s = .run (State.setRet
    { s with drv := { s.drv with mac := [lo.extractLsb' 0 8, lo.extractLsb' 8 8, lo.extractLsb' 16 8, lo.extractLsb' 24 8,
        s.regs.rah0.extractLsb' 0 8, s.regs.rah0.extractLsb' 8 8] } } a .ok) [] := by
  have hbytes : wordBytes lo ++ bytesOfNat 2 (s.regs.rah0 &&& 0x8003FFFF#32).toNat = [lo.extractLsb' 0 8,
      lo.extractLsb' 8 8, lo.extractLsb' 16 8, lo.extractLsb' 24 8, s.regs.rah0.extractLsb' 0 8,
      s.regs.rah0.extractLsb' 8 8] := by
    rw [rah0_bytes, wordBytes_bits]
    rfl
  rw [← hbytes]
  rfl

end Mmio

/-! ### The value that starts a word (R385, 40_mmio_registers.md R206) -/

theorem State.eerdStart_zero (s : State) : s.eerdStart 0 = 1#32 := by
  rw [State.eerdStart, BitVec.zero_shiftLeft, BitVec.zero_or]

theorem eerdAddr_start (l : EerdLayout) :
    ∀ k < 3, eerdAddr l ((BitVec.ofNat 32 k <<< addrLo l) ||| 1#32) = BitVec.ofNat 14 k := by cases l <;> decide

theorem getLsbD_eerdStart (l : EerdLayout) : ∀ k < 3, ((BitVec.ofNat 32 k <<< addrLo l) ||| 1#32).getLsbD 0 = true := by
  cases l <;> decide

/-- A `set` of every bit stages the value whatever was staged before. -/
theorem regSet_whole (a : HostAgent) (r : Reg) (v : Word) (s : State) :
    regSet a r v 0xFFFFFFFF#32 s = stage a r v (~~~v) s := by
  have hmask : ∀ m w : Word, (m &&& ~~~(BitVec.allOnes 32)) ||| (w &&& BitVec.allOnes 32) = w := fun m w => by
    rw [BitVec.not_allOnes, BitVec.and_zero, BitVec.and_allOnes, BitVec.zero_or]
  exact congrFun (congr (congrArg (stage a r) (hmask _ _)) (hmask _ _)) s

/-- The state in which an agent has staged the start of word 0, and has read EERD for the write. -/
def State.eerdStaged (s : State) (a : HostAgent) : State :=
  (s.setRegObj .eerd ((s.regObj .eerd).withMasks a 1#32 (~~~1#32))).setInConfirm .eerd a true

/-- The first step from the EEPROM: EERD is read for the write that starts word 0. -/
theorem run_loadMac_eeprom {s : State} {a : HostAgent} (h : s.params.macSource = .eeprom) (hmay : s.MayStage .eerd a) :
    Micro.loadMac.run a s =
      .run (s.eerdStaged a) [.confirmWrite .eerd (eerdWord s.layout s.ee), .macPoll 0 []] := by
  rcases stage_cases a .eerd 1#32 (~~~1#32) s with ⟨-, hstage⟩ | ⟨hnot, -⟩
  · rw [Micro.run, loadMac, h, s.eerdStart_zero]
    simp only [regSet_whole, hstage]
    rfl
  · exact absurd hmay hnot

/-! ### One word of the EEPROM (R385, 46_dma_sequencer.md R431) -/

/-- The state with the EEPROM engine reading word `k`. -/
def State.reading (s : State) (k : Nat) : State :=
  { s with ee := { s.ee with addr := BitVec.ofNat 14 k, busy := true, done := false } }

/-- The state with the EEPROM engine done with word `k`, which is `w`. -/
def State.wordRead (s : State) (k : Nat) (w : Half) : State :=
  { s with ee := { busy := false, addr := BitVec.ofNat 14 k, data := w, done := true } }

/-- One EEC step, then one step of HOST. -/
def eecThenHost (x : Flow) : Flow := (x.andThen fun t => .ok (eecStep t)).andThen (advance .host)

section Word
variable {s : State} {a : HostAgent} {k : Nat} {w : Half} {ws : List Half} {rest : List Micro} {v : Ret}

theorem stores_eerd (hk : k < 3) (hidle : s.ee.busy = false) : Stores a .eerd (s.eerdStart k) s (s.reading k) :=
  ⟨fun _ _ => writeEerd_start (eerdAddr_start _ k hk) (getLsbD_eerdStart _ k hk) hidle, rfl, rfl⟩

/-- A word is started by two steps of its agent. -/
theorem Reaches.macStart (hempty : s.Untouched .eerd) (hidle : s.ee.busy = false) (hk : k < 3) :
    Reaches a (.macStart k ws :: rest) 2 s (.macPoll k ws :: rest) ((s.reading k).setRet a (.word (s.eerdStart k))) := by
  have hread : ReadsAs .eerd (eerdWord s.layout s.ee) s := fun _ _ => rfl
  have hconfirm := Reaches.confirm (a := a) (rest := .macPoll k ws :: rest) hempty hread (confirmValue_wholly (a := a) _)
    (stores_eerd hk hidle) (.refl _ _ _)
  exact .start (t := s.pending a .eerd (s.eerdStart k) (~~~s.eerdStart k)) (push := [.macPoll k ws]) rfl rfl
    (fun w => startWriteReg_untouched (s := s.setWork a w) hempty [.macPoll k ws]) hconfirm

theorem eecStep_reading (hk : k < 3) (hword : s.params.eeprom[k]? = some w) : eecStep (s.reading k) = s.wordRead k w := by
  obtain ⟨hlt, hget⟩ := List.getElem?_eq_some_iff.1 hword
  have haddr : (BitVec.ofNat 14 k).toNat = k := by
    rw [BitVec.toNat_ofNat]
    omega
  have hin : (s.reading k).ee.addr.toNat < (s.reading k).params.eeprom.length := by
    show (BitVec.ofNat 14 k).toNat < _
    rwa [haddr]
  have hdata : s.params.eeprom.getD (BitVec.ofNat 14 k).toNat 0#16 = w := by
    rw [haddr, List.getD_eq_getElem?_getD, hword]
    rfl
  have hbusy : (s.reading k).ee.busy = true := rfl
  rw [eecStep, if_pos hbusy, if_pos hin, ← hdata]
  rfl

/-- EERD reads DONE, and the word in its data field, behind the address of one of the first 256 words. -/
theorem eerdWord_done (l : EerdLayout) {e : Eeprom} (h : e.addr.toNat < 256) :
    (eerdWord l e).getLsbD (doneBit l) = e.done ∧ (eerdWord l e).extractLsb' 16 16 = e.data := by
  refine ⟨?_, BitVec.eq_of_getLsbD_eq fun i hi => ?_⟩
  · rw [getLsbD_eerdWord l e (by cases l <;> decide)]
    cases l <;> simp [addrLo, doneBit]
  · have hplace : 8 ≤ 16 + i - addrLo l := by cases l <;> simp only [addrLo] <;> omega
    have hhigh : e.addr.getLsbD (16 + i - addrLo l) = false :=
      Nat.testBit_lt_two_pow (Nat.lt_of_lt_of_le h (Nat.pow_le_pow_right (n := 2) Nat.two_pos hplace))
    rw [BitVec.getLsbD_extractLsb', getLsbD_eerdWord l e (by omega), hhigh]
    have hdone : 16 + i ≠ doneBit l := by cases l <;> simp only [doneBit] <;> omega
    simp [hi, hdone]

/-- The poll that finds its word. -/
theorem run_macPoll_wordRead (hk : k < 3) : (Micro.macPoll k ws).run a (s.wordRead k w) =
    if k < 2 then .run (s.wordRead k w) [.macStart (k + 1) (ws ++ [w])]
    else macLoaded a (macOfWords (ws ++ [w])) (s.wordRead k w) := by
  have haddr : (s.wordRead k w).ee.addr.toNat < 256 := by
    show (BitVec.ofNat 14 k).toNat < 256
    rw [BitVec.toNat_ofNat]
    omega
  obtain ⟨hdone, hdata⟩ := eerdWord_done s.layout haddr
  have hread : readReg .eerd (s.wordRead k w) = (eerdWord s.layout (s.wordRead k w).ee, s.wordRead k w) := rfl
  rw [Micro.run, macPoll, hread]
  exact (if_pos hdone).trans (by rw [hdata]; rfl)

end Word

/-! ### The three words (R385) -/

/-- HOST stands before its poll for word `k`, which the engine is reading. -/
def State.awaiting (s : State) (k : Nat) (ws : List Half) (v : Ret) (rest : List Micro) : State :=
  (s.reading k).withAgent .host ⟨.macPoll k ws :: rest, v⟩

section Words
variable {s : State} {k : Nat} {w : Half} {ws : List Half} {rest : List Micro} {v : Ret}

theorem eecStep_awaiting (hk : k < 3) (hword : s.params.eeprom[k]? = some w) :
    eecStep (s.awaiting k ws v rest) = (s.wordRead k w).withAgent .host ⟨.macPoll k ws :: rest, v⟩ :=
  eecStep_reading (s := s.withAgent .host ⟨.macPoll k ws :: rest, v⟩) hk hword

/-- A word before the last is read, and the next one is started. -/
theorem eecThenHost_next (hempty : s.Untouched .eerd) (hk : k < 2) (hword : s.params.eeprom[k]? = some w) :
    (eecThenHost (.ok (s.awaiting k ws v rest))).andThen (advances .host 2) =
      .ok ((s.wordRead k w).awaiting (k + 1) (ws ++ [w]) (.word (s.eerdStart (k + 1))) rest) := by
  let polled : State := (s.wordRead k w).withAgent .host ⟨.macPoll k ws :: rest, v⟩
  have hpoll : (Micro.macPoll k ws).run .host polled = .run polled [.macStart (k + 1) (ws ++ [w])] :=
    (run_macPoll_wordRead (s := s.withAgent .host ⟨.macPoll k ws :: rest, v⟩) (by omega)).trans (if_pos hk)
  have hstart : Reaches .host (.macStart (k + 1) (ws ++ [w]) :: rest) 2 polled (.macPoll (k + 1) (ws ++ [w]) :: rest) _ :=
    .macStart hempty rfl (by omega)
  rw [eecThenHost, Flow.ok_andThen, eecStep_awaiting (by omega) hword, Flow.ok_andThen,
    advance_of_run (s := polled) rfl hpoll]
  exact (hstart.stands rfl).trans rfl

/-- The state after the last word, with the address loaded and Ok returned. -/
def State.macFinished (s : State) (ws : List Half) (w : Half) (rest : List Micro) : State :=
  State.withAgent { s.wordRead 2 w with drv := { s.drv with mac := macOfWords (ws ++ [w]) } } .host
    ⟨.macPoll 2 ws :: rest, .ok⟩

theorem eecThenHost_last (hword : s.params.eeprom[2]? = some w) :
    eecThenHost (.ok (s.awaiting 2 ws v rest)) = unwind .host rest (s.macFinished ws w rest) := by
  let polled : State := (s.wordRead 2 w).withAgent .host ⟨.macPoll 2 ws :: rest, v⟩
  have hpoll : (Micro.macPoll 2 ws).run .host polled = macLoaded .host (macOfWords (ws ++ [w])) polled :=
    run_macPoll_wordRead (s := s.withAgent .host ⟨.macPoll 2 ws :: rest, v⟩) (by omega)
  rw [eecThenHost, Flow.ok_andThen, eecStep_awaiting (by omega) hword, Flow.ok_andThen, advance_of_run (s := polled) rfl hpoll]
  rfl

/-- The three words one after another, from the write that starts the first. -/
theorem eecThenHost_words {w0 w1 w2 : Half} {more : List Half} (hempty : s.Untouched .eerd)
    (hwords : s.params.eeprom = w0 :: w1 :: w2 :: more) :
    eecThenHost ((eecThenHost ((eecThenHost (.ok (s.awaiting 0 [] v rest))).andThen (advances .host 2))).andThen
        (advances .host 2)) =
      unwind .host rest (((s.wordRead 0 w0).wordRead 1 w1).macFinished [w0, w1] w2 rest) := by
  have hget : ∀ k : Nat, s.params.eeprom[k]? = (w0 :: w1 :: w2 :: more)[k]? := fun k => by rw [hwords]
  rw [eecThenHost_next hempty (by decide) (hget 0),
    eecThenHost_next (s := s.wordRead 0 w0) hempty (by decide) (hget 1)]
  exact eecThenHost_last (s := (s.wordRead 0 w0).wordRead 1 w1) (hget 2)

/-- The write that starts word 0, whatever of HOST's own mark the Register object holds. -/
theorem advance_confirmWrite_eerd {live : Word} (hw : s.work .host = .confirmWrite .eerd live :: .macPoll 0 [] :: rest)
    (hon : (s.regObj .eerd).onMask = 1#32) (hoff : (s.regObj .eerd).offMask = ~~~1#32)
    (hisr : (s.regObj .eerd).inConfirm.isr = false) (hbh : (s.regObj .eerd).inConfirm.bh = false)
    (hidle : s.ee.busy = false) :
    advance .host s = .ok ((s.setRegObj .eerd RegObj.empty).awaiting 0 [] (.word 1#32) rest) := by
  have hunraced : s.Unraced .eerd .host := fun b hb => by
    cases b with
    | host => exact absurd rfl hb
    | isr => exact hisr
    | bh => exact hbh
  have hvalue : confirmValue (s.regObj .eerd) live = 1#32 := by
    rw [confirmValue, hon, hoff]
    exact confirmValue_wholly (a := .host) live
  have hstores : Stores .host .eerd 1#32 s (s.reading 0) := s.eerdStart_zero ▸ stores_eerd (by decide) hidle
  have hconfirmed : (s.regObj .eerd).confirmed .host = RegObj.empty := by
    rw [RegObj.confirmed, ByAgent.set, hisr, hbh]
    rfl
  rw [advance_of_run hw (run_confirmWrite rfl hunraced hvalue hstores), hconfirmed, List.nil_append, unwind_step rfl]
  rfl

end Words

/-- Settles O40: both reads of the registers; the first read from the EEPROM, and the three words one after another. -/
theorem loadMacReads : Obligations.LoadMacReads := by
  refine ⟨fun s rest hcur hfailed hstep hw => ⟨fun hmmio => ?_, fun heeprom hmay => ?_, fun lo => ?_⟩,
    fun s rest live w0 w1 w2 more hwords hw hon hoff hisr hbh hidle => ?_⟩
  · rw [exec_coreLoadmac hcur hfailed hstep hw, advance_of_run hw (run_loadMac_mmio hmmio), List.singleton_append,
      unwind_step rfl, Flow.state_ok]
  · refine ⟨(s.eerdStaged .host).setWork .host (.confirmWrite .eerd (eerdWord s.layout s.ee) :: .macPoll 0 [] :: rest), _, ?_,
      State.work_setWork _ _ _, rfl, rfl, rfl, fun b hb => ByAgent.get_set_ne _ _ hb⟩
    rw [exec_coreLoadmac hcur hfailed hstep hw, advance_of_run hw (run_loadMac_eeprom heeprom hmay), List.cons_append,
      unwind_step rfl, Flow.state_ok]
    rfl
  · intro high
    exact advance_of_run (State.work_setWork _ _ _) (run_macHigh lo)
  · intro word
    have hempty : (s.setRegObj .eerd RegObj.empty).Untouched .eerd := State.regObj_setRegObj _ _ _
    have hstart := advance_confirmWrite_eerd hw hon hoff hisr hbh hidle
    have hmac : macOfWords [w0, w1, w2] = [w0.extractLsb' 0 8, w0.extractLsb' 8 8, w1.extractLsb' 0 8, w1.extractLsb' 8 8,
        w2.extractLsb' 0 8, w2.extractLsb' 8 8] := by
      simp [macOfWords, halfBytes, bytesOfNat_half]
    rw [hstart, ← hmac]
    exact ⟨_, eecThenHost_words hempty hwords, rfl, State.ret_withAgent _ _ _, fun b hb => State.get_agents_withAgent _ hb⟩

end Sys2Proof.Machine
end

section
/-! SUPPORT. The steps and the local frames of `trigger` (45_core.md R387), each by the snapshot that the decoder handles. -/

namespace Sys2Proof.Machine

/-! ### Bits of the snapshot (10_state.md R39) -/

theorem and_bit_eq_zero_iff {v : Word} {k : Nat} (hk : k < 32) : v &&& bit k = 0#32 ↔ v.getLsbD k = false := by
  refine ⟨fun h => ?_, fun h => BitVec.eq_of_getLsbD_eq fun j hj => ?_⟩
  · have hbit := congrArg (·.getLsbD k) h
    simpa only [BitVec.getLsbD_and, getLsbD_bit k hk, BitVec.getLsbD_zero, decide_true, Bool.and_true] using hbit
  · rw [BitVec.getLsbD_and, getLsbD_bit k hj, BitVec.getLsbD_zero]
    by_cases hjk : j = k
    · rw [hjk, h, Bool.false_and]
    · simp [hjk]

/-- No receive cause: neither RXDMT0 nor RXT0. -/
theorem and_receiveCauses_eq_zero_iff (v : Word) :
    v &&& 0x00000090#32 = 0#32 ↔ v.getLsbD 4 = false ∧ v.getLsbD 7 = false := by
  rw [show (0x00000090#32 : Word) = bit 4 ||| bit 7 by decide, BitVec.and_or_distrib_left, BitVec.or_eq_zero_iff,
    and_bit_eq_zero_iff (by decide), and_bit_eq_zero_iff (by decide)]

/-- No cause on which the handler acts: no link change, and no receive cause. -/
theorem and_actedCauses_eq_zero_iff (v : Word) :
    v &&& 0x00000094#32 = 0#32 ↔ v.getLsbD 2 = false ∧ v &&& 0x00000090#32 = 0#32 := by
  rw [show (0x00000094#32 : Word) = bit 2 ||| 0x00000090#32 by decide, BitVec.and_or_distrib_left, BitVec.or_eq_zero_iff,
    and_bit_eq_zero_iff (by decide)]

/-! ### States of the handler -/

/-- The state with the decoder handling the snapshot `v` (R301). -/
def State.handles (s : State) (v : Word) : State := { s with drv := { s.drv with snap := v, icState := .handling } }

/-- The state with an overrun counted and logged, where there was one (R387 step 3). -/
def State.overrunNoted (s : State) (overrun : Bool) : State :=
  let n := s.drv.overrunCount + 1
  { s with
    drv := { s.drv with overrunCount := if overrun then n else s.drv.overrunCount,
                        log := s.drv.log ++ if overrun then [⟨.overrun, n⟩] else [] },
    trace := s.trace ++ if overrun then [⟨.rxOverrun, n⟩] else [] }

/-- The state with the causes that nothing claimed logged, where there are some (R387 step 5). -/
def State.unclaimedNoted (s : State) (v : Word) : State :=
  { s with
    drv := { s.drv with log := s.drv.log ++ if v = 0#32 then [] else [⟨.unhandled, v.toNat⟩] },
    trace := s.trace ++ if v = 0#32 then [] else [⟨.unhandledCause, v.toNat⟩] }

/-- The state with ICR and the snapshot discarded (R388). -/
def State.causesDiscarded (s : State) : State :=
  { s with regs := { s.regs with icr := 0#32 }, drv := { s.drv with snap := 0#32, icState := .idle } }

/-! ### What each frame does (R387) -/

section Frames
variable {s : State} {a : HostAgent} {v : Word}

theorem run_trigLink_clear (h : v.getLsbD 2 = false) : Micro.trigLink.run a (s.handles v) = .run (s.handles v) [] := by
  have hclaim : claim lsc (s.handles v) = (false, s.handles v) :=
    Prod.ext h (congrArg s.handles (and_not_bit_of_clear h))
  rw [Micro.run, trigLink, hclaim]
  rfl

theorem run_trigLink_fired (h : v.getLsbD 2 = true) (hempty : s.Untouched .ctrl) (hf : .setLinkUp ∈ s.params.features)
    (hg : .group .dc ∈ s.params.features) :
    Micro.trigLink.run a (s.handles v) =
      .run ((s.handles (v &&& ~~~(bit 2))).pending a .ctrl (bit 6) 0#32) [.confirmRead .ctrl] := by
  let t : State := s.handles (v &&& ~~~(bit 2))
  have hclaim : claim lsc (s.handles v) = (true, t) := Prod.ext h rfl
  have hcheck : (Setting.linkUp true).check t = .ok (.decide .ctrl (bit 6) true) := by
    have hft : (Setting.linkUp true).feature ∈ t.params.features := hf
    simp [Setting.check, State.supports, hft, Setting.staging]
  have hstage : Staging.run a (.decide .ctrl (bit 6) true) t = .ok (t.pending a .ctrl (bit 6) 0#32) := by
    have hdecide := regDecide_pending (s := t) (a := a) (r := .ctrl) (on := 0#32) (off := 0#32) (bit 6)
    rwa [State.pending_none (s := t) hempty] at hdecide
  have hgroup : (t.pending a .ctrl (bit 6) 0#32).supports (.group .dc) = true := List.contains_iff_mem.2 hg
  rw [Micro.run, trigLink, hclaim]
  simp only [hcheck, hstage, Flow.ok_thenGo, hgroup, if_true]
  rfl

theorem run_trigOverrun : Micro.trigOverrun.run a (s.handles v) =
    .run ((s.overrunNoted (v.getLsbD 6)).handles (v &&& ~~~(bit 6))) [] := by
  have hclaim : claim rxo (s.handles v) = (v.getLsbD 6, s.handles (v &&& ~~~(bit 6))) := rfl
  rw [Micro.run, trigOverrun, hclaim]
  cases v.getLsbD 6 with
  | true => rfl
  | false => simp [State.overrunNoted, State.handles]

theorem run_trigReceive_clear (h : v &&& 0x00000090#32 = 0#32) :
    Micro.trigReceive.run a (s.handles v) = .run (s.handles v) [] := by
  obtain ⟨hthreshold, htimer⟩ := (and_receiveCauses_eq_zero_iff v).1 h
  have hclaim4 : claim rxdmt0 (s.handles v) = (false, s.handles v) :=
    Prod.ext hthreshold (congrArg s.handles (and_not_bit_of_clear hthreshold))
  have hclaim7 : claim rxt0 (s.handles v) = (false, s.handles v) :=
    Prod.ext htimer (congrArg s.handles (and_not_bit_of_clear htimer))
  rw [Micro.run, trigReceive, hclaim4]
  simp only [hclaim7]
  rfl

/-- On either receive cause both predicates are claimed, and `rx.poll` starts. -/
theorem run_trigReceive_fired (h : v &&& 0x00000090#32 ≠ 0#32) (hn : 0 < s.params.nRx) :
    Micro.trigReceive.run a (s.handles v) = .run (s.handles (v &&& ~~~0x00000090#32)) [.pollDone 0] := by
  have hfired : (v.getLsbD 4 || (v &&& ~~~(bit 4)).getLsbD 7) = true := by
    rw [ne_eq, and_receiveCauses_eq_zero_iff] at h
    cases h4 : v.getLsbD 4 with
    | true => rfl
    | false =>
      rw [and_not_bit_of_clear h4, Bool.false_or]
      exact eq_true_of_ne_false fun h7 => h ⟨h4, h7⟩
  have hleft : v &&& ~~~(bit 4) &&& ~~~(bit 7) = v &&& ~~~0x00000090#32 := by
    rw [BitVec.and_assoc]
    exact congrArg (v &&& ·) (by decide)
  have hclaim4 : claim rxdmt0 (s.handles v) = (v.getLsbD 4, s.handles (v &&& ~~~(bit 4))) := rfl
  have hclaim7 : claim rxt0 (s.handles (v &&& ~~~(bit 4))) =
      ((v &&& ~~~(bit 4)).getLsbD 7, s.handles (v &&& ~~~0x00000090#32)) := Prod.ext rfl (congrArg s.handles hleft)
  rw [Micro.run, trigReceive, hclaim4]
  simp only [hclaim7, hfired, if_true]
  exact if_pos hn

theorem run_trigUnhandled : Micro.trigUnhandled.run a (s.handles v) = .run ((s.unclaimedNoted v).handles v) [] := by
  have hunhandled : unhandled (s.handles v) = decide (v ≠ 0#32) := by simp [unhandled_eq, State.handles]
  rw [Micro.run, trigUnhandled, hunhandled]
  by_cases h : v = 0#32
  · simp [State.unclaimedNoted, State.handles, h]
  · simp [State.unclaimedNoted, h]
    rfl

end Frames

/-! ### Runs of the handler -/

section Runs
variable {s u : State} {a : HostAgent} {v : Word} {rest g : List Micro} {n : Nat}

/-- The first read takes the causes. -/
theorem Reaches.trigRead
    (hthen : Reaches a rest n (State.handles { s with regs := { s.regs with icr := 0#32 } } s.regs.icr) g u) :
    Reaches a (.icReadClear :: rest) (n + 1) s g u := .step (push := []) rfl (fun _ => rfl) hthen

/-- A link change re-asserts link-up (R268, R281). -/
theorem Reaches.trigRelink (h : v.getLsbD 2 = true) (hempty : s.Untouched .ctrl) (hf : .setLinkUp ∈ s.params.features)
    (hg : .group .dc ∈ s.params.features)
    (hthen : Reaches a rest n (State.handles ((s.withLinkUp ((s.regs.ctrl &&& ~~~(bit 26)) ||| bit 6)).setRet a
      (.word ((s.regs.ctrl &&& ~~~(bit 26)) ||| bit 6))) (v &&& ~~~(bit 2))) g u) :
    Reaches a (.trigLink :: rest) (n + 2) (s.handles v) g u := by
  have hrst : ((s.regs.ctrl &&& ~~~(bit 26)) ||| bit 6).getLsbD 26 = false := by simp [bit]
  have hslu : ((s.regs.ctrl &&& ~~~(bit 26)) ||| bit 6).getLsbD 6 = true := by simp [bit]
  have hconfirm : Reaches a (.confirmRead .ctrl :: rest) (n + 2)
      ((s.handles (v &&& ~~~(bit 2))).pending a .ctrl (bit 6) 0#32) g u :=
    .confirm (s := s.handles (v &&& ~~~(bit 2))) hempty (fun _ _ => rfl) (by rw [clear_none]) (stores_ctrl hrst hslu) hthen
  exact .start (push := []) rfl rfl (fun w => run_trigLink_fired (s := s.setWork a w) h hempty hf hg) hconfirm

theorem Reaches.trigLink_clear (h : v.getLsbD 2 = false) (hthen : Reaches a rest n (s.handles v) g u) :
    Reaches a (.trigLink :: rest) n (s.handles v) g u :=
  .pass (t := s.handles v) rfl (fun w => run_trigLink_clear (s := s.setWork a w) h) hthen

theorem Reaches.trigOverrun (hthen : Reaches a rest n ((s.overrunNoted (v.getLsbD 6)).handles (v &&& ~~~(bit 6))) g u) :
    Reaches a (.trigOverrun :: rest) n (s.handles v) g u :=
  .pass (t := (s.overrunNoted (v.getLsbD 6)).handles (v &&& ~~~(bit 6))) rfl
    (fun w => run_trigOverrun (s := s.setWork a w) (v := v)) hthen

theorem Reaches.trigReceive_clear (h : v &&& 0x00000090#32 = 0#32) (hthen : Reaches a rest n (s.handles v) g u) :
    Reaches a (.trigReceive :: rest) n (s.handles v) g u :=
  .pass (t := s.handles v) rfl (fun w => run_trigReceive_clear (s := s.setWork a w) h) hthen

theorem Reaches.trigReceive_fired (h : v &&& 0x00000090#32 ≠ 0#32) (hn : 0 < s.params.nRx)
    (hthen : Reaches a (.pollDone 0 :: rest) n (s.handles (v &&& ~~~0x00000090#32)) g u) :
    Reaches a (.trigReceive :: rest) n (s.handles v) g u :=
  .start (t := s.handles (v &&& ~~~0x00000090#32)) (push := []) rfl rfl
    (fun w => run_trigReceive_fired (s := s.setWork a w) h hn) hthen

/-- What is unclaimed is logged, what came since is discarded, and the handler returns (R388; 60_exceptions.md R465). -/
theorem Reaches.trigEnd : Reaches a [.trigUnhandled, .icReadClear, .icDone, .trigReturn] 2 (s.handles v) []
    ((s.unclaimedNoted v).causesDiscarded.isrReturn.setRet a .unit) := by
  refine .pass (t := (s.unclaimedNoted v).handles v) rfl (fun w => run_trigUnhandled (s := s.setWork a w)) (.trigRead ?_)
  refine .step (t := (s.unclaimedNoted v).causesDiscarded) (push := []) rfl (fun _ => rfl) (.pass rfl (fun w => ?_) (.refl _ _ _))
  exact congrArg (Go.run · []) (State.setWork_setRet_comm (s.unclaimedNoted v).causesDiscarded.isrReturn a w .unit)

end Runs

end Sys2Proof.Machine
end

section
/-! PROOF of `QuietTriggerRuns` and `TriggerActsOnCauses`: the frames of `trigger` in their order, by the causes it finds. -/

namespace Sys2Proof.Machine

/-! ### Entry (45_core.md R387, 60_exceptions.md R464) -/

/-- The state in which the handler has been entered. -/
def State.trigEntered (s : State) : State := s.isrEnter.setRet .isr .pending

/-- `trigger` is entered with all of its steps left to do. -/
theorem exec_coreTrigger {s : State} (frame : Word) (hready : s.Ready 11) (hcur : s.cur = .isr) (hidle : s.work .isr = []) :
    exec (.coreTrigger frame) s = .next (s.trigEntered.setWork .isr triggerFrames) := by
  have hbody : exec (.coreTrigger frame) s = .next (install s.cur triggerFrames s.isrEnter).state :=
    hostOp_body (op := .coreTrigger) (body := fun s => install s.cur triggerFrames s.isrEnter) hready (decide_eq_true hcur)
  have hwork : s.isrEnter.work .isr = [] := hidle
  rw [hbody, hcur, install, hwork, List.append_nil]
  exact congrArg (fun x => Host.Outcome.next (Flow.state x)) (unwind_step rfl)

theorem advances_trigEntered (s : State) (n : Nat) :
    advances .isr n (s.trigEntered.setWork .isr triggerFrames) = runs .isr triggerFrames n s.trigEntered :=
  congrArg (fun x => Flow.andThen x (advances .isr n)) (unwind_step (m := .icReadClear) rfl).symm

/-! ### States of a handler that runs (R387, R388) -/

/-- The state of the running handler with these values of CTRL, ICR and the link record, and this result of ISR's last confirm. -/
def State.handling (s : State) (ctrl icr : Word) (lu : Bool) (ret : Ret) : State :=
  State.setRet
    { s with regs := { s.regs with ctrl := ctrl, icr := icr }, luPrev := lu, drv := { s.drv with isrActive := true } } .isr ret

section States
variable (s : State) (ctrl icr left : Word) (lu overrun : Bool) (ret : Ret)

/-- The handler with the overrun counted and `left` in the snapshot. -/
theorem State.handles_handling :
    ((s.handling ctrl icr lu ret).overrunNoted overrun).handles left =
      State.setRet
        { s with
          regs := { s.regs with ctrl := ctrl, icr := icr }, luPrev := lu,
          drv := { s.drv with
            snap := left, icState := .handling, isrActive := true,
            overrunCount := if overrun then s.drv.overrunCount + 1 else s.drv.overrunCount,
            log := s.drv.log ++ if overrun then [⟨.overrun, s.drv.overrunCount + 1⟩] else [] },
          trace := s.trace ++ if overrun then [⟨.rxOverrun, s.drv.overrunCount + 1⟩] else [] } .isr ret := rfl

/-- The handler's return, with what it left unclaimed logged. -/
theorem State.returned_handling :
    ((((s.handling ctrl icr lu ret).overrunNoted overrun).unclaimedNoted left).causesDiscarded).isrReturn.setRet .isr .unit =
      State.setRet
        { s with
          regs := { s.regs with ctrl := ctrl, icr := 0#32 }, luPrev := lu,
          drv := { s.drv with
            snap := 0#32, icState := .idle, isrActive := false,
            overrunCount := if overrun then s.drv.overrunCount + 1 else s.drv.overrunCount,
            log := (s.drv.log ++ if overrun then [⟨.overrun, s.drv.overrunCount + 1⟩] else []) ++
              if left = 0#32 then [] else [⟨.unhandled, left.toNat⟩] },
          trace := (s.trace ++ if overrun then [⟨.rxOverrun, s.drv.overrunCount + 1⟩] else []) ++
            if left = 0#32 then [] else [⟨.unhandledCause, left.toNat⟩] } .isr .unit := by
  dsimp only [State.handling, State.overrunNoted, State.unclaimedNoted, State.causesDiscarded, State.isrReturn, State.setRet,
    ByAgent.set, ByAgent.get]

end States

/-! ### What the causes lead to (R387) -/

/-- A claim of other bits leaves the receive causes. -/
theorem receiveCauses_of_claimed (v : Word) {m : Word} (h : ~~~m &&& 0x00000090#32 = 0x00000090#32) :
    v &&& ~~~m &&& 0x00000090#32 = v &&& 0x00000090#32 := by rw [BitVec.and_assoc, h]

/-- Bits claimed one after another are claimed together. -/
theorem claimed_twice (v : Word) {m n k : Word} (h : ~~~m &&& ~~~n = ~~~k) : v &&& ~~~m &&& ~~~n = v &&& ~~~k := by
  rw [BitVec.and_assoc, h]

section Causes
variable {s : State} {v : Word}

/-- No link change. -/
theorem Reaches.trigNoLink (hlink : s.regs.icr.getLsbD 2 = false) :
    Reaches .isr triggerFrames 1 s.trigEntered
      [.trigOverrun, .trigReceive, .trigUnhandled, .icReadClear, .icDone, .trigReturn]
      ((s.handling s.regs.ctrl 0#32 s.luPrev .pending).handles s.regs.icr) :=
  .trigRead <| .trigLink_clear hlink <| .refl _ _ _

/-- A link change, for which the handler may confirm CTRL. -/
theorem Reaches.trigRelinked (hlink : s.regs.icr.getLsbD 2 = true) (hf : .setLinkUp ∈ s.params.features)
    (hg : .group .dc ∈ s.params.features) (hempty : s.Untouched .ctrl) :
    Reaches .isr triggerFrames 3 s.trigEntered
      [.trigOverrun, .trigReceive, .trigUnhandled, .icReadClear, .icDone, .trigReturn]
      ((s.handling ((s.regs.ctrl &&& ~~~(bit 26)) ||| bit 6) (if s.cable = s.luPrev then 0#32 else bit 2) s.cable
        (.word ((s.regs.ctrl &&& ~~~(bit 26)) ||| bit 6))).handles (s.regs.icr &&& ~~~(bit 2))) := by
  have hicr : (if s.cable = s.luPrev then 0#32 else bit 2) = if s.cable = s.luPrev then 0#32 else 0#32 ||| bit 2 := by
    rw [BitVec.zero_or]
  rw [hicr]
  exact .trigRead <| .trigRelink hlink hempty hf hg <| .refl _ _ _

/-- No receive cause: what is left is logged, and the handler returns. -/
theorem Reaches.trigQuietEnd (hreceive : v &&& 0x00000090#32 = 0#32) :
    Reaches .isr [.trigOverrun, .trigReceive, .trigUnhandled, .icReadClear, .icDone, .trigReturn] 2 (s.handles v) []
      ((((s.overrunNoted (v.getLsbD 6)).unclaimedNoted (v &&& ~~~(bit 6))).causesDiscarded).isrReturn.setRet .isr .unit) :=
  .trigOverrun <| .trigReceive_clear ((receiveCauses_of_claimed v (by decide)).trans hreceive) .trigEnd

/-- A receive cause: `rx.poll` starts at the cursor. -/
theorem Reaches.trigPolls (hreceive : v &&& 0x00000090#32 ≠ 0#32) (hc : s.drv.rxCur < s.params.nRx) :
    Reaches .isr [.trigOverrun, .trigReceive, .trigUnhandled, .icReadClear, .icDone, .trigReturn] 0 (s.handles v)
      [.pollDone 0, .trigUnhandled, .icReadClear, .icDone, .trigReturn]
      ((s.overrunNoted (v.getLsbD 6)).handles (v &&& ~~~0x000000D0#32)) := by
  have hcauses : v &&& ~~~(bit 6) &&& 0x00000090#32 ≠ 0#32 := receiveCauses_of_claimed v (m := bit 6) (by decide) ▸ hreceive
  rw [← claimed_twice v (m := bit 6) (n := 0x00000090#32) (by decide)]
  exact .trigOverrun <| .trigReceive_fired hcauses (Nat.zero_lt_of_lt hc) <| .refl _ _ _

/-- `rx.poll` ends at a descriptor that is not done, and the handler returns. -/
theorem Reaches.trigPolledNothing (hc : s.drv.rxCur < s.params.nRx)
    (hidle : (s.descByte .rx s.drv.rxCur 12).getLsbD 0 = false) :
    Reaches .isr [.pollDone 0, .trigUnhandled, .icReadClear, .icDone, .trigReturn] 3 (s.handles v) []
      (((s.unclaimedNoted v).causesDiscarded).isrReturn.setRet .isr .unit) := by
  rw [← State.setRet_setRet ((s.unclaimedNoted v).causesDiscarded).isrReturn .isr .unit .unit]
  refine .step (t := (s.setRet .isr .unit).handles v) (push := []) rfl (fun w => ?_) .trigEnd
  exact ((run_pollDone (s := (s.handles v).setWork .isr w) hc).trans (if_neg (Bool.eq_false_iff.1 hidle))).trans
    (congrArg (Go.run · []) (State.setWork_setRet_comm (s.handles v) .isr w .unit))

end Causes

/-- Settles O42: without a link change and without a receive cause. -/
theorem quietTriggerRuns : Obligations.QuietTriggerRuns := by
  intro s frame hready hcur hidle hquiet overrun rest n log1 log2 trace1 trace2
  obtain ⟨hlink, hreceive⟩ := (and_actedCauses_eq_zero_iff _).1 hquiet
  refine ⟨_, exec_coreTrigger frame hready hcur hidle, ?_⟩
  rw [advances_trigEntered, ((Reaches.trigNoLink hlink).trans (.trigQuietEnd hreceive)).ends hidle,
    State.returned_handling]
  rfl

/-- Settles O43: by the link change and the receive causes. -/
theorem triggerActsOnCauses : Obligations.TriggerActsOnCauses := by
  intro s frame hready hcur hidle link receive relinks linked overrun n count log1 log2 trace1 trace2 polling returned idle
  have hreceives : s.regs.icr &&& ~~~(bit 2) &&& 0x00000090#32 = s.regs.icr &&& 0x00000090#32 :=
    receiveCauses_of_claimed _ (by decide)
  have hoverrun : (s.regs.icr &&& ~~~(bit 2)).getLsbD 6 = s.regs.icr.getLsbD 6 := by
    simp [bit]
  refine ⟨_, exec_coreTrigger frame hready hcur hidle, fun hlink hquiet hrelinks => ?_, fun hlink hreceive hc => ?_,
    fun hlink hreceive hrelinks hc => ?_⟩
  · obtain ⟨hf, hg, hempty⟩ := hrelinks
    have hrun := (Reaches.trigRelinked hlink hf hg hempty).trans (.trigQuietEnd (hreceives.trans (Decidable.not_not.1 hquiet)))
    rw [advances_trigEntered, hrun.ends hidle, hoverrun, claimed_twice _ (k := 0x00000044#32) (by decide),
      State.returned_handling]
  · intro left
    have hpolls := (Reaches.trigNoLink (Bool.eq_false_iff.2 hlink)).trans (.trigPolls hreceive hc)
    refine ⟨?_, fun hnone => ?_⟩
    · rw [advances_trigEntered, hpolls.stands rfl, State.handles_handling]
    · rw [advances_trigEntered, (hpolls.trans (.trigPolledNothing hc hnone)).ends hidle, State.returned_handling]
  · obtain ⟨hf, hg, hempty⟩ := hrelinks
    intro left
    have hpolls := (Reaches.trigRelinked hlink hf hg hempty).trans (.trigPolls (hreceives ▸ hreceive) hc)
    rw [hoverrun, claimed_twice _ (k := 0x000000D4#32) (by decide)] at hpolls
    refine ⟨?_, fun hnone => ?_⟩
    · rw [advances_trigEntered, hpolls.stands rfl, State.handles_handling]
    · rw [advances_trigEntered, (hpolls.trans (.trigPolledNothing hc hnone)).ends hidle, State.returned_handling]

end Sys2Proof.Machine
end

section
/-! SUPPORT. TXE's step by its parts: what it fetches of the descriptor at its head and by which checks, what retiring the
descriptor changes, and when a turn of TXE faults or changes nothing (46_dma_sequencer.md R411 to R417). -/

namespace Sys2Proof.Machine

/-! ### Bytes read of memory (20_memory.md R104) -/

/-- Part of the bytes that a read gives is a read of its own. -/
theorem Memory.sliceBytes_readBytes (m : Memory) (a : Nat) {i k n : Nat} (h : i + k ≤ n) :
    sliceBytes (m.readBytes a n) i k = m.readBytes (a + i) k := by
  apply List.ext_getElem
  · simp only [sliceBytes, List.length_take, List.length_drop, Memory.length_readBytes]
    omega
  · intro j hj hj'
    simp only [sliceBytes, List.getElem_take, List.getElem_drop, Memory.getElem_readBytes, Nat.add_assoc]

theorem Memory.getD_readBytes (m : Memory) (a : Nat) {k n : Nat} (h : k < n) (d : Byte) :
    (m.readBytes a n).getD k d = m.readByte ((a + k) % physSize) := by
  have hk : k < (m.readBytes a n).length := by rwa [Memory.length_readBytes]
  rw [List.getD_eq_getElem _ _ hk, Memory.getElem_readBytes hk]

/-! ### The descriptor at TXE's head (R412, 30_encoding.md R150) -/

/-- The address of the descriptor at the transmit head. -/
def State.txDesc (s : State) : Nat := s.ringBase .tx + 16 * s.head .tx

/-- Byte `k` of that descriptor. -/
def State.txByte (s : State) (k : Nat) : Byte := s.mem.readByte ((s.txDesc + k) % 2 ^ 32)

/-- Its length field. -/
def State.txLen (s : State) : Nat := (s.txByte 8).toNat + 256 * (s.txByte 9).toNat

/-- Its address field. -/
def State.txBuf (s : State) : Nat := natOfBytes (s.mem.readBytes s.txDesc 8)

/-- What TXE fetches, by the fields of the descriptor at its head. -/
theorem txeFetch_eq (s : State) : txeFetch s =
    if s.lbm = 1 ∨ s.lbm = 2 then .error ⟨.reservedValue, .txe, 412, s.lbm⟩
    else if !s.dmaLegal s.txDesc 16 then .error ⟨.dmaWild, .txe, 110, s.txDesc⟩
    else if txCmdBad (s.txByte 11) then .error ⟨.descFormat, .txe, 417, s.head .tx⟩
    else if s.txLen = 0 ∨ 16288 < s.txLen then .error ⟨.txLength, .txe, 417, s.txLen⟩
    else if !s.dmaLegal s.txBuf s.txLen then .error ⟨.dmaWild, .txe, 110, s.txBuf⟩
    else .ok ⟨s.txDesc, s.txByte 11, s.mem.readBytes s.txBuf s.txLen⟩ := by
  have hcmd : (s.mem.readBytes s.txDesc 16).getD 11 0#8 = s.txByte 11 := s.mem.getD_readBytes _ (by decide) _
  have hlen : natOfBytes (sliceBytes (s.mem.readBytes s.txDesc 16) 8 2) = s.txLen := by
    rw [Memory.sliceBytes_readBytes _ _ (by decide)]
    simp only [Memory.readBytes, natOfBytes, Nat.mul_zero, Nat.add_zero, Nat.add_assoc, State.txLen, State.txByte, physSize]
  have hbuf : natOfBytes (sliceBytes (s.mem.readBytes s.txDesc 16) 0 8) = s.txBuf := by
    rw [Memory.sliceBytes_readBytes _ _ (by decide), Nat.add_zero, State.txBuf]
  rw [← hcmd, ← hlen, ← hbuf]
  rfl

/-- TXE refuses a command byte for a bit of 0xD4 that is set, or for a clear legacy or EOP bit (30_encoding.md R152). -/
theorem txCmdBad_iff (cmd : Byte) :
    txCmdBad cmd = true ↔ cmd &&& 0xD4#8 ≠ 0#8 ∨ cmd.getLsbD 5 = false ∨ cmd.getLsbD 0 = false := by
  simp only [txCmdBad, Bool.or_eq_true, bne_iff_ne, Bool.not_eq_true', or_assoc]

theorem txCmdBad_eq_false {cmd : Byte} (h : cmd &&& 0xF5#8 = 0x21#8) : txCmdBad cmd = false := by
  revert cmd
  decide

/-- The step fetches its work where the mode is not reserved and every check passes. -/
theorem txeFetch_ok {s : State} (hmode : ¬ (s.lbm = 1 ∨ s.lbm = 2)) (hdesc : s.dmaLegal s.txDesc 16 = true)
    (hcmd : s.txByte 11 &&& 0xF5#8 = 0x21#8) (hlow : 1 ≤ s.txLen) (hhigh : s.txLen ≤ 16288)
    (hbuf : s.dmaLegal s.txBuf s.txLen = true) :
    txeFetch s = .ok ⟨s.txDesc, s.txByte 11, s.mem.readBytes s.txBuf s.txLen⟩ := by
  have hlen : ¬ (s.txLen = 0 ∨ 16288 < s.txLen) := by omega
  simp [txeFetch_eq, hmode, hdesc, txCmdBad_eq_false hcmd, hlen, hbuf]

/-! ### The frame and the end of the step (R412, R414) -/

/-- A frame is the buffer padded, then its FCS. -/
theorem txFrame_eq (pad : Bool) (cmd : Byte) (buf : List Byte) : txFrame pad cmd buf =
    let padded := if pad = true ∧ buf.length < 60 then buf ++ List.replicate (60 - buf.length) 0#8 else buf
    if cmd.getLsbD 1 then padded ++ fcs padded else padded := by
  simp only [txFrame, Bool.and_eq_true, decide_eq_true_eq]

/-- The status write-back, the head and the causes, as one record update. -/
theorem State.txRetire_txWriteBack (s : State) (w : TxWork) (o : Collision) : (s.txWriteBack w o).txRetire w =
    let head : Word := BitVec.ofNat 32 ((s.head .tx + 1) % s.ndev .tx)
    { s with
      regs := { s.regs with
        tdh := head
        icr := (s.regs.icr ||| (if w.cmd.getLsbD 3 then bit 0 else 0#32)) |||
          (if head = s.regs.tdt then bit 1 else 0#32) }
      mem := s.mem.writeBytes (w.addr + 12) (if w.cmd.getLsbD 3 then [txStatusByte o] else []) } := by
  simp only [State.txRetire, State.txCauses, State.setCauseIf_eq, State.txWriteBack, beq_iff_eq]
  split <;> rfl

/-! ### TXE's step (R411 to R413) -/

section Step
variable {s t u : State} {o : Collision} {f : FaultRecord} {w : TxWork}

theorem txeStep_of_disabled (h : s.txeEnabled = false) : txeStep o s = .ok s := by
  rw [txeStep, h]
  rfl

theorem txeStep_of_error (hen : s.txeEnabled = true) (h : txeFetch s = .error f) : txeStep o s = .raised s f := by
  rw [txeStep, if_pos hen, h]

theorem txeStep_of_ok (hen : s.txeEnabled = true) (h : txeFetch s = .ok w)
    (hemit : emit (txFrame (s.regs.tctl.getLsbD 3) w.cmd w.buf) (if s.lbm = 3 then .none else o) s = .ok u) :
    txeStep o s = .ok ((u.txWriteBack w (if s.lbm = 3 then .none else o)).txRetire w) := by
  rw [txeStep, if_pos hen, h]
  dsimp only
  rw [hemit]
  rfl

/-- A TXE step that faults has no other effect (R410). -/
theorem txeStep_raised (h : txeStep o s = .raised t f) : t = s := by
  unfold txeStep at h
  split at h
  · split at h
    · cases h
      rfl
    · rename_i w _
      dsimp only at h
      cases e : emit (txFrame (s.regs.tctl.getLsbD 3) w.cmd w.buf) (if s.lbm = 3 then .none else o) s with
      | ok v => rw [e] at h; cases h
      | raised v g => exact absurd e emit_not_raised
  · cases h

/-- TXE is enabled by R411's conditions: bus mastering, TCTL.EN, a ring, a descriptor that hardware owns, and a link where it
needs one. -/
theorem State.txeEnabled_iff (s : State) : s.txeEnabled = true ↔
    s.busMaster = true ∧ s.regs.tctl.getLsbD 1 = true ∧ 0 < s.ndev .tx ∧ s.regs.tdh ≠ s.regs.tdt ∧
      (s.lu = true ∨ s.params.txNoLink = .discard ∨ s.lbm = 3) := by
  simp only [State.txeEnabled, State.txEnabled, Bool.and_eq_true, Bool.or_eq_true, decide_eq_true_eq, bne_iff_ne, and_assoc,
    or_assoc, gt_iff_lt]

end Step

/-- LBM as a number and as the two bits of RCTL (10_state.md R42). -/
theorem State.lbm_eq_iff (s : State) {k : Nat} (h : k < 4) : s.lbm = k ↔ s.regs.rctl.extractLsb' 6 2 = BitVec.ofNat 2 k := by
  rw [State.lbm, ← BitVec.toNat_inj, BitVec.toNat_ofNat, Nat.mod_eq_of_lt h]

end Sys2Proof.Machine
end

section
/-! SUPPORT. RXMAC's rule and TXE's loopback by the tests that accept a frame (46_dma_sequencer.md R416, R418, R419). -/

namespace Sys2Proof.Machine

/-! ### The filter (R418) -/

/-- Receive address 0 by the bytes of RAL0 and RAH0 (10_state.md R48). -/
theorem State.ra0_eq (s : State) : s.ra0 =
    [s.regs.ral0.extractLsb' 0 8, s.regs.ral0.extractLsb' 8 8, s.regs.ral0.extractLsb' 16 8, s.regs.ral0.extractLsb' 24 8,
      s.regs.rah0.extractLsb' 0 8, s.regs.rah0.extractLsb' 8 8] := by
  have hhigh : bytesOfNat 2 s.regs.rah0.toNat = [s.regs.rah0.extractLsb' 0 8, s.regs.rah0.extractLsb' 8 8] := by
    simp only [bytesOfNat, extractLsb'_byte, Nat.pow_zero, Nat.div_one]
    rfl
  rw [State.ra0, wordBytes_bits, hhigh]
  rfl

theorem State.addressMatch_iff (s : State) (f : List Byte) : s.addressMatch f = true ↔ s.Wanted f := by
  simp only [State.addressMatch, State.Wanted, State.ra0_eq, Bool.or_eq_true, Bool.and_eq_true, beq_iff_eq, Bool.not_eq_true',
    or_assoc]
  rfl

/-- The tests of R418: the CRC, the length and the address. -/
theorem State.rxPasses_iff (s : State) (f : List Byte) (crcOk : Bool) : s.rxPasses f crcOk = true ↔
    (crcOk = true ∨ s.regs.rctl.getLsbD 2 = true) ∧ (s.regs.rctl.getLsbD 5 = true ∨ f.length ≤ 1522) ∧ s.Wanted f := by
  simp only [State.rxPasses, Bool.and_eq_true, Bool.or_eq_true, decide_eq_true_eq, State.addressMatch_iff, and_assoc]

/-! ### Accepting a frame (R418, R419) -/

/-- RXMAC takes the frame: the receiver is enabled, a frame from ENV finds the link up and no loopback, and the tests pass. -/
def State.rxTakes (s : State) (fromEnv : Bool) (f : List Byte) (crcOk : Bool) : Bool :=
  s.rxEnabled && !(fromEnv && (s.lbm = 3 || !s.lu)) && s.rxPasses f crcOk

/-- A reserved loopback mode faults while an engine is enabled (30_encoding.md R158). -/
theorem rxmacAccept_of_reserved {s : State} (fromEnv : Bool) (f : List Byte) (crcOk : Bool) (err : Byte)
    (hrun : (s.rxEnabled || s.txEnabled) = true) (hmode : s.lbm = 1 ∨ s.lbm = 2) :
    rxmacAccept fromEnv f crcOk err s = .raised s ⟨.reservedValue, .rxmac, 418, s.lbm⟩ := by
  simp [rxmacAccept, hrun, hmode]

/-- Otherwise the frame is taken into the FIFO, or there is no effect. -/
theorem rxmacAccept_eq {s : State} (fromEnv : Bool) (f : List Byte) (crcOk : Bool) (err : Byte)
    (hmode : ¬ ((s.rxEnabled || s.txEnabled) = true ∧ (s.lbm = 1 ∨ s.lbm = 2))) :
    rxmacAccept fromEnv f crcOk err s = .ok (if s.rxTakes fromEnv f crcOk then s.rxStore f crcOk err else s) := by
  have hok : ((s.rxEnabled || s.txEnabled) && (decide (s.lbm = 1) || decide (s.lbm = 2))) = false := by
    simpa only [Bool.eq_false_iff, ne_eq, Bool.and_eq_true, Bool.or_eq_true, decide_eq_true_eq] using hmode
  rw [rxmacAccept, hok, State.rxTakes]
  cases s.rxEnabled <;> cases (fromEnv && (decide (s.lbm = 3) || !s.lu)) <;> cases s.rxPasses f crcOk <;> rfl

/-- A frame is stored in a FIFO with room, and lost with RXO in a full one, as one record update. -/
theorem State.rxStore_eq (s : State) (f : List Byte) (crcOk : Bool) (err : Byte) : s.rxStore f crcOk err =
    { s with
      rxFifo := if s.rxFifo.length = s.params.rxFifoCap then s.rxFifo else s.rxFifo ++ [⟨f, rxErrByte crcOk err⟩]
      regs := { s.regs with
        icr := s.regs.icr ||| (if s.rxFifo.length = s.params.rxFifoCap then bit 6 else 0#32) } } := by
  rcases s.rxStore_cases f crcOk err with ⟨hfull, e⟩ | ⟨hroom, e⟩ <;> rw [e]
  · simp only [if_pos hfull]
    rfl
  · simp only [if_neg hroom, BitVec.or_zero]

end Sys2Proof.Machine
end

section
/-! SUPPORT. RXE's step by its parts: when it is enabled, where it faults, and what taking a frame out of the FIFO changes; and
that no engine's step has an effect beside the fault it raises (46_dma_sequencer.md R410, R420 to R425). -/

namespace Sys2Proof.Machine

/-! ### What a frame needs (R420, R421) -/

theorem State.length_rxBytes (s : State) (e : RxFrame) :
    (s.rxBytes e).length = if s.regs.rctl.getLsbD 26 then e.bytes.length - 4 else e.bytes.length := by
  unfold State.rxBytes
  split
  · rw [List.length_take, Nat.min_eq_left (Nat.sub_le _ _)]
  · rfl

/-- The descriptors a frame needs, by the number of its bytes that are stored. -/
theorem State.rxNeeds_of_length {s : State} {e : RxFrame} {len : Nat} (h : (s.rxBytes e).length = len) :
    s.rxNeeds e = match bufSize s.regs.rctl with | some b => max 1 ((len + b - 1) / b) | none => 1 := by
  subst h
  rfl

theorem State.rxNeeds_of_size {s : State} {b : Nat} (h : bufSize s.regs.rctl = some b) (e : RxFrame) :
    s.rxNeeds e = max 1 (((s.rxBytes e).length + b - 1) / b) := by
  rw [State.rxNeeds, h]

theorem State.rxNeeds_pos (s : State) (e : RxFrame) : 0 < s.rxNeeds e := by
  unfold State.rxNeeds
  split <;> omega

/-- RXE is enabled, with a frame at the head of the FIFO, by R420's other conditions. -/
theorem State.rxeEnabled_iff {s : State} {e : RxFrame} {more : List RxFrame} (hf : s.rxFifo = e :: more) :
    s.rxeEnabled = true ↔ s.busMaster = true ∧ 0 < s.ndev .rx ∧ s.rxNeeds e ≤ s.hwCount .rx := by
  simp only [State.rxeEnabled, hf, Bool.and_eq_true, decide_eq_true_eq, and_assoc, gt_iff_lt]

/-! ### RXE's step (R421, R424) -/

section Step
variable {s u : State} {e : RxFrame} {more : List RxFrame} {f : FaultRecord} {b : Nat}

theorem rxeStep_of_disabled (h : s.rxeEnabled = false) : rxeStep s = .ok s := by
  unfold rxeStep
  split
  · rfl
  · rw [h]
    rfl

variable (hf : s.rxFifo = e :: more) (hen : s.rxeEnabled = true)
include hf hen

/-- The reserved buffer size faults first. -/
theorem rxeStep_of_reservedSize (hsize : bufSize s.regs.rctl = none) :
    rxeStep s = .raised s ⟨.reservedValue, .rxe, 421, 0⟩ := by
  simp only [rxeStep, hf, hen, hsize, if_true]

/-- The reserved threshold faults next (R425). -/
theorem rxeStep_of_reservedThreshold (hsize : bufSize s.regs.rctl = some b) (hmin : s.rdmts = 3) :
    rxeStep s = .raised s ⟨.reservedValue, .rxe, 425, 3⟩ := by
  simp only [rxeStep, hf, hen, hsize, hmin, if_true]

/-- A chunk that faults ends the step without an effect. -/
theorem rxeStep_of_error (hsize : bufSize s.regs.rctl = some b) (hmin : s.rdmts ≠ 3)
    (h : rxWriteChunks e.err (s.rxBytes e) b (s.rxNeeds e) (s.rxNeeds e) 0 s = .error f) : rxeStep s = .raised s f := by
  simp only [rxeStep, hf, hen, hsize, hmin, h, if_true, if_false]

/-- The chunks written, the frame is retired. -/
theorem rxeStep_of_ok (hsize : bufSize s.regs.rctl = some b) (hmin : s.rdmts ≠ 3)
    (h : rxWriteChunks e.err (s.rxBytes e) b (s.rxNeeds e) (s.rxNeeds e) 0 s = .ok u) :
    rxeStep s = .ok (u.rxRetire (s.hwCount .rx) (s.rxNeeds e)) := by
  simp only [rxeStep, hf, hen, hsize, hmin, h, if_true, if_false]

/-- Everything an enabled RXE step does: a fault and nothing else, or the chunks, which change memory and draws, and then the
retiring of their frame. -/
theorem rxeStep_cases : (∃ f, rxeStep s = .raised s f) ∨
    ∃ m d, rxeStep s = .ok (State.rxRetire { s with mem := m, draws := d } (s.hwCount .rx) (s.rxNeeds e)) := by
  cases hsize : bufSize s.regs.rctl with
  | none => exact .inl ⟨_, rxeStep_of_reservedSize hf hen hsize⟩
  | some b =>
    by_cases hmin : s.rdmts = 3
    · exact .inl ⟨_, rxeStep_of_reservedThreshold hf hen hsize hmin⟩
    · cases h : rxWriteChunks e.err (s.rxBytes e) b (s.rxNeeds e) (s.rxNeeds e) 0 s with
      | error f => exact .inl ⟨f, rxeStep_of_error hf hen hsize hmin h⟩
      | ok u =>
        refine .inr ⟨u.mem, u.draws, ?_⟩
        rw [rxeStep_of_ok hf hen hsize hmin h, ← rxWriteChunks_ok h]

end Step

/-- Retiring a frame as one record update: the head moves, the frame leaves the FIFO, RXT0 and RXDMT0 are latched (R425). -/
theorem State.rxRetire_eq (s : State) (before m : Nat) : s.rxRetire before m =
    let threshold := s.ndev .rx / 2 ^ (s.rdmts + 1)
    { s with
      regs := { s.regs with
        rdh := BitVec.ofNat 32 ((s.head .rx + m) % s.ndev .rx)
        icr := (s.regs.icr ||| bit 7) ||| (if before > threshold ∧ before - m ≤ threshold then bit 4 else 0#32) }
      rxFifo := s.rxFifo.tail } := by
  simp only [State.rxRetire, State.rxCauses, State.setCauseIf_eq, Nat.shiftRight_eq_div_pow, Bool.and_eq_true,
    decide_eq_true_eq]
  rfl

/-! ### Steps that fault (R410) -/

/-- What every engine's step does: it leaves the recorded faults and the EEPROM engine, or it raises a fault and has no other
effect. -/
def Flow.KeepsOrRaises (s : State) : Flow → Prop
  | .ok t => t.faults = s.faults ∧ t.ee = s.ee
  | .raised t _ => t = s

theorem txeStep_keepsOrRaises (o : Collision) (s : State) : (txeStep o s).KeepsOrRaises s := by
  cases h : txeStep o s with
  | ok t => rw [txeStep_ok h]; exact ⟨rfl, rfl⟩
  | raised t f => exact txeStep_raised h

theorem rxmacStep_keepsOrRaises (f : List Byte) (crcOk : Bool) (err : Byte) (s : State) :
    (rxmacStep f crcOk err s).KeepsOrRaises s := by
  unfold rxmacStep
  split
  · exact ⟨rfl, rfl⟩
  · rcases rxmacAccept_cases true f crcOk err s with h | h | ⟨r, h⟩ <;> rw [h]
    · exact ⟨rfl, rfl⟩
    · rw [State.rxStore_eq]
      exact ⟨rfl, rfl⟩
    · rfl

theorem rxeStep_keepsOrRaises (s : State) : (rxeStep s).KeepsOrRaises s := by
  cases hen : s.rxeEnabled with
  | false => rw [rxeStep_of_disabled hen]; exact ⟨rfl, rfl⟩
  | true =>
    cases hf : s.rxFifo with
    | nil => rw [State.rxeEnabled, hf] at hen; cases hen
    | cons e more =>
      rcases rxeStep_cases hf hen with ⟨f, h⟩ | ⟨m, d, h⟩ <;> rw [h]
      · rfl
      · rw [State.rxRetire_eq]
        exact ⟨rfl, rfl⟩

/-- A fault that such a step records is all that it does. -/
theorem Flow.KeepsOrRaises.raise_of_ne {s t : State} {x : Flow} (h : x.KeepsOrRaises s) (hx : x.out = .next t)
    (hne : t.faults ≠ s.faults) : ∃ record, t = s.raise record := by
  cases x with
  | ok u =>
    cases hx
    exact absurd h.1 hne
  | raised u f =>
    cases hx
    cases h
    exact ⟨f, rfl⟩

end Sys2Proof.Machine
end

section
/-! PROOF of `DeviceFaultsHaveNoEffect`: no engine does anything beside its fault; TXE and RXE do nothing while a condition of
R411 or R420 fails; and TXE's checks one after another. -/

namespace Sys2Proof.Machine

section Turns
variable {s : State} {o : Collision}

theorem perform_txe_of_disabled (h : s.txeEnabled = false) : perform (.txe o) s = .next s := by
  rw [perform, txeStep_of_disabled h]
  rfl

theorem perform_rxe_of_disabled (h : s.rxeEnabled = false) : perform .rxe s = .next s := by
  rw [perform, rxeStep_of_disabled h]
  rfl

theorem perform_txe_of_error {f : FaultRecord} (hen : s.txeEnabled = true) (h : txeFetch s = .error f) :
    perform (.txe o) s = .next (s.raise f) := by
  rw [perform, txeStep_of_error hen h]
  rfl

end Turns

/-! ### The checks of a TXE step in their order (R412, R417, 60_exceptions.md R455) -/

section Checks
variable {s : State}

theorem txeFetch_of_reserved (h : s.lbm = 1 ∨ s.lbm = 2) : txeFetch s = .error ⟨.reservedValue, .txe, 412, s.lbm⟩ := by
  rw [txeFetch_eq, if_pos h]

variable (hmode : ¬ (s.lbm = 1 ∨ s.lbm = 2))
include hmode

theorem txeFetch_of_wildDesc (h : s.dmaLegal s.txDesc 16 = false) :
    txeFetch s = .error ⟨.dmaWild, .txe, 110, s.txDesc⟩ := by
  rw [txeFetch_eq, if_neg hmode, h]
  rfl

variable (hdesc : s.dmaLegal s.txDesc 16 = true)
include hdesc

theorem txeFetch_of_format (h : txCmdBad (s.txByte 11) = true) :
    txeFetch s = .error ⟨.descFormat, .txe, 417, s.head .tx⟩ := by
  rw [txeFetch_eq, if_neg hmode, hdesc, if_pos h]
  rfl

variable (hcmd : ¬ txCmdBad (s.txByte 11) = true)
include hcmd

theorem txeFetch_of_length (h : s.txLen = 0 ∨ 16288 < s.txLen) :
    txeFetch s = .error ⟨.txLength, .txe, 417, s.txLen⟩ := by
  rw [txeFetch_eq, if_neg hmode, hdesc, if_neg hcmd, if_pos h]
  rfl

theorem txeFetch_of_wildBuf (hlow : 1 ≤ s.txLen) (hhigh : s.txLen ≤ 16288) (h : s.dmaLegal s.txBuf s.txLen = false) :
    txeFetch s = .error ⟨.dmaWild, .txe, 110, s.txBuf⟩ := by
  have hlen : ¬ (s.txLen = 0 ∨ 16288 < s.txLen) := by omega
  rw [txeFetch_eq, if_neg hmode, hdesc, if_neg hcmd, if_neg hlen, h]
  rfl

end Checks

/-! ### Engines that are not enabled (R411, R420) -/

/-- TXE is not enabled while a condition of R411 fails; a link that is down counts under STALL, outside loopback. -/
theorem State.txeEnabled_eq_false_of {s : State}
    (h : s.busMaster = false ∨ s.regs.tctl.getLsbD 1 = false ∨ s.ndev .tx = 0 ∨ s.regs.tdh = s.regs.tdt ∨
      ((s.cable = false ∨ s.regs.ctrl.getLsbD 6 = false) ∧ s.params.txNoLink = .stall ∧
        s.regs.rctl.extractLsb' 6 2 ≠ 3#2)) : s.txeEnabled = false := by
  rw [Bool.eq_false_iff, ne_eq, State.txeEnabled_iff]
  rintro ⟨hmaster, hen, hring, howned, hlink⟩
  rcases h with h | h | h | h | ⟨hdown, hstall, hmode⟩
  · exact Bool.eq_false_iff.1 h hmaster
  · exact Bool.eq_false_iff.1 h hen
  · omega
  · exact howned h
  · rcases hlink with hlu | hdiscard | hloop
    · obtain ⟨hcable, hslu⟩ := Bool.and_eq_true_iff.1 hlu
      exact hdown.elim (Bool.eq_false_iff.1 · hcable) (Bool.eq_false_iff.1 · hslu)
    · exact absurd (hstall.symm.trans hdiscard) nofun
    · exact hmode ((s.lbm_eq_iff (by decide)).1 hloop)

/-- RXE is not enabled without bus mastering, a frame or a ring. -/
theorem State.rxeEnabled_eq_false_of {s : State} (h : s.busMaster = false ∨ s.rxFifo = [] ∨ s.ndev .rx = 0) :
    s.rxeEnabled = false := by
  cases hf : s.rxFifo with
  | nil => simp only [State.rxeEnabled, hf]
  | cons e more =>
    rw [Bool.eq_false_iff, ne_eq, State.rxeEnabled_iff hf]
    rintro ⟨hmaster, hring, -⟩
    rcases h with h | h | h
    · exact Bool.eq_false_iff.1 h hmaster
    · exact absurd (hf.symm.trans h) nofun
    · omega

/-- RXE waits for the descriptors that its frame needs (R423). -/
theorem State.rxeEnabled_eq_false_of_few {s : State} {e : RxFrame} {more : List RxFrame} (hf : s.rxFifo = e :: more)
    (h : s.hwCount .rx < s.rxNeeds e) : s.rxeEnabled = false := by
  rw [Bool.eq_false_iff, ne_eq, State.rxeEnabled_iff hf]
  rintro ⟨-, -, hfit⟩
  omega

/-- Settles O51: every engine's step keeps or raises, and TXE's fault is that of the first check that fails. -/
theorem deviceFaultsHaveNoEffect : Obligations.DeviceFaultsHaveNoEffect := by
  refine ⟨fun s t turn hturn hnext => ⟨fun hne => ?_, fun hmaster hdma => ?_⟩, fun s o hoff => ?_, fun s hoff => ?_, ?_, ?_⟩
  · rcases hturn with rfl | ⟨o, rfl⟩ | ⟨f, crcOk, err, rfl⟩
    · exact (rxeStep_keepsOrRaises s).raise_of_ne hnext hne
    · exact (txeStep_keepsOrRaises o s).raise_of_ne hnext hne
    · exact (rxmacStep_keepsOrRaises f crcOk err s).raise_of_ne hnext hne
  · have hsame : perform turn s = .next s := by
      rcases hdma with rfl | ⟨o, rfl⟩
      · exact perform_rxe_of_disabled (State.rxeEnabled_eq_false_of (.inl hmaster))
      · exact perform_txe_of_disabled (State.txeEnabled_eq_false_of (.inl hmaster))
    exact (Host.Outcome.next.inj (hsame.symm.trans hnext)).symm
  · exact perform_txe_of_disabled (State.txeEnabled_eq_false_of hoff)
  · exact perform_rxe_of_disabled (State.rxeEnabled_eq_false_of hoff)
  · intro s e more hf n head tail len needed hhead htail hfew
    have hneeds : s.rxNeeds e = needed := State.rxNeeds_of_length (s.length_rxBytes e)
    have hcount : s.hwCount .rx = if head ≤ tail then tail - head else tail + n - head := count_of_lt hhead htail
    exact perform_rxe_of_disabled (State.rxeEnabled_eq_false_of_few hf (by rwa [hneeds, hcount]))
  · intro s o hen
    have raises := fun {f} => perform_txe_of_error (f := f) (o := o) hen
    have hformat := txCmdBad_iff (s.txByte 11)
    exact ⟨fun h => raises (txeFetch_of_reserved h), fun hm h => raises (txeFetch_of_wildDesc hm h),
      fun hm hd h => raises (txeFetch_of_format hm hd (hformat.2 h)),
      fun hm hd hc h => raises (txeFetch_of_length hm hd (hc ∘ hformat.1) h),
      fun hm hd hc hlow hhigh h => raises (txeFetch_of_wildBuf hm hd (hc ∘ hformat.1) hlow hhigh h)⟩

end Sys2Proof.Machine
end

section
/-! PROOF of `TransmitStepCompletes` and `TransmitLoopback`: the emission of the frame, on the wire or to RXMAC, then the end of
the step, which is the same for both. -/

namespace Sys2Proof.Machine

/-! ### A step whose checks pass (46_dma_sequencer.md R411, R412) -/

/-- TXE is enabled, and every check of its step passes. -/
structure State.TxReady (s : State) : Prop where
  enabled : s.txeEnabled = true
  mode    : ¬ (s.lbm = 1 ∨ s.lbm = 2)
  desc    : s.dmaLegal s.txDesc 16 = true
  command : s.txByte 11 &&& 0xF5#8 = 0x21#8
  low     : 1 ≤ s.txLen
  high    : s.txLen ≤ 16288
  buffer  : s.dmaLegal s.txBuf s.txLen = true

/-- What such a step fetches. -/
def State.txWork (s : State) : TxWork := ⟨s.txDesc, s.txByte 11, s.mem.readBytes s.txBuf s.txLen⟩

/-- The frame that such a step emits. -/
def State.txEmitted (s : State) : List Byte := txFrame (s.regs.tctl.getLsbD 3) s.txWork.cmd s.txWork.buf

theorem perform_txe_of_ready {s u : State} {o : Collision} (h : s.TxReady)
    (hemit : emit s.txEmitted (if s.lbm = 3 then .none else o) s = .ok u) :
    perform (.txe o) s = .next ((u.txWriteBack s.txWork (if s.lbm = 3 then .none else o)).txRetire s.txWork) := by
  have hfetch := txeFetch_ok h.mode h.desc h.command h.low h.high h.buffer
  rw [perform, txeStep_of_ok h.enabled hfetch hemit]
  rfl

/-- The write-back stores the status byte of the descriptor, under RS alone. -/
theorem stored_status {m : Memory} (h : m.wf = true) (a : Nat) (cmd sta : Byte) :
    m.Stored (m.writeBytes a (if cmd.getLsbD 3 then [sta] else [])) a (if cmd.getLsbD 3 then [sta] else []) := by
  refine Memory.stored_writeBytes h ?_
  split <;> exact Nat.le_of_ble_eq_true rfl

/-! ### Emission (R415, R416) -/

/-- Outside loopback the frame goes on the wire, unless the link is down or it collided. -/
theorem emit_of_wire {s : State} (f : List Byte) (o : Collision) (h : s.lbm ≠ 3) : emit f o s =
    .ok { s with wireOut := if s.lu = true ∧ o = .none then s.wireOut ++ [f] else s.wireOut } := by
  simp only [emit, h, if_false, Bool.and_eq_true, decide_eq_true_eq]
  split <;> rfl

/-- RXMAC looks at a frame looped back: always at one of 18 bytes or more, freely at a shorter one (log entry 16). -/
def State.loopTaken (s : State) (f : List Byte) : Bool := !(f.length < 18) || Config.runtLoopTaken s.draws

/-- The state in which RXMAC finds a frame looped back: one of fewer than 18 bytes has taken a draw (log entry 4). -/
def State.loopDrawn (s : State) (f : List Byte) : State :=
  { s with draws := if f.length < 18 then s.draws + 1 else s.draws }

/-- RXMAC accepts a frame looped back by its own rule, without the link and with a good CRC. -/
theorem State.rxTakes_loop_iff (s : State) (f : List Byte) : s.rxTakes false f true = true ↔
    s.regs.rctl.getLsbD 1 = true ∧ (s.regs.rctl.getLsbD 5 = true ∨ f.length ≤ 1522) ∧ s.Wanted f := by
  simp only [State.rxTakes, State.rxEnabled, Bool.false_and, Bool.not_false, Bool.and_true, Bool.and_eq_true,
    State.rxPasses_iff, true_or, true_and]

/-- Under loopback the frame goes to RXMAC, which takes it or not, whatever collision ENV drew. -/
theorem emit_of_loopback {s : State} (f : List Byte) (o : Collision) (h : s.lbm = 3) : emit f o s =
    .ok (if s.loopTaken f && s.rxTakes false f true then (s.loopDrawn f).rxStore f true 0#8 else s.loopDrawn f) := by
  have hmode : ∀ t : State, t.lbm = 3 → ¬ ((t.rxEnabled || t.txEnabled) = true ∧ (t.lbm = 1 ∨ t.lbm = 2)) := by
    rintro t h3 ⟨-, hreserved⟩
    omega
  rw [emit, if_pos h, loopFrame, State.loopTaken, State.loopDrawn]
  by_cases hshort : f.length < 18
  · simp only [hshort, if_true, decide_true, Bool.not_true, Bool.false_or]
    cases Config.runtLoopTaken s.draws with
    | false => rfl
    | true => exact rxmacAccept_eq (s := { s with draws := s.draws + 1 }) false f true 0#8 (hmode _ h)
  · simp only [hshort, if_false, decide_false, Bool.not_false, Bool.true_or, Bool.true_and]
    exact rxmacAccept_eq false f true 0#8 (hmode s h)

/-- The FIFO holds as many frames as it can (R419). -/
def State.rxFull (s : State) : Bool := s.rxFifo.length = s.params.rxFifoCap

/-- Taking a frame looped back, as one record update. -/
theorem State.loopStore_eq (s : State) (f : List Byte) (takes : Bool) :
    (if takes then (s.loopDrawn f).rxStore f true 0#8 else s.loopDrawn f) =
    { s with
      rxFifo := if takes && !s.rxFull then s.rxFifo ++ [⟨f, 0x00#8⟩] else s.rxFifo
      regs := { s.regs with icr := s.regs.icr ||| (if takes && s.rxFull then bit 6 else 0#32) }
      draws := if f.length < 18 then s.draws + 1 else s.draws } := by
  cases takes with
  | false => simp only [Bool.false_eq_true, Bool.false_and, if_false, BitVec.or_zero, State.loopDrawn]
  | true =>
    have hbyte : rxErrByte true 0#8 = 0x00#8 := by decide
    by_cases hfull : s.rxFifo.length = s.params.rxFifoCap <;>
      simp [State.rxStore_eq, State.rxFull, State.loopDrawn, hfull, hbyte]

/-- Settles O45: the frame goes on the wire or not, and the step ends with the collision drawn. -/
theorem transmitStepCompletes : Obligations.TransmitStepCompletes := by
  intro s o h n a field cmd len addr lu hmaster hen hring howned hlink hmode hwf hdesc hcmd hlow hhigh hbuf buf padded frame
    status head
  have hready : s.TxReady :=
    ⟨(s.txeEnabled_iff).2 ⟨hmaster, hen, hring, howned, hlink.imp_right .inl⟩, by omega, hdesc, hcmd, hlow, hhigh, hbuf⟩
  have hframe : s.txEmitted = frame := by
    rw [State.txEmitted, txFrame_eq, State.txWork, Memory.length_readBytes]
    rfl
  have hnot : ¬ s.lbm = 3 := by omega
  have hemit := emit_of_wire s.txEmitted o hnot
  have hstep := perform_txe_of_ready (o := o) hready (by rw [if_neg hnot]; exact hemit)
  rw [if_neg hnot, State.txRetire_txWriteBack, hframe] at hstep
  exact ⟨_, hstep, rfl, stored_status hwf _ _ _⟩

/-- Settles O46: RXMAC takes the frame or not, and the step ends without a collision. -/
theorem transmitLoopback : Obligations.TransmitLoopback := by
  intro s o h n a field cmd len addr hmaster hen hring howned hmode hwf hdesc hcmd hlow hhigh hbuf buf padded frame head
  have hready : s.TxReady :=
    ⟨(s.txeEnabled_iff).2 ⟨hmaster, hen, hring, howned, .inr (.inr hmode)⟩, by omega, hdesc, hcmd, hlow, hhigh, hbuf⟩
  have hframe : s.txEmitted = frame := by
    rw [State.txEmitted, txFrame_eq, State.txWork, Memory.length_readBytes]
    rfl
  have hemit := emit_of_loopback s.txEmitted .none hmode
  have hstep := perform_txe_of_ready (o := o) hready (by rw [if_pos hmode]; exact hemit)
  rw [if_pos hmode, State.txRetire_txWriteBack, State.loopStore_eq, hframe] at hstep
  have htaken : 18 ≤ frame.length → s.loopTaken frame = true := fun hlong => by
    simp [State.loopTaken, Nat.not_lt.2 hlong]
  have haccepts := s.rxTakes_loop_iff frame
  refine ⟨_, s.loopTaken frame, _, _, hstep, htaken, ⟨?_, ?_⟩, rfl, rfl, rfl, stored_status hwf _ _ _⟩
  · simp only [Bool.and_eq_true, haccepts, State.rxFull, Bool.not_eq_true', decide_eq_false_iff_not, ne_eq]
  · simp only [Bool.and_eq_true, haccepts, State.rxFull, decide_eq_true_eq]

end Sys2Proof.Machine
end

section
/-! PROOF of `ReceiveFilter`: RXMAC's rule for a frame of ENV by its mode, then by the tests that accept the frame. -/

namespace Sys2Proof.Machine

/-- A frame of ENV that R418 covers goes to RXMAC's rule. -/
theorem perform_rxmac {s : State} {f : List Byte} (hlen : 18 ≤ f.length) (crcOk : Bool) (err : Byte) :
    perform (.rxmac f crcOk err) s = (rxmacAccept true f crcOk err s).out := by
  rw [perform, rxmacStep, if_neg (by omega)]

/-- RXMAC takes a frame of ENV by the conditions of R418 in its order. -/
theorem State.rxTakes_env_iff (s : State) (f : List Byte) (crcOk : Bool) : s.rxTakes true f crcOk = true ↔
    s.regs.rctl.getLsbD 1 = true ∧ s.lbm ≠ 3 ∧ s.cable = true ∧ s.regs.ctrl.getLsbD 6 = true ∧
      (crcOk = true ∨ s.regs.rctl.getLsbD 2 = true) ∧ (s.regs.rctl.getLsbD 5 = true ∨ f.length ≤ 1522) ∧ s.Wanted f := by
  simp only [State.rxTakes, State.rxEnabled, State.lu, Bool.true_and, Bool.not_or, Bool.not_not, Bool.and_eq_true,
    Bool.not_eq_true', decide_eq_false_iff_not, State.rxPasses_iff, and_assoc, ne_eq]

/-- Settles O47: by the loopback mode, and then by what RXMAC takes and the room in the FIFO. -/
theorem receiveFilter : Obligations.ReceiveFilter := by
  intro s f crcOk err hlen rctl dst group ra0 wanted accepted answer reserved running
  have hreserved : reserved ↔ s.lbm = 1 ∨ s.lbm = 2 :=
    (or_congr (s.lbm_eq_iff (by decide)) (s.lbm_eq_iff (by decide))).symm
  have hrunning : running ↔ (s.rxEnabled || s.txEnabled) = true := Bool.or_eq_true_iff.symm
  have hstep : ¬ (running ∧ reserved) →
      answer = .next (if s.rxTakes true f crcOk then s.rxStore f crcOk err else s) := fun h => by
    show perform _ s = _
    rw [perform_rxmac hlen, rxmacAccept_eq true f crcOk err (by rwa [← hreserved, ← hrunning])]
    rfl
  have hskip : ¬ (running ∧ reserved) → ¬ s.rxTakes true f crcOk = true → answer = .next s := fun h hnot => by
    rw [hstep h, if_neg hnot]
  have htakes := s.rxTakes_env_iff f crcOk
  have hplain : rctl.extractLsb' 6 2 = 0#2 → ¬ reserved ∧ s.lbm ≠ 3 := fun h => by
    have hmode : s.lbm = 0 := (s.lbm_eq_iff (by decide)).2 h
    rw [hreserved]
    omega
  have hstore : rctl.getLsbD 1 = true → rctl.extractLsb' 6 2 = 0#2 → accepted →
      answer = .next (s.rxStore f crcOk err) := fun hen hmode hacc => by
    obtain ⟨hcable, hslu, htests⟩ := hacc
    obtain ⟨hnot, hloop⟩ := hplain hmode
    rw [hstep (hnot ·.2), if_pos (htakes.2 ⟨hen, hloop, hcable, hslu, htests⟩)]
  refine ⟨fun hrun hmode => ?_, fun hoff hmode => ?_, fun _ hmode => ?_, fun hen hmode hnot => ?_,
    fun hen hmode hacc hfull => ?_, fun hen hmode hacc hroom => ?_⟩
  · show perform _ s = _
    rw [perform_rxmac hlen, rxmacAccept_of_reserved true f crcOk err (hrunning.1 hrun) (hreserved.1 hmode)]
    rfl
  · refine hskip hmode fun h => ?_
    obtain ⟨hon, -⟩ := htakes.1 h
    exact Bool.eq_false_iff.1 hoff hon
  · have hloop : s.lbm = 3 := (s.lbm_eq_iff (by decide)).2 hmode
    refine hskip (fun h => ?_) fun h => ?_
    · have := hreserved.1 h.2
      omega
    · obtain ⟨-, hnot, -⟩ := htakes.1 h
      exact hnot hloop
  · refine hskip (fun h => (hplain hmode).1 h.2) fun h => hnot ?_
    obtain ⟨-, -, haccepted⟩ := htakes.1 h
    exact haccepted
  · rw [hstore hen hmode hacc, State.rxStore, if_pos hfull]
    rfl
  · rw [hstore hen hmode hacc, State.rxStore, if_neg hroom]
    rfl

end Sys2Proof.Machine
end

section
/-! PROOF of `ReceiveStepCounts`: a step that raises no fault writes the chunks and retires the frame, which moves the head
toward the tail. -/

namespace Sys2Proof.Machine

/-- Going `m` steps toward an index shortens the distance to it by `m` (00_scope.md R12). -/
theorem count_of_moved {n a b m : Nat} (ha : a < n) (hb : b < n) (hm : m ≤ count a b n) :
    count ((a + m) % n) b n = count a b n - m := by
  have hlt := count_lt ha hb
  have hback : ((a + m) % n + (count a b n - m)) % n = b := by
    rw [Nat.mod_add_mod, Nat.add_assoc, Nat.add_sub_cancel' hm, add_count_mod ha hb]
  have hmoved := count_add_mod (k := count a b n - m) (Nat.mod_lt (a + m) (Nat.zero_lt_of_lt ha)) (by omega)
  rwa [hback] at hmoved

/-- Settles O48: by everything that an enabled RXE step does. -/
theorem receiveStepCounts : Obligations.ReceiveStepCounts := by
  intro s t e more hf hmaster hring hhead htail hmax hfit hnext hfaults threshold
  have hen : s.rxeEnabled = true := (State.rxeEnabled_iff hf).2 ⟨hmaster, hring, hfit⟩
  rcases rxeStep_cases hf hen with ⟨f, h⟩ | ⟨mem, d, h⟩
  · rw [perform, h] at hnext
    cases hnext
    exact absurd hfaults (by simp)
  · rw [perform, h, State.rxRetire_eq] at hnext
    have hmoved : t.head .rx = (s.head .rx + s.rxNeeds e) % s.ndev .rx := by
      have hlt : (s.head .rx + s.rxNeeds e) % s.ndev .rx < 2 ^ 32 := by
        have := Nat.mod_lt (s.head .rx + s.rxNeeds e) hring
        omega
      cases hnext
      exact (BitVec.toNat_ofNat _ _).trans (Nat.mod_eq_of_lt hlt)
    have hcount : t.hwCount .rx = s.hwCount .rx - s.rxNeeds e := by
      rw [State.hwCount, hmoved]
      cases hnext
      exact count_of_moved hhead htail hfit
    have hrest : s.rxFifo.tail = more := congrArg List.tail hf
    cases hnext
    refine ⟨hrest, hcount, rfl, ?_, ?_⟩
    · rw [hcount]
      rfl
    · rw [← hrest]
      rfl

end Sys2Proof.Machine
end

section
/-! PROOF of `ReceiveStepWrites`: the memory that the first chunks leave, one chunk at a time, where buffers and descriptors lie
apart; and the faults that come before the first chunk. -/

namespace Sys2Proof.Machine

/-! ### Ranges of memory that lie apart (20_memory.md R104) -/

theorem apart_iff {a n b m : Nat} : apart a n b m = true ↔ a + n ≤ b ∨ b + m ≤ a := by
  simp only [apart, Bool.or_eq_true, decide_eq_true_eq]

/-- A byte of a range that is read, by what the range reads as. -/
theorem Memory.readByte_of_readBytes {m : Memory} {a n k : Nat} {bs : List Byte} (h : m.readBytes a n = bs)
    (hend : a + n ≤ physSize) (hk : k < n) : m.readByte (a + k) = bs.getD k 0#8 := by
  rw [← h, m.getD_readBytes a hk, Nat.mod_eq_of_lt (by omega)]

/-- Ranges that read alike have the same bytes. -/
theorem Memory.readByte_eq_of_readBytes_eq {m m' : Memory} {a n k : Nat} (h : m'.readBytes a n = m.readBytes a n)
    (hend : a + n ≤ physSize) (hk : k < n) : m'.readByte (a + k) = m.readByte (a + k) := by
  rw [Memory.readByte_of_readBytes h hend hk, Memory.readByte_of_readBytes rfl hend hk]

/-! ### One chunk (46_dma_sequencer.md R421) -/

/-- The address of the `j`-th descriptor from the receive head. -/
def State.rxDesc (s : State) (j : Nat) : Nat := s.ringBase .rx + 16 * ((s.head .rx + j) % s.ndev .rx)

/-- The address of its buffer. -/
def State.rxBuf (s : State) (j : Nat) : Nat := natOfBytes (s.mem.readBytes (s.rxDesc j) 8)

/-- Memory after a chunk: its bytes in the buffer, and the 8 bytes of the write-back behind the address field of its
descriptor. -/
def Memory.chunkStored (m : Memory) (buf : Nat) (chunk : List Byte) (desc : Nat) (fields : List Byte) : Memory :=
  (m.writeBytes buf chunk).writeBytes (desc + 8) fields

section Chunk
variable {s : State} {err : Byte} {j m : Nat} {chunk : List Byte}

theorem rxWriteChunk_of_wild {bad : Nat} (h : s.rxWild (s.rxDesc j) (s.rxBuf j) chunk.length = some bad) :
    rxWriteChunk s err j m chunk = .error ⟨.dmaWild, .rxe, 110, bad⟩ := by
  rw [State.rxBuf, State.rxDesc] at h
  simp only [rxWriteChunk, h]

theorem rxWriteChunk_of_legal (h : s.rxWild (s.rxDesc j) (s.rxBuf j) chunk.length = none) :
    ∃ checksum special, rxWriteChunk s err j m chunk = .ok { s with
      mem := s.mem.chunkStored (s.rxBuf j) chunk (s.rxDesc j)
        (rxWriteBackBytes chunk.length checksum (j + 1 = m) err special)
      draws := s.draws + 2 } := by
  refine ⟨Config.draw16 s.draws, Config.draw16 (s.draws + 1), ?_⟩
  rw [State.rxBuf, State.rxDesc] at h
  simp only [rxWriteChunk, h]
  rfl

/-- The first of the accesses that is not legal is the address read. -/
theorem State.rxWild_desc {a addr n : Nat} (h : s.dmaLegal a 8 = false) : s.rxWild a addr n = some a := by
  simp [State.rxWild, h]

/-- The next is the chunk, where it has bytes (log entry 16). -/
theorem State.rxWild_buffer {a addr n : Nat} (hdesc : s.dmaLegal a 8 = true) (hn : n ≠ 0) (h : s.dmaLegal addr n = false) :
    s.rxWild a addr n = some addr := by
  simp [State.rxWild, hdesc, hn, h]

end Chunk

section Stored
variable {m : Memory} {buf desc : Nat} {chunk fields : List Byte}

theorem Memory.wf_chunkStored (h : m.wf = true) : (m.chunkStored buf chunk desc fields).wf = true :=
  Memory.wf_writeBytes (Memory.wf_writeBytes h)

variable (h : m.wf = true) (hbuf : chunk ≠ [] → buf + chunk.length ≤ physSize) (hdesc : desc + 16 ≤ physSize)
  (hlen : fields.length = 8)
include h hbuf hdesc hlen

/-- A byte that is neither the chunk's nor the write-back's reads as before. -/
theorem Memory.readByte_chunkStored_outside {x : Nat} (hx : x < buf ∨ buf + chunk.length ≤ x)
    (hx' : x < desc + 8 ∨ desc + 16 ≤ x) : (m.chunkStored buf chunk desc fields).readByte x = m.readByte x := by
  rw [Memory.chunkStored, Memory.readByte_writeBytes_outside (Memory.wf_writeBytes h) (by omega) (by omega)]
  by_cases hempty : chunk = []
  · rw [hempty]
    rfl
  · exact Memory.readByte_writeBytes_outside h (hbuf hempty) hx

/-- A range apart from both reads as before. -/
theorem Memory.readBytes_chunkStored_outside {a n : Nat} (ha : a + n ≤ physSize) (hchunk : apart buf chunk.length a n = true)
    (hfields : apart (desc + 8) 8 a n = true) : (m.chunkStored buf chunk desc fields).readBytes a n = m.readBytes a n := by
  rw [apart_iff] at hchunk hfields
  rw [Memory.chunkStored, Memory.readBytes_writeBytes_outside (Memory.wf_writeBytes h) (by omega) ha (by omega)]
  by_cases hempty : chunk = []
  · rw [hempty]
    rfl
  · exact Memory.readBytes_writeBytes_outside h (hbuf hempty) ha (by omega)

/-- The buffer holds the chunk. -/
theorem Memory.readBytes_chunkStored_buffer (hchunk : apart buf chunk.length desc 16 = true) :
    (m.chunkStored buf chunk desc fields).readBytes buf chunk.length = chunk := by
  by_cases hempty : chunk = []
  · rw [hempty]
    rfl
  · rw [apart_iff] at hchunk
    rw [Memory.chunkStored, Memory.readBytes_writeBytes_outside (Memory.wf_writeBytes h) (by omega) (hbuf hempty) (by omega)]
    exact Memory.readBytes_writeBytes h (hbuf hempty)

omit hbuf in
/-- The descriptor holds the write-back. -/
theorem Memory.readBytes_chunkStored_fields : (m.chunkStored buf chunk desc fields).readBytes (desc + 8) 8 = fields := by
  have hchunk : (m.writeBytes buf chunk).wf = true := Memory.wf_writeBytes h
  have hread := Memory.readBytes_writeBytes (a := desc + 8) (bs := fields) hchunk (by omega)
  rwa [hlen] at hread

end Stored

/-! ### The first chunks (R421) -/

/-- Every access of the first `m` chunks is legal, and their buffers and descriptors lie apart. -/
structure State.RxPlan (s : State) (chunk : Nat → List Byte) (m : Nat) : Prop where
  legal : ∀ j, j < m → s.rxWild (s.rxDesc j) (s.rxBuf j) (chunk j).length = none
  bufferDesc : ∀ i j, i < m → j < m → apart (s.rxBuf i) (chunk i).length (s.rxDesc j) 16 = true
  buffers : ∀ i j, i < m → j < m → i ≠ j → apart (s.rxBuf i) (chunk i).length (s.rxBuf j) (chunk j).length = true
  descs : ∀ i j, i < m → j < m → i ≠ j → apart (s.rxDesc i) 16 (s.rxDesc j) 16 = true

/-- What memory holds after the first `j` of `m` chunks. -/
structure State.RxStored (s : State) (chunk : Nat → List Byte) (err : Byte) (m j : Nat) (mem : Memory) : Prop where
  wf : mem.wf = true
  address : ∀ i, i < m → mem.readBytes (s.rxDesc i) 8 = s.mem.readBytes (s.rxDesc i) 8
  buffer : ∀ i, i < j → mem.readBytes (s.rxBuf i) (chunk i).length = chunk i
  fields : ∀ i, i < j → ∃ checksum special, mem.readBytes (s.rxDesc i + 8) 8 =
    rxWriteBackBytes (chunk i).length checksum (i + 1 = m) err special
  outside : ∀ x, (∀ i, i < j → (x < s.rxBuf i ∨ s.rxBuf i + (chunk i).length ≤ x) ∧
    (x < s.rxDesc i + 8 ∨ s.rxDesc i + 16 ≤ x)) → mem.readByte x = s.mem.readByte x

section Plan
variable {s : State} {chunk : Nat → List Byte} {err : Byte} {m j : Nat}

theorem State.RxPlan.desc_end (h : s.RxPlan chunk m) (hj : j < m) : s.rxDesc j + 16 ≤ physSize := by
  obtain ⟨-, -, hspans⟩ := State.rxWild_eq_none.1 (h.legal j hj)
  obtain ⟨hend, -⟩ := State.rxWriteBackSpans_cover hspans
  omega

theorem State.RxPlan.buf_end (h : s.RxPlan chunk m) (hj : j < m) (hne : chunk j ≠ []) :
    s.rxBuf j + (chunk j).length ≤ physSize := by
  obtain ⟨-, hbuffer, -⟩ := State.rxWild_eq_none.1 (h.legal j hj)
  exact s.dmaLegal_end_le (hbuffer (List.length_eq_zero_iff.not.2 hne))

/-- Nothing is stored before the first chunk. -/
theorem State.RxStored.start (h : s.mem.wf = true) : s.RxStored chunk err m 0 s.mem :=
  ⟨h, fun _ _ => rfl, nofun, nofun, fun _ _ => rfl⟩

/-- Chunk `j` joins the chunks before it. -/
theorem State.RxStored.next {mem : Memory} (hplan : s.RxPlan chunk m) (h : s.RxStored chunk err m j mem) (hj : j < m)
    (checksum special : Half) :
    s.RxStored chunk err m (j + 1) (mem.chunkStored (s.rxBuf j) (chunk j) (s.rxDesc j)
      (rxWriteBackBytes (chunk j).length checksum (j + 1 = m) err special)) := by
  have hbuf := hplan.buf_end hj
  have hdesc := hplan.desc_end hj
  have hlen := length_rxWriteBackBytes (chunk j).length checksum (j + 1 = m) err special
  have apartFields : ∀ i, i < m → i ≠ j → s.rxDesc j + 16 ≤ s.rxDesc i ∨ s.rxDesc i + 16 ≤ s.rxDesc j := fun i hi hne =>
    apart_iff.1 (hplan.descs j i hj hi hne.symm)
  have apartChunk : ∀ i, i < m → s.rxBuf j + (chunk j).length ≤ s.rxDesc i ∨ s.rxDesc i + 16 ≤ s.rxBuf j := fun i hi =>
    apart_iff.1 (hplan.bufferDesc j i hj hi)
  refine ⟨Memory.wf_chunkStored h.wf, fun i hi => ?_, fun i hi => ?_, fun i hi => ?_, fun x hx => ?_⟩
  · have hend := hplan.desc_end hi
    have hchunk := apartChunk i hi
    have hfields : s.rxDesc j + 8 + 8 ≤ s.rxDesc i ∨ s.rxDesc i + 8 ≤ s.rxDesc j + 8 := by
      by_cases hij : i = j
      · rw [hij]
        omega
      · have := apartFields i hi hij
        omega
    rw [← h.address i hi]
    exact Memory.readBytes_chunkStored_outside h.wf hbuf hdesc hlen (by omega) (apart_iff.2 (by omega)) (apart_iff.2 hfields)
  · rcases Nat.lt_succ_iff_lt_or_eq.1 hi with hi | rfl
    · by_cases hempty : chunk i = []
      · rw [hempty]
        rfl
      · have him : i < m := by omega
        have hfields := apart_iff.1 (hplan.bufferDesc i j him hj)
        rw [Memory.readBytes_chunkStored_outside h.wf hbuf hdesc hlen (hplan.buf_end him hempty)
          (hplan.buffers j i hj him (by omega)) (apart_iff.2 (by omega)), h.buffer i hi]
    · exact Memory.readBytes_chunkStored_buffer h.wf hbuf hdesc hlen (hplan.bufferDesc i i hj hj)
  · rcases Nat.lt_succ_iff_lt_or_eq.1 hi with hi | rfl
    · obtain ⟨checksum', special', hread⟩ := h.fields i hi
      have him : i < m := by omega
      have hend := hplan.desc_end him
      have hchunk := apartChunk i him
      have hfields := apartFields i him (by omega)
      refine ⟨checksum', special', ?_⟩
      rw [Memory.readBytes_chunkStored_outside h.wf hbuf hdesc hlen (by omega) (apart_iff.2 (by omega))
        (apart_iff.2 (by omega)), hread]
    · exact ⟨checksum, special, Memory.readBytes_chunkStored_fields h.wf hdesc hlen⟩
  · obtain ⟨hchunk, hfields⟩ := hx j (Nat.lt_succ_self j)
    rw [Memory.readByte_chunkStored_outside h.wf hbuf hdesc hlen hchunk hfields]
    exact h.outside x fun i hi => hx i (Nat.lt_succ_of_lt hi)

/-- Chunk `j` is written where the chunks before it have left memory. -/
theorem State.RxStored.write {mem : Memory} (hplan : s.RxPlan chunk m) (h : s.RxStored chunk err m j mem) (hj : j < m)
    (d : Nat) : ∃ mem' d', rxWriteChunk { s with mem := mem, draws := d } err j m (chunk j) =
      .ok { s with mem := mem', draws := d' } ∧ s.RxStored chunk err m (j + 1) mem' := by
  have hbuf : State.rxBuf { s with mem := mem, draws := d } j = s.rxBuf j := congrArg natOfBytes (h.address j hj)
  have hlegal := hplan.legal j hj
  rw [← hbuf] at hlegal
  obtain ⟨checksum, special, hwrite⟩ :=
    rxWriteChunk_of_legal (s := { s with mem := mem, draws := d }) (err := err) (m := m) hlegal
  rw [hbuf] at hwrite
  exact ⟨_, _, hwrite, h.next hplan hj checksum special⟩

end Plan

/-- The loop of R421 writes all `m` chunks. -/
theorem State.RxStored.writeAll {s : State} {err : Byte} {bytes : List Byte} {b m k j : Nat} {mem : Memory}
    (hplan : s.RxPlan (fun j => sliceBytes bytes (j * b) b) m)
    (h : s.RxStored (fun j => sliceBytes bytes (j * b) b) err m j mem) (hk : j + k = m) (d : Nat) :
    ∃ mem' d', rxWriteChunks err bytes b m k j { s with mem := mem, draws := d } = .ok { s with mem := mem', draws := d' } ∧
      s.RxStored (fun j => sliceBytes bytes (j * b) b) err m m mem' := by
  induction k generalizing j mem d with
  | zero =>
    obtain rfl : j = m := hk
    exact ⟨mem, d, rfl, h⟩
  | succ k ih =>
    obtain ⟨mem₁, d₁, hwrite, hnext⟩ := h.write hplan (by omega) d
    obtain ⟨mem₂, d₂, hrest, hall⟩ := ih hnext (by omega) d₁
    refine ⟨mem₂, d₂, ?_, hall⟩
    simp only [rxWriteChunks, hwrite, hrest]

/-! ### The step (R420 to R424) -/

/-- Descriptors that are fewer than the ring holds lie apart. -/
theorem State.apart_rxDesc {s : State} {i j : Nat} (hhead : s.head .rx < s.ndev .rx) (hi : i < s.ndev .rx)
    (hj : j < s.ndev .rx) (hne : i ≠ j) : apart (s.rxDesc i) 16 (s.rxDesc j) 16 = true := by
  have hdiff : (s.head .rx + i) % s.ndev .rx ≠ (s.head .rx + j) % s.ndev .rx := fun heq => hne (by
    rw [← count_add_mod hhead hi, heq, count_add_mod hhead hj])
  rw [apart_iff, State.rxDesc, State.rxDesc]
  omega

/-- A first chunk that is not legal ends the loop. -/
theorem rxWriteChunks_of_wild {s : State} {err : Byte} {bytes : List Byte} {b m bad : Nat} (hm : 0 < m)
    (h : s.rxWild (s.rxDesc 0) (s.rxBuf 0) (sliceBytes bytes (0 * b) b).length = some bad) :
    rxWriteChunks err bytes b m m 0 s = .error ⟨.dmaWild, .rxe, 110, bad⟩ := by
  obtain ⟨k, rfl⟩ := Nat.exists_eq_succ_of_ne_zero (Nat.ne_of_gt hm)
  simp only [rxWriteChunks, rxWriteChunk_of_wild h]

/-- Where the plan of a frame's chunks holds, the step writes all of them and retires the frame. -/
theorem rxeStep_of_plan {s : State} {e : RxFrame} {more : List RxFrame} {b : Nat} (hf : s.rxFifo = e :: more)
    (hen : s.rxeEnabled = true) (hsize : bufSize s.regs.rctl = some b) (hmin : s.rdmts ≠ 3) (hwf : s.mem.wf = true)
    (hplan : s.RxPlan (fun j => sliceBytes (s.rxBytes e) (j * b) b) (s.rxNeeds e)) :
    ∃ mem d, rxeStep s = .ok (State.rxRetire { s with mem := mem, draws := d } (s.hwCount .rx) (s.rxNeeds e)) ∧
      s.RxStored (fun j => sliceBytes (s.rxBytes e) (j * b) b) e.err (s.rxNeeds e) (s.rxNeeds e) mem := by
  obtain ⟨mem, d, hwrite, hall⟩ :=
    State.RxStored.writeAll hplan (.start (err := e.err) hwf) (Nat.zero_add (s.rxNeeds e)) s.draws
  exact ⟨mem, d, rxeStep_of_ok hf hen hsize hmin hwrite, hall⟩

/-- The bytes of chunk `j` and of its descriptor, once all chunks are written. -/
theorem State.RxStored.bytes {s : State} {chunk : Nat → List Byte} {err : Byte} {m j : Nat} {mem : Memory}
    (hplan : s.RxPlan chunk m) (h : s.RxStored chunk err m m mem) (hj : j < m) :
    (∀ k, ∀ hk : k < (chunk j).length, mem.readByte (s.rxBuf j + k) = (chunk j)[k]) ∧
      (∀ k, k < 8 → mem.readByte (s.rxDesc j + k) = s.mem.readByte (s.rxDesc j + k)) ∧
      mem.readByte (s.rxDesc j + 8) = BitVec.ofNat 8 (chunk j).length ∧
      mem.readByte (s.rxDesc j + 9) = BitVec.ofNat 8 ((chunk j).length / 256) ∧
      mem.readByte (s.rxDesc j + 12) = (if j + 1 = m then 0x03#8 else 0x01#8) ∧
      mem.readByte (s.rxDesc j + 13) = (if j + 1 = m then err else 0x00#8) := by
  have hend := hplan.desc_end hj
  obtain ⟨checksum, special, hread⟩ := h.fields j hj
  have field : ∀ k, k < 8 → mem.readByte (s.rxDesc j + 8 + k) =
      (rxWriteBackBytes (chunk j).length checksum (j + 1 = m) err special).getD k 0#8 := fun k hk =>
    Memory.readByte_of_readBytes hread (by omega) hk
  have hsta : (if decide (j + 1 = m) = true then 0x03#8 else 0x01#8) = if j + 1 = m then 0x03#8 else 0x01#8 := by
    simp only [decide_eq_true_eq]
  have herr : (if decide (j + 1 = m) = true then err else 0x00#8) = if j + 1 = m then err else 0x00#8 := by
    simp only [decide_eq_true_eq]
  refine ⟨fun k hk => ?_, fun k hk => Memory.readByte_eq_of_readBytes_eq (h.address j hj) (by omega) hk, field 0 (by decide),
    field 1 (by decide), (field 4 (by decide)).trans hsta, (field 5 (by decide)).trans herr⟩
  have hne : chunk j ≠ [] := List.length_pos_iff.1 (Nat.zero_lt_of_lt hk)
  rw [Memory.readByte_of_readBytes (h.buffer j hj) (hplan.buf_end hj hne) hk, List.getD_eq_getElem _ _ hk]

/-- Settles O49: the faults before the first chunk in their order; else the loop writes every chunk, and the head moves. -/
theorem receiveStepWrites : Obligations.ReceiveStepWrites := by
  intro s e more hf hen n a addr bytes raises
  have raised : ∀ f, rxeStep s = .raised s f → perform .rxe s = .next (s.raise f) := fun f h => by
    rw [perform, h]
    rfl
  refine ⟨fun hsize => raised _ (rxeStep_of_reservedSize hf hen hsize), ?_⟩
  intro b hsize m chunk legal
  have hneeds : s.rxNeeds e = m := State.rxNeeds_of_size hsize e
  have hpos : 0 < m := hneeds ▸ s.rxNeeds_pos e
  have wild : ∀ bad, s.rdmts ≠ 3 → s.rxWild (s.rxDesc 0) (s.rxBuf 0) (chunk 0).length = some bad →
      perform .rxe s = .next (s.raise ⟨.dmaWild, .rxe, 110, bad⟩) := fun bad hmin h =>
    raised _ (rxeStep_of_error hf hen hsize hmin (by rw [hneeds]; exact rxWriteChunks_of_wild hpos h))
  refine ⟨fun hmin => raised _ (rxeStep_of_reservedThreshold hf hen hsize hmin),
    fun hmin h => wild _ hmin (State.rxWild_desc h),
    fun hmin hdesc hne h => wild _ hmin (State.rxWild_buffer hdesc (List.length_eq_zero_iff.not.2 hne) h),
    fun hmin hwf hhead htail hmax hlegal hdescs hbufs => ?_⟩
  obtain ⟨-, -, hfit⟩ := (State.rxeEnabled_iff hf).1 hen
  have hlt : m < n := by
    rw [hneeds] at hfit
    exact Nat.lt_of_le_of_lt hfit (count_lt hhead htail)
  have hplan : s.RxPlan chunk m :=
    { legal := fun j hj => by
        obtain ⟨haddress, hbuffer, hspans⟩ := hlegal j hj
        exact State.rxWild_eq_none.2 ⟨haddress, hbuffer ∘ List.length_eq_zero_iff.not.1, hspans⟩
      bufferDesc := hdescs
      buffers := hbufs
      descs := fun i j hi hj => State.apart_rxDesc hhead (Nat.lt_trans hi hlt) (Nat.lt_trans hj hlt) }
  obtain ⟨mem, d, hstep, hall⟩ := rxeStep_of_plan hf hen hsize hmin hwf (hneeds ▸ hplan)
  rw [hneeds] at hstep hall
  rw [perform, hstep, State.rxRetire_eq]
  exact ⟨_, rfl, rfl, rfl, congrArg List.tail hf, fun j hj => hall.bytes hplan hj, hall.outside⟩

end Sys2Proof.Machine
end

section
/-! PROOF of `EepromAndCableSteps`: the two engines by what they find; and a read in progress, of which every step keeps that it
goes on or has come to an end (`Closed`), so that the step of EEC that fairness grants ends it. -/

namespace Sys2Proof.Machine

/-! ### One step (46_dma_sequencer.md R431, R432) -/

section Eec
variable {s : State}

theorem eecStep_of_idle (h : s.ee.busy = false) : eecStep s = s := by
  rw [eecStep, h]
  rfl

theorem eecStep_of_word (h : s.ee.busy = true) {w : Half} (hword : s.params.eeprom[s.ee.addr.toNat]? = some w) :
    eecStep s = { s with ee := { s.ee with data := w, done := true, busy := false } } := by
  obtain ⟨hlt, -⟩ := List.getElem?_eq_some_iff.1 hword
  rw [eecStep, if_pos h, if_pos hlt, List.getD_eq_getElem?_getD, hword]
  rfl

theorem eecStep_of_beyond (h : s.ee.busy = true) (hfar : s.params.eeprom.length ≤ s.ee.addr.toNat) :
    eecStep s = { s with
      ee := { s.ee with data := Config.draw16 s.draws, done := true, busy := false }, draws := s.draws + 1 } := by
  rw [eecStep, if_pos h, if_neg (Nat.not_lt.2 hfar)]
  rfl

/-- A step of EEC leaves no read in progress. -/
theorem busy_eecStep (s : State) : (eecStep s).ee.busy = false := by
  unfold eecStep
  split
  · split <;> rfl
  · exact Bool.eq_false_iff.2 ‹_›

end Eec

/-! ### A read that has been started (10_state.md R51, 70_reset_and_hazards.md R491) -/

/-- A read is in progress, or it has completed, or a device reset has cancelled it; a write of EERD may have moved the address
since (40_mmio_registers.md R206). -/
def Eeprom.Started (e : Eeprom) : Prop :=
  e.busy = true ∨ e.done = true ∨ ∃ addr, e = { busy := false, addr := addr, data := 0#16, done := false }

theorem Eeprom.Started.withAddr {e : Eeprom} (h : e.Started) (addr : BitVec 14) : Eeprom.Started { e with addr := addr } := by
  rcases h with hbusy | hdone | ⟨_, rfl⟩
  · exact .inl hbusy
  · exact .inr (.inl hdone)
  · exact .inr (.inr ⟨addr, rfl⟩)

theorem started_eecStep {s : State} (h : s.ee.Started) : (eecStep s).ee.Started := by
  unfold eecStep
  split
  · split <;> exact .inr (.inl rfl)
  · exact h

/-- A write of CTRL leaves the EEPROM engine, or resets the device (40_mmio_registers.md R202). -/
theorem started_writeCtrl {s : State} (h : s.ee.Started) (v : Word) : (writeCtrl v s).All fun t => t.ee.Started := by
  cases hrst : v.getLsbD 26 with
  | true =>
    rw [writeCtrl_reset hrst]
    exact .inr (.inr ⟨0#14, rfl⟩)
  | false =>
    rw [writeCtrl_store hrst, State.linkEval_eq]
    exact h

/-- A write of EERD starts a read or moves the address (R206). -/
theorem started_writeEerd {s : State} (h : s.ee.Started) (a : HostAgent) (v : Word) :
    (writeEerd a v s).All fun t => t.ee.Started := by
  unfold writeEerd
  split
  · split
    · exact h
    · exact .inl rfl
  · exact h.withAddr _

/-- Every other register's rule leaves the EEPROM engine. -/
theorem started_writeRule {s : State} (h : s.ee.Started) (a : HostAgent) (r : Reg) (v : Word) :
    (writeRule a r v s).All fun t => t.ee.Started := by
  unfold writeRule
  cases r with
  | ctrl => exact started_writeCtrl h v
  | eerd => exact started_writeEerd h a v
  | rctl => exact writeRctl_all h h
  | tctl => exact writeTctl_all h h
  | rdbal | rdbah | rdlen | tdbal | tdbah | tdlen => exact whileDisabled_all h h
  | rdh | tdh => exact whileDisabled_all h (inRange_all h h)
  | rdt | tdt => exact inRange_all h h
  | status | icr | ims | imc | ral0 | rah0 => exact h

theorem started_writeReg {a : HostAgent} {r : Reg} {v : Word} {s t : State} (h : s.ee.Started)
    (e : writeReg a r v s = .ok t) : t.ee.Started := by
  have hall : (writeReg a r v s).All fun t => t.ee.Started := by
    unfold writeReg
    split
    · exact h
    · exact started_writeRule h a r v
  rwa [e] at hall

/-- An engine that keeps or raises leaves the EEPROM engine. -/
theorem Flow.KeepsOrRaises.started {s : State} {x : Flow} (hx : x.KeepsOrRaises s) (h : s.ee.Started) :
    x.All fun t => t.ee.Started := by
  cases x with
  | ok t =>
    obtain ⟨-, hee⟩ := hx
    rw [Flow.all_ok, hee]
    exact h
  | raised t f =>
    obtain rfl : t = s := hx
    exact h

theorem closed_started : Closed (fun s => s.ee.Started) fun _ => True where
  setWork _ _ _ h _ := h
  setRet _ _ _ h := h
  work _ _ _ _ _ := trivial
  frame _ _ := trivial
  turn _ _ _ _ _ h := h
  draw _ h := h
  raise _ _ h := h
  trace _ _ _ h := h
  clearIcr _ h := h
  write _ _ _ _ _ h e := started_writeReg h e
  regSet _ _ _ _ _ h := stage_all h h
  regDecide _ _ _ b _ h := by cases b <;> exact stage_all h h
  inConfirm _ _ _ h := h
  confirmed _ _ _ h := h
  objects _ h := h
  bytes _ _ _ h _ := h
  next _ r h := by cases r <;> exact h
  moved _ _ _ := trivial
  tail _ r _ h _ := by cases r <;> exact h
  ringReady _ r h := by cases r <;> exact h
  snapshot _ _ h := h
  claim k s h := by unfold claim; split <;> exact h
  done _ h := h
  drop _ kind _ _ h _ _ := by cases kind <;> exact h
  unhandled _ _ h := h
  overrun _ h := h
  push _ _ h _ := h
  pop _ _ _ h _ := h
  publish _ _ h := h
  sendStart _ _ _ h := h
  sendEnd _ _ _ h := h
  busMaster _ h := h
  base _ _ h := h
  registered _ h := h
  irqAllowed _ h := h
  assigned _ h := h
  node _ _ h := h
  mac _ _ h := h
  initStep _ _ h := h
  failed _ h := h
  alloc what _ _ _ h e := by
    simp only [callAlloc] at e
    split at e <;> cases e
    cases what <;> exact h
  enter _ h := h
  leave _ h := h
  txe o s h := (txeStep_keepsOrRaises o s).started h
  rxmac f b x s h := (rxmacStep_keepsOrRaises f b x s).started h
  rxe s h := (rxeStep_keepsOrRaises s).started h
  eec _ h := started_eecStep h
  cable s h := by rw [cableStep, State.linkEval_eq]; exact h

/-! ### Fair runs (R510) -/

/-- In a run, a read stays started. -/
theorem IsRun.started {r : Nat → State} {turn : Nat → Turn} (hrun : IsRun r turn) {n : Nat} (h : (r n).ee.Started) (k : Nat) :
    (r (n + k)).ee.Started := by
  induction k with
  | zero => exact h
  | succ k ih => exact closed_started.perform (turn (n + k)) ih (hrun (n + k)).2

/-- EEC's turn is a step of it. -/
theorem eq_eec_of_moverOf {t : Turn} (h : moverOf t = some .eec) : t = .eec := by
  cases t with
  | eec => rfl
  | resume a _ => cases a <;> cases h
  | _ => cases h

/-- In a weakly fair run no read stays in progress. -/
theorem WeaklyFair.idle {r : Nat → State} {turn : Nat → Turn} (h : WeaklyFair r turn) (n : Nat) :
    ∃ m, n ≤ m ∧ (r m).ee.busy = false := by
  obtain ⟨hrun, hfair⟩ := h
  obtain ⟨m, hm, hoff | hmoves⟩ := hfair .eec n
  · exact ⟨m, hm, Bool.eq_false_iff.2 hoff⟩
  · obtain ⟨-, hstep⟩ := hrun m
    rw [eq_eec_of_moverOf hmoves, perform] at hstep
    exact ⟨m + 1, Nat.le_succ_of_le hm, Host.Outcome.next.inj hstep ▸ busy_eecStep (r m)⟩

/-- Settles O52: each step by what it finds, and in a fair run by the first idle state after the read. -/
theorem eepromAndCableSteps : Obligations.EepromAndCableSteps := by
  refine ⟨fun s => ⟨fun hbusy w hword => ?_, fun hbusy hfar => ⟨Config.draw16 s.draws, ?_⟩, fun hidle => ?_, ?_⟩,
    fun r turn n hfair hbusy => ?_⟩
  · rw [perform, eecStep_of_word hbusy hword]
  · rw [perform, eecStep_of_beyond hbusy hfar]
  · rw [perform, eecStep_of_idle hidle]
  · rw [perform, cableStep, State.linkEval_eq]
    rfl
  · obtain ⟨m, hm, hidle⟩ := hfair.idle n
    have hlt : n < m := Nat.lt_of_le_of_ne hm (by rintro rfl; rw [hbusy] at hidle; cases hidle)
    obtain ⟨k, rfl⟩ := Nat.exists_eq_add_of_le hm
    refine ⟨n + k, hlt, hidle, ?_⟩
    rcases hfair.1.started (.inl hbusy) k with h | h
    · rw [hidle] at h
      cases h
    · exact h

end Sys2Proof.Machine
end

section
/-! SUPPORT. What a piece of a step does to the record of faults: it leaves the record, or it raises one fault, which is then
the last thing the step does (60_exceptions.md R451). -/

namespace Sys2Proof.Machine

/-- The faults recorded in a state are `l`. -/
def Recorded (l : List FaultRecord) (s : State) : Prop := s.faults = l

/-- Where nothing is asked of a frame, every piece puts such frames in front. -/
theorem Go.pushes_true (g : Go) : g.Pushes fun _ => True := by
  cases g with
  | run s push => exact fun _ _ => trivial
  | abort s e => trivial
  | raised s f => trivial

theorem recorded_writeOp {l : List FaultRecord} {s : State} {go : HostAgent → State → Flow}
    (hgo : (go s.cur s).All (Recorded l)) : (writeOp go s).All (Recorded l) := Flow.all_andThen hgo fun _ ht => ht

section Pieces
variable {l : List FaultRecord} {s : State} (h : Recorded l s)
include h

/-! ### Shared operations -/

theorem recorded_readReg (r : Reg) : Recorded l (readReg r s).2 := by
  rcases readReg_state r s with e | e | ⟨_, e⟩ <;> rw [e] <;> exact h

theorem recorded_writeReg (a : HostAgent) (r : Reg) (v : Word) : (writeReg a r v s).All (Recorded l) := by
  cases e : writeReg a r v s with
  | ok t => rw [Flow.all_ok, writeReg_ok e]; exact h
  | raised t f => rw [Flow.all_raised, writeReg_raised e]; exact h

theorem recorded_regSet (a : HostAgent) (r : Reg) (v m : Word) : (regSet a r v m s).All (Recorded l) := stage_all h h

theorem recorded_regDecide (a : HostAgent) (r : Reg) (v : Word) (b : Bool) : (regDecide a r v b s).All (Recorded l) := by
  cases b <;> exact stage_all h h

theorem recorded_staging (a : HostAgent) (g : Staging) : (g.run a s).All (Recorded l) := by
  cases g with
  | set r v m => exact recorded_regSet h a r v m
  | decide r v b => exact recorded_regDecide h a r v b

theorem recorded_checkIndex (a : HostAgent) (t : Ring) (i : Nat) : (checkIndex a t i s).All (Recorded l) := by
  rcases checkIndex_cases a t i s with ⟨_, e⟩ | ⟨_, e⟩ <;> rw [e] <;> exact h

theorem recorded_descWrite (a : HostAgent) (t : Ring) (i off : Nat) (bs : List Byte) :
    (descWrite a t i off bs s).All (Recorded l) := by
  rcases descWrite_cases a t i off bs s with ⟨_, _, e⟩ | ⟨_, e⟩ | ⟨_, _, e⟩ <;> rw [e] <;> exact h

theorem recorded_storeStep (a : HostAgent) (addr : Nat) (bs : List Byte) : (storeStep a addr bs s).All (Recorded l) := by
  rcases storeStep_cases a addr bs s with ⟨_, e⟩ | ⟨_, e⟩ <;> rw [e] <;> exact h

theorem recorded_writeCommand (a : HostAgent) (i : Nat) : (writeCommand a i s).All (Recorded l) :=
  Flow.all_andThen (recorded_descWrite h _ _ _ _ _) fun _ ht => recorded_descWrite ht _ _ _ _ _

theorem recorded_claim (k : Nat) : Recorded l (claim k s).2 := by
  unfold claim
  split <;> exact h

theorem recorded_drop (kind : LogKind) (code : TraceCode) (c : Nat) : Recorded l (s.drop kind code c) := by
  cases kind <;> exact h

theorem recorded_setNext (t : Ring) : Recorded l (s.setNext t) := (s.setNext_faults t).trans h

/-! ### Frames of an operation in progress -/

theorem recorded_startWriteReg (a : HostAgent) (r : Reg) (v : Word) (after : List Micro) :
    (startWriteReg a r v after s).All (Recorded l) := Flow.all_go (recorded_regSet h _ _ _ _)

theorem recorded_confirmRead (a : HostAgent) (r : Reg) : (confirmRead a r s).All (Recorded l) := by
  show Recorded l (confirmLive r s).2
  unfold confirmLive
  split
  · exact h
  · exact recorded_readReg h r

theorem recorded_confirmWrite (a : HostAgent) (r : Reg) (live : Word) : (confirmWrite a r live s).All (Recorded l) :=
  Flow.all_andThen (recorded_writeReg h _ _ _) fun _ ht => ht

/-- A frame that reads a descriptor: the index check, then what the frame makes of the fields it reads. -/
theorem recorded_afterIndex {a : HostAgent} {t : Ring} {i : Nat} {k : State → Go}
    (hk : ∀ s, Recorded l s → (k s).All (Recorded l)) : ((checkIndex a t i s).thenGo k).All (Recorded l) :=
  Flow.all_thenGo (recorded_checkIndex h a t i) hk

theorem recorded_callAlloc (what : AllocFor) : (callAlloc what s).All (Recorded l) := by
  simp only [callAlloc]
  split
  · cases what <;> exact h
  · exact h

theorem recorded_sendEnd (a : HostAgent) (pa : Word) (len : Nat) (sta : Byte) (c : Nat) :
    Recorded l (sendEnd a pa len sta c s) := by
  unfold sendEnd
  split <;> exact h

theorem recorded_loadMac (a : HostAgent) : (loadMac a s).All (Recorded l) := by
  unfold loadMac
  split
  · refine Flow.all_thenGo (recorded_regSet h _ _ _ _) fun t ht => ?_
    exact recorded_confirmRead ht a .eerd
  · exact recorded_readReg h .ral0

theorem recorded_macPoll (a : HostAgent) (k : Nat) (words : List Half) : (macPoll a k words s).All (Recorded l) := by
  have hread := recorded_readReg h .eerd
  simp only [macPoll]
  split
  · split <;> exact hread
  · exact hread

theorem recorded_pollFrom (a : HostAgent) (k : Nat) : (pollFrom a k s).All (Recorded l) := by
  unfold pollFrom
  split <;> exact h

theorem recorded_trigLink (a : HostAgent) : (trigLink a s).All (Recorded l) := by
  have hclaim := recorded_claim h lsc
  simp only [trigLink]
  split
  · split
    · exact hclaim
    · exact Flow.all_thenGo (recorded_staging hclaim _ _) fun _ ht => ht
  · exact hclaim

theorem recorded_trigOverrun : (trigOverrun s).All (Recorded l) := by
  have hclaim := recorded_claim h rxo
  simp only [trigOverrun]
  split <;> exact hclaim

theorem recorded_trigReceive (a : HostAgent) : (trigReceive a s).All (Recorded l) := by
  have hclaim := recorded_claim (recorded_claim h rxdmt0) rxt0
  simp only [trigReceive]
  split
  · exact recorded_pollFrom hclaim a 0
  · exact hclaim

/-- Every frame leaves the recorded faults, or raises one. -/
theorem recorded_run (a : HostAgent) (m : Micro) : (m.run a s).All (Recorded l) := by
  cases m with
  | confirmRead r => exact recorded_confirmRead h a r
  | confirmWrite r live => exact Flow.all_go (recorded_confirmWrite h a r live)
  | txAddr | txLen | rxAddr | rxClear => exact Flow.all_go (recorded_descWrite h _ _ _ _ _)
  | txCmd c => exact Flow.all_go (recorded_writeCommand h a c)
  | txPoll =>
    refine recorded_afterIndex h fun t ht => ?_
    split
    · exact recorded_sendEnd ht _ _ _ _ _
    · exact ht
  | pollDone =>
    refine recorded_afterIndex h fun t ht => ?_
    split <;> exact ht
  | pollLen | pollErrors =>
    refine recorded_afterIndex h fun t ht => ?_
    split
    · exact recorded_drop ht _ _ _
    · exact ht
  | pollEop =>
    refine recorded_afterIndex h fun t ht => ?_
    split
    · exact ht
    · exact recorded_drop ht _ _ _
  | pollPush =>
    simp only [Micro.run, pollPush]
    split
    · exact h
    · exact recorded_drop h _ _ _
  | pollClear => exact Flow.all_thenGo (recorded_descWrite h _ _ _ _ _) fun _ ht => recorded_setNext ht .rx
  | callBusMaster | callRegister | callAllow | callAssign | callCreateDirectory | callAddNode | callMapIo =>
    simp only [Micro.run, callBusMaster, callRegister, callAllow, callAssign, callCreateDirectory, callAddNode, callMapIo,
      service]
    split <;> exact h
  | callAlloc what => exact recorded_callAlloc h what
  | loadMac => exact recorded_loadMac h a
  | macPoll k words => exact recorded_macPoll h a k words
  | macHigh => exact recorded_readReg h .rah0
  | parsePop =>
    simp only [Micro.run, parsePop]
    split <;> exact h
  | writeReg | moveTail | txInit | macStart => exact recorded_startWriteReg h _ _ _ _
  | rxInitFrom =>
    simp only [Micro.run, rxInitFrom]
    split
    · exact h
    · exact recorded_startWriteReg h _ _ _ _
  | tailEnd t | ringInitEnd t => cases t <;> exact h
  | setting st =>
    simp only [Micro.run, settingLine]
    split
    · exact h
    · exact Flow.all_go (recorded_staging h _ _)
  | manage =>
    simp only [Micro.run, manageLine]
    split <;> exact h
  | slotsFrom =>
    simp only [Micro.run, slotsFrom]
    split <;> exact h
  | initDone =>
    simp only [Micro.run, initDone, Go.all_run]
    split <;> exact h
  | trigLink => exact recorded_trigLink h a
  | trigOverrun => exact recorded_trigOverrun h
  | trigReceive => exact recorded_trigReceive h a
  | trigUnhandled =>
    simp only [Micro.run, trigUnhandled]
    split <;> exact h
  | pollFrom k => exact recorded_pollFrom h a k
  | icReadClear | icDone | parseCopy | parsePublish | createObjects | trigReturn => exact h

/-! ### Operations in progress -/

theorem recorded_unwind (a : HostAgent) (frames : List Micro) : (unwind a frames s).All (Recorded l) :=
  unwind_all (F := fun _ => True) (fun m _ ht _ => ⟨recorded_run ht a m, Go.pushes_true _⟩) (fun _ _ ht _ => ht)
    (fun _ _ ht => ht) frames s h fun _ _ => trivial

theorem recorded_advance (a : HostAgent) : (advance a s).All (Recorded l) :=
  advance_all (F := fun _ => True) (fun m _ ht _ => ⟨recorded_run ht a m, Go.pushes_true _⟩) (fun _ _ ht _ => ht)
    (fun _ _ ht => ht) s h fun _ _ => trivial

theorem recorded_startOp (frames : List Micro) : (startOp frames s).All (Recorded l) :=
  Flow.all_andThen (recorded_unwind (s := s.setRet s.cur .pending) h s.cur _) fun _ ht => recorded_advance ht s.cur

theorem recorded_settingOp (st : Setting) : (settingOp st s).All (Recorded l) := by
  unfold settingOp
  split
  · exact h
  · exact Flow.all_andThen (recorded_staging h _ _) fun _ ht => ht

theorem recorded_readOp (t : Ring) (i : Nat) (v : State → Ret) : (readOp t i v s).All (Recorded l) :=
  Flow.all_andThen (recorded_checkIndex h _ _ _) fun _ ht => ht

theorem recorded_sendBody (pa : Word) (len : Nat) : (sendBody pa len s).All (Recorded l) := by
  unfold sendBody
  split
  · exact h
  · split
    · exact h
    · split
      · exact h
      · exact recorded_startOp (s := sendClaim pa len s) h _

end Pieces

end Sys2Proof.Machine
end

section
/-! SUPPORT. What issuing a host operation does: out of its place it is refused; else it is checked against its rows of the tables
of 60_exceptions.md R452 and R470, and then does what its body does. -/

namespace Sys2Proof.Machine

/-- `coreInitialize` a second time, or `coreLoadmac` elsewhere than as step 9 of it (R452). -/
def State.OutOfPlace (s : State) (op : HostOp) : Prop :=
  (op = .coreInitialize ∧ s.drv.initStep ≠ 0) ∨ (op = .coreLoadmac ∧ inStep9 s = false)

/-- The instruction `i` is the host operation `op`, with the agent check `allowed` and the body `body`. -/
structure IssuedAs (i : Instr) (op : HostOp) (allowed : State → Bool) (body : State → Flow) : Prop where
  outOfPlace : ∀ s, s.OutOfPlace op → exec i s = .next s.refuse
  inPlace    : ∀ s, ¬ s.OutOfPlace op → exec i s = hostOp op.minStep allowed op body s
  /-- The model's agent check is the operation's row of the table of R470. -/
  allows     : ∀ s, allowed s = true ↔ op.allows s
  body       : ∀ s l, Recorded l s → (body s).All (Recorded l)

/-- An operation that has no place of its own is never out of it. -/
theorem IssuedAs.anywhere {i : Instr} {op : HostOp} {allowed : State → Bool} {body : State → Flow}
    (hexec : ∀ s, exec i s = hostOp op.minStep allowed op body s) (hallows : ∀ s, allowed s = true ↔ op.allows s)
    (hbody : ∀ s l, Recorded l s → (body s).All (Recorded l)) (hinit : op ≠ .coreInitialize := by nofun)
    (hmac : op ≠ .coreLoadmac := by nofun) : IssuedAs i op allowed body where
  outOfPlace _ h := (h.elim (fun hc => hinit hc.1) (fun hc => hmac hc.1)).elim
  inPlace s _ := hexec s
  allows := hallows
  body := hbody

theorem issuedAs_coreInitialize : IssuedAs .coreInitialize .coreInitialize onlyHost (startOp initFrames) where
  outOfPlace s h := by
    have hstep : s.drv.initStep ≠ 0 := h.elim (·.2) nofun
    exact if_pos hstep
  inPlace s h := by
    have hstep : ¬ s.drv.initStep ≠ 0 := fun hne => h (.inl ⟨rfl, hne⟩)
    exact if_neg hstep
  allows s := decide_eq_true_iff
  body _ _ h := recorded_startOp h _

theorem issuedAs_coreLoadmac : IssuedAs .coreLoadmac .coreLoadmac onlyHost fun s => advance s.cur s where
  outOfPlace s h := by
    have hplace : ¬ inStep9 s = true := h.elim nofun fun hc => Bool.eq_false_iff.1 hc.2
    exact if_neg hplace
  inPlace s h := by
    have hplace : inStep9 s = true := Bool.of_not_eq_false fun hno => h (.inr ⟨rfl, hno⟩)
    exact if_pos hplace
  allows s := decide_eq_true_iff
  body _ _ h := recorded_advance h _

/-- An operation that any agent may issue. -/
theorem exists_issuedAs_anyAgent {i : Instr} {op : HostOp} {body : State → Flow}
    (hexec : ∀ s, exec i s = hostOp op.minStep anyAgent op body s)
    (hbody : ∀ s l, Recorded l s → (body s).All (Recorded l)) (hallows : ∀ s, op.allows s := by exact fun _ => trivial)
    (hinit : op ≠ .coreInitialize := by nofun) (hmac : op ≠ .coreLoadmac := by nofun) :
    ∃ allowed body, IssuedAs i op allowed body :=
  ⟨anyAgent, body, .anywhere hexec (fun s => ⟨fun _ => hallows s, fun _ => rfl⟩) hbody hinit hmac⟩

/-- An operation of the interrupt-cause decoder (42_interrupt_cause.md R310). -/
theorem exists_issuedAs_decoderAgent {i : Instr} {op : HostOp} {body : State → Flow}
    (hexec : ∀ s, exec i s = hostOp op.minStep decoderAgent op body s)
    (hbody : ∀ s l, Recorded l s → (body s).All (Recorded l))
    (hallows : op.allows = HostOp.icReadclear.allows := by rfl)
    (hinit : op ≠ .coreInitialize := by nofun) (hmac : op ≠ .coreLoadmac := by nofun) :
    ∃ allowed body, IssuedAs i op allowed body :=
  ⟨decoderAgent, body, .anywhere hexec (fun _ => hallows ▸ decoderAgent_eq_true) hbody hinit hmac⟩

/-- Every host operation is issued with its rows of the tables of R452 and R470, and its body raises at most one fault. -/
theorem exists_issuedAs {i : Instr} {op : HostOp} (h : i.hostOp? = some op) : ∃ allowed body, IssuedAs i op allowed body := by
  cases i <;> cases h
  case regSet =>
    refine exists_issuedAs_anyAgent (fun _ => rfl) fun _ _ hs => ?_
    split
    · exact hs
    · exact Flow.all_andThen (recorded_regSet hs _ _ _ _) fun _ ht => ht
  case regDecide =>
    refine exists_issuedAs_anyAgent (fun _ => rfl) fun _ _ hs => ?_
    split
    · exact hs
    · exact Flow.all_andThen (recorded_regDecide hs _ _ _ _) fun _ ht => ht
  case regConfirm =>
    refine exists_issuedAs_anyAgent (fun _ => rfl) fun _ _ hs => ?_
    split
    · exact hs
    · exact recorded_startOp hs _
  case grpManage =>
    refine exists_issuedAs_anyAgent (fun _ => rfl) fun _ _ hs => ?_
    split
    · exact recorded_startOp hs _
    · exact hs
  case regReaddirect => exact exists_issuedAs_anyAgent (fun _ => rfl) fun _ _ hs => recorded_readReg hs _
  case dcSetlinkup | dcAutospeed | rcEnable | rcLoopback | rcBufsize | rcMinthreshold | rcBroadcast | tcEnable | tcPadshort
      | tcCollthresh | tcColldist | ieEnable | idDisable =>
    exact exists_issuedAs_anyAgent (fun _ => rfl) fun _ _ hs => recorded_settingOp hs _
  case icReadclear | icUnhandled => exact exists_issuedAs_decoderAgent (fun _ => rfl) fun _ _ hs => hs
  case icLinkchanged | icOverrun | icMinthreshold | icRxtimer | icMdiodone =>
    exact exists_issuedAs_decoderAgent (fun _ => rfl) fun _ _ hs => recorded_claim hs _
  case txdWriteaddress | rxdWriteaddress | rxdClearstatus =>
    exact exists_issuedAs_anyAgent (fun _ => rfl) fun _ _ hs => recorded_writeOp (recorded_descWrite hs _ _ _ _ _)
  case txdWritelength =>
    refine exists_issuedAs_anyAgent (fun _ => rfl) fun _ _ hs => ?_
    refine Flow.all_andThen (recorded_checkIndex hs _ _ _) fun _ ht => ?_
    split
    · exact recorded_writeOp (recorded_descWrite ht _ _ _ _ _)
    · exact ht
  case txdWritecommand =>
    exact exists_issuedAs_anyAgent (fun _ => rfl) fun _ _ hs => recorded_writeOp (recorded_writeCommand hs _ _)
  case txdIsdone | rxdGetpacketaddress | rxdReadlength | rxdIseop | rxdHaserrors | rxdDone =>
    exact exists_issuedAs_anyAgent (fun _ => rfl) fun _ _ hs => recorded_readOp hs _ _ _
  case ringCurrent => exact exists_issuedAs_anyAgent (fun _ => rfl) fun _ _ hs => hs
  case ringSetnext => exact exists_issuedAs_anyAgent (fun _ => rfl) fun _ _ hs => recorded_setNext hs _
  case hwringInit | hwringMovetail => exact exists_issuedAs_anyAgent (fun _ => rfl) fun _ _ hs => recorded_startOp hs _
  case txSend =>
    have hallows : ∀ s, notIsr s = true ↔ HostOp.txSend.allows s := by simp [notIsr, HostOp.allows]
    exact ⟨notIsr, _, .anywhere (fun _ => rfl) hallows fun _ _ hs => recorded_sendBody hs _ _⟩
  case rxPoll =>
    exact ⟨onlyIsr, _, .anywhere (fun _ => rfl) (fun _ => decide_eq_true_iff) fun _ _ hs => recorded_startOp hs _⟩
  case coreTrigger =>
    refine ⟨onlyIsr, _, .anywhere (fun _ => rfl) (fun _ => decide_eq_true_iff) fun s _ hs => ?_⟩
    exact recorded_unwind (s := s.isrEnter.setRet s.cur .pending) hs _ _
  case coreHasdata => exact ⟨onlyBh, _, .anywhere (fun _ => rfl) (fun _ => decide_eq_true_iff) fun _ _ hs => hs⟩
  case coreParse =>
    exact ⟨onlyBh, _, .anywhere (fun _ => rfl) (fun _ => decide_eq_true_iff) fun _ _ hs => recorded_startOp hs _⟩
  case coreInitialize => exact ⟨_, _, issuedAs_coreInitialize⟩
  case coreLoadmac => exact ⟨_, _, issuedAs_coreLoadmac⟩

end Sys2Proof.Machine
end

section
/-! PROOF of `IssueChecks`: out of its place an operation is refused; in its place its two checks run in the order of R452. -/

namespace Sys2Proof.Machine

/-- Settles O4: an operation is out of its place, or it is checked by its rows of the two tables. -/
theorem issueChecks : Obligations.IssueChecks := by
  refine ⟨fun i op s hop hrefuses => ?_, fun i op s hop hnot hagent => ?_⟩ <;>
    obtain ⟨allowed, body, hi⟩ := exists_issuedAs hop
  · by_cases hplace : s.OutOfPlace op
    · exact hi.outOfPlace s hplace
    · exact (hi.inPlace s hplace).trans (hostOp_refused ((or_assoc.2 hrefuses).resolve_right hplace))
  · have hplace : ¬ s.OutOfPlace op := fun hout => hnot (.inr (.inr hout))
    have hready : s.Ready op.minStep :=
      ⟨Bool.eq_false_iff.2 fun hfailed => hnot (.inl hfailed), Nat.not_lt.1 fun hearly => hnot (.inr (.inl hearly))⟩
    have hallowed : allowed s = false := Bool.eq_false_iff.2 (mt (hi.allows s).1 hagent)
    exact (hi.inPlace s hplace).trans (hostOp_context hready hallowed)

end Sys2Proof.Machine
end

section
/-! PROOF of `FaultStopsMachine`: a recorded fault is what `step` answers; and every turn is one piece, which leaves the recorded
faults, or raises one and ends there. -/

namespace Sys2Proof.Machine

/-- An outcome is that of a piece which leaves the faults `l` or raises one. -/
def RaisesOnce (l : List FaultRecord) (o : Host.Outcome State Fault Refusal) : Prop :=
  ∃ x : Flow, o = x.out ∧ x.All (Recorded l)

/-- One fault at most is added to the record. -/
theorem RaisesOnce.faults {l : List FaultRecord} {t : State} (h : RaisesOnce l (.next t)) :
    t.faults = l ∨ ∃ f, t.faults = l ++ [f] := by
  obtain ⟨x, hx, hall⟩ := h
  cases x with
  | ok s =>
    cases hx
    exact .inl hall
  | raised s f =>
    cases hx
    exact .inr ⟨f, congrArg (· ++ [f]) hall⟩

/-- An engine that keeps or raises does so with the recorded faults. -/
theorem Flow.KeepsOrRaises.recorded {l : List FaultRecord} {s : State} {x : Flow} (hx : x.KeepsOrRaises s)
    (h : Recorded l s) : x.All (Recorded l) := by
  cases x with
  | ok t =>
    obtain ⟨hfaults, -⟩ := hx
    exact hfaults.trans h
  | raised t f =>
    obtain rfl : t = s := hx
    exact h

section Turns
variable {l : List FaultRecord} {s : State} (h : Recorded l s)
include h

theorem raisesOnce_next : RaisesOnce l (.next s) := ⟨.ok s, rfl, h⟩

theorem raisesOnce_raise (f : FaultRecord) : RaisesOnce l (.next (s.raise f)) := ⟨.raised s f, rfl, h⟩

theorem raisesOnce_mmioRead (r : Reg) : RaisesOnce l (mmioRead r s) := ⟨.ok _, rfl, recorded_readReg h r⟩

theorem raisesOnce_mmioWrite (r : Reg) (v : Word) : RaisesOnce l (mmioWrite r v s) :=
  ⟨_, rfl, Flow.all_andThen (recorded_writeReg h s.cur r v) fun _ ht => ht⟩

theorem raisesOnce_hostOp {n : Nat} {allowed : State → Bool} {op : HostOp} {body : State → Flow}
    (hbody : (body s).All (Recorded l)) : RaisesOnce l (hostOp n allowed op body s) := by
  rcases hostOp_cases n allowed op body s with e | e | e <;> rw [e]
  · exact raisesOnce_next (s := s.refuse) h
  · exact raisesOnce_raise h _
  · exact ⟨body s, rfl, hbody⟩

theorem IssuedAs.raisesOnce {i : Instr} {op : HostOp} {allowed : State → Bool} {body : State → Flow}
    (hi : IssuedAs i op allowed body) : RaisesOnce l (exec i s) := by
  by_cases hplace : s.OutOfPlace op
  · rw [hi.outOfPlace s hplace]
    exact raisesOnce_next (s := s.refuse) h
  · rw [hi.inPlace s hplace]
    exact raisesOnce_hostOp h (hi.body s l h)

theorem raisesOnce_exec (i : Instr) : RaisesOnce l (exec i s) := by
  cases hop : i.hostOp? with
  | some op =>
    obtain ⟨allowed, body, hi⟩ := exists_issuedAs hop
    exact hi.raisesOnce h
  | none =>
    cases i with
    | mmioRCtrl | mmioRStatus | mmioREerd | mmioRIcr | mmioRIms | mmioRImc | mmioRRctl | mmioRTctl | mmioRRdbal | mmioRRdbah
    | mmioRRdlen | mmioRRdh | mmioRRdt | mmioRTdbal | mmioRTdbah | mmioRTdlen | mmioRTdh | mmioRTdt | mmioRRal0
    | mmioRRah0 => exact raisesOnce_mmioRead h _
    | mmioWCtrl v | mmioWStatus v | mmioWEerd v | mmioWIcr v | mmioWIms v | mmioWImc v | mmioWRctl v | mmioWTctl v
    | mmioWRdbal v | mmioWRdbah v | mmioWRdlen v | mmioWRdh v | mmioWRdt v | mmioWTdbal v | mmioWTdbah v | mmioWTdlen v
    | mmioWTdh v | mmioWTdt v | mmioWRal0 v | mmioWRah0 v => exact raisesOnce_mmioWrite h _ v
    | _ => cases hop

theorem raisesOnce_issue (a : HostAgent) (req : Request) (reply : Reply) : RaisesOnce l (issue a req reply s) := by
  unfold issue
  split
  · split
    · exact raisesOnce_exec (s := s.asAgent a reply) h _
    · exact raisesOnce_next h
  · next e _ =>
    split
    · cases e with
      | noSuchOperation => exact raisesOnce_next (s := (s.asAgent a reply).refuse) h
      | width | misaligned | unmodelledOffset => exact raisesOnce_raise (s := s.asAgent a reply) h _
    · exact raisesOnce_next h

theorem raisesOnce_hostAccess (a : HostAgent) (va : Word) (access : Access) : RaisesOnce l (hostAccess a va access s) := by
  unfold hostAccess
  split
  · exact raisesOnce_issue h _ _ _
  · split
    · split
      · exact ⟨.ok _, rfl, h⟩
      · exact ⟨_, rfl, recorded_storeStep h _ _ _⟩
    · exact raisesOnce_next h

theorem raisesOnce_perform (turn : Turn) : RaisesOnce l (perform turn s) := by
  cases turn with
  | issue a req reply => exact raisesOnce_issue h a req reply
  | resume a reply =>
    simp only [perform, resume]
    split
    · exact ⟨_, rfl, recorded_advance (s := s.asAgent a reply) h a⟩
    · exact raisesOnce_next h
  | dispatch frame =>
    simp only [perform, deliver]
    split
    · exact raisesOnce_exec (s := s.asAgent .isr s.reply) h _
    · exact raisesOnce_next h
  | txe outcome => exact ⟨_, rfl, (txeStep_keepsOrRaises outcome s).recorded h⟩
  | rxmac frame crcOk err => exact ⟨_, rfl, (rxmacStep_keepsOrRaises frame crcOk err s).recorded h⟩
  | rxe => exact ⟨_, rfl, (rxeStep_keepsOrRaises s).recorded h⟩
  | eec =>
    refine raisesOnce_next ?_
    unfold eecStep
    split
    · split <;> exact h
    · exact h
  | cable => exact raisesOnce_next ((State.linkEval_faults _).trans h)
  | access a va access => exact raisesOnce_hostAccess h a va access
  | store a addr bytes =>
    simp only [perform]
    split
    · exact ⟨_, rfl, recorded_storeStep h _ _ _⟩
    · exact raisesOnce_next h

theorem recorded_nextTurn : Recorded l s.nextTurn.2 := by
  unfold State.nextTurn
  split <;> exact h

end Turns

/-- Settles O53: `step` looks for a recorded fault first; where there is none, its turn raises one at most. -/
theorem faultStopsMachine : Obligations.FaultStopsMachine := by
  refine ⟨fun s f more hs => by rw [step, hs], fun s t hstep => ?_⟩
  cases hs : s.faults with
  | cons f more =>
    rw [step, hs] at hstep
    cases hstep
  | nil =>
    have hturn := raisesOnce_perform (recorded_nextTurn hs) s.nextTurn.1
    have hperform : perform s.nextTurn.1 s.nextTurn.2 = .next t := by rwa [step, hs] at hstep
    rw [hperform] at hturn
    exact ⟨rfl, hturn.faults⟩

end Sys2Proof.Machine
end

section
/-! PROOF of `InterruptEntry`: the entry by its frames, DISPATCH by its conditions, and the agents that an active handler stops by
the test that each of their turns makes first. -/

namespace Sys2Proof.Machine

/-! ### DISPATCH (60_exceptions.md R462; log entry 21) -/

theorem deliver_of_not_deliverable {s : State} (frame : Word) (h : s.deliverable = false) : deliver frame s = .next s := by
  rw [deliver, h]
  rfl

/-- While a condition of R462 fails, there is nothing to deliver. -/
theorem State.deliverable_eq_false_of {s : State} (h : s.regs.icr &&& s.regs.ims = 0#32 ∨ s.drv.irqAllowed = false ∨
    s.drv.handlerAssigned = false ∨ s.drv.isrActive = true) : s.deliverable = false := by
  rcases h with h | h | h | h <;> simp [State.deliverable, State.irq, h]

theorem State.deliverable_eq_false_of_work {s : State} (h : s.work .isr ≠ []) : s.deliverable = false := by
  simp [State.deliverable, h]

/-- An issue of `core.trigger` by ISR that is not refused is left to DISPATCH. -/
theorem issue_coreTrigger {s : State} {frame : Word} {req : Request} (reply : Reply)
    (hd : decode s.params.offsets req = .ok (.coreTrigger frame)) (hready : s.Ready 11) :
    issue .isr req reply s = .next s := by
  have hrefuses : s.refuses 11 = false := Bool.eq_false_iff.2 fun hr => State.refuses_iff.1 hr hready
  have hcan : s.canIssue .isr (.coreTrigger frame) = false := by simp [State.canIssue, State.startsTrigger, hrefuses]
  simp [issue, hd, hcan]

/-! ### Agents that may not move (60_exceptions.md R464) -/

section Stopped
variable {s : State} {a : HostAgent} (hstop : s.mayRun a = false)
include hstop

theorem issue_of_stopped (req : Request) (reply : Reply) : issue a req reply s = .next s := by
  unfold issue
  split
  · simp [State.canIssue, hstop]
  · simp [hstop]

theorem resume_of_stopped (reply : Reply) : resume a reply s = .next s := by simp [resume, hstop]

theorem hostAccess_of_stopped (va : Word) (access : Access) : hostAccess a va access s = .next s := by
  unfold hostAccess
  split
  · exact issue_of_stopped hstop _ _
  · simp [State.mayAccess, hstop]

end Stopped

/-- Settles O41: by the entry, the conditions of DISPATCH, and the test of an agent that the handler preempts. -/
theorem interruptEntry : Obligations.InterruptEntry := by
  refine ⟨fun s frame hready hcur hidle => exec_coreTrigger frame hready hcur hidle,
    fun s frame hline hallowed hassigned hactive hidle => ?_,
    fun s frame h => deliver_of_not_deliverable frame (State.deliverable_eq_false_of h),
    fun s frame h => deliver_of_not_deliverable frame (State.deliverable_eq_false_of_work h),
    fun s frame req reply hd hready => issue_coreTrigger reply hd hready, fun s a hactive ha => ?_⟩
  · rw [perform, deliver, State.deliverable_of hline hallowed hassigned hactive hidle]
    rfl
  · have hstop : s.mayRun a = false := by simp [State.mayRun, hactive, ha]
    refine ⟨issue_of_stopped hstop, resume_of_stopped hstop, hostAccess_of_stopped hstop, fun addr bytes => ?_⟩
    simp [perform, State.mayAccess, hstop]

end Sys2Proof.Machine
end

section
/-! PROOF of `PowerOnState`: the reset values are the fields of `State.powerOn`, and each invariant holds of them. -/

namespace Sys2Proof.Machine

/-- A bit that reset clears (40_mmio_registers.md R202, 10_state.md R35 to R48). -/
theorem getLsbD_clear_bit (v : Word) {k : Nat} (hk : k < 32) : (v &&& ~~~(bit k)).getLsbD k = false := by
  rw [BitVec.getLsbD_and, BitVec.getLsbD_not, getLsbD_bit k hk]
  simp

/-- The low bits that a ring base does not have (10_state.md R45). -/
theorem extractLsb'_ringBase (v : Word) : (v &&& 0xFFFFFFF0#32).extractLsb' 0 4 = 0#4 := by
  have hmask : (0xFFFFFFF0#32).extractLsb' 0 4 = 0#4 := by decide
  rw [BitVec.extractLsb'_and, hmask, BitVec.and_zero]

section PowerOn
variable (p : Params) (free : Half) (d : PowerOn)

theorem work_powerOn (a : HostAgent) : (State.powerOn p free d).work a = [] := by cases a <;> rfl

theorem regObj_powerOn (r : Reg) : (State.powerOn p free d).regObj r = RegObj.empty := PerReg.get_const _ r

/-- The registers after power-on are those of a device reset with the draws of power-on (70_reset_and_hazards.md R490, R491). -/
theorem deviceInv_powerOn : (State.powerOn p free d).DeviceInv where
  rst := getLsbD_clear_bit d.ctrl (by decide)
  causes := BitVec.zero_and
  rdbal := mask_and_eq_zero _
  tdbal := mask_and_eq_zero _
  rdlen := BitVec.zero_and
  tdlen := BitVec.zero_and
  rdh := BitVec.zero_and
  rdt := BitVec.zero_and
  tdh := BitVec.zero_and
  tdt := BitVec.zero_and
  rah0 := by
    refine or_and_eq_zero (by decide) (and_eq_zero_of_lt ?_)
    rw [BitVec.toNat_setWidth]
    exact Nat.lt_of_le_of_lt (Nat.mod_le _ _) (BitVec.isLt _)
  link := rfl
  fifo := Nat.zero_le _
  eeprom := nofun
  eeAddr _ := (by decide : (0#14).toNat < 256)

/-- No cause is pending and none is enabled, so the line is low (46_dma_sequencer.md R433). -/
theorem irq_powerOn : (State.powerOn p free d).irq = false := (by decide : (0#32 &&& 0#32 != 0#32) = false)

theorem mapperInv_powerOn : (State.powerOn p free d).MapperInv := fun r => by
  rw [regObj_powerOn]
  exact RegObj.inv_empty

theorem driverInv_powerOn : (State.powerOn p free d).DriverInv := ⟨fun _ => rfl, rfl, rfl, rfl, rfl, rfl⟩

/-- The bounds need rings that are not empty (00_scope.md R9). -/
theorem ringInv_powerOn (hp : p.wf = true) : (State.powerOn p free d).RingInv := by
  obtain ⟨htx, hrx⟩ : 0 < p.nTx ∧ 0 < p.nRx := by
    simp only [Params.wf, Bool.and_eq_true, decide_eq_true_eq] at hp
    omega
  refine ⟨htx, htx, hrx, hrx, fun a t n hm => ?_, Nat.zero_le _⟩
  rw [work_powerOn] at hm
  cases hm

end PowerOn

/-- Settles O56: the values by the definition of power-on, the invariants one by one. -/
theorem powerOnState : Obligations.PowerOnState := by
  intro p free d
  refine ⟨⟨getLsbD_clear_bit d.ctrl (by decide), rfl, rfl, rfl, getLsbD_clear_bit d.tctl (by decide), extractLsb'_ringBase _,
      extractLsb'_ringBase _, rfl, rfl, rfl, rfl, rfl, rfl, rfl, rfl⟩,
    ⟨rfl, rfl, rfl, rfl, irq_powerOn p free d, rfl, rfl, rfl⟩, ?_,
    ⟨rfl, rfl, rfl, rfl, regObj_powerOn p free d, work_powerOn p free d⟩, rfl,
    deviceInv_powerOn p free d, mapperInv_powerOn p free d, driverInv_powerOn p free d, ringInv_powerOn p free d⟩
  exact ⟨rfl, rfl, rfl, rfl, rfl, rfl, rfl, rfl, rfl, rfl, rfl, rfl, rfl, rfl, rfl, rfl, rfl, rfl, rfl, rfl, rfl, rfl⟩

end Sys2Proof.Machine
end
